-- ==== Sys2Proof/Word.lean ====
section
/-! DEFINITION. The smallest unit of the EN-4120's ring: the byte (11_frame_and_record_layouts.md). -/

namespace Sys2Proof

/-- One byte of a ring frame or of an image. -/
abbrev Byte := BitVec 8

end Sys2Proof
end

