-- ==== Sys2Proof/Config.lean ====
section
/-! DEFINITION. What is fixed in the part, and the free values: what the spec leaves open.
A free value is an opaque constant; no proof can see which value it is. -/

namespace Sys2Proof

namespace Config

/-- R181: the vendor code of the identity record. -/
def vendorCode : Nat := 217

/-- R181: the part code of the identity record. -/
def partCode : Nat := 4120

/-- R181: the revision of the identity record. -/
def revision : Nat := 2

/-- R181, 9.1: the part's fixed ring address. -/
def ringAddress : Nat := 1

/-- Free value (log entries 4 and 5). DESIGN CHOICE: the spec gives no order among events due at one moment, nor
among the lanes that ask for the last places on the return belt when the run state leaves ESTOP. The n-th choice
drawn picks the due event at this index, taken modulo their number; the lanes are sorted by this number. -/
opaque freeChoice : Nat → Nat

/-- Free value (log entry 6). DESIGN CHOICE: 11.7 to 11.9 give time-left items in whole units and do
not say how a time between two multiples is rounded: up where this holds of the unit and the time
left (both in 10 µs), down elsewhere. -/
opaque roundsUp : Nat → Nat → Bool

end Config

end Sys2Proof
end

