-- ==== Sys2Proof/Syntax.lean ====
section
/-! DEFINITION. The commands: one constructor for each row of spec/opcode_table.json, with the row's
operands. A request row has no operand of its own: it is the event in which the Request Unit takes the
oldest request of its buffer (R168), whose bytes a REQUEST_FRAME put there (log entry 1). -/

namespace Sys2Proof

/-- The header of a received frame beside its KIND and LEN (11.1). -/
structure Header where
  dest : Byte
  src : Byte
  tag : Byte
  deriving DecidableEq, Repr

/-- A ring frame (11.1). LEN is the length of the payload, and the check is computed (R183). -/
structure Frame where
  dest : Byte
  src : Byte
  kind : Byte
  tag : Byte
  payload : List Byte
  deriving DecidableEq, Repr

inductive Instr where
  /-- R182: application of supplies. -/
  | powerOn
  /-- R178: a low pulse on RESET. -/
  | resetLinePulse
  /-- R167: the reset time ends. -/
  | partReady
  /-- R158: bytes received up to an idle gap that fail reception. -/
  | receptionFailure (bytes : List Byte)
  /-- R159 row 1. -/
  | ownFrameStrip (frame : Frame)
  /-- R159 row 4. -/
  | forwardedFrame (frame : Frame)
  /-- R160: a consumed frame that is ignored. -/
  | unreceivedKindFrame (frame : Frame)
  | gateEye (header : Header)
  | inductEntryEye (header : Header)
  | returnHeadEye (header : Header)
  | willcallExitEye (header : Header)
  | laneEntryEye (header : Header)
  | willcallEntryEye (header : Header)
  | mergeApproachEye (header : Header)
  /-- A TAG frame and the 16-bit value of its payload. -/
  | tag (header : Header) (value : BitVec 16)
  | noread (header : Header)
  | empty (header : Header)
  | taken (header : Header)
  | returnButton (header : Header)
  | removed (header : Header)
  | estopPressed (header : Header)
  | estopReleased (header : Header)
  | stationUp (header : Header)
  /-- R168: a REQUEST frame, its payload the request code and the arguments. -/
  | requestFrame (header : Header) (payload : List Byte)
  | unknownRequest
  | bindOrder
  | addTote
  | cancelOrder
  | dropTote
  | writeOrder
  | readOrder
  | readTote
  | readLane
  | readWillcall
  | readEntry
  | readEntryReaderStatus
  | writeEntryGate
  | writeEntryLane
  | writeEntryBandStaging
  | writeEntryInduct
  | writeEntrySite
  | writeEntryDrive
  | writeEntryThrottle
  | writeEntryReadOnlyTable
  | commitBands
  | controlStart
  | controlHalt
  | controlEstop
  | controlClearEstop
  | controlThrottleNow
  | controlLock
  | controlServiceOpen
  | controlServiceClose
  | controlRestart
  | restoreLane
  | clearLane
  | laneEditRemove
  | laneEditIdentify
  | readFlags
  | clearFlags
  | setNoticeMask
  | readIdentity
  | transmissionEnd
  /-- R50, R53: the window timer of the reader with this index (section 3.1) expires. -/
  | readWindowExpiry (reader : Fin 34)
  | scanIntervalExpiry (lane : Fin 12)
  /-- R88: the confirm timer of the tote with this tag in the lane's incoming list expires. -/
  | confirmExpiry (lane : Fin 12) (tote : Nat)
  | willcallConfirmExpiry (tote : Nat)
  | advanceLimitExpiry (lane : Fin 12)
  | unattendedExpiry (lane : Fin 12)
  /-- R101: the collect timer of the order with this ticket expires. -/
  | collectExpiry (ticket : Nat)
  /-- R78: the deadline of the tote with this tag expires. -/
  | deadlineExpiry (tote : Nat)
  | mergeHoldExpiry
  | samplingWindowExpiry
  | monitorWindowExpiry
  | haltTimerExpiry
  | startDelayExpiry
  | idleExpiry
  | stopDelayExpiry
  | controlUndefinedOperation
  | writeEntryUndefinedTable
  deriving DecidableEq, Repr

end Sys2Proof
end

