-- ==== Sys2Proof/Decode.lean ====
section
/-! DEFINITION. The table's rows give no bits, so no word spells a command. The byte form of a ring
frame (11.1) and its check (R183) stand here: the frame's bytes, and the reading of received bytes. -/

namespace Sys2Proof

/-- No row of spec/opcode_table.json gives bits: a word spells no command. -/
def decodeTableWord (_nbits _w : Nat) : Option Instr := none

/-- R183: one bit of the cyclic code with generator x^16 + x^12 + x^5 + 1. -/
def crcBit (r : BitVec 16) : BitVec 16 :=
  if r.msb then (r <<< 1) ^^^ 0x1021#16 else r <<< 1

/-- R183: eight bits, most significant first. -/
def crcByte (r : BitVec 16) (b : Byte) : BitVec 16 :=
  Nat.repeat crcBit 8 (r ^^^ (b.setWidth 16 <<< 8))

/-- R183: the code register after some bytes. -/
def crcFrom (r : BitVec 16) (bytes : List Byte) : BitVec 16 := bytes.foldl crcByte r

/-- R183: the check over some bytes; the register is preset to FFFFh and not inverted at the end. -/
def crc (bytes : List Byte) : BitVec 16 := crcFrom 0xFFFF#16 bytes

/-- The two bytes of a 16-bit value, most significant first (chapter 11). -/
def bytes16 (w : BitVec 16) : List Byte := [w.extractLsb' 8 8, w.extractLsb' 0 8]

/-- DEST through the last payload byte (11.1), the bytes the check is taken over. -/
def Frame.body (f : Frame) : List Byte :=
  [f.dest, f.src, f.kind, f.tag, BitVec.ofNat 8 f.payload.length] ++ f.payload

/-- R157: the check of a frame. -/
def Frame.check (f : Frame) : BitVec 16 := crc f.body

/-- The whole frame as it stands on the line (11.1). -/
def Frame.bytes (f : Frame) : List Byte := f.body ++ bytes16 f.check

/-- R158: the frame that received bytes hold, or none where they fail reception: fewer than 7 bytes,
a byte count other than 7 + LEN, LEN above 32, DEST 0 or a wrong check. A run past 39 bytes has a
wrong byte count for every LEN up to 32. -/
def frameOfBytes (bytes : List Byte) : Option Frame :=
  match bytes with
  | dest :: src :: kind :: tag :: len :: rest =>
    let f : Frame := ⟨dest, src, kind, tag, rest.take len.toNat⟩
    if rest.length = len.toNat + 2 ∧ len.toNat ≤ 32 ∧ dest ≠ 0 ∧ rest.drop len.toNat = bytes16 f.check then
      some f
    else
      none
  | _ => none

end Sys2Proof
end

