-- ==== Sys2Proof/Machine/State.lean ====
section
/-! DEFINITION. Everything the spec gives the part, as plain data, and the state after power-on.
Each field's docstring names the rule; INVENTORY.md lists all of them with their reset values. -/

namespace Sys2Proof.Machine

/-- A moment or a span on the model's clock, in units of 10 µs: one byte time at RING OUT (9.1). -/
abbrev Time := Nat

abbrev LaneIx := Fin 12
abbrev GateIx := Fin 16
abbrev InductIx := Fin 4
abbrev BandIx := Fin 8
/-- The index of a reader in the reader status table (section 3.1). -/
abbrev ReaderIx := Fin 34
/-- A slot of the Tote Table, and of the Order Table. -/
abbrev ToteSlot := Nat
abbrev OrderSlot := Nat

/-! ## Configuration tables -/

inductive GateKind where
  | lap | lane | willcall | track
  deriving DecidableEq, Repr

/-- R62: an entry of the gate table. -/
structure GateEntry where
  present : Bool
  kind : GateKind
  lane : LaneIx
  station : Nat
  /-- in ms -/
  decisionWindow : Nat
  /-- in 100 ms -/
  transitLimit : Nat
  discardFirst : Bool
  deriving DecidableEq, Repr

inductive UnattendedAction where
  | lamp | autoReturn
  deriving DecidableEq, Repr

/-- R29: an entry of the lane table. A lane is present when its capacity is not 0. -/
structure LaneEntry where
  capacity : Nat
  take : Bool
  give : Bool
  alternate : Option LaneIx
  station : Nat
  /-- in ms -/
  confirmLimit : Nat
  /-- in ms -/
  scanInterval : Nat
  /-- in ms -/
  advanceLimit : Nat
  /-- in s -/
  unattendedInterval : Nat
  unattendedAction : UnattendedAction
  discardFirst : Bool
  deriving DecidableEq, Repr

inductive AssignMethod where
  | fixed | spread
  deriving DecidableEq, Repr

/-- R23: an entry of the band table, either copy. Lane L is bit L of the lane set (11.7). -/
structure BandEntry where
  upper : Nat
  laneSet : BitVec 12
  method : AssignMethod
  /-- in min -/
  collectInterval : Nat
  deriving DecidableEq, Repr

/-- R124: an entry of the induct table. -/
structure InductEntry where
  present : Bool
  station : Nat
  /-- in 100 ms -/
  transitLimit : Nat
  discardFirst : Bool
  deriving DecidableEq, Repr

/-- R173: the site record. -/
structure SiteRecord where
  willcallCapacity : Nat
  willcallStation : Nat
  returnStation : Nat
  /-- in 100 ms -/
  returnTransitLimit : Nat
  mergeStation : Nat
  /-- in ms -/
  mergeGap : Nat
  lapLimit : Nat
  refusalLimit : Nat
  lostLimit : Nat
  /-- in s -/
  haltTimeout : Nat
  /-- in ms -/
  willcallConfirmLimit : Nat
  discardFirst : Bool
  deriving DecidableEq, Repr

/-- R152: the drive record. -/
structure DriveRecord where
  station : Nat
  /-- in s -/
  idleInterval : Nat
  /-- in ms -/
  startDelay : Nat
  /-- in ms -/
  stopDelay : Nat
  deriving DecidableEq, Repr

inductive ThrottleMode where
  | none | monitor | count | load | countLoad
  deriving DecidableEq, Repr

/-- R137: the throttle profile. -/
structure ThrottleProfile where
  mode : ThrottleMode
  /-- in s -/
  samplingWindow : Nat
  threshold : Nat
  duration : Nat
  /-- in 100 ms -/
  monitorWindow : Nat
  windowMax : Nat
  loadMark : Nat
  deriving DecidableEq, Repr

/-- Every table a WRITE-ENTRY or COMMIT-BANDS writes; all of them are kept through a warm start. -/
structure Tables where
  gates : Vector GateEntry 16
  lanes : Vector LaneEntry 12
  bandActive : Vector BandEntry 8
  bandStaging : Vector BandEntry 8
  inducts : Vector InductEntry 4
  site : SiteRecord
  drive : DriveRecord
  throttle : ThrottleProfile
  deriving DecidableEq, Repr

/-! ## Orders and totes -/

/-- R4: why an order is in WILLCALL. -/
inductive Reason where
  | unbanded | oversize | lapped | refused | expired | cancelled
  deriving DecidableEq, Repr

/-- R2, R3: the order state; the lane is present in ROUTED and READY, the reason in WILLCALL. -/
inductive OrderState where
  | unassigned
  | routed (lane : LaneIx)
  | ready (lane : LaneIx)
  | willcall (reason : Reason)
  deriving DecidableEq, Repr

/-- R2: an order record. -/
structure Order where
  ticket : Nat
  total : Nat
  priority : Nat
  band : Option BandIx
  state : OrderState
  released : Bool
  done : Nat
  live : Nat
  deriving DecidableEq, Repr

/-- R9: the one place the part holds a tote in. -/
inductive Location where
  | unplaced
  | induct (i : InductIx)
  | loop
  | incoming (l : LaneIx)
  | lane (l : LaneIx)
  | returnBelt
  | willcallIncoming
  | willcall
  deriving DecidableEq, Repr

/-- R10, R78: a loop tote's status in the transit watch. -/
inductive Sighting where
  | seen
  | unseen (misses : Nat)
  | lost
  deriving DecidableEq, Repr

/-- R77: a deadline, its expiry and the gate the tote is next expected at. -/
structure Deadline where
  expiry : Time
  target : GateIx
  deriving DecidableEq, Repr

/-- R12: the outcome of a decision at a destination gate. -/
inductive Outcome where
  | diverted | redirected | refusedFull | refusedTake | refusedClosed
  deriving DecidableEq, Repr

/-- R12: an entry of a trail. -/
structure TrailEntry where
  gate : GateIx
  outcome : Outcome
  deriving DecidableEq, Repr

/-- R8: a tote record. The trail is oldest first. -/
structure Tote where
  tag : Nat
  order : OrderSlot
  part : Nat
  location : Location
  sighting : Option Sighting
  lastGate : Option GateIx
  deadline : Option Deadline
  laps : Nat
  trail : List TrailEntry
  deriving DecidableEq, Repr

/-! ## Readers -/

inductive Cycle where
  | idle | opened | wait
  deriving DecidableEq, Repr

/-- A reader's result (R45). -/
inductive ReadResult where
  | tag (t : Nat)
  | noread
  | empty
  | none
  deriving DecidableEq, Repr

/-- R45: a reader's last result and whether the fresh mark had it delivered as NONE. -/
structure LastResult where
  result : ReadResult
  discarded : Bool
  deriving DecidableEq, Repr

/-- R45: the state of one reader. A timer is its expiry time, or none while stopped. -/
structure Reader where
  cycle : Cycle
  window : Option Time
  scanPending : Bool
  scanTimer : Option Time
  fresh : Bool
  crowded : Bool
  last : Option LastResult
  deriving DecidableEq, Repr

/-! ## Lanes -/

inductive LaneState where
  | unsurveyed | opened
  deriving DecidableEq, Repr

inductive Window where
  | empty | advancing | presented | held
  deriving DecidableEq, Repr

/-- R84: an entry of a lane queue. -/
inductive QueueEntry where
  | known (tote : ToteSlot)
  | unknown (noted : Option Nat)
  deriving DecidableEq, Repr

/-- R84, R116: an entry of an incoming list, with its confirm timer. -/
structure Incoming where
  tote : ToteSlot
  confirm : Option Time
  deriving DecidableEq, Repr

/-- R84: a tote at the window that is not entry 0. -/
inductive Foreign where
  | tag (t : Nat)
  | unread
  deriving DecidableEq, Repr

/-- R84: a member of the ready list, with its collect timer. -/
structure ReadyEntry where
  order : OrderSlot
  collect : Time
  deriving DecidableEq, Repr

/-- R106: the unattended timer. -/
inductive Unattended where
  | stopped
  | running (expiry : Time)
  | expired
  deriving DecidableEq, Repr

/-- R104: the lamp patterns. -/
inductive Lamp where
  | off | steady | slow | attention
  deriving DecidableEq, Repr

/-- R31, R84: what a Lane Controller keeps for its lane. The reservation book and the figures of R32
are derived from the tables and these lists (log entry 26). -/
structure Lane where
  state : LaneState
  queue : List QueueEntry
  incoming : List Incoming
  window : Window
  advance : Option Time
  foreign : Option Foreign
  emptyScans : Nat
  ready : List ReadyEntry
  unattended : Unattended
  attention : Bool
  lamp : Lamp
  display : List Nat
  deriving DecidableEq, Repr

/-! ## Will-call, merge, throttle, drive, run control -/

/-- R116: an entry of the will-call list, and when it was confirmed (R175). -/
structure Stay where
  tote : ToteSlot
  since : Time
  deriving DecidableEq, Repr

/-- R116: the Will-Call Controller. -/
structure WillCall where
  incoming : List Incoming
  list : List Stay
  deriving DecidableEq, Repr

/-- R125: an entry of an induct queue; a tag of none is the unread mark, a tote of none a stray entry. -/
structure InductItem where
  tag : Option Nat
  tote : Option ToteSlot
  deriving DecidableEq, Repr

/-- R110: the return-belt head. -/
inductive BeltHead where
  | absent
  | known (tote : ToteSlot)
  | unnamed
  deriving DecidableEq, Repr

/-- R110, R125, R131, R132: the Induct and Merge Unit but for the throttle. The return-belt set is the
tote records located RETURN-BELT. -/
structure Merge where
  queues : Vector (List InductItem) 4
  head : BeltHead
  hold : Option Time
  pointer : InductIx
  deriving DecidableEq, Repr

/-- R138, R139: the throttle. -/
structure Throttle where
  throttled : Bool
  windowsLeft : Nat
  monitorTimer : Option Time
  monitorCount : Nat
  samplingTimer : Option Time
  samplingCount : Nat
  deriving DecidableEq, Repr

inductive DriveState where
  | off | starting | running | stopping | resting
  deriving DecidableEq, Repr

/-- R152: the Loop Drive Controller. -/
structure Drive where
  state : DriveState
  idle : Option Time
  delay : Option Time
  wakePending : Bool
  deriving DecidableEq, Repr

inductive RunState where
  | stopped | running | halting | estop
  deriving DecidableEq, Repr

/-- R143, R149: Run Control. Address a is bit a of the holder set (11.4). -/
structure RunControl where
  state : RunState
  haltTimer : Option Time
  holders : BitVec 64
  deriving DecidableEq, Repr

/-! ## The Ring Port and the Request Unit -/

/-- A frame in transmission at RING OUT and the time at which RING OUT is free again (R164). -/
structure Transmission where
  frame : Frame
  ends : Time
  deriving DecidableEq, Repr

/-- R159, R162, R164, R167: the Ring Port. -/
structure RingPort where
  forward : List Frame
  urgent : List Frame
  routine : List Frame
  waitCount : Nat
  /-- the bytes of a frame in reception; the table's commands are whole receptions (log entry 28) -/
  reception : List Byte
  transmission : Option Transmission
  /-- the end of the idle gap that a reset leaves after the frame it cut off, or after one whose gap still
  ran; none while no such gap runs (R164, R167; log entry 44) -/
  gap : Option Time
  /-- RING IN is read: the reset time has ended (R167) -/
  ready : Bool
  /-- the latest end of the reset time (00_scope.md section 6; log entry 10) -/
  readyBy : Time
  /-- frames handed to the port in the event under way, in order; empty between events (log entry 8) -/
  outbox : List Frame
  deriving DecidableEq, Repr

/-- R168: a request in the request buffer; its payload is the request code and the arguments. -/
structure Request where
  tag : Byte
  payload : List Byte
  malformed : Bool
  deriving DecidableEq, Repr

/-- R168, R176, R177, R179, R180: the Request Unit. Flag n is bit n (11.5). -/
structure RequestUnit where
  buffer : List Request
  lock : Bool
  service : Bool
  flags : BitVec 20
  mask : BitVec 20
  deriving DecidableEq, Repr

/-! ## The state -/

structure State where
  /-- commands that wait, first in first out -/
  pending : List Instr
  /-- the model's clock (log entry 2) -/
  now : Time
  /-- how many free choices have been drawn (log entry 4) -/
  choices : Nat
  cfg : Tables
  ring : RingPort
  req : RequestUnit
  orders : List (OrderSlot × Order)
  totes : List (ToteSlot × Tote)
  readers : Vector Reader 34
  lanes : Vector Lane 12
  willcall : WillCall
  merge : Merge
  throttle : Throttle
  drive : Drive
  run : RunControl
  deriving DecidableEq, Repr

/-- R62 [PO]. -/
def GateEntry.powerOn : GateEntry := ⟨false, .track, 0, 3, 120, 80, true⟩

/-- R29 [PO]. -/
def LaneEntry.powerOn : LaneEntry := ⟨0, true, true, none, 3, 1500, 1000, 3000, 120, .lamp, true⟩

/-- R23 [PO]. -/
def BandEntry.powerOn : BandEntry := ⟨9999, 0, .fixed, 20⟩

/-- R124 [PO]. -/
def InductEntry.powerOn : InductEntry := ⟨false, 3, 50, true⟩

/-- R173 [PO]. -/
def SiteRecord.powerOn : SiteRecord := ⟨24, 3, 3, 50, 3, 800, 6, 3, 2, 300, 1500, true⟩

/-- R152 [PO]. -/
def DriveRecord.powerOn : DriveRecord := ⟨3, 600, 2000, 1500⟩

/-- R137 [PO]. -/
def ThrottleProfile.powerOn : ThrottleProfile := ⟨.none, 60, 120, 2, 50, 4, 40⟩

/-- The configuration after power-on. -/
def Tables.powerOn : Tables where
  gates := Vector.replicate 16 .powerOn
  lanes := Vector.replicate 12 .powerOn
  bandActive := Vector.replicate 8 .powerOn
  bandStaging := Vector.replicate 8 .powerOn
  inducts := Vector.replicate 4 .powerOn
  site := .powerOn
  drive := .powerOn
  throttle := .powerOn

/-- R61: a reader after either reset. -/
def Reader.reset : Reader := ⟨.idle, none, false, none, true, false, none⟩

/-- R43, R109: a lane after either reset, and an UNSURVEYED lane. -/
def Lane.reset : Lane :=
  ⟨.unsurveyed, [], [], .held, none, none, 0, [], .stopped, false, .off, []⟩

/-- R142 and R123: the merge after either reset. -/
def Merge.reset : Merge := ⟨Vector.replicate 4 [], .absent, none, 3⟩

/-- R142: the throttle after either reset. -/
def Throttle.reset : Throttle := ⟨false, 0, none, 0, none, 0⟩

/-- R156: the drive after either reset. -/
def Drive.reset : Drive := ⟨.off, none, none, false⟩

/-- R156: run control after either reset. -/
def RunControl.reset : RunControl := ⟨.stopped, none, 0⟩

/-- The part right after power-on. R167: the queues are empty and RING OUT is idle; R182: START-POWER
alone is set and one NOTICE with it is handed over, which begins transmission at once (R164; log
entries 7 and 11): 10 bytes and the gap of two byte times. -/
def State.reset : State where
  pending := []
  now := 0
  choices := 0
  cfg := .powerOn
  ring :=
    { forward := [], urgent := [], routine := [], waitCount := 0, reception := []
      transmission := some ⟨⟨0x02#8, 0x01#8, 0x22#8, 0x00#8, [0x00#8, 0x00#8, 0x01#8]⟩, 12⟩
      gap := none, ready := false, readyBy := 5000, outbox := [] }
  req := ⟨[], false, false, 0x00001#20, 0xFFFFF#20⟩
  orders := []
  totes := []
  readers := Vector.replicate 34 .reset
  lanes := Vector.replicate 12 .reset
  willcall := ⟨[], []⟩
  merge := .reset
  throttle := .reset
  drive := .reset
  run := .reset

/-- The part never stops: every anomaly sets an event flag and goes on (R179). There is no fault. -/
inductive Fault where
  deriving DecidableEq, Repr

/-- Reasons to give a command no meaning. -/
inductive Refusal where
  /-- A command whose meaning has not been written, named by its row of the table. No arm of exec
  raises it. Safe: nothing can be proved of a run that stops here. -/
  | notModelled (mnemonic : String)
  deriving DecidableEq, Repr

end Sys2Proof.Machine
end

