-- ==== Sys2Proof/Machine/Flags.lean ====
section
/-! DEFINITION. The event flags (10.6, 11.5): their numbers, raising one, and the rises of an event. -/

namespace Sys2Proof.Machine

/-- The 20 event flags, in the order of their numbers (11.5). -/
inductive Flag where
  | startPower | startLine | startRequest | frameCheck | forwardDrop | txOverrun | lockedWrite
  | strayTote | toteLost | bladeMiss | readCrowded | willcallFull | returnFull | laneAttention
  | overbooked | orderToWillcall | inductOverfill | throttle | haltTimeout | estop
  deriving DecidableEq, Repr

/-- 11.5: the number of a flag. -/
def Flag.bit (f : Flag) : Nat :=
  match f with
  | .startPower => 0
  | .startLine => 1
  | .startRequest => 2
  | .frameCheck => 3
  | .forwardDrop => 4
  | .txOverrun => 5
  | .lockedWrite => 6
  | .strayTote => 7
  | .toteLost => 8
  | .bladeMiss => 9
  | .readCrowded => 10
  | .willcallFull => 11
  | .returnFull => 12
  | .laneAttention => 13
  | .overbooked => 14
  | .orderToWillcall => 15
  | .inductOverfill => 16
  | .throttle => 17
  | .haltTimeout => 18
  | .estop => 19

/-- The flag set that holds one flag alone. -/
def Flag.only (f : Flag) : BitVec 20 := 1#20 <<< f.bit

/-- A flag is set in a flag set. -/
def Flag.isIn (f : Flag) (flags : BitVec 20) : Bool := flags.getLsbD f.bit

/-- R179: a raise sets the flag, whatever the notice mask holds. -/
def State.raise (s : State) (f : Flag) : State :=
  { s with req := { s.req with flags := s.req.flags ||| f.only } }

/-- Raise a flag where a condition holds. -/
def State.raiseIf (s : State) (b : Bool) (f : Flag) : State := if b then s.raise f else s

/-- R180: the enabled flags that an event took from clear (in `before`) to set. -/
def enabledRises (before : BitVec 20) (s : State) : BitVec 20 :=
  s.req.flags &&& ~~~before &&& s.req.mask

end Sys2Proof.Machine
end

