-- ==== Sys2Proof/Machine/Ops.lean ====
section
/-! DEFINITION. The named operations over the state that every block uses: table rows, slot tables,
order and tote records, times, lane figures, and the handing of frames to the Ring Port. -/

namespace Sys2Proof.Machine

/-! ## Times (the clock counts 10 µs) -/

def milliseconds (n : Nat) : Time := n * 100
def tenths (n : Nat) : Time := n * 10000
def seconds (n : Nat) : Time := n * 100000
def minutes (n : Nat) : Time := n * 6000000

/-- The clock moves on to a timer's expiry, and never back (log entry 3). -/
def State.advanceTo (s : State) (t : Time) : State := { s with now := max s.now t }

/-! ## Rows of a table of fixed size -/

def row {α : Type} {n : Nat} (v : Vector α n) (i : Fin n) : α := v[i]

def setRow {α : Type} {n : Nat} (v : Vector α n) (i : Fin n) (x : α) : Vector α n := v.set i x i.isLt

/-- All indices of a table in rising order. -/
def allLanes : List LaneIx := [0, 1, 2, 3, 4, 5, 6, 7, 8, 9, 10, 11]
def allGates : List GateIx := [0, 1, 2, 3, 4, 5, 6, 7, 8, 9, 10, 11, 12, 13, 14, 15]
def allInducts : List InductIx := [0, 1, 2, 3]
def allBands : List BandIx := [0, 1, 2, 3, 4, 5, 6, 7]
def allReaders : List ReaderIx := List.finRange 34

/-! ## Slot tables: lists of (slot, record), slots strictly rising -/

def slotGet {α : Type} (k : Nat) (t : List (Nat × α)) : Option α :=
  match t with
  | [] => none
  | (j, x) :: r => if j = k then some x else slotGet k r

/-- Put a record in a slot, in the slot's place in the list. -/
def slotPut {α : Type} (k : Nat) (x : α) (t : List (Nat × α)) : List (Nat × α) :=
  match t with
  | [] => [(k, x)]
  | (j, y) :: r => if k < j then (k, x) :: (j, y) :: r else if k = j then (k, x) :: r else (j, y) :: slotPut k x r

def slotFree {α : Type} (k : Nat) (t : List (Nat × α)) : List (Nat × α) := t.filter (fun p => p.1 != k)

/-- The lowest slot from n on that a list with rising slots leaves free. -/
def lowestFreeFrom {α : Type} (n : Nat) (t : List (Nat × α)) : Nat :=
  match t with
  | [] => n
  | (j, _) :: r => if j = n then lowestFreeFrom (n + 1) r else n

/-- R1, R8: the lowest-numbered free slot. -/
def lowestFree {α : Type} (t : List (Nat × α)) : Nat := lowestFreeFrom 0 t

/-- The canonical form of a slot table: slots strictly rising and below the table's size. -/
abbrev Slots.wf {α : Type} (size : Nat) (t : List (Nat × α)) : Prop :=
  (t.map (·.1)).Pairwise (· < ·) ∧ ∀ p ∈ t, p.1 < size

/-! ## Order and tote records -/

def State.order? (s : State) (o : OrderSlot) : Option Order := slotGet o s.orders
def State.tote? (s : State) (t : ToteSlot) : Option Tote := slotGet t s.totes

def State.putOrder (s : State) (k : OrderSlot) (o : Order) : State :=
  { s with orders := slotPut k o s.orders }

def State.putTote (s : State) (k : ToteSlot) (t : Tote) : State :=
  { s with totes := slotPut k t s.totes }

def State.modOrder (s : State) (k : OrderSlot) (f : Order → Order) : State :=
  match s.order? k with
  | some o => s.putOrder k (f o)
  | none => s

def State.modTote (s : State) (k : ToteSlot) (f : Tote → Tote) : State :=
  match s.tote? k with
  | some t => s.putTote k (f t)
  | none => s

/-- Change every tote record. -/
def State.mapTotes (s : State) (f : Tote → Tote) : State :=
  { s with totes := s.totes.map (fun p => (p.1, f p.2)) }

/-- R1: the live order that a ticket names. -/
def State.findOrder (s : State) (ticket : Nat) : Option (OrderSlot × Order) :=
  s.orders.find? (fun p => p.2.ticket == ticket)

/-- R8: the tote record that a tag names. -/
def State.findTote (s : State) (tag : Nat) : Option (ToteSlot × Tote) :=
  s.totes.find? (fun p => p.2.tag == tag)

/-- The tag of the tote in a slot, 0 where the slot is free (log entry 31). -/
def State.tagOf (s : State) (k : ToteSlot) : Nat :=
  match s.tote? k with
  | some t => t.tag
  | none => 0

/-- The ticket of the order in a slot, 0 where the slot is free (log entry 31). -/
def State.ticketOf (s : State) (k : OrderSlot) : Nat :=
  match s.order? k with
  | some o => o.ticket
  | none => 0

/-- Section 1.3: total less done count. -/
def Order.remaining (o : Order) : Nat := o.total - o.done

/-- Section 1.3: remaining less live count. -/
def Order.unadded (o : Order) : Nat := o.remaining - o.live

/-- R32: the order is ROUTED or READY with this lane, so it stands in the lane's book. -/
def Order.assignedTo (o : Order) (l : LaneIx) : Bool :=
  match o.state with
  | .routed m => m == l
  | .ready m => m == l
  | .unassigned => false
  | .willcall _ => false

/-- The live totes of an order, in slot order. -/
def State.totesOf (s : State) (o : OrderSlot) : List (ToteSlot × Tote) :=
  s.totes.filter (fun p => p.2.order == o)

/-- R9: the number of records located LOOP, whatever their sighting. -/
def State.loopOccupancy (s : State) : Nat := (s.totes.filter (fun p => p.2.location == .loop)).length

/-- R110: the number of members of the return-belt set. -/
def State.beltCount (s : State) : Nat := (s.totes.filter (fun p => p.2.location == .returnBelt)).length

/-- R111: room for one more member. -/
def State.beltRoom (s : State) : Bool := s.beltCount < 6

/-- R110: the return belt is empty when the set has no member and the head is ABSENT. -/
def State.beltEmpty (s : State) : Bool := s.beltCount == 0 && s.merge.head == .absent

/-- R116: the will-call count. -/
def State.willcallCount (s : State) : Nat := s.willcall.list.length + s.willcall.incoming.length

/-! ## Lanes, readers, configuration -/

def State.lane (s : State) (l : LaneIx) : Lane := row s.lanes l
def State.laneCfg (s : State) (l : LaneIx) : LaneEntry := row s.cfg.lanes l
def State.gateCfg (s : State) (g : GateIx) : GateEntry := row s.cfg.gates g
def State.inductCfg (s : State) (i : InductIx) : InductEntry := row s.cfg.inducts i
def State.reader (s : State) (r : ReaderIx) : Reader := row s.readers r
def State.queue (s : State) (i : InductIx) : List InductItem := row s.merge.queues i

def State.putLane (s : State) (l : LaneIx) (x : Lane) : State := { s with lanes := setRow s.lanes l x }
def State.modLane (s : State) (l : LaneIx) (f : Lane → Lane) : State := s.putLane l (f (s.lane l))
def State.putReader (s : State) (r : ReaderIx) (x : Reader) : State := { s with readers := setRow s.readers r x }
def State.putQueue (s : State) (i : InductIx) (q : List InductItem) : State :=
  { s with merge := { s.merge with queues := setRow s.merge.queues i q } }

/-- R29: a lane is present when its capacity is 2-8, absent when it is 0. -/
def LaneEntry.present (e : LaneEntry) : Bool := e.capacity != 0

def State.lanePresent (s : State) (l : LaneIx) : Bool := (s.laneCfg l).present
def State.laneOpen (s : State) (l : LaneIx) : Bool := (s.lane l).state == .opened

/-- R32: the figures of a lane, derived where they are read (log entry 26). -/
def State.occupied (s : State) (l : LaneIx) : Nat := (s.lane l).queue.length
def State.incoming (s : State) (l : LaneIx) : Nat := (s.lane l).incoming.length

/-- R32: the order's totes located LANE(L) or INCOMING(L). -/
def State.toteCountIn (s : State) (o : OrderSlot) (l : LaneIx) : Nat :=
  ((s.totesOf o).filter (fun p => p.2.location == .lane l || p.2.location == .incoming l)).length

/-- R32: an order's share in a lane, never below 0. -/
def State.share (s : State) (k : OrderSlot) (o : Order) (l : LaneIx) : Nat :=
  o.remaining - s.toteCountIn k l

/-- R32: the reservation book of a lane, in slot order. -/
def State.book (s : State) (l : LaneIx) : List (OrderSlot × Order) :=
  s.orders.filter (fun p => p.2.assignedTo l)

def State.reserved (s : State) (l : LaneIx) : Nat :=
  ((s.book l).map (fun p => s.share p.1 p.2 l)).sum

/-- R32: capacity less occupied, incoming and reserved; negative while OVERBOOKED. -/
def State.free (s : State) (l : LaneIx) : Int :=
  (s.laneCfg l).capacity - s.occupied l - s.incoming l - s.reserved l

/-- R34: a lane is OVERBOOKED while free is negative. -/
def State.overbooked (s : State) (l : LaneIx) : Bool :=
  (s.laneCfg l).capacity < s.occupied l + s.incoming l + s.reserved l

/-- Deadlines exist and gate readers serve while the track runs (R77, R44). -/
def State.trackRuns (s : State) : Bool := s.run.state == .running || s.run.state == .halting

/-- R64: the next present gate after g. -/
def State.nextGate (s : State) (g : GateIx) : GateIx :=
  match allGates.find? (fun h => g < h && (s.gateCfg h).present) with
  | some h => h
  | none => (allGates.find? (fun h => (s.gateCfg h).present)).getD g

/-! ## Frames the part sends (R157) -/

namespace Kind
def eye : Byte := 0x01#8
def tag : Byte := 0x02#8
def noread : Byte := 0x03#8
def empty : Byte := 0x04#8
def button : Byte := 0x05#8
def estop : Byte := 0x06#8
def stationUp : Byte := 0x07#8
def blade : Byte := 0x10#8
def stop : Byte := 0x11#8
def chute : Byte := 0x12#8
def drive : Byte := 0x13#8
def lamp : Byte := 0x14#8
def display : Byte := 0x15#8
def scan : Byte := 0x16#8
def request : Byte := 0x20#8
def response : Byte := 0x21#8
def notice : Byte := 0x22#8
end Kind

def byte (n : Nat) : Byte := BitVec.ofNat 8 n

/-- Two bytes, most significant first (chapter 11). -/
def twoBytes (n : Nat) : List Byte := bytes16 (BitVec.ofNat 16 n)

/-- Three bytes of a flag set or mask, read as one 24-bit number (11.5). -/
def maskBytes (m : BitVec 20) : List Byte :=
  let w := m.setWidth 24
  [w.extractLsb' 16 8, w.extractLsb' 8 8, w.extractLsb' 0 8]

/-- R157: a frame of the part's own, SRC 1 and TAG 0. -/
def ownFrame (dest : Nat) (kind : Byte) (payload : List Byte) : Frame :=
  ⟨byte dest, byte Config.ringAddress, kind, 0, payload⟩

def bladeFrame (station : Nat) : Frame := ownFrame station Kind.blade [0x01#8]
def stopFrame (station : Nat) : Frame := ownFrame station Kind.stop [0x01#8]
def chuteFrame (station : Nat) : Frame := ownFrame station Kind.chute []
def driveFrame (station : Nat) (run : Bool) : Frame :=
  ownFrame station Kind.drive [if run then 0x01#8 else 0x02#8]
def scanFrame (station : Nat) : Frame := ownFrame station Kind.scan []
def noticeFrame (flags : BitVec 20) : Frame := ownFrame 2 Kind.notice (maskBytes flags)

/-- 11.2: the code of a lamp pattern. -/
def Lamp.code (l : Lamp) : Byte :=
  match l with
  | .off => 0x00#8
  | .steady => 0x01#8
  | .slow => 0x02#8
  | .attention => 0x03#8

def lampFrame (station : Nat) (l : Lamp) : Frame := ownFrame station Kind.lamp [l.code]

def displayFrame (station : Nat) (tickets : List Nat) : Frame :=
  ownFrame station Kind.display (byte tickets.length :: tickets.flatMap twoBytes)

/-- A block hands a frame to the Ring Port; the port places it when the event ends (log entry 8). -/
def State.hand (s : State) (f : Frame) : State :=
  { s with ring := { s.ring with outbox := s.ring.outbox ++ [f] } }

end Sys2Proof.Machine
end

