-- ==== Sys2Proof/Machine/Operands.lean ====
section
/-! DEFINITION. The bytes of requests and images (chapter 11): arguments, the lengths of 11.3, range checks
of the writable images, and the images that reads return. -/

namespace Sys2Proof.Machine

/-! ## Arguments -/

/-- Byte i of some bytes, 0 past the end. -/
def byteAt (p : List Byte) (i : Nat) : Nat := (p.getD i 0).toNat

/-- The two-byte number at i, most significant byte first. -/
def wordAt (p : List Byte) (i : Nat) : Nat := byteAt p i * 256 + byteAt p (i + 1)

/-- The three-byte mask at i as a 24-bit number (11.5). -/
def maskAt (p : List Byte) (i : Nat) : BitVec 24 :=
  BitVec.ofNat 24 (byteAt p i * 65536 + wordAt p (i + 1))

/-- The request code and the arguments after it. -/
def Request.code (r : Request) : Nat := byteAt r.payload 0
def Request.args (r : Request) : List Byte := r.payload.tail

def isTicket (n : Nat) : Bool := n ≤ 9999
def isTagNumber (n : Nat) : Bool := 1 ≤ n && n ≤ 4095

/-! ## Request lengths (11.3) -/

/-- 11.7: the length of a table's writable image; none for READER-STATUS and undefined tables, which fit
at any length. BAND-ACTIVE fits at the BAND-STAGING length. -/
def imageLength (table : Nat) : Option Nat :=
  match table with
  | 1 => some 9
  | 2 => some 15
  | 3 => some 6
  | 4 => some 6
  | 5 => some 5
  | 6 => some 16
  | 7 => some 7
  | 8 => some 8
  | _ => none

/-- 11.3: the length of a WRITE-ENTRY fits its table. Where any image length fits, the request still has its
table and index bytes (log entry 41). -/
def writeEntryFits (payload : List Byte) : Bool :=
  match imageLength (byteAt payload 1) with
  | some n => payload.length == 3 + n
  | none => 3 ≤ payload.length

/-- 11.3: the LEN of a REQUEST fits its code; an undefined code is answered UNKNOWN whatever its LEN. -/
def requestFits (payload : List Byte) : Bool :=
  let n := payload.length
  match byteAt payload 0 with
  | 0x01 => n == 5
  | 0x02 => n == 6
  | 0x03 => n == 3
  | 0x04 => n == 3
  | 0x05 => 13 ≤ n && n ≤ 31 && n % 3 == 1
  | 0x06 => n == 3
  | 0x07 => n == 3
  | 0x08 => n == 3
  | 0x09 => n == 3
  | 0x0A => n == 3
  | 0x0B => writeEntryFits payload
  | 0x0C => n == 1
  | 0x0D => n == 2
  | 0x0E => 2 ≤ n && n % 2 == 0
  | 0x0F => n == 2
  | 0x10 => n == 6
  | 0x11 => n == 4
  | 0x12 => n == 4
  | 0x13 => n == 4
  | 0x14 => n == 1
  | _ => true

/-! ## Range checks of the writable images (11.7, R172, R184) -/

/-- R172: the number of the first field out of range, counted from n. -/
def firstBad (n : Nat) (checks : List Bool) : Option Nat :=
  match checks with
  | [] => none
  | true :: r => firstBad (n + 1) r
  | false :: _ => some n

def inRange (lo hi n : Nat) : Bool := lo ≤ n && n ≤ hi
def isStation (n : Nat) : Bool := inRange 3 62 n
def isYesNo (n : Nat) : Bool := n ≤ 1

def yes (n : Nat) : Bool := n == 1
def yesNo (b : Bool) : Byte := if b then 0x01#8 else 0x00#8

/-- R62, R63 check 1. -/
def gateChecks (g : GateIx) (p : List Byte) : List Bool :=
  [ isYesNo (byteAt p 0), byteAt p 1 ≤ 3 && (byteAt p 1 != 0 || g == 0), byteAt p 2 ≤ 11,
    isStation (byteAt p 3), inRange 20 500 (wordAt p 4), inRange 5 600 (wordAt p 6), isYesNo (byteAt p 8) ]

/-- R29. -/
def laneChecks (l : LaneIx) (p : List Byte) : List Bool :=
  [ byteAt p 0 == 0 || inRange 2 8 (byteAt p 0), isYesNo (byteAt p 1), isYesNo (byteAt p 2),
    byteAt p 3 == 255 || (byteAt p 3 ≤ 11 && byteAt p 3 != l.val), isStation (byteAt p 4),
    inRange 200 5000 (wordAt p 5), inRange 200 5000 (wordAt p 7), inRange 500 10000 (wordAt p 9),
    inRange 10 600 (wordAt p 11), byteAt p 13 ≤ 1, isYesNo (byteAt p 14) ]

/-- R23. -/
def bandChecks (p : List Byte) : List Bool :=
  [wordAt p 0 ≤ 9999, wordAt p 2 < 4096, byteAt p 4 ≤ 1, inRange 1 120 (byteAt p 5)]

/-- R124. -/
def inductChecks (p : List Byte) : List Bool :=
  [isYesNo (byteAt p 0), isStation (byteAt p 1), inRange 5 300 (wordAt p 2), isYesNo (byteAt p 4)]

/-- R173. -/
def siteChecks (p : List Byte) : List Bool :=
  [ inRange 8 48 (byteAt p 0), isStation (byteAt p 1), isStation (byteAt p 2), inRange 5 300 (wordAt p 3),
    isStation (byteAt p 5), inRange 100 5000 (wordAt p 6), inRange 1 15 (byteAt p 8), inRange 1 4 (byteAt p 9),
    inRange 1 3 (byteAt p 10), inRange 10 600 (wordAt p 11), inRange 200 5000 (wordAt p 13),
    isYesNo (byteAt p 15) ]

/-- R152. -/
def driveChecks (p : List Byte) : List Bool :=
  [ isStation (byteAt p 0), inRange 10 3600 (wordAt p 1), inRange 100 10000 (wordAt p 3),
    inRange 100 10000 (wordAt p 5) ]

/-- R137. -/
def throttleChecks (p : List Byte) : List Bool :=
  [ byteAt p 0 ≤ 4, inRange 1 255 (byteAt p 1), inRange 1 4095 (wordAt p 2), inRange 1 63 (byteAt p 4),
    inRange 1 255 (byteAt p 5), byteAt p 6 ≤ 15, inRange 1 255 (byteAt p 7) ]

/-! ## Codes -/

/-- The lane a byte names, L0 where it names none. -/
def laneIx (n : Nat) : LaneIx := Fin.ofNat 12 n

def GateKind.ofCode (n : Nat) : GateKind :=
  match n with
  | 0 => .lap
  | 1 => .lane
  | 2 => .willcall
  | _ => .track

def GateKind.code (k : GateKind) : Byte :=
  match k with
  | .lap => 0x00#8
  | .lane => 0x01#8
  | .willcall => 0x02#8
  | .track => 0x03#8

def ThrottleMode.ofCode (n : Nat) : ThrottleMode :=
  match n with
  | 0 => .none
  | 1 => .monitor
  | 2 => .count
  | 3 => .load
  | _ => .countLoad

def ThrottleMode.code (m : ThrottleMode) : Byte :=
  match m with
  | .none => 0x00#8
  | .monitor => 0x01#8
  | .count => 0x02#8
  | .load => 0x03#8
  | .countLoad => 0x04#8

def UnattendedAction.code (a : UnattendedAction) : Byte :=
  match a with
  | .lamp => 0x00#8
  | .autoReturn => 0x01#8

def AssignMethod.code (m : AssignMethod) : Byte :=
  match m with
  | .fixed => 0x00#8
  | .spread => 0x01#8

def RunState.code (r : RunState) : Byte :=
  match r with
  | .stopped => 0x00#8
  | .running => 0x01#8
  | .halting => 0x02#8
  | .estop => 0x03#8

def DriveState.code (d : DriveState) : Byte :=
  match d with
  | .off => 0x00#8
  | .starting => 0x01#8
  | .running => 0x02#8
  | .stopping => 0x03#8
  | .resting => 0x04#8

def Window.code (w : Window) : Byte :=
  match w with
  | .empty => 0x00#8
  | .advancing => 0x01#8
  | .presented => 0x02#8
  | .held => 0x03#8

def Cycle.code (c : Cycle) : Byte :=
  match c with
  | .idle => 0x00#8
  | .opened => 0x01#8
  | .wait => 0x02#8

def Outcome.code (o : Outcome) : Byte :=
  match o with
  | .diverted => 0x01#8
  | .redirected => 0x02#8
  | .refusedFull => 0x03#8
  | .refusedTake => 0x04#8
  | .refusedClosed => 0x05#8

/-- 11.6: the reason code. -/
def Reason.code (r : Reason) : Nat :=
  match r with
  | .unbanded => 1
  | .oversize => 2
  | .lapped => 3
  | .refused => 4
  | .expired => 5
  | .cancelled => 6

/-- 11.6 byte 5. -/
def OrderState.code (o : OrderState) : Byte :=
  match o with
  | .unassigned => 0x00#8
  | .routed _ => 0x10#8
  | .ready _ => 0x20#8
  | .willcall r => byte (0x30 + r.code)

/-- 11.6 byte 6. -/
def OrderState.laneByte (o : OrderState) : Byte :=
  match o with
  | .routed l => byte l.val
  | .ready l => byte l.val
  | .unassigned => 0xFF#8
  | .willcall _ => 0xFF#8

/-- 11.6: the location byte. -/
def Location.code (l : Location) : Byte :=
  match l with
  | .unplaced => 0x00#8
  | .induct i => byte (0x10 + i.val)
  | .loop => 0x20#8
  | .incoming l => byte (0x30 + l.val)
  | .lane l => byte (0x40 + l.val)
  | .returnBelt => 0x50#8
  | .willcallIncoming => 0x60#8
  | .willcall => 0x70#8

/-- 11.8 byte 6. -/
def sightingCode (s : Option Sighting) : Byte :=
  match s with
  | none => 0x00#8
  | some .seen => 0x01#8
  | some (.unseen n) => byte (0x10 + n)
  | some .lost => 0x20#8

/-- FFh for an absent index. -/
def indexByte {n : Nat} (i : Option (Fin n)) : Byte :=
  match i with
  | some k => byte k.val
  | none => 0xFF#8

/-- 11.4: the holder set, address 63 in bit 7 of the first byte. -/
def holderBytes (h : BitVec 64) : List Byte :=
  [h.extractLsb' 56 8, h.extractLsb' 48 8, h.extractLsb' 40 8, h.extractLsb' 32 8,
   h.extractLsb' 24 8, h.extractLsb' 16 8, h.extractLsb' 8 8, h.extractLsb' 0 8]

/-! ## Entries from their writable images -/

def gateOfImage (p : List Byte) : GateEntry where
  present := yes (byteAt p 0)
  kind := .ofCode (byteAt p 1)
  lane := laneIx (byteAt p 2)
  station := byteAt p 3
  decisionWindow := wordAt p 4
  transitLimit := wordAt p 6
  discardFirst := yes (byteAt p 8)

def laneOfImage (p : List Byte) : LaneEntry where
  capacity := byteAt p 0
  take := yes (byteAt p 1)
  give := yes (byteAt p 2)
  alternate := if byteAt p 3 = 255 then none else some (laneIx (byteAt p 3))
  station := byteAt p 4
  confirmLimit := wordAt p 5
  scanInterval := wordAt p 7
  advanceLimit := wordAt p 9
  unattendedInterval := wordAt p 11
  unattendedAction := if byteAt p 13 = 1 then .autoReturn else .lamp
  discardFirst := yes (byteAt p 14)

def bandOfImage (p : List Byte) : BandEntry where
  upper := wordAt p 0
  laneSet := BitVec.ofNat 12 (wordAt p 2)
  method := if byteAt p 4 = 1 then .spread else .fixed
  collectInterval := byteAt p 5

def inductOfImage (p : List Byte) : InductEntry where
  present := yes (byteAt p 0)
  station := byteAt p 1
  transitLimit := wordAt p 2
  discardFirst := yes (byteAt p 4)

def siteOfImage (p : List Byte) : SiteRecord where
  willcallCapacity := byteAt p 0
  willcallStation := byteAt p 1
  returnStation := byteAt p 2
  returnTransitLimit := wordAt p 3
  mergeStation := byteAt p 5
  mergeGap := wordAt p 6
  lapLimit := byteAt p 8
  refusalLimit := byteAt p 9
  lostLimit := byteAt p 10
  haltTimeout := wordAt p 11
  willcallConfirmLimit := wordAt p 13
  discardFirst := yes (byteAt p 15)

def driveOfImage (p : List Byte) : DriveRecord where
  station := byteAt p 0
  idleInterval := wordAt p 1
  startDelay := wordAt p 3
  stopDelay := wordAt p 5

def throttleOfImage (p : List Byte) : ThrottleProfile where
  mode := .ofCode (byteAt p 0)
  samplingWindow := byteAt p 1
  threshold := wordAt p 2
  duration := byteAt p 4
  monitorWindow := byteAt p 5
  windowMax := byteAt p 6
  loadMark := byteAt p 7

/-! ## Writable images of entries -/

def GateEntry.image (e : GateEntry) : List Byte :=
  [yesNo e.present, e.kind.code, byte e.lane.val, byte e.station] ++ twoBytes e.decisionWindow ++
    twoBytes e.transitLimit ++ [yesNo e.discardFirst]

def LaneEntry.image (e : LaneEntry) : List Byte :=
  [byte e.capacity, yesNo e.take, yesNo e.give, indexByte e.alternate, byte e.station] ++
    twoBytes e.confirmLimit ++ twoBytes e.scanInterval ++ twoBytes e.advanceLimit ++
    twoBytes e.unattendedInterval ++ [e.unattendedAction.code, yesNo e.discardFirst]

def BandEntry.image (e : BandEntry) : List Byte :=
  twoBytes e.upper ++ twoBytes e.laneSet.toNat ++ [e.method.code, byte e.collectInterval]

def InductEntry.image (e : InductEntry) : List Byte :=
  [yesNo e.present, byte e.station] ++ twoBytes e.transitLimit ++ [yesNo e.discardFirst]

def SiteRecord.image (e : SiteRecord) : List Byte :=
  [byte e.willcallCapacity, byte e.willcallStation, byte e.returnStation] ++ twoBytes e.returnTransitLimit ++
    [byte e.mergeStation] ++ twoBytes e.mergeGap ++ [byte e.lapLimit, byte e.refusalLimit, byte e.lostLimit] ++
    twoBytes e.haltTimeout ++ twoBytes e.willcallConfirmLimit ++ [yesNo e.discardFirst]

def DriveRecord.image (e : DriveRecord) : List Byte :=
  [byte e.station] ++ twoBytes e.idleInterval ++ twoBytes e.startDelay ++ twoBytes e.stopDelay

def ThrottleProfile.image (e : ThrottleProfile) : List Byte :=
  [e.mode.code, byte e.samplingWindow] ++ twoBytes e.threshold ++
    [byte e.duration, byte e.monitorWindow, byte e.windowMax, byte e.loadMark]

/-! ## Times left -/

/-- A span in whole units; between two multiples the rounding is a free value (log entry 6). -/
def unitsOf (unit span : Nat) : Nat :=
  if span % unit = 0 then span / unit
  else if Config.roundsUp unit span then span / unit + 1
  else span / unit

/-- The time left on a timer in whole units. -/
def State.left (s : State) (unit : Nat) (expiry : Time) : Nat := unitsOf unit (expiry - s.now)

/-- The time left on a timer, 0 while it is stopped. -/
def State.leftOf (s : State) (unit : Nat) (timer : Option Time) : Nat :=
  match timer with
  | some e => s.left unit e
  | none => 0

/-! ## Sorting -/

/-- Insert by a key, behind equal keys. -/
def insertBy {α : Type} (key : α → Nat) (x : α) (l : List α) : List α :=
  match l with
  | [] => [x]
  | y :: r => if key y ≤ key x then y :: insertBy key x r else x :: y :: r

/-- Rising order of a key. -/
def sortBy {α : Type} (key : α → Nat) (l : List α) : List α := l.foldl (fun acc x => insertBy key x acc) []

/-! ## Record images (11.6, 11.8) -/

/-- 11.6: one entry per live tote: part number in bits 15 to 12, tag in bits 11 to 0, the location byte. -/
def Tote.orderEntry (t : Tote) : List Byte := twoBytes (t.part * 4096 + t.tag) ++ [t.location.code]

/-- 11.6: two counts in one byte. -/
def nibbles (hi lo : Nat) : Byte := byte (hi * 16 + lo)

/-- 11.6: the order image. -/
def State.orderImage (s : State) (k : OrderSlot) (o : Order) : List Byte :=
  twoBytes o.ticket ++
    [byte o.total, byte o.priority, indexByte o.band, o.state.code, o.state.laneByte, yesNo o.released,
     nibbles o.done o.live, nibbles o.remaining o.unadded] ++
    (sortBy Tote.part ((s.totesOf k).map (·.2))).flatMap Tote.orderEntry

/-- 11.8: four trail entries, 0000h past the length. -/
def trailBytes (trail : List TrailEntry) : List Byte :=
  trail.flatMap (fun e => [byte e.gate.val, e.outcome.code]) ++ List.replicate (8 - 2 * trail.length) 0

/-- 11.8: the deadline time left, FFFFh absent. -/
def State.deadlineBytes (s : State) (t : Tote) : List Byte :=
  match t.deadline with
  | some d => twoBytes (s.left (tenths 1) d.expiry)
  | none => [0xFF#8, 0xFF#8]

/-- 11.8: the tote image. -/
def State.toteImage (s : State) (t : Tote) : List Byte :=
  twoBytes t.tag ++ twoBytes (s.ticketOf t.order) ++
    [byte t.part, t.location.code, sightingCode t.sighting, indexByte t.lastGate] ++ s.deadlineBytes t ++
    [byte t.laps, byte t.trail.length] ++ trailBytes t.trail

/-! ## Queue words (11.7) -/

def State.queueWord (s : State) (e : QueueEntry) : List Byte :=
  match e with
  | .known k => twoBytes (s.tagOf k)
  | .unknown (some t) => twoBytes (0x4000 + t)
  | .unknown none => twoBytes 0x8000

def InductItem.word (e : InductItem) : List Byte :=
  match e.tote, e.tag with
  | some _, some t => twoBytes t
  | some _, none => twoBytes 0
  | none, some t => twoBytes (0x4000 + t)
  | none, none => twoBytes 0x8000

/-- 11.7: the queue of an induct image, four words. -/
def inductQueueBytes (q : List InductItem) : List Byte :=
  byte q.length :: (q.flatMap InductItem.word ++ List.replicate (8 - 2 * q.length) 0)

/-! ## Lane sections (11.9) -/

def foreignBytes (f : Option Foreign) : List Byte :=
  match f with
  | none => [0x00#8, 0x00#8]
  | some .unread => [0xFF#8, 0xFF#8]
  | some (.tag t) => twoBytes t

def Unattended.code (u : Unattended) : Byte :=
  match u with
  | .stopped => 0x00#8
  | .running _ => 0x01#8
  | .expired => 0x02#8

/-- 11.9: the unattended time left in s; 0 while the timer is stopped or has expired, for which 11.9 gives no
value (log entry 43). -/
def State.unattendedLeft (s : State) (u : Unattended) : Nat :=
  match u with
  | .running e => s.left (seconds 1) e
  | .stopped => 0
  | .expired => 0

/-- 11.9: FIGURES. -/
def State.figures (s : State) (l : LaneIx) : List Byte :=
  let x := s.lane l
  [byte (s.laneCfg l).capacity, yesNo (s.laneOpen l), yesNo (s.overbooked l), byte (s.occupied l),
   byte (s.incoming l), byte (s.reserved l), BitVec.ofInt 8 (s.free l), x.window.code] ++
    foreignBytes x.foreign ++ [byte x.emptyScans, yesNo x.attention, x.unattended.code] ++
    twoBytes (s.unattendedLeft x.unattended) ++ twoBytes (s.leftOf (milliseconds 1) x.advance) ++
    [x.lamp.code, byte x.display.length] ++ x.display.flatMap twoBytes ++
    List.replicate (8 - 2 * x.display.length) 0

/-- 11.9: the confirm time left, FFh with no timer. -/
def State.incomingEntry (s : State) (e : Incoming) : List Byte :=
  twoBytes (s.tagOf e.tote) ++
    [match e.confirm with
     | some t => byte (s.left (tenths 1) t)
     | none => 0xFF#8]

/-- 11.9: QUEUE. -/
def State.queueSection (s : State) (l : LaneIx) : List Byte :=
  byte (s.lane l).queue.length :: ((s.lane l).queue.flatMap s.queueWord ++
    byte (s.lane l).incoming.length :: (s.lane l).incoming.flatMap s.incomingEntry)

/-- 11.9: an entry of BOOK. -/
def State.bookEntry (s : State) (l : LaneIx) (p : OrderSlot × Order) : List Byte :=
  twoBytes p.2.ticket ++ [p.2.state.code ||| byte (s.share p.1 p.2 l)]

/-- 11.9: BOOK, in ascending ticket order. -/
def State.bookSection (s : State) (l : LaneIx) : List Byte :=
  byte (s.book l).length :: (sortBy (fun p : OrderSlot × Order => p.2.ticket) (s.book l)).flatMap (s.bookEntry l)

/-- 11.9: the collect time left in whole minutes rounded up. -/
def State.readyEntry (s : State) (e : ReadyEntry) : List Byte :=
  twoBytes (s.ticketOf e.order) ++ [byte ((e.collect - s.now + (minutes 1 - 1)) / minutes 1)]

/-- 11.9: READY. -/
def State.readySection (s : State) (l : LaneIx) : List Byte :=
  byte (s.lane l).ready.length :: (s.lane l).ready.flatMap s.readyEntry

end Sys2Proof.Machine
end

