-- ==== Sys2Proof/Machine/Drive.lean ====
section
/-! DEFINITION. The Loop Drive Controller's shared operations (sections 8.5 and 8.6). -/

namespace Sys2Proof.Machine

/-- R153, R154: the drive goes to STARTING: DRIVE RUN is handed over and the start delay starts. -/
def State.startDrive (s : State) : State :=
  { s with drive := ⟨.starting, none, some (s.now + milliseconds s.cfg.drive.startDelay), false⟩ }.hand
    (driveFrame s.cfg.drive.station true)

/-- R154: a claimant report or a loop report. -/
def State.driveReport (s : State) : State :=
  match s.drive.state with
  | .off => s
  | .starting => s
  | .running => s
  | .stopping => { s with drive := { s.drive with wakePending := true } }
  | .resting => s.startDrive

/-- R153: a gate read completion or a merge grant restarts the idle timer while the drive is RUNNING. -/
def State.restartIdle (s : State) : State :=
  if s.drive.state == .running then
    { s with drive := { s.drive with idle := some (s.now + seconds s.cfg.drive.idleInterval) } }
  else s

/-- R155: the drive becomes OFF; DRIVE HALT goes if it was not OFF, and always where `always` holds. -/
def State.driveOff (s : State) (always : Bool) : State :=
  let t := { s with drive := .reset }
  if always || s.drive.state != .off then t.hand (driveFrame s.cfg.drive.station false) else t

/-- R153: the idle test passes: the drive goes to STOPPING. -/
def State.stopDrive (s : State) : State :=
  { s with drive := ⟨.stopping, none, some (s.now + milliseconds s.cfg.drive.stopDelay), false⟩ }.hand
    (driveFrame s.cfg.drive.station false)

/-- R152, R155: the command that a STATION-UP of the drive station has handed over again. -/
def State.driveCommand (s : State) : Bool := s.drive.state == .starting || s.drive.state == .running

end Sys2Proof.Machine
end

