-- ==== Sys2Proof/Machine/Records.lean ====
section
/-! DEFINITION. The Order and Tote Tables at work: removal of a tote from its place (R13, R90), freeing
(R7, R15), placing on the loop (R10), entry into WILLCALL (R5) and assignment (R26, R27). What follows
for lanes, merge and drive is settled at the end of the event (Settle.lean). -/

namespace Sys2Proof.Machine

/-! ## Deadlines and the loop -/

/-- R77: a deadline armed from a gate, with the next present gate as its target. -/
def State.deadlineFrom (s : State) (g : GateIx) (at_ : Time) : Deadline :=
  ⟨at_ + tenths (s.gateCfg g).transitLimit, s.nextGate g⟩

/-- R77: a deadline armed at a merge grant, with G0 as its target. -/
def State.deadlineFromMerge (s : State) (limit : Nat) : Deadline := ⟨s.now + tenths limit, 0⟩

/-- R10, R154: the tote enters LOOP, SEEN; where the loop was empty the drive gets a loop report
(log entry 24). The rest of the record is changed by `f`. -/
def State.placeOnLoop (s : State) (k : ToteSlot) (f : Tote → Tote) : State :=
  let t := s.modTote k (fun x => f { x with location := .loop, sighting := some .seen })
  if s.loopOccupancy == 0 then t.driveReport else t

/-! ## Removal from a place -/

/-- R90 rules 1, 3 and 6: the entry at position j leaves a lane queue. -/
def Lane.removeAt (x : Lane) (j : Nat) : Lane :=
  let gone := j == 0 && x.window == .presented
  { x with
    queue := x.queue.eraseIdx j
    window := if gone then .empty else x.window
    emptyScans := if gone then 0 else x.emptyScans
    unattended := if (x.queue.eraseIdx j).isEmpty then .stopped else x.unattended }

/-- The position at which a tote stands in a lane queue. -/
def Lane.positionOf (x : Lane) (k : ToteSlot) : Option Nat := x.queue.findIdx? (· == .known k)

/-- R90: a tote's known entry leaves a lane queue. -/
def Lane.removeTote (x : Lane) (k : ToteSlot) : Lane :=
  match x.positionOf k with
  | some j => x.removeAt j
  | none => x

/-- R13: the collection that holds a tote loses it. -/
def State.takeOut (s : State) (k : ToteSlot) (loc : Location) : State :=
  match loc with
  | .unplaced => s
  | .induct i => s.putQueue i ((s.queue i).filter (fun e => e.tote != some k))
  | .loop => s
  | .incoming l => s.modLane l (fun x => { x with incoming := x.incoming.filter (fun e => e.tote != k) })
  | .lane l => s.modLane l (fun x => x.removeTote k)
  | .returnBelt =>
    if s.merge.head == .known k then { s with merge := { s.merge with head := .absent } } else s
  | .willcallIncoming =>
    { s with willcall := { s.willcall with incoming := s.willcall.incoming.filter (fun e => e.tote != k) } }
  | .willcall =>
    { s with willcall := { s.willcall with list := s.willcall.list.filter (fun e => e.tote != k) } }

/-- R13: removal of a tote from its recorded location; the record is then UNPLACED. -/
def State.removeTote (s : State) (k : ToteSlot) : State :=
  match s.tote? k with
  | none => s
  | some t =>
    (s.takeOut k t.location).putTote k { t with location := .unplaced, sighting := none, deadline := none }

/-! ## Freeing -/

/-- R5, R7: a READY order leaves its lane's ready list, with its collect timer. -/
def State.leaveReady (s : State) (k : OrderSlot) (o : Order) : State :=
  match o.state with
  | .ready l => s.modLane l (fun x => { x with ready := x.ready.filter (fun e => e.order != k) })
  | .unassigned => s
  | .routed _ => s
  | .willcall _ => s

/-- R7: an order is freed. -/
def State.freeOrder (s : State) (k : OrderSlot) (o : Order) : State :=
  { s.leaveReady k o with orders := slotFree k s.orders }

/-- R6, R7: an order's counts change, and the order is freed where done now equals total. -/
def State.recount (s : State) (k : OrderSlot) (f : Order → Order) : State :=
  match s.order? k with
  | none => s
  | some o => if (f o).done = (f o).total then s.freeOrder k o else s.putOrder k (f o)

/-- R15: a tote record is freed as done. -/
def State.freeDone (s : State) (k : ToteSlot) : State :=
  match s.tote? k with
  | none => s
  | some t =>
    let u := s.removeTote k
    { u with totes := slotFree k u.totes }.recount t.order
      (fun o => { o with done := o.done + 1, live := o.live - 1 })

/-! ## Order destinations -/

/-- R12: the trails of all live totes of an order are cleared. -/
def State.clearTrails (s : State) (k : OrderSlot) : State :=
  s.mapTotes (fun t => if t.order = k then { t with trail := [] } else t)

/-- R12: a push appends the newest entry and keeps the last four. -/
def pushTrail (e : TrailEntry) (trail : List TrailEntry) : List TrailEntry :=
  (trail ++ [e]).drop ((trail ++ [e]).length - 4)

/-- R5: entry into WILLCALL. -/
def State.enterWillcall (s : State) (k : OrderSlot) (r : Reason) : State :=
  match s.order? k with
  | none => s
  | some o => (((s.leaveReady k o).putOrder k { o with state := .willcall r }).clearTrails k).raise .orderToWillcall

/-- R24: the band of the active copy that a ticket falls in. -/
def bandOf (bands : Vector BandEntry 8) (ticket : Nat) : Option BandIx :=
  allBands.find? (fun b => ticket ≤ (row bands b).upper)

def BandEntry.holds (b : BandEntry) (l : LaneIx) : Bool := b.laneSet.getLsbD l.val

/-- R26: no lane of the band's set is present with a capacity of at least the remaining. -/
def State.oversize (s : State) (b : BandEntry) (remaining : Nat) : Bool :=
  !allLanes.any (fun l => b.holds l && s.lanePresent l && remaining ≤ (s.laneCfg l).capacity)

/-- R27: a lane is a candidate. -/
def State.candidate (s : State) (b : BandEntry) (remaining : Nat) (l : LaneIx) : Bool :=
  b.holds l && s.lanePresent l && s.laneOpen l && (s.laneCfg l).take && !s.overbooked l &&
    decide ((remaining : Int) ≤ s.free l)

/-- R27, SPREAD: the lane with the greatest free; a tie goes to the lowest-numbered. -/
def State.roomiest (s : State) (ls : List LaneIx) : Option LaneIx :=
  ls.foldl (fun best l =>
    match best with
    | none => some l
    | some m => if s.free m < s.free l then some l else some m) none

/-- R27: the lane that is chosen among the candidates. -/
def State.chooseLane (s : State) (b : BandEntry) (remaining : Nat) : Option LaneIx :=
  let ls := allLanes.filter (s.candidate b remaining)
  match b.method with
  | .fixed => ls.head?
  | .spread => s.roomiest ls

/-- R27, R12: the order becomes ROUTED with a lane; its totes' trails are cleared. -/
def State.routeTo (s : State) (k : OrderSlot) (l : LaneIx) : State :=
  (s.modOrder k (fun o => { o with state := .routed l })).clearTrails k

/-- R26, R27: an assignment attempt for an UNASSIGNED order. -/
def State.attempt (s : State) (k : OrderSlot) : State :=
  match s.order? k with
  | none => s
  | some o =>
    match o.state, o.band with
    | .unassigned, some bx =>
      let b := row s.cfg.bandActive bx
      if s.oversize b o.remaining then s.enterWillcall k .oversize
      else
        match s.chooseLane b o.remaining with
        | some l => s.routeTo k l
        | none => s
    | _, _ => s

/-- R135: a grant's treatment of the tote's order. -/
def State.firstRelease (s : State) (k : OrderSlot) : State :=
  match s.order? k with
  | none => s
  | some o => if o.released then s else (s.putOrder k { o with released := true }).attempt k

end Sys2Proof.Machine
end

