-- ==== Sys2Proof/Machine/Lanes.lean ====
section
/-! DEFINITION. The Lane Controllers (chapter 5): entry, the counter window, reconciliation, buttons,
readiness, lamp and display. -/

namespace Sys2Proof.Machine

/-! ## The counter window -/

/-- R105: a lane takes ATTENTION. -/
def State.takeAttention (s : State) (l : LaneIx) : State :=
  (s.modLane l (fun x => { x with attention := true })).raise .laneAttention

/-- A tote stands at the window: PRESENTED, or HELD with a foreign tote. -/
def Lane.toteAtWindow (x : Lane) : Bool := x.window == .presented || (x.window == .held && x.foreign.isSome)

/-- R97, R98: the window becomes EMPTY and holds no foreign tote (log entry 17). -/
def State.emptyWindow (s : State) (l : LaneIx) : State :=
  s.modLane l (fun x => { x with window := .empty, foreign := none, emptyScans := 0 })

/-- Entry 0 of a lane queue leaves it (R90). -/
def State.dropEntry0 (s : State) (l : LaneIx) : State := s.modLane l (fun x => x.removeAt 0)

/-- What is done with the window tote: `known` for one with a record, `unknown` for an unknown entry 0. -/
def State.windowTote (s : State) (l : LaneIx) (known : ToteSlot → State) (unknown : State) : State :=
  match (s.lane l).foreign, (s.lane l).queue with
  | some (.tag t), _ =>
    match s.findTote t with
    | some (k, _) => known k
    | none => s
  | some .unread, _ => s
  | none, .known k :: _ => known k
  | none, .unknown _ :: _ => unknown
  | none, [] => s

/-- R97: the window tote is taken. -/
def State.takeWindow (s : State) (l : LaneIx) : State :=
  (s.windowTote l (fun k => s.freeDone k) (s.dropEntry0 l)).emptyWindow l

/-- R98, R111: a tote with a record joins the return-belt set, removed from its recorded place first (R13). That this
makes a KNOWN head ABSENT where the records have the pushed tote as that head is log entry 47. -/
def State.pushTote (s : State) (k : ToteSlot) : State :=
  (s.removeTote k).modTote k (fun t => { t with location := .returnBelt })

/-- R98: the window tote is pushed onto the return chute. -/
def State.pushWindow (s : State) (l : LaneIx) : State :=
  let t := s.hand (chuteFrame (s.laneCfg l).station)
  (t.windowTote l (fun k => t.pushTote k) (t.dropEntry0 l)).emptyWindow l

/-- R98: a return that was asked for: refused at a full belt, not made in ESTOP (log entry 18). -/
def State.askReturn (s : State) (l : LaneIx) : State :=
  if !s.beltRoom then (s.raise .returnFull).takeAttention l
  else if s.run.state == .estop then s
  else s.pushWindow l

/-- R99: the effects of a clerk button in every window state. -/
def State.clerkButton (s : State) (l : LaneIx) : State :=
  s.modLane l (fun x =>
    { x with
      attention := false
      emptyScans := 0
      unattended :=
        match x.unattended with
        | .stopped => .stopped
        | .running _ => .running (s.now + seconds (s.laneCfg l).unattendedInterval)
        | .expired => .running (s.now + seconds (s.laneCfg l).unattendedInterval) })

/-- R99: a button in a window state in which no tote is at the window. -/
def State.buttonElsewhere (s : State) (l : LaneIx) : State :=
  match (s.lane l).window with
  | .held => s.emptyWindow l
  | .empty => s
  | .advancing => s
  | .presented => s

/-- R97, R99, R96: the TAKEN button, and hand removal. -/
def State.takenAt (s : State) (l : LaneIx) : State :=
  let t := s.clerkButton l
  if (s.lane l).toteAtWindow then t.takeWindow l else t.buttonElsewhere l

/-- R98, R99: the RETURN button. -/
def State.returnAt (s : State) (l : LaneIx) : State :=
  let t := s.clerkButton l
  if (s.lane l).toteAtWindow then t.askReturn l else t.buttonElsewhere l

/-- R106: the unattended timer expires. -/
def State.unattendedAt (s : State) (l : LaneIx) : State :=
  let t := (s.modLane l (fun x => { x with unattended := .expired })).takeAttention l
  if (s.laneCfg l).unattendedAction == .autoReturn && (s.lane l).toteAtWindow then t.askReturn l else t

/-! ## Entry into the lane (R86, R87) -/

/-- R86: the oldest incoming entry joins the queue. -/
def State.confirmEntry (s : State) (l : LaneIx) (e : Incoming) (rest : List Incoming) : State :=
  (s.modLane l (fun x => { x with incoming := rest, queue := x.queue ++ [.known e.tote] })).modTote e.tote
    (fun t => { t with location := .lane l })

/-- R87: a tote nobody diverted. -/
def State.strayEntry (s : State) (l : LaneIx) : State :=
  (if s.occupied l < (s.laneCfg l).capacity then
    s.modLane l (fun x => { x with queue := x.queue ++ [.unknown none] })
  else s).raise .strayTote

/-- R86, R87: a LANE-ENTRY eye at an OPEN lane. -/
def State.laneEntry (s : State) (l : LaneIx) : State :=
  match (s.lane l).incoming with
  | e :: rest => s.confirmEntry l e rest
  | [] => s.strayEntry l

/-! ## Auto-return (R102) -/

/-- R102: entry 0 is known and its order is not in the lane's book. -/
def State.entry0Elsewhere (s : State) (l : LaneIx) : Bool :=
  match (s.lane l).queue with
  | .known k :: _ =>
    match s.tote? k with
    | some t =>
      match s.order? t.order with
      | some o => !o.assignedTo l
      | none => false
    | none => false
  | _ => false

/-- R102: the test of auto-return but for room on the belt. -/
def State.wantsReturn (s : State) (l : LaneIx) : Bool :=
  (s.lane l).window == .presented && (s.lane l).foreign.isNone && s.entry0Elsewhere l && s.run.state != .estop

/-- R102: the test of auto-return, and the push where it holds. -/
def State.returnTest (s : State) (l : LaneIx) : State :=
  if s.wantsReturn l && s.beltRoom then s.pushWindow l else s

/-- A known entry 0 is PRESENTED. -/
def Lane.presentsKnown (x : Lane) : Bool :=
  x.window == .presented && x.foreign.isNone &&
    match x.queue with
    | .known _ :: _ => true
    | _ => false

/-! ## Scans of the window (R93 to R96) -/

/-- What a TAG or NOREAD scan shows. -/
inductive Shown where
  | tag (t : Nat)
  | unread
  deriving DecidableEq, Repr

def Shown.foreign (x : Shown) : Foreign :=
  match x with
  | .tag t => .tag t
  | .unread => .unread

/-- R94: a tote stands at the window, as entry 0. -/
def State.present (s : State) (l : LaneIx) : State :=
  s.modLane l (fun x => { x with window := .presented, foreign := none, advance := none })

/-- R94, R105: a foreign tote stands at the window, and the lane takes ATTENTION. That it does so also where another
foreign tote stood there, against R95's last words on ATTENTION, is log entry 46. -/
def State.holdForeign (s : State) (l : LaneIx) (x : Shown) : State :=
  (s.modLane l (fun y => { y with window := .held, foreign := some x.foreign, advance := none })).takeAttention l

/-- The queue with entry j unknown, with no noted tag. -/
def Lane.forget (x : Lane) (k : ToteSlot) : Lane :=
  { x with queue := x.queue.map (fun e => if e = .known k then .unknown none else e) }

/-- R94, identification, and R42: the entry at position j holds the tote; another entry of this queue
that held it becomes unknown. -/
def State.nameEntry (s : State) (l : LaneIx) (j : Nat) (k : ToteSlot) : State :=
  (s.modLane l (fun x => { x.forget k with queue := (x.forget k).queue.set j (.known k) })).modTote k
    (fun t => { t with location := .lane l })

/-- R94: an unknown entry 0 takes the tag read for it. -/
def State.noteEntry0 (s : State) (l : LaneIx) (t : Nat) : State :=
  s.modLane l (fun x => { x with queue := x.queue.set 0 (.unknown (some t)) })

/-- R94, last row: a found tote becomes entry 0 of an empty queue. -/
def State.foundTote (s : State) (l : LaneIx) (x : Shown) : State :=
  if s.occupied l + s.incoming l < (s.laneCfg l).capacity then
    ((match x with
      | .unread => s.modLane l (fun y => { y with queue := [.unknown none] })
      | .tag t =>
        match s.findTote t with
        | some (k, _) =>
          (s.modLane l (fun y => { y with queue := [.known k] })).modTote k
            (fun r => { r with location := .lane l })
        | none => s.modLane l (fun y => { y with queue := [.unknown (some t)] })).present l).raise .strayTote
  else s.holdForeign l x

/-- R94: reconciliation of the tote shown against entry 0. -/
def State.reconcile (s : State) (l : LaneIx) (x : Shown) : State :=
  match (s.lane l).queue, x with
  | [], x => s.foundTote l x
  | .known _ :: _, .unread => s.present l
  | .known k :: _, .tag t => if s.tagOf k = t then s.present l else s.holdForeign l x
  | .unknown _ :: _, .unread => s.present l
  | .unknown _ :: _, .tag t =>
    match s.findTote t with
    | some (k, _) => (s.nameEntry l 0 k).present l
    | none => (s.noteEntry0 l t).present l

/-- R95: entry 0 is known and holds the tag. -/
def State.entry0Has (s : State) (l : LaneIx) (t : Nat) : Bool :=
  match (s.lane l).queue with
  | .known k :: _ => s.tagOf k == t
  | _ => false

/-- R95: a scan while the window is HELD with a foreign tote (log entry 14). Another tote is reconciled as R94 gives,
which takes ATTENTION anew where that tote is foreign too (log entry 46). -/
def State.scanForeign (s : State) (l : LaneIx) (f : Foreign) (x : Shown) : State :=
  match x with
  | .unread => s
  | .tag t =>
    if s.entry0Has l t then s.present l
    else if f = .tag t then s
    else (s.modLane l (fun y => { y with foreign := none })).reconcile l x

/-- R14 at a head reader: the record of a tag located anywhere but in this lane's queue is removed from
its place (log entry 15). -/
def State.relocateToWindow (s : State) (l : LaneIx) (x : Shown) : State :=
  match x with
  | .unread => s
  | .tag t =>
    match s.findTote t with
    | some (k, r) => if r.location = .lane l then s else (s.removeTote k).raise .strayTote
    | none => s

/-- R93, R94, R95: what a TAG or NOREAD scan makes of the window. -/
def State.showAtWindow (s : State) (l : LaneIx) (x : Shown) : State :=
  let t := (s.relocateToWindow l x).modLane l (fun y => { y with emptyScans := 0 })
  match (t.lane l).window, (t.lane l).foreign with
  | .held, some f => t.scanForeign l f x
  | _, _ => t.reconcile l x

/-- R93: a TAG or NOREAD result of the head reader. R94: where it makes the window PRESENTED, or entry 0 known
while the window is PRESENTED, the auto-return test of R102 follows in the event. -/
def State.scanShows (s : State) (l : LaneIx) (x : Shown) : State :=
  let t := s.showAtWindow l x
  if (s.lane l).presentsKnown then t else t.returnTest l

/-- R93, R96: an EMPTY result of the head reader. -/
def State.scanEmpty (s : State) (l : LaneIx) : State :=
  if (s.lane l).toteAtWindow then
    if (s.lane l).emptyScans = 0 then s.modLane l (fun x => { x with emptyScans := 1 })
    else s.takenAt l
  else s

/-- R93: a delivered result of the head reader. -/
def State.headResult (s : State) (l : LaneIx) (r : ReadResult) : State :=
  match r with
  | .tag t => s.scanShows l (.tag t)
  | .noread => s.scanShows l .unread
  | .empty => s.scanEmpty l
  | .none => s

/-! ## Readiness (R100, R101) -/

/-- R100: the condition for READY of an order in a lane's book. -/
def State.readyNow (s : State) (k : OrderSlot) (o : Order) (l : LaneIx) : Bool :=
  o.live == o.remaining && (s.totesOf k).all (fun p => p.2.location == .lane l)

/-- R100: a READY order whose condition has become false becomes ROUTED and leaves the ready list. -/
def State.unready (s : State) (l : LaneIx) (e : ReadyEntry) : State :=
  match s.order? e.order with
  | none => s
  | some o =>
    if s.readyNow e.order o l then s
    else
      (s.modLane l (fun x => { x with ready := x.ready.filter (fun d => d.order != e.order) })).putOrder e.order
        { o with state := .routed l }

/-- R101: the collect timer's expiry for an order that joins the ready list now. -/
def State.collectExpiry (s : State) (o : Order) : Time :=
  match o.band with
  | some b => s.now + minutes (row s.cfg.bandActive b).collectInterval
  | none => s.now

/-- R100: a ROUTED order of the lane whose condition holds joins the tail of the ready list. -/
def State.promote (s : State) (l : LaneIx) (k : OrderSlot) : State :=
  match s.order? k with
  | none => s
  | some o =>
    if o.state = .routed l ∧ s.readyNow k o l then
      (s.modLane l (fun x => { x with ready := x.ready ++ [⟨k, s.collectExpiry o⟩] })).putOrder k
        { o with state := .ready l }
    else s

/-- The orders of a queue's known entries, window end first (log entry 29). -/
def State.queueOrders (s : State) (l : LaneIx) : List OrderSlot :=
  (s.lane l).queue.filterMap (fun e =>
    match e with
    | .known k => (s.tote? k).map (·.order)
    | .unknown _ => none)

/-- R100: a lane evaluates readiness for its orders. -/
def State.evalReadiness (s : State) (l : LaneIx) : State :=
  let t := (s.lane l).ready.foldl (fun t e => t.unready l e) s
  (t.queueOrders l).foldl (fun t k => t.promote l k) t

/-- R100: every lane evaluates readiness. -/
def State.readiness (s : State) : State := allLanes.foldl State.evalReadiness s

/-! ## Advance, unattended timer -/

/-- R91: the conditions of an advance. -/
def State.mayAdvance (s : State) (l : LaneIx) : Bool :=
  (s.lane l).window == .empty && (s.laneCfg l).give && s.laneOpen l && !(s.lane l).queue.isEmpty &&
    s.run.state != .estop

/-- R91: an advance starts where its conditions hold. -/
def State.advanceLane (s : State) (l : LaneIx) : State :=
  if s.mayAdvance l then
    (s.modLane l (fun x =>
      { x with window := .advancing, advance := some (s.now + milliseconds (s.laneCfg l).advanceLimit) })).hand
      (stopFrame (s.laneCfg l).station)
  else s

/-- R106: the unattended timer follows the queue and the run state. -/
def State.unattendedLane (s : State) (l : LaneIx) : State :=
  if (s.lane l).queue.isEmpty || s.run.state == .estop || !s.laneOpen l then
    s.modLane l (fun x => { x with unattended := .stopped })
  else if (s.lane l).unattended == .stopped then
    s.modLane l (fun x => { x with unattended := .running (s.now + seconds (s.laneCfg l).unattendedInterval) })
  else s

/-! ## Lamp and display -/

/-- Entry 0 is known and its order is READY. -/
def State.entry0Ready (s : State) (l : LaneIx) : Bool :=
  match (s.lane l).queue with
  | .known k :: _ =>
    match s.tote? k with
    | some t =>
      match s.order? t.order with
      | some o =>
        match o.state with
        | .ready _ => true
        | _ => false
      | none => false
    | none => false
  | _ => false

/-- R104: the derived lamp pattern. -/
def State.lampOf (s : State) (l : LaneIx) : Lamp :=
  if !s.laneOpen l then .off
  else if (s.lane l).queue.isEmpty && (s.lane l).foreign.isNone then .off
  else if (s.lane l).attention then .attention
  else if (s.lane l).window == .presented && s.entry0Ready l then .steady
  else .slow

/-- R103: the derived display content. -/
def State.displayOf (s : State) (l : LaneIx) : List Nat :=
  ((s.lane l).ready.take 4).map (fun e => s.ticketOf e.order)

/-- R103, R104: a LAMP where the pattern changed or the lane is `forced` (R185, R186). -/
def State.updateLamp (s : State) (l : LaneIx) (forced : Bool) : State :=
  if forced || (s.lane l).lamp != s.lampOf l then
    (s.modLane l (fun x => { x with lamp := s.lampOf l })).hand (lampFrame (s.laneCfg l).station (s.lampOf l))
  else s

/-- R103: a DISPLAY where the content changed or the lane is `forced`. -/
def State.updateDisplay (s : State) (l : LaneIx) (forced : Bool) : State :=
  if forced || (s.lane l).display != s.displayOf l then
    (s.modLane l (fun x => { x with display := s.displayOf l })).hand
      (displayFrame (s.laneCfg l).station (s.displayOf l))
  else s

/-- R104: the LAMP is handed before the DISPLAY. -/
def State.updateCounter (s : State) (l : LaneIx) (forced : Bool) : State :=
  (s.updateLamp l forced).updateDisplay l forced

/-- R107: the lane's content is handed over again after a STATION-UP. -/
def State.resendCounter (s : State) (l : LaneIx) : State :=
  (s.hand (lampFrame (s.laneCfg l).station (s.lane l).lamp)).hand
    (displayFrame (s.laneCfg l).station (s.lane l).display)

end Sys2Proof.Machine
end

