-- ==== Sys2Proof/Machine/Merge.lean ====
section
/-! DEFINITION. The Induct and Merge Unit (chapter 7): releasable heads, the merge arbiter, grants and the
throttle; and the merge hold. -/

namespace Sys2Proof.Machine

/-! ## The throttle (R138, R139) -/

/-- R139: the throttle allows induct grants. -/
def State.throttleAllows (s : State) : Bool :=
  !s.throttle.throttled || s.throttle.monitorCount < s.cfg.throttle.windowMax

/-- R138, R139: an induct grant is counted. -/
def Throttle.countGrant (t : Throttle) : Throttle :=
  { t with
    samplingCount := min 65535 (t.samplingCount + 1)
    monitorCount := if t.throttled then t.monitorCount + 1 else t.monitorCount }

/-- R139: the throttle returns to NORMAL; the sampling window runs on. -/
def Throttle.toNormal (t : Throttle) : Throttle :=
  { t with throttled := false, windowsLeft := 0, monitorTimer := none, monitorCount := 0 }

/-- R139: a trigger that starts or renews THROTTLED. -/
def State.throttleStart (s : State) : State :=
  let t := s.throttle
  let left := s.cfg.throttle.duration
  if t.throttled then { s with throttle := { t with windowsLeft := left } }
  else
    { s with throttle :=
        { t with
          throttled := true, windowsLeft := left, monitorCount := 0
          monitorTimer := some (s.now + tenths s.cfg.throttle.monitorWindow) } }

/-- R138, R140: a trigger, by the profile's mode. -/
def State.throttleTrigger (s : State) : State :=
  match s.cfg.throttle.mode with
  | .none => s
  | .monitor => s.raise .throttle
  | .count => s.throttleStart.raise .throttle
  | .load => s.throttleStart.raise .throttle
  | .countLoad => s.throttleStart.raise .throttle

/-- R138: the count test and the load test of a mode at the end of a sampling window. -/
def State.throttleTests (s : State) : Bool :=
  let count := s.cfg.throttle.threshold < s.throttle.samplingCount
  let load := s.cfg.throttle.loadMark ≤ s.loopOccupancy
  match s.cfg.throttle.mode with
  | .none => false
  | .monitor => count || load
  | .count => count
  | .load => load
  | .countLoad => count || load

/-- R138 step 1. -/
def Throttle.windowEnds (t : Throttle) : Throttle :=
  if t.throttled then { t with windowsLeft := t.windowsLeft - 1 } else t

/-- R138, R139: the end of a sampling window: the windows left fall, the tests are made, the count becomes
0 and the timer starts again; with no trigger and no windows left the throttle returns to NORMAL. -/
def State.samplingEnds (s : State) : State :=
  let t := { s with throttle := s.throttle.windowEnds }
  let u :=
    if s.throttleTests then t.throttleTrigger
    else t
  let v :=
    if u.throttle.throttled && u.throttle.windowsLeft == 0 then { u with throttle := u.throttle.toNormal } else u
  { v with throttle :=
      { v.throttle with
        samplingCount := 0, samplingTimer := some (s.now + seconds s.cfg.throttle.samplingWindow) } }

/-- R139: the next monitor window. -/
def State.monitorRestart (s : State) : State :=
  { s with throttle :=
      { s.throttle with monitorCount := 0, monitorTimer := some (s.now + tenths s.cfg.throttle.monitorWindow) } }

/-! ## Releasable heads (R130) -/

/-- An induct head that is a known entry: its tote. -/
def State.knownHead (s : State) (i : InductIx) : Option ToteSlot :=
  match s.queue i with
  | e :: _ => e.tote
  | [] => none

def State.inductReleasable (s : State) (i : InductIx) : Bool :=
  (s.inductCfg i).present && (s.knownHead i).isSome && s.run.state == .running && s.drive.state == .running &&
    s.merge.hold.isNone && s.throttleAllows

def State.beltReleasable (s : State) : Bool :=
  s.merge.head != .absent && s.trackRuns && s.drive.state == .running && s.merge.hold.isNone

/-- R130: a claimant stands. -/
def State.claimant (s : State) : Bool :=
  (allInducts.any (fun i => (s.inductCfg i).present && (s.knownHead i).isSome) && s.run.state == .running &&
      s.throttleAllows) ||
    (!s.beltEmpty && s.trackRuns)

/-- R132 rule 2: the priority of an induct head's order. -/
def State.headPriority (s : State) (i : InductIx) : Nat :=
  match s.knownHead i with
  | some k =>
    match s.tote? k with
    | some t =>
      match s.order? t.order with
      | some o => o.priority
      | none => 0
    | none => 0
  | none => 0

/-- R132 rule 3: the induct lanes from the one after the pointer to the pointer's own. -/
def inductsAfter (p : InductIx) : List InductIx := [p + 1, p + 2, p + 3, p]

/-- R132 rules 2 and 3: the induct head that the arbiter takes. -/
def State.chooseInduct (s : State) : Option InductIx :=
  let heads := (inductsAfter s.merge.pointer).filter s.inductReleasable
  heads.find? (fun i => heads.all (fun j => s.headPriority j ≤ s.headPriority i))

/-! ## Grants (R131, R133 to R135) -/

/-- R131: the merge hold starts, or restarts with its full length; after the merge gap was lowered in a hold a
restart can end it earlier than the end it replaces (log entry 42). -/
def State.holdMerge (s : State) : State :=
  { s with merge := { s.merge with hold := some (s.now + milliseconds s.cfg.site.mergeGap) } }

/-- R133, R134: a granted tote enters the loop. -/
def State.releaseTote (s : State) (k : ToteSlot) (limit : Nat) : State :=
  s.placeOnLoop k (fun t =>
    { t with laps := 0, lastGate := none, deadline := some (s.deadlineFromMerge limit) })

/-- R135: the order of a granted tote. -/
def State.firstReleaseOf (s : State) (k : ToteSlot) : State :=
  match s.tote? k with
  | some t => s.firstRelease t.order
  | none => s

/-- R133: a grant of the head of an induct lane, whose tote is k. -/
def State.grantInduct (s : State) (i : InductIx) (k : ToteSlot) : State :=
  let t := s.hand (stopFrame (s.inductCfg i).station)
  let t := (t.putQueue i (s.queue i).tail).releaseTote k (s.inductCfg i).transitLimit
  let t := t.holdMerge
  let t := { t with merge := { t.merge with pointer := i }, throttle := t.throttle.countGrant }
  (t.firstReleaseOf k).restartIdle

/-- R134: a grant of the return-belt head. -/
def State.grantBelt (s : State) : State :=
  let t := s.hand (stopFrame s.cfg.site.returnStation)
  let t := { t with merge := { t.merge with head := .absent } }
  match s.merge.head with
  | .known k => (((t.releaseTote k s.cfg.site.returnTransitLimit).holdMerge).firstReleaseOf k).restartIdle
  | .unnamed => t.holdMerge.restartIdle
  | .absent => s

/-- R132: the merge arbiter; one evaluation gives at most one grant. -/
def State.grant (s : State) : State :=
  if s.beltReleasable then s.grantBelt
  else
    match s.chooseInduct with
    | some i =>
      match s.knownHead i with
      | some k => s.grantInduct i k
      | none => s
    | none => s

end Sys2Proof.Machine
end

