-- ==== Sys2Proof/Machine/Ring.lean ====
section
/-! DEFINITION. The Ring Port's transmit side (chapter 9): the queues, the ring-output arbiter, and the
end of an event, in which the frames handed over are placed and a NOTICE follows a rise. -/

namespace Sys2Proof.Machine

/-- R162: the urgent class. -/
def isUrgent (kind : Byte) : Bool :=
  kind == Kind.blade || kind == Kind.stop || kind == Kind.chute || kind == Kind.drive

/-- R164 and log entry 7: a frame holds RING OUT for ten bit times a byte and the gap of 20 bit times. -/
def Frame.span (f : Frame) : Time := 7 + f.payload.length + 2

/-- The head readers' place in the reader status table (section 3.1). -/
def headReader (l : LaneIx) : ReaderIx := ⟨20 + l.val, by omega⟩

/-- R53: a SCAN for this station begins transmission. The report goes to the lowest head reader that
names the station and is in WAIT with scan pending; that reader's window opens for 250 ms. -/
def State.scanReport (s : State) (station : Nat) : State :=
  match allLanes.find? (fun l => s.lanePresent l && (s.laneCfg l).station == station &&
      (s.reader (headReader l)).cycle == .wait && (s.reader (headReader l)).scanPending) with
  | some l =>
    s.putReader (headReader l)
      { s.reader (headReader l) with cycle := .opened, scanPending := false, window := some (s.now + milliseconds 250) }
  | none => s

/-- R165: a frame begins transmission; a SCAN is reported to the Reader Unit (log entry 27). -/
def State.begin (s : State) (f : Frame) : State :=
  let t := { s with ring := { s.ring with transmission := some ⟨f, s.now + Frame.span f⟩ } }
  if f.kind == Kind.scan then t.scanReport f.dest.toNat else t

/-- R164: the wait count grows, to 8 at most, when another class goes while a routine frame waits. -/
def State.countWait (s : State) : State :=
  if s.ring.routine.isEmpty then s
  else { s with ring := { s.ring with waitCount := min 8 (s.ring.waitCount + 1) } }

/-- R164: the routine head goes, and the wait count becomes 0. -/
def State.sendRoutine (s : State) (f : Frame) (rest : List Frame) : State :=
  { s with ring := { s.ring with routine := rest, waitCount := 0 } }.begin f

def State.sendUrgent (s : State) (f : Frame) (rest : List Frame) : State :=
  ({ s with ring := { s.ring with urgent := rest } }.countWait).begin f

def State.sendForward (s : State) (f : Frame) (rest : List Frame) : State :=
  ({ s with ring := { s.ring with forward := rest } }.countWait).begin f

/-- R164: the ring-output arbiter, while RING OUT is free. R166 has the DRIVE HALT of an entry into ESTOP go first
at the next choice; rule 1 of R164 goes before it where the routine wait count is 8 (log entry 45). -/
def State.choose (s : State) : State :=
  match s.ring.urgent, s.ring.forward, s.ring.routine with
  | [], [], [] => s
  | [], [], r :: rs => s.sendRoutine r rs
  | [], f :: fs, [] => s.sendForward f fs
  | [], f :: fs, r :: rs => if s.ring.waitCount = 8 then s.sendRoutine r rs else s.sendForward f fs
  | u :: us, _, [] => s.sendUrgent u us
  | u :: us, _, r :: rs => if s.ring.waitCount = 8 then s.sendRoutine r rs else s.sendUrgent u us

/-- R164: when RING OUT becomes free: the end of the transmission under way, its gap included, or of the gap
that a reset has left; none where it is free. -/
def RingPort.ends (p : RingPort) : Option Time :=
  match p.transmission with
  | some x => some x.ends
  | none => p.gap

/-- R164, R167: the idle gap still owed when a reset cuts a transmission off at this moment: two byte times,
or what is left of a gap already running (log entry 44). -/
def RingPort.gapLeft (p : RingPort) (now : Time) : Option Time :=
  match p.ends with
  | some e => if now < e then some (min e (now + 2)) else none
  | none => none

/-- R164: the arbiter chooses when RING OUT is free: no frame in transmission and no gap owed. -/
def State.arbitrate (s : State) : State :=
  if s.ring.transmission.isSome || s.ring.gap.isSome then s else s.choose

/-- R163 rows 1 to 3: the frames that take new content in place: LAMP and DISPLAY for one station, and
NOTICE. -/
def coalesces (f g : Frame) : Bool :=
  f.kind == g.kind && f.dest == g.dest &&
    (f.kind == Kind.lamp || f.kind == Kind.display || f.kind == Kind.notice)

/-- R163: the queued frame that a new one replaces keeps its place. -/
def replaceIn (f : Frame) (q : List Frame) : List Frame :=
  match q with
  | [] => []
  | g :: r => if coalesces f g then f :: r else g :: replaceIn f r

/-- R162: the urgent queue never coalesces and holds 16 frames. -/
def State.placeUrgent (s : State) (f : Frame) : State :=
  if s.ring.urgent.length < 16 then { s with ring := { s.ring with urgent := s.ring.urgent ++ [f] } }
  else s.raise .txOverrun

/-- R163: the routine queue holds 32 frames. -/
def State.placeRoutine (s : State) (f : Frame) : State :=
  if s.ring.routine.any (coalesces f) then
    { s with ring := { s.ring with routine := replaceIn f s.ring.routine } }
  else if s.ring.routine.length < 32 then
    { s with ring := { s.ring with routine := s.ring.routine ++ [f] } }
  else s.raise .txOverrun

/-- R159: the forward buffer holds 4 frames. -/
def State.placeForward (s : State) (f : Frame) : State :=
  if s.ring.forward.length < 4 then { s with ring := { s.ring with forward := s.ring.forward ++ [f] } }
  else s.raise .forwardDrop

/-- A frame goes to the queue of its class, and at once to RING OUT where that is idle (R164). A frame
that is not the part's own is one to forward. -/
def State.place (s : State) (f : Frame) : State :=
  (if f.src != byte Config.ringAddress then s.placeForward f
    else if isUrgent f.kind then s.placeUrgent f
    else s.placeRoutine f).arbitrate

/-- The frames handed over in the event are placed in the order of hand-over. -/
def State.placeAll (s : State) : State :=
  s.ring.outbox.foldl State.place { s with ring := { s.ring with outbox := [] } }

/-- R180: a NOTICE with the whole flag set, where an enabled flag went from clear to set. A NOTICE that
cannot be queued raises TX-OVERRUN; the second NOTICE that this rise would hand meets the same full
queue and changes nothing more. -/
def State.notify (s : State) (before : BitVec 20) : State :=
  if enabledRises before s = 0 then s else s.place (noticeFrame s.req.flags)

/-- The end of an event that began in state `before` (log entry 8). -/
def closeEvent (before s : State) : State := s.placeAll.notify before.req.flags

end Sys2Proof.Machine
end

