-- ==== Sys2Proof/Machine/Settle.lean ====
section
/-! DEFINITION. Changes of the run state (sections 8.2, 8.3), and the settling of a track event: what
other blocks do in the same event because of it (log entry 35). -/

namespace Sys2Proof.Machine

/-! ## The readers at a change of the run state (R54, R59) -/

/-- R49, R57: a triggered reader becomes IDLE. -/
def Reader.toIdle (x : Reader) : Reader :=
  { x with cycle := .idle, window := none, scanPending := false, scanTimer := none }

/-- R52: a head reader enters WAIT with its scan interval timer started. -/
def Reader.toWait (x : Reader) (expiry : Time) : Reader :=
  { x with cycle := .wait, window := none, scanPending := false, scanTimer := some expiry }

def State.mapReaders (s : State) (f : Reader → Reader) : State := { s with readers := s.readers.map f }

/-- R59: the gate readers' windows are abandoned. -/
def State.idleGates (s : State) : State :=
  { s with readers := s.readers.mapIdx (fun i x => if i < 16 then x.toIdle else x) }

/-- R52: the head reader of a lane comes into service. -/
def State.startScan (s : State) (l : LaneIx) : State :=
  s.putReader (headReader l)
    ((s.reader (headReader l)).toWait (s.now + milliseconds (s.laneCfg l).scanInterval))

/-! ## Entering STOPPED and ESTOP -/

/-- R81: every deadline is cleared. -/
def State.clearDeadlines (s : State) : State := s.mapTotes (fun t => { t with deadline := none })

/-- R81, R141, R155, R59: what entering STOPPED from HALTING does. -/
def State.enterStopped (s : State) : State :=
  ({ s with run := { s.run with state := .stopped, haltTimer := none }, throttle := .reset }.clearDeadlines.idleGates).driveOff
    false

/-- R166: the urgent queue is emptied, and with it the urgent frames handed over earlier in this event. -/
def RingPort.flush (p : RingPort) : RingPort :=
  { p with
    urgent := []
    outbox := p.outbox.filter (fun f => !(f.src == byte Config.ringAddress && isUrgent f.kind)) }

/-- R108: a lane on entry into ESTOP. -/
def Lane.estop (x : Lane) : Lane :=
  { x with
    window := if x.window = .advancing then .held else x.window
    advance := none
    incoming := x.incoming.map (fun e => { e with confirm := none })
    unattended := .stopped }

/-- R119: the will-call confirm timers are cancelled. -/
def WillCall.estop (w : WillCall) : WillCall :=
  { w with incoming := w.incoming.map (fun e => { e with confirm := none }) }

/-- R150: the entry effects of ESTOP. -/
def State.enterEstop (s : State) : State :=
  ({ s with
      run := { s.run with state := .estop, haltTimer := none }
      throttle := .reset
      ring := s.ring.flush
      readers := s.readers.map Reader.toIdle
      lanes := s.lanes.map Lane.estop
      willcall := s.willcall.estop }.clearDeadlines).driveOff true

/-- R149: an emergency stop is ordered: ESTOP is entered where it does not stand, and flag ESTOP is raised. -/
def State.orderEstop (s : State) : State :=
  (if s.run.state == .estop then s else s.enterEstop).raise .estop

/-! ## Settling -/

/-- R91, R106: a lane's advance and unattended timer. -/
def State.runLane (s : State) (l : LaneIx) : State := (s.advanceLane l).unattendedLane l

/-- The lanes settle: advances, unattended timers, readiness (log entry 25). -/
def State.laneStep (s : State) : State := (allLanes.foldl State.runLane s).readiness

/-- R147: the test of HALTING. -/
def State.haltTest (s : State) : State :=
  if s.run.state == .halting && s.loopOccupancy == 0 && s.beltEmpty then s.enterStopped else s

/-- R34: some lane has become OVERBOOKED since state `before`. -/
def State.newlyOverbooked (before s : State) : Bool := allLanes.any (fun l => s.overbooked l && !before.overbooked l)

/-- R130, R154: a claimant report where the condition has become true. -/
def State.reportClaimant (before s : State) : State := if s.claimant && !before.claimant then s.driveReport else s

/-- What follows from the state the event leaves: OVERBOOKED (R34), the claimant report (R130), lamps and
displays (R103, R104); the lanes in `forced` hand both frames whatever they held (R185, R186). -/
def finishTrack (forced : List LaneIx) (before s : State) : State :=
  allLanes.foldl (fun t l => t.updateCounter l (forced.contains l))
    (State.reportClaimant before (s.raiseIf (State.newlyOverbooked before s) .overbooked))

/-- The settling of an event of a lane, which can give no grant and empty no loop. -/
def settleLanesWith (forced : List LaneIx) (before s : State) : State := finishTrack forced before s.laneStep

def settleLanes (before s : State) : State := settleLanesWith [] before s

/-- The settling of an event that can give a grant (R132) or end HALTING (R147). -/
def settle (before s : State) : State := finishTrack [] before s.grant.laneStep.haltTest

end Sys2Proof.Machine
end

