-- ==== Sys2Proof/Machine/Route.lean ====
section
/-! DEFINITION. The Route Resolver's decisions at the gates (chapter 4), the Will-Call Controller
(chapter 6) and the induct and return-head reads: what each owner of a triggered reader does with a
delivered result (R55). -/

namespace Sys2Proof.Machine

/-! ## Gates -/

/-- R66: the loop update of a read at gate g. -/
def State.loopUpdate (s : State) (g : GateIx) (k : ToteSlot) : State :=
  s.modTote k (fun t =>
    { t with sighting := some .seen, lastGate := some g, deadline := some (s.deadlineFrom g s.now) })

/-- R65, R14: a tote recorded elsewhere is relocated to the loop; the lanes evaluate readiness. -/
def State.relocateToLoop (s : State) (k : ToteSlot) (loc : Location) : State :=
  if loc = .loop then s
  else (((s.removeTote k).raise .strayTote).placeOnLoop k id).readiness

/-- R11: one more lap, up to the lap limit. -/
def State.countLap (s : State) (k : ToteSlot) : State :=
  s.modTote k (fun t => { t with laps := min s.cfg.site.lapLimit (t.laps + 1) })

/-- The order of a tote with its slot. -/
def State.orderOf (s : State) (k : ToteSlot) : Option (OrderSlot × Order) :=
  match s.tote? k with
  | some t => (s.order? t.order).map (fun o => (t.order, o))
  | none => none

def State.lapsOf (s : State) (k : ToteSlot) : Nat :=
  match s.tote? k with
  | some t => t.laps
  | none => 0

/-- R68 step 4: an order still UNASSIGNED whose tote stands at the lap limit enters WILLCALL(LAPPED). -/
def State.lapLimit (s : State) (k : ToteSlot) (o : OrderSlot) : State :=
  match s.order? o with
  | some r => if r.state = .unassigned ∧ s.lapsOf k = s.cfg.site.lapLimit then s.enterWillcall o .lapped else s
  | none => s

/-- R68: the decision at the lap gate. -/
def State.lapGate (s : State) (k : ToteSlot) : State :=
  let t := s.countLap k
  match t.orderOf k with
  | some (o, r) => if r.state = .unassigned then (t.attempt o).lapLimit k o else t
  | none => t

/-- R35: a lane's answer to an admission request. -/
inductive Admission where
  | closed | takeOff | full | granted
  deriving DecidableEq, Repr

def State.admission (s : State) (l : LaneIx) : Admission :=
  if !s.laneOpen l || s.overbooked l then .closed
  else if !(s.laneCfg l).take then .takeOff
  else if s.occupied l + s.incoming l = (s.laneCfg l).capacity then .full
  else .granted

/-- R12: a trail entry for a tote. -/
def State.push (s : State) (k : ToteSlot) (g : GateIx) (o : Outcome) : State :=
  s.modTote k (fun t => { t with trail := pushTrail ⟨g, o⟩ t.trail })

/-- R70: the divert of a tote into a lane. -/
def State.divert (s : State) (g : GateIx) (l : LaneIx) (k : ToteSlot) : State :=
  let t := s.hand (bladeFrame (s.gateCfg g).station)
  let t := t.modLane l (fun x =>
    { x with incoming := x.incoming ++ [⟨k, some (s.now + milliseconds (s.laneCfg l).confirmLimit)⟩] })
  (t.modTote k (fun r => { r with location := .incoming l, sighting := none, deadline := none })).push k g .diverted

/-- R39: the lane that the order of a tote can be redirected to. -/
def State.redirectTo (s : State) (l : LaneIx) (o : OrderSlot) (r : Order) : Option LaneIx :=
  match (s.laneCfg l).alternate, r.band with
  | some a, some b =>
    if s.toteCountIn o l = 0 ∧ s.candidate (row s.cfg.bandActive b) r.remaining a then some a else none
  | _, _ => none

def Outcome.isRefusal (o : Outcome) : Bool :=
  match o with
  | .diverted => false
  | .redirected => false
  | .refusedFull => true
  | .refusedTake => true
  | .refusedClosed => true

/-- R74: the newest refusal-limit entries are all there and all refusals. -/
def refusalsMet (limit : Nat) (trail : List TrailEntry) : Bool :=
  limit ≤ trail.length && (trail.drop (trail.length - limit)).all (fun e => e.outcome.isRefusal)

/-- R72, R74: a refusal, and the refusal rule. -/
def State.refuse (s : State) (k : ToteSlot) (g : GateIx) (o : OrderSlot) (why : Outcome) : State :=
  let t := s.push k g why
  match t.tote? k with
  | some r => if refusalsMet s.cfg.site.refusalLimit r.trail then t.enterWillcall o .refused else t
  | none => t

/-- R73: TAKE-OFF. -/
def State.takeOff (s : State) (g : GateIx) (l : LaneIx) (k : ToteSlot) (o : OrderSlot) (r : Order) : State :=
  match s.redirectTo l o r with
  | some a => (s.routeTo o a).push k g .redirected
  | none => s.refuse k g o .refusedTake

/-- R69: the decision at a lane gate. -/
def State.laneGate (s : State) (g : GateIx) (l : LaneIx) (k : ToteSlot) : State :=
  match s.orderOf k with
  | some (o, r) =>
    if r.assignedTo l then
      match s.admission l with
      | .granted => s.divert g l k
      | .takeOff => s.takeOff g l k o r
      | .full => s.refuse k g o .refusedFull
      | .closed => s.refuse k g o .refusedClosed
    else s
  | none => s

/-- R116: the will-call spur has room. -/
def State.willcallRoom (s : State) : Bool := s.willcallCount < s.cfg.site.willcallCapacity

/-- R75, R117: the divert of a tote into the will-call spur. -/
def State.divertWillcall (s : State) (g : GateIx) (k : ToteSlot) : State :=
  let t := s.hand (bladeFrame (s.gateCfg g).station)
  let e : Incoming := ⟨k, some (s.now + milliseconds s.cfg.site.willcallConfirmLimit)⟩
  { t with willcall := { t.willcall with incoming := t.willcall.incoming ++ [e] } }.modTote k
    (fun r => { r with location := .willcallIncoming, sighting := none, deadline := none })

/-- R75: the decision at the will-call gate. -/
def State.willcallGate (s : State) (g : GateIx) (k : ToteSlot) : State :=
  match s.orderOf k with
  | some (_, r) =>
    match r.state with
    | .willcall _ => if s.willcallRoom then s.divertWillcall g k else s.raise .willcallFull
    | .unassigned => s
    | .routed _ => s
    | .ready _ => s
  | none => s

/-- R65: the decision by the kind of the gate. -/
def State.decide (s : State) (g : GateIx) (k : ToteSlot) : State :=
  match (s.gateCfg g).kind with
  | .lap => s.lapGate k
  | .lane => s.laneGate g (s.gateCfg g).lane k
  | .willcall => s.willcallGate g k
  | .track => s

/-- R65: a delivered result at gate g. -/
def State.gateResult (s : State) (g : GateIx) (r : ReadResult) : State :=
  match r with
  | .tag t =>
    match s.findTote t with
    | some (k, x) => ((s.relocateToLoop k x.location).loopUpdate g k).decide g k
    | none => s.raise .strayTote
  | .noread => s
  | .empty => s
  | .none => s

/-! ## Inducts (R126, R127) -/

/-- An entry joins the tail of an induct queue. -/
def State.appendInduct (s : State) (i : InductIx) (e : InductItem) : State := s.putQueue i (s.queue i ++ [e])

/-- R126: a known entry joins the tail of induct queue i, its record removed from its place before. -/
def State.appendKnown (s : State) (i : InductIx) (k : ToteSlot) (tag : Nat) : State :=
  ((s.removeTote k).appendInduct i ⟨some tag, some k⟩).modTote k (fun t => { t with location := .induct i })

/-- R126: a TAG of a tag with a record. -/
def State.inductKnown (s : State) (i : InductIx) (k : ToteSlot) (x : Tote) : State :=
  if x.location = .induct i then (s.appendKnown i k x.tag).raise .strayTote
  else if (s.queue i).length = 4 then s.raise .inductOverfill
  else if x.location = .unplaced then s.appendKnown i k x.tag
  else (s.appendKnown i k x.tag).raise .strayTote

/-- R126, R127: a tote that names no record: a stray entry with its tag, or an unread one. -/
def State.inductStray (s : State) (i : InductIx) (tag : Option Nat) : State :=
  if (s.queue i).length < 4 then (s.appendInduct i ⟨tag, none⟩).raise .strayTote
  else s.raise .inductOverfill

def State.inductResult (s : State) (i : InductIx) (r : ReadResult) : State :=
  match r with
  | .tag t =>
    match s.findTote t with
    | some (k, x) => s.inductKnown i k x
    | none => s.inductStray i (some t)
  | .noread => s.inductStray i none
  | .empty => s.inductStray i none
  | .none => s.inductStray i none

/-! ## The return head (R113, R114) -/

def State.setHead (s : State) (h : BeltHead) : State := { s with merge := { s.merge with head := h } }

/-- R113, R114: a TAG of a tag with a record. -/
def State.headKnown (s : State) (k : ToteSlot) (x : Tote) : State :=
  if x.location = .returnBelt then s.setHead (.known k)
  else if s.beltRoom then ((s.pushTote k).setHead (.known k)).raise .strayTote
  else (s.setHead .unnamed).raise .strayTote

def State.returnHeadResult (s : State) (r : ReadResult) : State :=
  match r with
  | .tag t =>
    match s.findTote t with
    | some (k, x) => s.headKnown k x
    | none => (s.setHead .unnamed).raise .strayTote
  | .noread => s.setHead .unnamed
  | .empty => s.setHead .unnamed
  | .none => s.setHead .unnamed

/-! ## The will-call spur (R118 to R121) -/

/-- R118: a WILLCALL-ENTRY eye. -/
def State.willcallEntry (s : State) : State :=
  match s.willcall.incoming with
  | e :: rest =>
    { s with willcall := WillCall.mk rest (s.willcall.list ++ [Stay.mk e.tote s.now]) }.modTote e.tote
      (fun t => { t with location := .willcall })
  | [] => s.raise .strayTote

/-- R120, R121: a delivered exit result. -/
def State.exitResult (s : State) (r : ReadResult) : State :=
  match r with
  | .tag t =>
    match s.findTote t with
    | some (k, x) => if x.location = .willcall then s.freeDone k else (s.raise .strayTote).freeDone k
    | none => s.raise .strayTote
  | .noread =>
    match s.willcall.list with
    | e :: _ => s.freeDone e.tote
    | [] => s
  | .empty => s
  | .none => s

end Sys2Proof.Machine
end

