-- ==== Sys2Proof/Machine/Readers.lean ====
section
/-! DEFINITION. The Reader Unit (chapter 3): the 34 readers, eyes, results, windows and scan cycles. -/

namespace Sys2Proof.Machine

/-- Section 3.1: what a reader index stands for. -/
inductive Role where
  | gate (g : GateIx)
  | induct (i : InductIx)
  | head (l : LaneIx)
  | returnHead
  | exit
  deriving DecidableEq, Repr

/-- Section 3.1: the reader index table. -/
def roleOf (r : ReaderIx) : Role :=
  if g : r.val < 16 then .gate ⟨r.val, g⟩
  else if i : r.val - 16 < 4 then .induct ⟨r.val - 16, i⟩
  else if l : r.val - 20 < 12 then .head ⟨r.val - 20, l⟩
  else if r.val = 32 then .returnHead
  else .exit

/-- Section 3.1: the station a reader is directed by. -/
def State.stationOf (s : State) (r : ReaderIx) : Nat :=
  match roleOf r with
  | .gate g => (s.gateCfg g).station
  | .induct i => (s.inductCfg i).station
  | .head l => (s.laneCfg l).station
  | .returnHead => s.cfg.site.returnStation
  | .exit => s.cfg.site.willcallStation

/-- R44: enabled. -/
def State.enabled (s : State) (r : ReaderIx) : Bool :=
  match roleOf r with
  | .gate g => (s.gateCfg g).present
  | .induct i => (s.inductCfg i).present
  | .head l => s.lanePresent l
  | .returnHead => true
  | .exit => true

/-- R44: in service, for an enabled reader. -/
def State.inService (s : State) (r : ReaderIx) : Bool :=
  match roleOf r with
  | .gate _ => s.trackRuns
  | .induct _ => s.run.state != .estop
  | .head l => s.laneOpen l && s.run.state != .estop
  | .returnHead => s.run.state != .estop
  | .exit => s.run.state != .estop

/-- Section 3.1: the window length. -/
def State.windowLength (s : State) (r : ReaderIx) : Time :=
  match roleOf r with
  | .gate g => milliseconds (s.gateCfg g).decisionWindow
  | .induct _ => milliseconds 250
  | .head _ => milliseconds 250
  | .returnHead => milliseconds 250
  | .exit => milliseconds 250

/-- Section 3.1: the setting "discard first read". -/
def State.discardFirst (s : State) (r : ReaderIx) : Bool :=
  match roleOf r with
  | .gate g => (s.gateCfg g).discardFirst
  | .induct i => (s.inductCfg i).discardFirst
  | .head l => (s.laneCfg l).discardFirst
  | .returnHead => s.cfg.site.discardFirst
  | .exit => s.cfg.site.discardFirst

/-! ## Eyes (R46 to R48) -/

/-- R46: the readers that serve each trigger role, in rising index order. -/
def gateReaders : List ReaderIx := [0, 1, 2, 3, 4, 5, 6, 7, 8, 9, 10, 11, 12, 13, 14, 15]
def inductReaders : List ReaderIx := [16, 17, 18, 19]
def returnHeadReader : ReaderIx := 32
def exitReader : ReaderIx := 33

/-- R47: a window opens. -/
def State.openWindow (s : State) (r : ReaderIx) : State :=
  s.putReader r { s.reader r with cycle := .opened, window := some (s.now + s.windowLength r) }

/-- R48: an EYE at an open window. -/
def State.crowd (s : State) (r : ReaderIx) : State :=
  (s.putReader r { s.reader r with crowded := true }).raise .readCrowded

/-- R47, R48: an EYE that reaches a triggered reader. -/
def State.eyeAt (s : State) (r : ReaderIx) : State :=
  if s.inService r then
    match (s.reader r).cycle with
    | .idle => s.openWindow r
    | .opened => s.crowd r
    | .wait => s
  else s

/-- R46: an EYE goes to the lowest enabled reader of its role whose station it names. -/
def State.eye (s : State) (rs : List ReaderIx) (station : Nat) : State :=
  match rs.find? (fun r => s.enabled r && s.stationOf r == station) with
  | some r => s.eyeAt r
  | none => s

/-! ## Completion and delivery (R49, R50, R53, R55, R56) -/

/-- R56: the fresh mark discards the cycle. -/
def State.discards (s : State) (r : ReaderIx) : Bool := (s.reader r).fresh && s.discardFirst r

/-- R49, R50, R53, R56: the Reader Unit's own state after a completion (log entry 12). -/
def State.finishCycle (s : State) (r : ReaderIx) (res : ReadResult) : State :=
  let x := { s.reader r with fresh := false, last := some ⟨res, s.discards r⟩ }
  match roleOf r with
  | .head l => s.putReader r (x.toWait (s.now + milliseconds (s.laneCfg l).scanInterval))
  | .gate _ => (s.putReader r x.toIdle).restartIdle
  | .induct _ => s.putReader r x.toIdle
  | .returnHead => s.putReader r x.toIdle
  | .exit => s.putReader r x.toIdle

/-- R49, R56: the result as it is delivered. -/
def State.delivered (s : State) (r : ReaderIx) (res : ReadResult) : ReadResult :=
  if s.discards r then .none else res

/-- R55: the owner acts on the delivered result. A triggered reader's owner takes EMPTY as NONE (R49). -/
def State.deliver (s : State) (r : ReaderIx) (res : ReadResult) : State :=
  match roleOf r with
  | .gate g => s.gateResult g res
  | .induct i => s.inductResult i res
  | .head l => s.headResult l res
  | .returnHead => s.returnHeadResult res
  | .exit => s.exitResult res

/-- A reader's cycle completes, its owner acts and the track settles, in one event. -/
def State.complete (s : State) (r : ReaderIx) (res : ReadResult) : State :=
  settle s ((s.finishCycle r res).deliver r (s.delivered r res))

/-- R46: the reader that a TAG, NOREAD or EMPTY frame completes: the lowest enabled OPEN reader of the
station. A frame for no OPEN reader is late or ignored (R51) and changes nothing. -/
def State.openReaderOf (s : State) (station : Nat) : Option ReaderIx :=
  allReaders.find? (fun r => s.enabled r && s.stationOf r == station && (s.reader r).cycle == .opened)

/-- R46, R49, R51, R53: a result frame. -/
def State.resultFrame (s : State) (station : Nat) (res : ReadResult) : State :=
  match s.openReaderOf station with
  | some r => s.complete r res
  | none => s

/-- R46: a TAG value of 0 or above 4095 is taken as NOREAD. -/
def tagResult (value : Nat) : ReadResult := if 1 ≤ value ∧ value ≤ 4095 then .tag value else .noread

/-! ## Scans (R52) -/

/-- R52: the scan interval timer of lane l's head reader expires. The SCAN is queued where the routine
queue has room; otherwise the cycle is skipped, and the frame handed over raises TX-OVERRUN. -/
def State.scanDue (s : State) (l : LaneIx) : State :=
  let x := s.reader (headReader l)
  let y : Reader :=
    if s.ring.routine.length < 32 then { x with scanPending := true, scanTimer := none }
    else { x with scanTimer := some (s.now + milliseconds (s.laneCfg l).scanInterval) }
  (s.putReader (headReader l) y).hand (scanFrame (s.laneCfg l).station)

/-! ## Changes under an open window (R57, R58) -/

/-- R57: a write to its entry abandons a triggered reader's window. -/
def State.abandon (s : State) (r : ReaderIx) : State := s.putReader r (s.reader r).toIdle

/-- R58: the reader is enabled: it takes the fresh mark. -/
def State.freshen (s : State) (r : ReaderIx) : State := s.putReader r { s.reader r with fresh := true }

/-- R57, R58: the triggered reader of a written entry, present before or not. -/
def State.writtenTriggered (s : State) (r : ReaderIx) (was is : Bool) : State :=
  let t := s.abandon r
  if is && !was then t.freshen r else t

/-- R57: a scan reader that remains in service restarts from WAIT where it was OPEN or its SCAN pending. -/
def State.writtenHead (s : State) (l : LaneIx) : State :=
  let x := s.reader (headReader l)
  if x.cycle = .opened ∨ (x.cycle = .wait ∧ x.scanPending) then s.startScan l else s

end Sys2Proof.Machine
end

