-- ==== Sys2Proof/Machine/Requests.lean ====
section
/-! DEFINITION. The Request Unit's path (section 10.1): the row that a buffered request stands for, taking
a request, and its RESPONSE; and the record requests (section 1.9). -/

namespace Sys2Proof.Machine

/-- R169: the status codes. -/
inductive Status where
  | ok | okIgnored | busy | range | malformed | unknown | noOrder | noTote | duplicate | full | locked
  | notOpen | state | invalid | conflict | held | inLane
  deriving DecidableEq, Repr

/-- 11.4. -/
def Status.code (x : Status) : Byte :=
  match x with
  | .ok => 0x00#8
  | .okIgnored => 0x01#8
  | .busy => 0x02#8
  | .range => 0x03#8
  | .malformed => 0x04#8
  | .unknown => 0x05#8
  | .noOrder => 0x06#8
  | .noTote => 0x07#8
  | .duplicate => 0x08#8
  | .full => 0x09#8
  | .locked => 0x0A#8
  | .notOpen => 0x0B#8
  | .state => 0x0C#8
  | .invalid => 0x0D#8
  | .conflict => 0x0E#8
  | .held => 0x0F#8
  | .inLane => 0x10#8

/-- What carrying out a request gives: the state, the status and the data of its RESPONSE. -/
structure Reply where
  state : State
  status : Status
  data : List Byte
  deriving DecidableEq, Repr

/-- R169: a refusal changes nothing. -/
def refuse (s : State) (x : Status) : Reply := ⟨s, x, []⟩

def done (s : State) (data : List Byte) : Reply := ⟨s, .ok, data⟩

/-! ## The row of a request (log entries 1, 19, 20) -/

def writeEntryCommand (table : Nat) : Instr :=
  match table with
  | 1 => .writeEntryGate
  | 2 => .writeEntryLane
  | 3 => .writeEntryReadOnlyTable
  | 4 => .writeEntryBandStaging
  | 5 => .writeEntryInduct
  | 6 => .writeEntrySite
  | 7 => .writeEntryDrive
  | 8 => .writeEntryThrottle
  | 9 => .writeEntryReadOnlyTable
  | _ => .writeEntryUndefinedTable

def controlCommand (op : Nat) : Instr :=
  match op with
  | 1 => .controlStart
  | 2 => .controlHalt
  | 3 => .controlEstop
  | 4 => .controlClearEstop
  | 5 => .controlThrottleNow
  | 6 => .controlLock
  | 7 => .controlServiceOpen
  | 8 => .controlServiceClose
  | 9 => .controlRestart
  | _ => .controlUndefinedOperation

/-- 11.3: the row of the table that a request is, by its code and, where a code has several rows, by its
table or operation byte. -/
def requestCommand (r : Request) : Instr :=
  match r.code with
  | 0x01 => .bindOrder
  | 0x02 => .addTote
  | 0x03 => .cancelOrder
  | 0x04 => .dropTote
  | 0x05 => .writeOrder
  | 0x06 => .readOrder
  | 0x07 => .readTote
  | 0x08 => .readLane
  | 0x09 => .readWillcall
  | 0x0A => if byteAt r.args 0 = 9 then .readEntryReaderStatus else .readEntry
  | 0x0B => writeEntryCommand (byteAt r.args 0)
  | 0x0C => .commitBands
  | 0x0D => controlCommand (byteAt r.args 0)
  | 0x0E => .restoreLane
  | 0x0F => .clearLane
  | 0x10 => if byteAt r.args 2 = 2 then .laneEditIdentify else .laneEditRemove
  | 0x11 => .readFlags
  | 0x12 => .clearFlags
  | 0x13 => .setNoticeMask
  | 0x14 => .readIdentity
  | _ => .unknownRequest

/-! ## Taking a request (R168, R169) -/

/-- R169, R157: the RESPONSE, with the TAG of its request. -/
def responseFrame (r : Request) (x : Status) (data : List Byte) : Frame :=
  ⟨0x02#8, byte Config.ringAddress, Kind.response, r.tag, byte r.code :: x.code :: data⟩

/-- R168: the RESPONSE is handed over ahead of the frames that the request's effects hand over. -/
def respond (r : Request) (a : Reply) : State :=
  { a.state with ring := { a.state.ring with outbox := responseFrame r a.status a.data :: a.state.ring.outbox } }

/-- The oldest request has left the buffer. -/
def State.popRequest (s : State) (rest : List Request) : State := { s with req := { s.req with buffer := rest } }

/-- R168: the conditions for taking the oldest request r, which is command c. -/
def State.takes (s : State) (c : Instr) (r : Request) : Bool :=
  s.ring.routine.length < 32 && requestCommand r == c

/-- R170: MALFORMED precedes the request's own checks. -/
def carryOut (handler : Request → State → Reply) (r : Request) (s : State) : Reply :=
  if r.malformed then refuse s .malformed else handler r s

/-- R168 to R170: the event in which the Request Unit takes the oldest request and carries it out. Where
the conditions do not hold, or the oldest request is another command, nothing happens (log entry 1). -/
def takeRequest (c : Instr) (handler : Request → State → Reply) (s : State) : State :=
  match s.req.buffer with
  | [] => s
  | r :: rest =>
    if s.takes c r then closeEvent s (respond r (carryOut handler r (s.popRequest rest))) else s

/-! ## Record requests (section 1.9) -/

/-- R170: UNKNOWN. -/
def replyUnknown (_ : Request) (s : State) : Reply := refuse s .unknown

/-- R16: the order that BIND-ORDER creates. -/
def newOrder (ticket total priority : Nat) (band : Option BandIx) : Order where
  ticket := ticket
  total := total
  priority := priority
  band := band
  state := if band.isSome then .unassigned else .willcall .unbanded
  released := false
  done := 0
  live := 0

/-- R16. -/
def replyBindOrder (r : Request) (s : State) : Reply :=
  let ticket := wordAt r.args 0
  let total := byteAt r.args 2
  let priority := byteAt r.args 3
  if !(isTicket ticket && inRange 1 6 total && priority ≤ 2) then refuse s .range
  else if (s.findOrder ticket).isSome then refuse s .duplicate
  else if 128 ≤ s.orders.length then refuse s .full
  else
    let o := newOrder ticket total priority (bandOf s.cfg.bandActive ticket)
    done ((s.putOrder (lowestFree s.orders) o).raiseIf o.band.isNone .orderToWillcall)
      [o.state.code, indexByte o.band]

/-- R17: an entry of an induct queue that a new record of the tag attaches to. -/
def InductItem.isStrayOf (tag : Nat) (e : InductItem) : Bool := e.tote.isNone && e.tag == some tag

/-- R17: the first stray entry with the tag: its induct lane and its place in the queue. -/
def State.findStray (s : State) (tag : Nat) : Option (InductIx × Nat) :=
  match allInducts.find? (fun i => (s.queue i).any (InductItem.isStrayOf tag)) with
  | some i => some (i, (s.queue i).findIdx (InductItem.isStrayOf tag))
  | none => none

/-- R17: attach the record in slot k to the stray entry, where there is one. -/
def State.attach (s : State) (k : ToteSlot) (tag : Nat) : State :=
  match s.findStray tag with
  | some (i, j) =>
    (s.putQueue i ((s.queue i).set j ⟨some tag, some k⟩)).modTote k (fun t => { t with location := .induct i })
  | none => s

def newTote (tag part : Nat) (o : OrderSlot) : Tote := ⟨tag, o, part, .unplaced, none, none, none, 0, []⟩

/-- The location byte of a tote. -/
def State.locationByte (s : State) (k : ToteSlot) : Byte :=
  match s.tote? k with
  | some t => t.location.code
  | none => 0

/-- R17: the record is created and attached. -/
def State.createTote (s : State) (k : ToteSlot) (tag part : Nat) (o : OrderSlot) : State :=
  ((s.putTote k (newTote tag part o)).modOrder o (fun x => { x with live := x.live + 1 })).attach k tag

/-- R17. -/
def replyAddTote (r : Request) (s : State) : Reply :=
  let ticket := wordAt r.args 0
  let tag := wordAt r.args 2
  let part := byteAt r.args 4
  if !(isTicket ticket && isTagNumber tag && inRange 1 6 part) then refuse s .range
  else
    match s.findOrder ticket with
    | none => refuse s .noOrder
    | some (o, x) =>
      if x.state = .willcall .cancelled then refuse s .state
      else if x.total < part ∨ x.unadded = 0 then refuse s .range
      else if (s.findTote tag).isSome || (s.totesOf o).any (fun p => p.2.part == part) then refuse s .duplicate
      else if 256 ≤ s.totes.length then refuse s .full
      else
        let k := lowestFree s.totes
        let t := s.createTote k tag part o
        done (settle s t) [t.locationByte k]

/-- R18, R4, R5: the cancel of a live order. What becomes of its window tote: log entry 40. -/
def State.cancel (s : State) (k : OrderSlot) (o : Order) : State :=
  let o' := { o with total := o.done + o.live }
  if o.live = 0 then s.freeOrder k o'
  else
    match o.state with
    | .willcall _ => (s.putOrder k { o' with state := .willcall .cancelled }).raise .orderToWillcall
    | .unassigned => (s.putOrder k o').enterWillcall k .cancelled
    | .routed _ => (s.putOrder k o').enterWillcall k .cancelled
    | .ready _ => (s.putOrder k o').enterWillcall k .cancelled

/-- R18. -/
def replyCancelOrder (r : Request) (s : State) : Reply :=
  let ticket := wordAt r.args 0
  if !isTicket ticket then refuse s .range
  else
    match s.findOrder ticket with
    | none => refuse s .noOrder
    | some (k, o) => done (settleLanes s (s.cancel k o)) [if o.live = 0 then 0x00#8 else 0x01#8]

/-- R19: the places from which a tote is not dropped. -/
def Location.isCounted (l : Location) : Bool :=
  match l with
  | .incoming _ => true
  | .lane _ => true
  | .willcallIncoming => true
  | .willcall => true
  | .unplaced => false
  | .induct _ => false
  | .loop => false
  | .returnBelt => false

/-- R19, R112: the place of a dropped tote: its induct entry becomes stray, its KNOWN head UNNAMED. -/
def State.dropFrom (s : State) (k : ToteSlot) (loc : Location) : State :=
  match loc with
  | .induct i =>
    s.putQueue i ((s.queue i).map (fun e => if e.tote = some k then { e with tote := none } else e))
  | .returnBelt => if s.merge.head = .known k then { s with merge := { s.merge with head := .unnamed } } else s
  | .unplaced => s
  | .loop => s
  | .incoming _ => s
  | .lane _ => s
  | .willcallIncoming => s
  | .willcall => s

/-- R15, R19: the record is freed and its order's total falls. -/
def State.drop (s : State) (k : ToteSlot) (t : Tote) : State :=
  let u := s.dropFrom k t.location
  { u with totes := slotFree k u.totes }.recount t.order
    (fun o => { o with total := o.total - 1, live := o.live - 1 })

/-- R19: the order's total after the drop. -/
def State.totalOf (s : State) (k : OrderSlot) : Nat :=
  match s.order? k with
  | some o => o.total
  | none => 0

/-- R19. -/
def replyDropTote (r : Request) (s : State) : Reply :=
  let tag := wordAt r.args 0
  if !isTagNumber tag then refuse s .range
  else
    match s.findTote tag with
    | none => refuse s .noTote
    | some (k, t) =>
      if t.location.isCounted then refuse s .inLane
      else done (settle s (s.drop k t)) [byte (s.totalOf t.order - 1)]

/-- R20. -/
def replyWriteOrder (r : Request) (s : State) : Reply :=
  let ticket := wordAt r.args 0
  let image := r.args.drop 2
  let priority := byteAt image 3
  if !(isTicket ticket && priority ≤ 2) then refuse s .range
  else
    match s.findOrder ticket with
    | none => refuse s .noOrder
    | some (k, o) =>
      let t := s.putOrder k { o with priority := priority }
      if (s.orderImage k o).eraseIdx 3 = image.eraseIdx 3 then done t [] else ⟨t, .okIgnored, []⟩

/-- R21. -/
def replyReadOrder (r : Request) (s : State) : Reply :=
  let ticket := wordAt r.args 0
  if !isTicket ticket then refuse s .range
  else
    match s.findOrder ticket with
    | none => refuse s .noOrder
    | some (k, o) => done s (s.orderImage k o)

/-- R21. -/
def replyReadTote (r : Request) (s : State) : Reply :=
  let tag := wordAt r.args 0
  if !isTagNumber tag then refuse s .range
  else
    match s.findTote tag with
    | none => refuse s .noTote
    | some (_, t) => done s (s.toteImage t)

/-- R174. -/
def State.laneSection (s : State) (l : LaneIx) (section_ : Nat) : List Byte :=
  match section_ with
  | 1 => s.figures l
  | 2 => s.queueSection l
  | 3 => s.bookSection l
  | _ => s.readySection l

/-- R174. -/
def replyReadLane (r : Request) (s : State) : Reply :=
  let lane := byteAt r.args 0
  let section_ := byteAt r.args 1
  if !(lane ≤ 11 && inRange 1 4 section_) then refuse s .range
  else done s (byte lane :: byte section_ :: s.laneSection (laneIx lane) section_)

/-- R175: the will-call reason of an order, 0 where it has none. -/
def State.reasonOf (s : State) (k : OrderSlot) : Nat :=
  match s.order? k with
  | some o =>
    match o.state with
    | .willcall r => r.code
    | .unassigned => 0
    | .routed _ => 0
    | .ready _ => 0
  | none => 0

/-- R175: an entry of the will-call list; the stay in whole seconds passed (log entry 36), held at 65535. -/
def State.stayEntry (s : State) (e : Stay) : List Byte :=
  match s.tote? e.tote with
  | some t =>
    twoBytes t.tag ++ twoBytes (s.ticketOf t.order) ++
      byte (s.reasonOf t.order) :: twoBytes (min 65535 ((s.now - e.since) / seconds 1))
  | none => List.replicate 7 0

/-- R175. -/
def replyReadWillcall (r : Request) (s : State) : Reply :=
  let start := byteAt r.args 0
  let count := byteAt r.args 1
  if !(start ≤ 47 && inRange 1 4 count) then refuse s .range
  else
    done s (byte s.willcall.list.length :: byte s.willcall.incoming.length ::
      ((s.willcall.list.drop start).take count).flatMap s.stayEntry)

/-! ## The rows -/

def execUnknownRequest (s : State) : Host.Outcome State Fault Refusal :=
  .next (takeRequest .unknownRequest replyUnknown s)
def execBindOrder (s : State) : Host.Outcome State Fault Refusal :=
  .next (takeRequest .bindOrder replyBindOrder s)
def execAddTote (s : State) : Host.Outcome State Fault Refusal :=
  .next (takeRequest .addTote replyAddTote s)
def execCancelOrder (s : State) : Host.Outcome State Fault Refusal :=
  .next (takeRequest .cancelOrder replyCancelOrder s)
def execDropTote (s : State) : Host.Outcome State Fault Refusal :=
  .next (takeRequest .dropTote replyDropTote s)
def execWriteOrder (s : State) : Host.Outcome State Fault Refusal :=
  .next (takeRequest .writeOrder replyWriteOrder s)
def execReadOrder (s : State) : Host.Outcome State Fault Refusal :=
  .next (takeRequest .readOrder replyReadOrder s)
def execReadTote (s : State) : Host.Outcome State Fault Refusal :=
  .next (takeRequest .readTote replyReadTote s)
def execReadLane (s : State) : Host.Outcome State Fault Refusal :=
  .next (takeRequest .readLane replyReadLane s)
def execReadWillcall (s : State) : Host.Outcome State Fault Refusal :=
  .next (takeRequest .readWillcall replyReadWillcall s)

end Sys2Proof.Machine
end

