-- ==== Sys2Proof/Machine/Configure.lean ====
section
/-! DEFINITION. READ-ENTRY, WRITE-ENTRY and COMMIT-BANDS (sections 10.2, 2.1, 11.7). -/

namespace Sys2Proof.Machine

/-! ## READ-ENTRY (R171) -/

def gateIx (n : Nat) : GateIx := Fin.ofNat 16 n
def inductIx (n : Nat) : InductIx := Fin.ofNat 4 n
def bandIx (n : Nat) : BandIx := Fin.ofNat 8 n
def readerIx (n : Nat) : ReaderIx := Fin.ofNat 34 n

/-- 11.7: the timer that runs in a drive state. -/
def Drive.timer (d : Drive) : Option Time :=
  match d.idle with
  | some t => some t
  | none => d.delay

/-- R152, 11.7. -/
def State.driveImage (s : State) : List Byte :=
  s.cfg.drive.image ++ [s.drive.state.code, yesNo s.drive.wakePending] ++
    twoBytes (s.leftOf (tenths 1) s.drive.timer)

/-- R137, 11.7. -/
def State.throttleImage (s : State) : List Byte :=
  s.cfg.throttle.image ++ [yesNo s.throttle.throttled, byte s.throttle.windowsLeft] ++
    twoBytes s.throttle.samplingCount ++ [byte s.throttle.monitorCount]

/-- R124, 11.7. -/
def State.inductImage (s : State) (i : InductIx) : List Byte :=
  (s.inductCfg i).image ++ inductQueueBytes (s.queue i)

/-- R171: the image of an entry; none for a table or index that is not there. -/
def State.entryImage (s : State) (table i : Nat) : Option (List Byte) :=
  match table with
  | 1 => if i < 16 then some (s.gateCfg (gateIx i)).image else none
  | 2 => if i < 12 then some (s.laneCfg (laneIx i)).image else none
  | 3 => if i < 8 then some (row s.cfg.bandActive (bandIx i)).image else none
  | 4 => if i < 8 then some (row s.cfg.bandStaging (bandIx i)).image else none
  | 5 => if i < 4 then some (s.inductImage (inductIx i)) else none
  | 6 => if i = 0 then some s.cfg.site.image else none
  | 7 => if i = 0 then some s.driveImage else none
  | 8 => if i = 0 then some s.throttleImage else none
  | _ => none

/-- R171, R184. -/
def replyReadEntry (r : Request) (s : State) : Reply :=
  let table := byteAt r.args 0
  let i := byteAt r.args 1
  match s.entryImage table i with
  | some image => done s (byte table :: byte i :: image)
  | none => refuse s .range

/-- 11.7: the role byte. -/
def Role.code (r : Role) : Byte :=
  match r with
  | .gate _ => 0x01#8
  | .induct _ => 0x02#8
  | .head _ => 0x03#8
  | .returnHead => 0x04#8
  | .exit => 0x05#8

/-- 11.7: the last result, its tag and its discarded mark. -/
def lastBytes (x : Option LastResult) : List Byte :=
  match x with
  | none => [0x00#8, 0x00#8, 0x00#8, 0x00#8]
  | some ⟨.tag t, d⟩ => 0x01#8 :: twoBytes t ++ [yesNo d]
  | some ⟨.noread, d⟩ => [0x02#8, 0x00#8, 0x00#8, yesNo d]
  | some ⟨.empty, d⟩ => [0x03#8, 0x00#8, 0x00#8, yesNo d]
  | some ⟨.none, d⟩ => [0x04#8, 0x00#8, 0x00#8, yesNo d]

/-- R60, R44: enabled in bit 0, in service in bit 1; a disabled reader is in no service. -/
def State.serviceByte (s : State) (r : ReaderIx) : Byte :=
  if s.enabled r then (if s.inService r then 0x03#8 else 0x01#8) else 0x00#8

/-- R60, 11.7: the reader status image. -/
def State.readerImage (s : State) (r : ReaderIx) : List Byte :=
  let x := s.reader r
  [(roleOf r).code, byte r.val, byte (s.stationOf r), s.serviceByte r, x.cycle.code, yesNo x.scanPending] ++
    twoBytes (s.leftOf (milliseconds 1) x.window) ++ [yesNo x.fresh, yesNo x.crowded] ++ lastBytes x.last

/-- R60: a read of the reader status table clears the crowded mark. -/
def State.clearCrowded (s : State) (r : ReaderIx) : State := s.putReader r { s.reader r with crowded := false }

/-- R60, R171. -/
def replyReadReader (r : Request) (s : State) : Reply :=
  let i := byteAt r.args 1
  if i < 34 then done (s.clearCrowded (readerIx i)) (0x09#8 :: byte i :: s.readerImage (readerIx i))
  else refuse s .range

/-! ## WRITE-ENTRY (R172) -/

/-- R176: a refusal by the configuration lock raises LOCKED-WRITE. -/
def refuseLocked (s : State) : Reply := refuse (s.raise .lockedWrite) .locked

/-- R172: the index, the fields and the lock, in that order, ahead of the table's own rule. -/
def entryChecks (s : State) (inTable : Bool) (checks : List Bool) (locked : Bool) (own : Reply) : Reply :=
  if !inTable then refuse s .range
  else
    match firstBad 1 checks with
    | some n => ⟨s, .range, [byte n]⟩
    | none => if locked then refuseLocked s else own

def Request.index (r : Request) : Nat := byteAt r.args 1
def Request.image (r : Request) : List Byte := r.args.drop 2

/-- R63 check 3: a write that changes present, kind, lane or station. -/
def GateEntry.movesGate (e x : GateEntry) : Bool :=
  e.present != x.present || e.kind != x.kind || e.lane != x.lane || e.station != x.station

def gateReader (g : GateIx) : ReaderIx := ⟨g.val, by omega⟩
def inductReader (i : InductIx) : ReaderIx := ⟨16 + i.val, by omega⟩

/-- R63, R57, R58: an accepted gate write. -/
def State.writeGate (s : State) (g : GateIx) (e : GateEntry) : State :=
  { s with cfg := { s.cfg with gates := setRow s.cfg.gates g e } }.writtenTriggered (gateReader g)
    (s.gateCfg g).present e.present

/-- R63. -/
def replyWriteGate (r : Request) (s : State) : Reply :=
  let g := gateIx r.index
  let e := gateOfImage r.image
  entryChecks s (r.index < 16) (gateChecks g r.image) s.req.lock
    (if s.trackRuns && (s.gateCfg g).movesGate e then refuse s .state else done (s.writeGate g e) [])

/-- R38: a lane image differs from the stored entry in TAKE and GIVE at most. -/
def LaneEntry.onlyTakeGive (e x : LaneEntry) : Bool := { x with take := e.take, give := e.give } == e

/-- R30: the capacity may change. -/
def State.mayResize (s : State) (l : LaneIx) : Bool :=
  !s.laneOpen l || ((s.lane l).queue.isEmpty && (s.lane l).incoming.isEmpty && (s.book l).isEmpty)

/-- R30, R54, R58: what a capacity change does to the lane and its head reader: a lane made absent or
present has the state of an UNSURVEYED lane; the lamp and display it last handed over are kept until
the lamp update of this event (log entry 32). -/
def State.resizeLane (s : State) (l : LaneIx) (was is : Bool) : State :=
  let t := s.modLane l (fun x => { Lane.reset with lamp := x.lamp, display := x.display })
  if was && !is then t.abandon (headReader l)
  else if !was && is then (t.abandon (headReader l)).freshen (headReader l)
  else s.writtenHead l

/-- R29, R30, R57: an accepted lane write. -/
def State.writeLane (s : State) (l : LaneIx) (e : LaneEntry) : State :=
  { s with cfg := { s.cfg with lanes := setRow s.cfg.lanes l e } }.resizeLane l (s.laneCfg l).present e.present

/-- R29, R30, R38. -/
def replyWriteLane (r : Request) (s : State) : Reply :=
  let l := laneIx r.index
  let e := laneOfImage r.image
  entryChecks s (r.index < 12) (laneChecks l r.image) (s.req.lock && !(s.laneCfg l).onlyTakeGive e)
    (if e.capacity != (s.laneCfg l).capacity && !s.mayResize l then refuse s .busy
     else done (settleLanes s (s.writeLane l e)) [])

/-- R23. -/
def replyWriteBand (r : Request) (s : State) : Reply :=
  entryChecks s (r.index < 8) (bandChecks r.image) s.req.lock
    (done { s with cfg := { s.cfg with bandStaging := setRow s.cfg.bandStaging (bandIx r.index) (bandOfImage r.image) } }
      [])

/-- R124: an accepted induct write. -/
def State.writeInduct (s : State) (i : InductIx) (e : InductEntry) : State :=
  { s with cfg := { s.cfg with inducts := setRow s.cfg.inducts i e } }.writtenTriggered (inductReader i)
    (s.inductCfg i).present e.present

/-- R124 check 3. -/
def InductEntry.movesInduct (e x : InductEntry) : Bool := e.present != x.present || e.station != x.station

/-- R124. -/
def replyWriteInduct (r : Request) (s : State) : Reply :=
  let i := inductIx r.index
  let e := inductOfImage r.image
  entryChecks s (r.index < 4) (inductChecks r.image) s.req.lock
    (if s.trackRuns && (s.inductCfg i).movesInduct e then refuse s .state
     else if !e.present && !(s.queue i).isEmpty then refuse s .busy
     else done (s.writeInduct i e) [])

/-- R80: an UNSEEN tote whose miss count is at or above a limit. -/
def Tote.unseenAt (limit : Nat) (t : Tote) : Bool :=
  match t.sighting with
  | some (.unseen n) => limit ≤ n
  | some .seen => false
  | some .lost => false
  | none => false

/-- R80: the tote becomes LOST. -/
def Tote.lose (limit : Nat) (t : Tote) : Tote :=
  if t.unseenAt limit then { t with sighting := some .lost, deadline := none } else t

/-- R80: a lowered lost limit. -/
def State.lowerLostLimit (s : State) (old new : Nat) : State :=
  if new < old then
    (s.mapTotes (Tote.lose new)).raiseIf (s.totes.any (fun p => p.2.unseenAt new)) .toteLost
  else s

/-- R173, R11, R57: an accepted site write. -/
def State.writeSite (s : State) (e : SiteRecord) : State :=
  let t := { s with cfg := { s.cfg with site := e } }.mapTotes (fun x => { x with laps := min e.lapLimit x.laps })
  ((t.lowerLostLimit s.cfg.site.lostLimit e.lostLimit).abandon returnHeadReader).abandon exitReader

/-- R173 check 1. -/
def SiteRecord.movesSite (e x : SiteRecord) : Bool :=
  e.willcallStation != x.willcallStation || e.returnStation != x.returnStation || e.mergeStation != x.mergeStation

/-- R173. -/
def replyWriteSite (r : Request) (s : State) : Reply :=
  let e := siteOfImage r.image
  entryChecks s (r.index == 0) (siteChecks r.image) s.req.lock
    (if s.trackRuns && s.cfg.site.movesSite e then refuse s .state
     else if e.willcallCapacity < s.willcallCount then refuse s .busy
     else done (s.writeSite e) [])

/-- R152. -/
def replyWriteDrive (r : Request) (s : State) : Reply :=
  let e := driveOfImage r.image
  entryChecks s (r.index == 0) (driveChecks r.image) s.req.lock
    (if s.trackRuns && e.station != s.cfg.drive.station then refuse s .state
     else done { s with cfg := { s.cfg with drive := e } } [])

/-- R137: an accepted profile write. -/
def State.writeThrottle (s : State) (e : ThrottleProfile) : State :=
  let t := { s with cfg := { s.cfg with throttle := e } }
  if s.throttle.throttled then
    if e.mode = .none ∨ e.mode = .monitor then { t with throttle := t.throttle.toNormal }
    else { t with throttle := { t.throttle with windowsLeft := min t.throttle.windowsLeft e.duration } }.monitorRestart
  else t

/-- R137. -/
def replyWriteThrottle (r : Request) (s : State) : Reply :=
  entryChecks s (r.index == 0) (throttleChecks r.image) s.req.lock
    (done (settle s (s.writeThrottle (throttleOfImage r.image))) [])

/-- R171, R172: BAND-ACTIVE and READER-STATUS. -/
def replyWriteReadOnly (r : Request) (s : State) : Reply :=
  if r.index < (if byteAt r.args 0 = 3 then 8 else 34) then refuse s .state else refuse s .range

/-- R171: a table value that names none. -/
def replyWriteUndefined (_ : Request) (s : State) : Reply := refuse s .range

/-! ## COMMIT-BANDS (R25) -/

/-- The band before b; B0 for B0. -/
def priorBand (b : BandIx) : BandIx := Fin.ofNat 8 (b.val - 1)

/-- R25 check 1 fails at a band. -/
def bandFalls (bands : Vector BandEntry 8) (b : BandIx) : Bool :=
  b != 0 && (row bands b).upper < (row bands (priorBand b)).upper

/-- R24: a band covers a ticket. -/
def bandCovers (bands : Vector BandEntry 8) (b : BandIx) : Bool :=
  b == 0 || (row bands (priorBand b)).upper < (row bands b).upper

/-- R25 check 2 fails at a band. -/
def bandWithoutLanes (bands : Vector BandEntry 8) (b : BandIx) : Bool :=
  bandCovers bands b && (row bands b).laneSet == 0

/-- R25, 11.4: the check code and the band of the first failure. -/
def bandFault (bands : Vector BandEntry 8) : Option (Byte × BandIx) :=
  match allBands.find? (bandFalls bands) with
  | some b => some (0x01#8, b)
  | none => (allBands.find? (bandWithoutLanes bands)).map (fun b => (0x02#8, b))

/-- R25, R2: an UNASSIGNED order takes its band from the new active copy, and enters WILLCALL(UNBANDED)
where that leaves it unbanded. -/
def State.reband (s : State) (k : OrderSlot) : State :=
  match s.order? k with
  | none => s
  | some o =>
    if o.state = .unassigned then
      let b := bandOf s.cfg.bandActive o.ticket
      let t := s.putOrder k { o with band := b }
      if b.isNone then t.enterWillcall k .unbanded else t
    else s

/-- R25: the copy and its effects, order by order in slot order. -/
def State.commitBands (s : State) : State :=
  s.orders.foldl (fun t p => t.reband p.1) { s with cfg := { s.cfg with bandActive := s.cfg.bandStaging } }

/-- R25. -/
def replyCommitBands (_ : Request) (s : State) : Reply :=
  if s.req.lock then refuseLocked s
  else
    match bandFault s.cfg.bandStaging with
    | some (code, b) => ⟨s, .invalid, [code, byte b.val]⟩
    | none => done s.commitBands []

/-! ## The rows -/

def execReadEntry (s : State) : Host.Outcome State Fault Refusal :=
  .next (takeRequest .readEntry replyReadEntry s)
def execReadEntryReaderStatus (s : State) : Host.Outcome State Fault Refusal :=
  .next (takeRequest .readEntryReaderStatus replyReadReader s)
def execWriteEntryGate (s : State) : Host.Outcome State Fault Refusal :=
  .next (takeRequest .writeEntryGate replyWriteGate s)
def execWriteEntryLane (s : State) : Host.Outcome State Fault Refusal :=
  .next (takeRequest .writeEntryLane replyWriteLane s)
def execWriteEntryBandStaging (s : State) : Host.Outcome State Fault Refusal :=
  .next (takeRequest .writeEntryBandStaging replyWriteBand s)
def execWriteEntryInduct (s : State) : Host.Outcome State Fault Refusal :=
  .next (takeRequest .writeEntryInduct replyWriteInduct s)
def execWriteEntrySite (s : State) : Host.Outcome State Fault Refusal :=
  .next (takeRequest .writeEntrySite replyWriteSite s)
def execWriteEntryDrive (s : State) : Host.Outcome State Fault Refusal :=
  .next (takeRequest .writeEntryDrive replyWriteDrive s)
def execWriteEntryThrottle (s : State) : Host.Outcome State Fault Refusal :=
  .next (takeRequest .writeEntryThrottle replyWriteThrottle s)
def execWriteEntryReadOnlyTable (s : State) : Host.Outcome State Fault Refusal :=
  .next (takeRequest .writeEntryReadOnlyTable replyWriteReadOnly s)
def execWriteEntryUndefinedTable (s : State) : Host.Outcome State Fault Refusal :=
  .next (takeRequest .writeEntryUndefinedTable replyWriteUndefined s)
def execCommitBands (s : State) : Host.Outcome State Fault Refusal :=
  .next (takeRequest .commitBands replyCommitBands s)

end Sys2Proof.Machine
end

