-- ==== Sys2Proof/Machine/Resets.lean ====
section
/-! DEFINITION. Power-on, warm start and the end of the reset time (R167, R178, R182, R156, R109). -/

namespace Sys2Proof.Machine

/-- R109: a present lane hands LAMP OFF and then DISPLAY with no tickets. -/
def State.resetCounter (s : State) (l : LaneIx) : State :=
  if s.lanePresent l then
    (s.hand (lampFrame (s.laneCfg l).station .off)).hand (displayFrame (s.laneCfg l).station [])
  else s

/-- R182: the NOTICE of the start flag, where its enable is set. -/
def State.startNotice (s : State) (f : Flag) : State :=
  if f.isIn s.req.mask then s.hand (noticeFrame f.only) else s

/-- R167, R182 and the after-reset rules: what a warm start leaves before any frame is handed over; the
configuration, the lock and the notice mask are kept. -/
def State.warmBase (s : State) (f : Flag) : State where
  pending := s.pending
  now := s.now
  choices := s.choices
  cfg := s.cfg
  ring :=
    { forward := [], urgent := [], routine := [], waitCount := 0, reception := [], transmission := none
      gap := s.ring.gapLeft s.now, ready := false, readyBy := s.now + milliseconds 5, outbox := [] }
  req := ⟨[], s.req.lock, false, f.only, s.req.mask⟩
  orders := []
  totes := []
  readers := Vector.replicate 34 .reset
  lanes := Vector.replicate 12 .reset
  willcall := ⟨[], []⟩
  merge := .reset
  throttle := .reset
  drive := .reset
  run := .reset

/-- R156, R182, R109: DRIVE HALT, then the NOTICE, then the lanes' LAMP and DISPLAY (log entry 8). DRIVE HALT
goes at once where RING OUT is free, and else at the end of the gap (R164). -/
def State.warmStart (s : State) (f : Flag) : State :=
  let t := (s.warmBase f).hand (driveFrame s.cfg.drive.station false)
  (allLanes.foldl State.resetCounter (t.startNotice f)).placeAll

/-- R182: application of supplies. The model's queue and its counter of free choices go on (log entry 11). -/
def execPowerOn (s : State) : Host.Outcome State Fault Refusal :=
  .next { State.reset with pending := s.pending, choices := s.choices }

/-- R178: a low pulse on RESET. -/
def execResetLinePulse (s : State) : Host.Outcome State Fault Refusal := .next (s.warmStart .startLine)

/-- R167: RING IN is read from now on. -/
def execPartReady (s : State) : Host.Outcome State Fault Refusal :=
  .next { s with ring := { s.ring with ready := true } }

/-- R178: CONTROL RESTART: a warm start with no RESPONSE. A malformed one is answered (R170). -/
def execControlRestart (s : State) : Host.Outcome State Fault Refusal :=
  match s.req.buffer with
  | [] => .next s
  | r :: rest =>
    if s.takes .controlRestart r then
      if r.malformed then .next (closeEvent s (respond r (refuse (s.popRequest rest) .malformed)))
      else .next (s.warmStart .startRequest)
    else .next s

end Sys2Proof.Machine
end

