-- ==== Sys2Proof/Machine/Control.lean ====
section
/-! DEFINITION. The CONTROL requests (sections 8.2, 8.3, 7.8, 10.4), and the requests for flags, mask and
identity (sections 10.6, 10.7). -/

namespace Sys2Proof.Machine

/-! ## START (R144 to R146) -/

def State.isWillcallGate (s : State) (g : GateIx) : Bool := (s.gateCfg g).present && (s.gateCfg g).kind == .willcall

/-- R145 checks 3a, 3b: a present LANE gate. -/
def State.isLaneGate (s : State) (g : GateIx) : Bool := (s.gateCfg g).present && (s.gateCfg g).kind == .lane

/-- R145 check 3a fails at a lane. -/
def State.laneGateFault (s : State) (l : LaneIx) : Bool :=
  s.lanePresent l && (allGates.filter (fun g => s.isLaneGate g && (s.gateCfg g).lane == l)).length != 1

/-- R145 check 3b fails at a gate. -/
def State.gateLaneFault (s : State) (g : GateIx) : Bool := s.isLaneGate g && !s.lanePresent (s.gateCfg g).lane

/-- R145 check 5: the stations that host readers. -/
def State.readerHosts (s : State) : List Nat := (allReaders.filter s.enabled).map s.stationOf

/-- R145 check 5: the lowest address that two reader hosts share (log entry 30). -/
def State.sharedStation (s : State) : Option Nat :=
  (List.range 63).find? (fun a => 1 < (s.readerHosts.filter (· == a)).length)

/-- R145: the check code and the index of the first check that fails. -/
def State.startFault (s : State) : Option (Byte × Nat) :=
  let spurs := allGates.filter s.isWillcallGate
  if !((s.gateCfg 0).present && (s.gateCfg 0).kind == .lap) then some (0x11#8, 0)
  else if spurs.length != 1 then
    some (0x12#8, match spurs[1]? with
      | some g => g.val
      | none => 255)
  else
    match allLanes.find? s.laneGateFault with
    | some l => some (0x13#8, l.val)
    | none =>
      match allGates.find? s.gateLaneFault with
      | some g => some (0x14#8, g.val)
      | none =>
        if !allInducts.any (fun i => (s.inductCfg i).present) then some (0x15#8, 255)
        else s.sharedStation.map (fun a => (0x16#8, a))

/-- R82: the greatest merge transit limit of the present inducts and the return transit limit. -/
def State.longestRelease (s : State) : Nat :=
  allInducts.foldl (fun m i => if (s.inductCfg i).present then max m (s.inductCfg i).transitLimit else m)
    s.cfg.site.returnTransitLimit

/-- R82: the deadline that START gives a tote on the loop. -/
def State.startDeadline (s : State) (t : Tote) : Deadline :=
  match t.lastGate with
  | some g => if (s.gateCfg g).present then s.deadlineFrom g s.now else s.deadlineFromMerge s.longestRelease
  | none => s.deadlineFromMerge s.longestRelease

/-- R82. -/
def State.armDeadlines (s : State) : State :=
  s.mapTotes (fun t => if t.location = .loop then { t with deadline := some (s.startDeadline t) } else t)

/-- R89, R119: every confirm timer starts afresh. -/
def State.armConfirms (s : State) : State :=
  { s with
    lanes := s.lanes.mapIdx (fun i x =>
      { x with incoming := x.incoming.map (fun e =>
          { e with confirm := some (s.now + milliseconds (s.laneCfg (laneIx i)).confirmLimit) }) })
    willcall :=
      { s.willcall with incoming := s.willcall.incoming.map (fun e =>
          { e with confirm := some (s.now + milliseconds s.cfg.site.willcallConfirmLimit) }) } }

/-- R138: the sampling window starts with a count of 0. -/
def State.startSampling (s : State) : State :=
  { s with throttle :=
      { s.throttle with
        samplingCount := 0, samplingTimer := some (s.now + seconds s.cfg.throttle.samplingWindow) } }

def State.setRun (s : State) (r : RunState) : State := { s with run := { s.run with state := r } }

/-- R144: START from STOPPED. -/
def State.startTrack (s : State) : State :=
  (((s.setRun .running).armDeadlines.armConfirms).startSampling).startDrive

/-- R146: START from HALTING. -/
def State.resumeTrack (s : State) : State := { s with run := { s.run with state := .running, haltTimer := none } }

/-- 11.4: the data of a CONTROL response. -/
def State.controlData (s : State) : List Byte :=
  s.run.state.code :: s.drive.state.code :: holderBytes s.run.holders

def doneControl (s : State) : Reply := ⟨s, .ok, s.controlData⟩
def ignoredControl (s : State) : Reply := ⟨s, .okIgnored, s.controlData⟩

/-- R144, R145: validation, and then a start. -/
def startWith (s t : State) : Reply :=
  match s.startFault with
  | some (code, i) => ⟨s, .invalid, [code, byte i]⟩
  | none => doneControl (settle s t)

/-- R144, R146. -/
def replyStart (_ : Request) (s : State) : Reply :=
  match s.run.state with
  | .stopped => startWith s s.startTrack
  | .halting => startWith s s.resumeTrack
  | .running => refuse s .state
  | .estop => refuse s .state

/-! ## HALT, ESTOP, CLEAR-ESTOP, THROTTLE-NOW -/

/-- R147: HALTING with the halt timer started. -/
def State.haltTrack (s : State) : State :=
  { s with run := { s.run with state := .halting, haltTimer := some (s.now + seconds s.cfg.site.haltTimeout) } }

/-- R147. -/
def replyHalt (_ : Request) (s : State) : Reply :=
  if s.run.state = .running then doneControl (settle s s.haltTrack) else refuse s .state

/-- R149. -/
def replyEstop (_ : Request) (s : State) : Reply := doneControl s.orderEstop

/-- R52, R59: the head readers of OPEN lanes enter WAIT. -/
def State.startScans (s : State) : State :=
  allLanes.foldl (fun t l => if s.laneOpen l then t.startScan l else t) s

/-- R108, R151: the lanes' auto-return tests when the run state leaves ESTOP, in rising order where the belt has a
place for each tote; where it has not, the order is a free choice (log entry 5). -/
def State.returnTests (s : State) : State :=
  if (allLanes.filter s.wantsReturn).length ≤ 6 - s.beltCount then allLanes.foldl State.returnTest s
  else
    (sortBy (fun l => Config.freeChoice (s.choices + l.val)) allLanes).foldl State.returnTest
      { s with choices := s.choices + 12 }

/-- R151, R59: what leaving ESTOP does to run state and readers (log entry 13), and the lanes' auto-returns. -/
def State.leaveEstop (s : State) : State :=
  ((s.setRun .stopped).mapReaders (fun x => { x with fresh := true })).startScans.returnTests

/-- R151. -/
def replyClearEstop (_ : Request) (s : State) : Reply :=
  if s.run.state = .estop then
    if s.run.holders = 0 then doneControl (settleLanes s s.leaveEstop)
    else ⟨s, .held, holderBytes s.run.holders⟩
  else refuse s .state

/-- R140. -/
def replyThrottleNow (_ : Request) (s : State) : Reply :=
  if s.trackRuns then
    if s.cfg.throttle.mode = .none then ignoredControl s else doneControl s.throttleTrigger
  else refuse s .state

/-! ## LOCK, SERVICE-OPEN, SERVICE-CLOSE -/

/-- R176. -/
def replyLock (_ : Request) (s : State) : Reply :=
  if s.req.lock then ignoredControl s
  else doneControl { s with req := { s.req with lock := true, service := false } }

/-- R177. -/
def replyServiceOpen (_ : Request) (s : State) : Reply :=
  if s.req.lock then refuse s .locked
  else if s.req.service then ignoredControl s
  else doneControl { s with req := { s.req with service := true } }

/-- R177. -/
def replyServiceClose (_ : Request) (s : State) : Reply :=
  if s.req.service then doneControl { s with req := { s.req with service := false } } else ignoredControl s

/-- R170: an operation value that names none. -/
def replyUndefinedOperation (_ : Request) (s : State) : Reply := refuse s .range

/-! ## Flags, mask, identity (R179 to R181) -/

/-- R184: the mask of a request has a bit that names no flag. -/
def maskOutOfRange (m : BitVec 24) : Bool := 0x100000 ≤ m.toNat

/-- R179: the flags named in a mask are cleared. -/
def State.clearFlags (s : State) (m : BitVec 24) : State :=
  { s with req := { s.req with flags := s.req.flags &&& ~~~(m.setWidth 20) } }

/-- R179. -/
def replyReadFlags (r : Request) (s : State) : Reply :=
  let m := maskAt r.args 0
  if maskOutOfRange m then refuse s .range
  else done (s.clearFlags m) (maskBytes s.req.flags ++ maskBytes s.req.mask)

/-- R179. -/
def replyClearFlags (r : Request) (s : State) : Reply :=
  let m := maskAt r.args 0
  if maskOutOfRange m then refuse s .range else done (s.clearFlags m) []

/-- R180, R184 (log entry 21). -/
def replySetNoticeMask (r : Request) (s : State) : Reply :=
  let m := maskAt r.args 0
  if maskOutOfRange m then refuse s .range
  else if s.req.lock then refuse (s.raise .lockedWrite) .locked
  else done { s with req := { s.req with mask := m.setWidth 20 } } []

/-- R181, 11.4. -/
def replyReadIdentity (_ : Request) (s : State) : Reply :=
  done s (byte Config.vendorCode :: twoBytes Config.partCode ++
    [byte Config.revision, byte Config.ringAddress, yesNo s.req.lock, yesNo s.req.service])

/-! ## The rows -/

def execControlStart (s : State) : Host.Outcome State Fault Refusal :=
  .next (takeRequest .controlStart replyStart s)
def execControlHalt (s : State) : Host.Outcome State Fault Refusal :=
  .next (takeRequest .controlHalt replyHalt s)
def execControlEstop (s : State) : Host.Outcome State Fault Refusal :=
  .next (takeRequest .controlEstop replyEstop s)
def execControlClearEstop (s : State) : Host.Outcome State Fault Refusal :=
  .next (takeRequest .controlClearEstop replyClearEstop s)
def execControlThrottleNow (s : State) : Host.Outcome State Fault Refusal :=
  .next (takeRequest .controlThrottleNow replyThrottleNow s)
def execControlLock (s : State) : Host.Outcome State Fault Refusal :=
  .next (takeRequest .controlLock replyLock s)
def execControlServiceOpen (s : State) : Host.Outcome State Fault Refusal :=
  .next (takeRequest .controlServiceOpen replyServiceOpen s)
def execControlServiceClose (s : State) : Host.Outcome State Fault Refusal :=
  .next (takeRequest .controlServiceClose replyServiceClose s)
def execControlUndefinedOperation (s : State) : Host.Outcome State Fault Refusal :=
  .next (takeRequest .controlUndefinedOperation replyUndefinedOperation s)
def execReadFlags (s : State) : Host.Outcome State Fault Refusal :=
  .next (takeRequest .readFlags replyReadFlags s)
def execClearFlags (s : State) : Host.Outcome State Fault Refusal :=
  .next (takeRequest .clearFlags replyClearFlags s)
def execSetNoticeMask (s : State) : Host.Outcome State Fault Refusal :=
  .next (takeRequest .setNoticeMask replySetNoticeMask s)
def execReadIdentity (s : State) : Host.Outcome State Fault Refusal :=
  .next (takeRequest .readIdentity replyReadIdentity s)

end Sys2Proof.Machine
end

