-- ==== Sys2Proof/Machine/LaneRequests.lean ====
section
/-! DEFINITION. RESTORE-LANE, CLEAR-LANE and LANE-EDIT (sections 2.8, 2.9, 12.1). -/

namespace Sys2Proof.Machine

/-! ## RESTORE-LANE (R40, R186) -/

/-- The entries of a RESTORE-LANE: two bytes each, after the lane. -/
def restoreEntries (args : List Byte) : List Nat :=
  (List.range ((args.length - 1) / 2)).map (fun i => wordAt args (1 + 2 * i))

/-- R40 check 4: a tag's tote is located UNPLACED and its order is UNASSIGNED or ROUTED to this lane. -/
def State.restorable (s : State) (l : LaneIx) (tag : Nat) : Bool :=
  match s.findTote tag with
  | some (_, t) =>
    t.location == .unplaced &&
      (match s.order? t.order with
       | some o => o.state == .unassigned || o.state == .routed l
       | none => false)
  | none => false

/-- R40 check 4: the position of the first entry that fails; the second of two equal tags fails (log entry 22). -/
def State.restoreFault (s : State) (l : LaneIx) (seen : List Nat) (entries : List Nat) (n : Nat) : Option Nat :=
  match entries with
  | [] => none
  | t :: rest =>
    if t ≠ 0 ∧ (seen.contains t = true ∨ s.restorable l t = false) then some n
    else State.restoreFault s l (t :: seen) rest (n + 1)

/-- The queue entry of a restored position. -/
def State.restoredEntry (s : State) (tag : Nat) : QueueEntry :=
  match s.findTote tag with
  | some (k, _) => .known k
  | none => .unknown none

/-- R40: a named tote is located LANE(L), and its UNASSIGNED order becomes ROUTED to L. -/
def State.restoreTote (s : State) (l : LaneIx) (tag : Nat) : State :=
  match s.findTote tag with
  | some (k, t) =>
    let u := s.putTote k { t with location := .lane l }
    match u.order? t.order with
    | some o => if o.state = .unassigned then u.routeTo t.order l else u
    | none => u
  | none => s

/-- R40, R41, R52: the lane becomes OPEN with a queue and a window; its head reader comes into service
outside ESTOP. -/
def State.openLane (s : State) (l : LaneIx) (queue : List QueueEntry) (w : Window) : State :=
  let t := s.modLane l (fun x => { x with state := .opened, queue := queue, window := w })
  if s.run.state = .estop then t else t.startScan l

/-- R40: an accepted restore. -/
def State.restore (s : State) (l : LaneIx) (entries : List Nat) : State :=
  entries.foldl (fun t n => t.restoreTote l n) (s.openLane l (entries.map s.restoredEntry) .held)

/-- R40. -/
def replyRestoreLane (r : Request) (s : State) : Reply :=
  let lane := byteAt r.args 0
  let l := laneIx lane
  let entries := restoreEntries r.args
  if !(lane ≤ 11 && inRange 1 8 entries.length && entries.all (· ≤ 4095)) then refuse s .range
  else if !s.lanePresent l || s.laneOpen l then refuse s .state
  else if (s.laneCfg l).capacity < entries.length then refuse s .range
  else
    match s.restoreFault l [] entries 0 with
    | some n => ⟨s, .conflict, [byte n]⟩
    | none => done (settleLanesWith [l] s (s.restore l entries)) []

/-! ## CLEAR-LANE (R41, R185) -/

/-- R41. -/
def replyClearLane (r : Request) (s : State) : Reply :=
  let lane := byteAt r.args 0
  let l := laneIx lane
  if !(lane ≤ 11) then refuse s .range
  else if !s.lanePresent l || s.laneOpen l then refuse s .state
  else done (settleLanesWith [l] s (s.openLane l [] .empty)) []

/-! ## LANE-EDIT (R42) -/

/-- R42: the checks that both operations share: service access, the lane and tag, the lane's state and
the position; `own` is the rest of the rule (log entry 19). -/
def editChecks (s : State) (lane tag pos : Nat) (tagOk : Bool) (own : LaneIx → Reply) : Reply :=
  let l := laneIx lane
  if !s.req.service then refuse s .notOpen
  else if !(lane ≤ 11 && tag ≤ 4095 && tagOk) then refuse s .range
  else if !s.laneOpen l then refuse s .state
  else if (s.lane l).queue.length ≤ pos then refuse s .range
  else own l

/-- R42, R15, R90: REMOVE at a position. -/
def State.editRemove (s : State) (l : LaneIx) (pos : Nat) : State :=
  match (s.lane l).queue[pos]? with
  | some (.known k) => s.freeDone k
  | some (.unknown _) => s.modLane l (fun x => x.removeAt pos)
  | none => s

/-- R42: REMOVE. An operation that is neither REMOVE nor IDENTIFY is out of range. -/
def replyLaneEditRemove (r : Request) (s : State) : Reply :=
  let pos := byteAt r.args 1
  editChecks s (byteAt r.args 0) (wordAt r.args 3) pos (byteAt r.args 2 == 1)
    (fun l => done (settle s (s.editRemove l pos)) [])

/-- R42, R13: the entry takes the tote. A tote of this same queue keeps its place in the records until the
entry that held it becomes unknown. -/
def State.giveEntry (s : State) (l : LaneIx) (pos : Nat) (k : ToteSlot) (t : Tote) : State :=
  (if t.location = .lane l then s else s.removeTote k).nameEntry l pos k

/-- R42: IDENTIFY. Where it makes entry 0 known, the auto-return test of R102 follows in the event. -/
def State.identify (s : State) (l : LaneIx) (pos : Nat) (k : ToteSlot) (t : Tote) : State :=
  if pos = 0 then (s.giveEntry l pos k t).returnTest l else s.giveEntry l pos k t

/-- R42. -/
def replyLaneEditIdentify (r : Request) (s : State) : Reply :=
  let pos := byteAt r.args 1
  let tag := wordAt r.args 3
  editChecks s (byteAt r.args 0) tag pos (1 ≤ tag)
    (fun l =>
      match (s.lane l).queue[pos]? with
      | some (.unknown _) =>
        match s.findTote tag with
        | some (k, t) => done (settle s (s.identify l pos k t)) []
        | none => refuse s .noTote
      | _ => ⟨s, .conflict, [byte pos]⟩)

/-! ## The rows -/

def execRestoreLane (s : State) : Host.Outcome State Fault Refusal :=
  .next (takeRequest .restoreLane replyRestoreLane s)
def execClearLane (s : State) : Host.Outcome State Fault Refusal :=
  .next (takeRequest .clearLane replyClearLane s)
def execLaneEditRemove (s : State) : Host.Outcome State Fault Refusal :=
  .next (takeRequest .laneEditRemove replyLaneEditRemove s)
def execLaneEditIdentify (s : State) : Host.Outcome State Fault Refusal :=
  .next (takeRequest .laneEditIdentify replyLaneEditIdentify s)

end Sys2Proof.Machine
end

