-- ==== Sys2Proof/Machine/Expiry.lean ====
section
/-! DEFINITION. The timers' expiries and the end of a transmission. Each happens at the time its timer
runs out; where the timer does not run nothing happens (log entry 3). -/

namespace Sys2Proof.Machine

/-- An event at a timer's expiry: the clock stands at the expiry and the rule acts; a stopped timer has none. -/
def atExpiry (timer : Option Time) (s : State) (act : State → State) : State :=
  match timer with
  | some t => closeEvent (s.advanceTo t) (act (s.advanceTo t))
  | none => s

/-! ## Ring, readers -/

/-- R164: RING OUT has become free, at the end of a transmission or of the gap that a reset left, and the
arbiter chooses. -/
def State.transmissionEnds (s : State) : State :=
  { s with ring := { s.ring with transmission := none, gap := none } }.choose

/-- R50, R53: the window timer of an OPEN reader. -/
def Reader.openWindow (x : Reader) : Option Time := if x.cycle = .opened then x.window else none

/-- R52: the scan interval timer runs in WAIT with no scan pending. -/
def Reader.interval (x : Reader) : Option Time := if x.cycle = .wait ∧ x.scanPending = false then x.scanTimer else none

/-! ## Confirm timers (R88, R119) -/

/-- The confirm timer of a tote in an incoming list. -/
def confirmOf (k : ToteSlot) (incoming : List Incoming) : Option Time :=
  (incoming.find? (fun e => e.tote == k)).bind (·.confirm)

/-- R77, R88: the deadline of a tote that returns to the loop after a blade miss; none in STOPPED, and none
where its last gate is absent (log entry 31). -/
def State.missDeadline (s : State) (t : Tote) : Option Deadline :=
  if s.trackRuns then t.lastGate.map (fun g => s.deadlineFrom g s.now) else none

/-- R88, R119: the tote is back on the loop, and flag BLADE-MISS is raised. -/
def State.bladeMiss (s : State) (k : ToteSlot) : State :=
  ((s.removeTote k).placeOnLoop k (fun t => { t with deadline := s.missDeadline t })).raise .bladeMiss

/-- The slot of the tote that a tag names, when it stands in a place. -/
def State.slotAt (s : State) (tag : Nat) (loc : Location) : Option ToteSlot :=
  match s.findTote tag with
  | some (k, t) => if t.location = loc then some k else none
  | none => none

/-- R88: the confirm timer of a tote in a lane's incoming list expires. -/
def State.confirmEnds (s : State) (l : LaneIx) (tag : Nat) : State :=
  match s.slotAt tag (.incoming l) with
  | some k => atExpiry (confirmOf k (s.lane l).incoming) s (fun t => settleLanes t (t.bladeMiss k))
  | none => s

/-- R119: the confirm timer of a tote in the will-call incoming list expires. -/
def State.willcallConfirmEnds (s : State) (tag : Nat) : State :=
  match s.slotAt tag .willcallIncoming with
  | some k => atExpiry (confirmOf k s.willcall.incoming) s (fun t => settleLanes t (t.bladeMiss k))
  | none => s

/-! ## Lanes -/

/-- R92: the advance limit expires in ADVANCING. -/
def State.advanceEnds (s : State) (l : LaneIx) : State :=
  (s.modLane l (fun x => { x with window := .held, foreign := none, advance := none })).takeAttention l

/-- R92: the advance limit timer, which runs in ADVANCING. -/
def Lane.advanceLimit (x : Lane) : Option Time := if x.window = .advancing then x.advance else none

def Unattended.expiry (u : Unattended) : Option Time :=
  match u with
  | .running e => some e
  | .stopped => none
  | .expired => none

/-- R101: the collect timer of an order: the lane whose ready list holds it, and the expiry. -/
def State.collectTimer (s : State) (k : OrderSlot) (o : Order) : Option Time :=
  match o.state with
  | .ready l => ((s.lane l).ready.find? (fun e => e.order == k)).map (·.collect)
  | .unassigned => none
  | .routed _ => none
  | .willcall _ => none

/-- R101: the collect timer of the order with a ticket expires. A PRESENTED tote of its lane stays (R7): the lane's
test of R102 is an event of its own (log entry 40). -/
def State.collectEnds (s : State) (ticket : Nat) : State :=
  match s.findOrder ticket with
  | some (k, o) =>
    atExpiry (s.collectTimer k o) s (fun t => settleLanes t (t.enterWillcall k .expired))
  | none => s

/-! ## The transit watch (R78) -/

/-- R78: the miss count after one more miss; LOST counts as at the limit. -/
def missesAfter (limit : Nat) (x : Option Sighting) : Nat :=
  match x with
  | some .seen => 1
  | some (.unseen n) => n + 1
  | some .lost => limit
  | none => 1

/-- R78: a missed deadline of a tote. -/
def State.miss (s : State) (k : ToteSlot) (t : Tote) (d : Deadline) : State :=
  let n := missesAfter s.cfg.site.lostLimit t.sighting
  if n < s.cfg.site.lostLimit then
    s.putTote k { t with sighting := some (.unseen n), deadline := some (s.deadlineFrom d.target d.expiry) }
  else (s.putTote k { t with sighting := some .lost, deadline := none }).raise .toteLost

/-- R78: the deadline of the tote with a tag expires. -/
def State.deadlineEnds (s : State) (tag : Nat) : State :=
  match s.findTote tag with
  | some (k, t) =>
    match t.deadline with
    | some d => atExpiry (some d.expiry) s (fun u => u.miss k t d)
    | none => s
  | none => s

/-! ## Merge, throttle, drive, run control -/

/-- R131: the merge becomes free; the arbiter is evaluated in the settling. -/
def State.freeMerge (s : State) : State := { s with merge := { s.merge with hold := none } }

/-- R153: the start delay expires: the drive is RUNNING with its idle timer started. -/
def State.driveUp (s : State) : State :=
  { s with drive := ⟨.running, some (s.now + seconds s.cfg.drive.idleInterval), none, false⟩ }

/-- R153: the idle test. -/
def State.idleTest (s : State) : State :=
  if s.loopOccupancy = 0 ∧ s.beltEmpty = true ∧ s.claimant = false then s.stopDrive else s.restartIdle

/-- R154: the stop delay expires. -/
def State.driveRests (s : State) : State :=
  if s.drive.wakePending then s.startDrive else { s with drive := ⟨.resting, none, none, false⟩ }

/-- R152: the start delay timer, which runs in STARTING; the stop delay timer, in STOPPING; the idle timer,
in RUNNING. -/
def Drive.starting (d : Drive) : Option Time := if d.state = .starting then d.delay else none
def Drive.stopping (d : Drive) : Option Time := if d.state = .stopping then d.delay else none
def Drive.idling (d : Drive) : Option Time := if d.state = .running then d.idle else none

/-- R148: the halt timer runs in HALTING. -/
def RunControl.halting (r : RunControl) : Option Time := if r.state = .halting then r.haltTimer else none

/-- R148: the halt timer expires. -/
def State.haltTimeout (s : State) : State := s.enterStopped.raise .haltTimeout

/-- R139: the monitor window timer, which runs while THROTTLED. -/
def Throttle.monitoring (t : Throttle) : Option Time := if t.throttled then t.monitorTimer else none

/-! ## The rows -/

def execTransmissionEnd (s : State) : Host.Outcome State Fault Refusal :=
  .next (atExpiry s.ring.ends s State.transmissionEnds)
def execReadWindowExpiry (r : ReaderIx) (s : State) : Host.Outcome State Fault Refusal :=
  .next (atExpiry (Reader.openWindow (s.reader r)) s (fun t => t.complete r .none))
def execScanIntervalExpiry (l : LaneIx) (s : State) : Host.Outcome State Fault Refusal :=
  .next (atExpiry (s.reader (headReader l)).interval s (fun t => t.scanDue l))
def execConfirmExpiry (l : LaneIx) (tag : Nat) (s : State) : Host.Outcome State Fault Refusal :=
  .next (s.confirmEnds l tag)
def execWillcallConfirmExpiry (tag : Nat) (s : State) : Host.Outcome State Fault Refusal :=
  .next (s.willcallConfirmEnds tag)
def execAdvanceLimitExpiry (l : LaneIx) (s : State) : Host.Outcome State Fault Refusal :=
  .next (atExpiry (s.lane l).advanceLimit s (fun t => settleLanes t (t.advanceEnds l)))
def execUnattendedExpiry (l : LaneIx) (s : State) : Host.Outcome State Fault Refusal :=
  .next (atExpiry (s.lane l).unattended.expiry s (fun t => settle t (t.unattendedAt l)))
def execCollectExpiry (ticket : Nat) (s : State) : Host.Outcome State Fault Refusal :=
  .next (s.collectEnds ticket)
def execDeadlineExpiry (tag : Nat) (s : State) : Host.Outcome State Fault Refusal :=
  .next (s.deadlineEnds tag)
def execMergeHoldExpiry (s : State) : Host.Outcome State Fault Refusal :=
  .next (atExpiry s.merge.hold s (fun t => settle t t.freeMerge))
def execSamplingWindowExpiry (s : State) : Host.Outcome State Fault Refusal :=
  .next (atExpiry s.throttle.samplingTimer s (fun t => settle t t.samplingEnds))
def execMonitorWindowExpiry (s : State) : Host.Outcome State Fault Refusal :=
  .next (atExpiry s.throttle.monitoring s (fun t => settle t t.monitorRestart))
def execHaltTimerExpiry (s : State) : Host.Outcome State Fault Refusal :=
  .next (atExpiry s.run.halting s State.haltTimeout)
def execStartDelayExpiry (s : State) : Host.Outcome State Fault Refusal :=
  .next (atExpiry s.drive.starting s (fun t => settle t t.driveUp))
def execIdleExpiry (s : State) : Host.Outcome State Fault Refusal :=
  .next (atExpiry s.drive.idling s State.idleTest)
def execStopDelayExpiry (s : State) : Host.Outcome State Fault Refusal :=
  .next (atExpiry s.drive.stopping s State.driveRests)

end Sys2Proof.Machine
end

