-- ==== Sys2Proof/Machine/Due.lean ====
section
/-! DEFINITION. What the part does when nothing is commanded: the events of its own that are due, and the
passing of time (log entries 2, 4 and 34). -/

namespace Sys2Proof.Machine

/-- A timer has run out. -/
def State.runOut (s : State) (timer : Option Time) : Bool :=
  match timer with
  | some e => e ≤ s.now
  | none => false

/-- A command, where its event is due. -/
def dueIf (b : Bool) (c : Instr) : List Instr := if b then [c] else []

/-- R167: the reset time is over. -/
def State.dueReady (s : State) : List Instr := dueIf (!s.ring.ready && s.ring.readyBy ≤ s.now) .partReady

/-- R168: the oldest request can be taken. -/
def State.dueRequest (s : State) : List Instr :=
  match s.req.buffer with
  | r :: _ => dueIf (s.ring.routine.length < 32) (requestCommand r)
  | [] => []

def State.dueReaders (s : State) : List Instr :=
  allReaders.flatMap (fun r => dueIf (s.runOut (s.reader r).openWindow) (.readWindowExpiry r))

def State.dueConfirms (s : State) (incoming : List Incoming) (c : Nat → Instr) : List Instr :=
  incoming.flatMap (fun e => dueIf (s.runOut e.confirm) (c (s.tagOf e.tote)))

def State.dueLane (s : State) (l : LaneIx) : List Instr :=
  let x := s.lane l
  dueIf (s.runOut (s.reader (headReader l)).interval) (.scanIntervalExpiry l) ++
    s.dueConfirms x.incoming (.confirmExpiry l) ++
    dueIf (s.runOut x.advanceLimit) (.advanceLimitExpiry l) ++
    dueIf (s.runOut x.unattended.expiry) (.unattendedExpiry l) ++
    x.ready.flatMap (fun e => dueIf (e.collect ≤ s.now) (.collectExpiry (s.ticketOf e.order)))

def State.dueDeadlines (s : State) : List Instr :=
  s.totes.flatMap (fun p => dueIf (s.runOut (p.2.deadline.map (·.expiry))) (.deadlineExpiry p.2.tag))

def State.dueTrack (s : State) : List Instr :=
  dueIf (s.runOut s.merge.hold) .mergeHoldExpiry ++
    dueIf (s.runOut s.throttle.samplingTimer) .samplingWindowExpiry ++
    dueIf (s.runOut s.throttle.monitoring) .monitorWindowExpiry ++
    dueIf (s.runOut s.run.halting) .haltTimerExpiry ++
    dueIf (s.runOut s.drive.starting) .startDelayExpiry ++
    dueIf (s.runOut s.drive.idling) .idleExpiry ++
    dueIf (s.runOut s.drive.stopping) .stopDelayExpiry

/-- The rows of the table whose events are due now. -/
def State.dueCommands (s : State) : List Instr :=
  s.dueReady ++ s.dueRequest ++ dueIf (s.runOut s.ring.ends) .transmissionEnd ++ s.dueReaders ++
    allLanes.flatMap s.dueLane ++ s.dueConfirms s.willcall.incoming .willcallConfirmExpiry ++ s.dueDeadlines ++
    s.dueTrack

/-! ## The lanes' own tests of auto-return -/

/-- R102, R112: a lane makes its test of auto-return in an event of its own (log entries 34 and 40). -/
def State.laneReturn (s : State) (l : LaneIx) : State := closeEvent s (settle s (s.returnTest l))

/-- The lanes whose own test would push a tote now: their order left the book while the window was PRESENTED,
or they waited for a place on the belt and one is free. -/
def State.dueReturns (s : State) : List LaneIx := allLanes.filter (fun l => s.wantsReturn l && s.beltRoom)

/-! ## Events of the part's own -/

/-- An event of the part's own: one that has a row in the table, or a lane's test of auto-return. -/
inductive OwnEvent where
  | command (c : Instr)
  | laneReturn (l : LaneIx)
  deriving DecidableEq, Repr

def State.dueEvents (s : State) : List OwnEvent := s.dueCommands.map .command ++ s.dueReturns.map .laneReturn

/-- 10 µs pass. -/
def State.tick (s : State) : State := { s with now := s.now + 1 }

/-- A free choice has been drawn. -/
def State.drawChoice (s : State) : State := { s with choices := s.choices + 1 }

end Sys2Proof.Machine
end

