-- ==== Sys2Proof/Machine/Reception.lean ====
section
/-! DEFINITION. The Ring Port's receive side (sections 9.2, 9.3, 11.2): disposition of a received frame, the
checks of a consumed frame, and the block each kind is handed to. -/

namespace Sys2Proof.Machine

/-! ## Named addresses (R160, R161) -/

/-- R161: the lowest present lane whose counter station is a. -/
def State.laneAt (s : State) (a : Nat) : Option LaneIx :=
  allLanes.find? (fun l => s.lanePresent l && (s.laneCfg l).station == a)

/-- R129: the lowest present induct whose station is a. -/
def State.inductAt (s : State) (a : Nat) : Option InductIx :=
  allInducts.find? (fun i => (s.inductCfg i).present && (s.inductCfg i).station == a)

/-- R160: a named address. -/
def State.named (s : State) (a : Nat) : Bool :=
  allGates.any (fun g => (s.gateCfg g).present && (s.gateCfg g).station == a) || (s.inductAt a).isSome ||
    (s.laneAt a).isSome || s.cfg.site.willcallStation == a || s.cfg.site.returnStation == a ||
    s.cfg.site.mergeStation == a || s.cfg.drive.station == a

/-! ## What each block does (R161) -/

/-- R31, R161: a LANE-ENTRY eye from station a. -/
def State.laneEye (s : State) (a : Nat) : State :=
  match s.laneAt a with
  | some l => if s.laneOpen l then settleLanes s (s.laneEntry l) else s
  | none => s

/-- Section 5.5: a clerk button from station a. -/
def State.clerkAt (s : State) (a : Nat) (act : State → LaneIx → State) : State :=
  match s.laneAt a with
  | some l => if s.laneOpen l then settle s (act s l) else s
  | none => s

/-- R129: the head entry of an induct queue leaves it; its tote, where it has one, is UNPLACED. -/
def State.dropHead (s : State) (i : InductIx) (e : InductItem) (rest : List InductItem) : State :=
  let t := s.putQueue i rest
  match e.tote with
  | some k => t.modTote k (fun x => { x with location := .unplaced })
  | none => t

/-- R129: the REMOVED button from station a. -/
def State.removedAt (s : State) (a : Nat) : State :=
  match s.inductAt a with
  | some i =>
    match s.queue i with
    | e :: rest => settle s (s.dropHead i e rest)
    | [] => s
  | none => s

/-- R131: a MERGE-APPROACH eye from station a. -/
def State.approach (s : State) (a : Nat) : State := if a = s.cfg.site.mergeStation then s.holdMerge else s

/-- R161: a WILLCALL-ENTRY eye from station a. -/
def State.spurEye (s : State) (a : Nat) : State := if a = s.cfg.site.willcallStation then s.willcallEntry else s

/-- The holder set with one address alone (11.4). -/
def holder (a : Nat) : BitVec 64 := 1#64 <<< a

/-- R149: ESTOP PRESSED from station a. -/
def State.pressed (s : State) (a : Nat) : State :=
  { s with run := { s.run with holders := s.run.holders ||| holder a } }.orderEstop

/-- R149: ESTOP RELEASED from station a. -/
def State.released (s : State) (a : Nat) : State :=
  { s with run := { s.run with holders := s.run.holders &&& ~~~holder a } }

/-- R107, R155, R161: STATION-UP from station a. The other blocks resend nothing for it. -/
def State.stationIsUp (s : State) (a : Nat) : State :=
  let t := allLanes.foldl
    (fun t l => if s.lanePresent l && (s.laneCfg l).station == a then t.resendCounter l else t) s
  if s.cfg.drive.station = a then t.hand (driveFrame a s.driveCommand) else t

/-- R168: a request joins the buffer, and is dropped where that holds 4. -/
def State.bufferRequest (s : State) (tag : Byte) (payload : List Byte) : State :=
  if s.req.buffer.length < 4 then
    { s with req := { s.req with buffer := s.req.buffer ++ [⟨tag, payload, !requestFits payload⟩] } }
  else s

/-! ## Consumed frames (R160, R161, R184) -/

/-- R161: an EYE, by its role byte; an undefined role is ignored (R184). -/
def State.eyeFrame (s : State) (a role : Nat) : State :=
  match role with
  | 1 => s.eye gateReaders a
  | 2 => s.eye inductReaders a
  | 3 => s.laneEye a
  | 4 => s.eye [returnHeadReader] a
  | 5 => s.spurEye a
  | 6 => s.eye [exitReader] a
  | 7 => s.approach a
  | _ => s

/-- R161: a BUTTON, by its payload byte. -/
def State.buttonFrame (s : State) (a button : Nat) : State :=
  match button with
  | 1 => s.clerkAt a State.takenAt
  | 2 => s.clerkAt a State.returnAt
  | 3 => s.removedAt a
  | _ => s

/-- R161: an ESTOP, by its payload byte. -/
def State.estopFrame (s : State) (a payload : Nat) : State :=
  match payload with
  | 1 => s.pressed a
  | 2 => s.released a
  | _ => s

/-- R160, 11.2: the LEN of a station kind; none for the kinds the part does not receive from stations. -/
def stationLength (kind : Byte) : Option Nat :=
  if kind = Kind.eye then some 1
  else if kind = Kind.tag then some 2
  else if kind = Kind.noread then some 0
  else if kind = Kind.empty then some 0
  else if kind = Kind.button then some 1
  else if kind = Kind.estop then some 1
  else if kind = Kind.stationUp then some 0
  else none

/-- R161: a frame of a station kind, by its kind. -/
def State.stationFrame (s : State) (f : Frame) : State :=
  let a := f.src.toNat
  if f.kind = Kind.eye then s.eyeFrame a (byteAt f.payload 0)
  else if f.kind = Kind.tag then s.resultFrame a (tagResult (wordAt f.payload 0))
  else if f.kind = Kind.noread then s.resultFrame a .noread
  else if f.kind = Kind.empty then s.resultFrame a .empty
  else if f.kind = Kind.button then s.buttonFrame a (byteAt f.payload 0)
  else if f.kind = Kind.estop then s.estopFrame a (byteAt f.payload 0)
  else s.stationIsUp a

/-- R160: the sender of a station frame is one the part takes the kind from. -/
def State.takesFrom (s : State) (f : Frame) : Bool :=
  if f.kind = Kind.estop then 3 ≤ f.src.toNat && f.src.toNat ≤ 62 else s.named f.src.toNat

/-- R160, R161: a consumed frame. -/
def State.consume (s : State) (f : Frame) : State :=
  if f.kind = Kind.request then
    if f.src = 0x02#8 ∧ f.dest = 0x01#8 ∧ 1 ≤ f.payload.length then s.bufferRequest f.tag f.payload else s
  else if stationLength f.kind = some f.payload.length ∧ s.takesFrom f then s.stationFrame f
  else s

/-! ## Reception (R158, R159, R167) -/

/-- R159: the disposition of a frame that has the bytes of one: rows 1 to 4. A frame to forward is handed
to the forward buffer after it has been consumed (log entry 9). -/
def State.dispose (s : State) (f : Frame) : State :=
  if f.src = 0x01#8 then s
  else if f.dest = 0x01#8 then s.consume f
  else if f.dest = 0x3F#8 then (s.consume f).hand f
  else s.hand f

/-- No frame is in reception after one has been received whole (log entry 28). -/
def State.endReception (s : State) : State := { s with ring := { s.ring with reception := [] } }

/-- R158, R159: reception of a frame. During the reset time it is lost (R167); a frame whose DEST is 0 or
whose LEN is above 32 fails reception. -/
def receiveFrame (f : Frame) (s : State) : State :=
  if s.ring.ready then
    if f.dest = 0 ∨ 32 < f.payload.length then closeEvent s (s.endReception.raise .frameCheck)
    else closeEvent s (s.endReception.dispose f)
  else s.endReception

/-- R158: reception of bytes; those that hold a frame are that frame's reception. -/
def receiveBytes (bytes : List Byte) (s : State) : State :=
  match frameOfBytes bytes with
  | some f => receiveFrame f s
  | none => if s.ring.ready then closeEvent s (s.endReception.raise .frameCheck) else s.endReception

/-- A frame of a kind and payload with a received header. -/
def Header.frame (h : Header) (kind : Byte) (payload : List Byte) : Frame := ⟨h.dest, h.src, kind, h.tag, payload⟩

/-! ## The rows -/

def execReceptionFailure (bytes : List Byte) (s : State) : Host.Outcome State Fault Refusal :=
  .next (receiveBytes bytes s)
def execOwnFrameStrip (f : Frame) (s : State) : Host.Outcome State Fault Refusal := .next (receiveFrame f s)
def execForwardedFrame (f : Frame) (s : State) : Host.Outcome State Fault Refusal := .next (receiveFrame f s)
def execUnreceivedKindFrame (f : Frame) (s : State) : Host.Outcome State Fault Refusal := .next (receiveFrame f s)
def execGateEye (h : Header) (s : State) : Host.Outcome State Fault Refusal :=
  .next (receiveFrame (Header.frame h Kind.eye [0x01#8]) s)
def execInductEntryEye (h : Header) (s : State) : Host.Outcome State Fault Refusal :=
  .next (receiveFrame (Header.frame h Kind.eye [0x02#8]) s)
def execLaneEntryEye (h : Header) (s : State) : Host.Outcome State Fault Refusal :=
  .next (receiveFrame (Header.frame h Kind.eye [0x03#8]) s)
def execReturnHeadEye (h : Header) (s : State) : Host.Outcome State Fault Refusal :=
  .next (receiveFrame (Header.frame h Kind.eye [0x04#8]) s)
def execWillcallEntryEye (h : Header) (s : State) : Host.Outcome State Fault Refusal :=
  .next (receiveFrame (Header.frame h Kind.eye [0x05#8]) s)
def execWillcallExitEye (h : Header) (s : State) : Host.Outcome State Fault Refusal :=
  .next (receiveFrame (Header.frame h Kind.eye [0x06#8]) s)
def execMergeApproachEye (h : Header) (s : State) : Host.Outcome State Fault Refusal :=
  .next (receiveFrame (Header.frame h Kind.eye [0x07#8]) s)
def execTag (h : Header) (value : BitVec 16) (s : State) : Host.Outcome State Fault Refusal :=
  .next (receiveFrame (Header.frame h Kind.tag (bytes16 value)) s)
def execNoread (h : Header) (s : State) : Host.Outcome State Fault Refusal :=
  .next (receiveFrame (Header.frame h Kind.noread []) s)
def execEmpty (h : Header) (s : State) : Host.Outcome State Fault Refusal :=
  .next (receiveFrame (Header.frame h Kind.empty []) s)
def execTaken (h : Header) (s : State) : Host.Outcome State Fault Refusal :=
  .next (receiveFrame (Header.frame h Kind.button [0x01#8]) s)
def execReturnButton (h : Header) (s : State) : Host.Outcome State Fault Refusal :=
  .next (receiveFrame (Header.frame h Kind.button [0x02#8]) s)
def execRemoved (h : Header) (s : State) : Host.Outcome State Fault Refusal :=
  .next (receiveFrame (Header.frame h Kind.button [0x03#8]) s)
def execEstopPressed (h : Header) (s : State) : Host.Outcome State Fault Refusal :=
  .next (receiveFrame (Header.frame h Kind.estop [0x01#8]) s)
def execEstopReleased (h : Header) (s : State) : Host.Outcome State Fault Refusal :=
  .next (receiveFrame (Header.frame h Kind.estop [0x02#8]) s)
def execStationUp (h : Header) (s : State) : Host.Outcome State Fault Refusal :=
  .next (receiveFrame (Header.frame h Kind.stationUp []) s)
def execRequestFrame (h : Header) (payload : List Byte) (s : State) : Host.Outcome State Fault Refusal :=
  .next (receiveFrame (Header.frame h Kind.request payload) s)

end Sys2Proof.Machine
end

