-- ==== Sys2Proof/Machine/Dispatch.lean ====
section
/-! DEFINITION. The dispatcher: one arm per row of spec/opcode_table.json. -/

namespace Sys2Proof.Machine

def exec (i : Instr) (s : State) : Host.Outcome State Fault Refusal :=
  match i with
  | .powerOn => Sys2Proof.Machine.execPowerOn s
  | .resetLinePulse => Sys2Proof.Machine.execResetLinePulse s
  | .partReady => Sys2Proof.Machine.execPartReady s
  | .receptionFailure bytes => Sys2Proof.Machine.execReceptionFailure bytes s
  | .ownFrameStrip f => Sys2Proof.Machine.execOwnFrameStrip f s
  | .forwardedFrame f => Sys2Proof.Machine.execForwardedFrame f s
  | .unreceivedKindFrame f => Sys2Proof.Machine.execUnreceivedKindFrame f s
  | .gateEye h => Sys2Proof.Machine.execGateEye h s
  | .inductEntryEye h => Sys2Proof.Machine.execInductEntryEye h s
  | .returnHeadEye h => Sys2Proof.Machine.execReturnHeadEye h s
  | .willcallExitEye h => Sys2Proof.Machine.execWillcallExitEye h s
  | .laneEntryEye h => Sys2Proof.Machine.execLaneEntryEye h s
  | .willcallEntryEye h => Sys2Proof.Machine.execWillcallEntryEye h s
  | .mergeApproachEye h => Sys2Proof.Machine.execMergeApproachEye h s
  | .tag h v => Sys2Proof.Machine.execTag h v s
  | .noread h => Sys2Proof.Machine.execNoread h s
  | .empty h => Sys2Proof.Machine.execEmpty h s
  | .taken h => Sys2Proof.Machine.execTaken h s
  | .returnButton h => Sys2Proof.Machine.execReturnButton h s
  | .removed h => Sys2Proof.Machine.execRemoved h s
  | .estopPressed h => Sys2Proof.Machine.execEstopPressed h s
  | .estopReleased h => Sys2Proof.Machine.execEstopReleased h s
  | .stationUp h => Sys2Proof.Machine.execStationUp h s
  | .requestFrame h p => Sys2Proof.Machine.execRequestFrame h p s
  | .unknownRequest => Sys2Proof.Machine.execUnknownRequest s
  | .bindOrder => Sys2Proof.Machine.execBindOrder s
  | .addTote => Sys2Proof.Machine.execAddTote s
  | .cancelOrder => Sys2Proof.Machine.execCancelOrder s
  | .dropTote => Sys2Proof.Machine.execDropTote s
  | .writeOrder => Sys2Proof.Machine.execWriteOrder s
  | .readOrder => Sys2Proof.Machine.execReadOrder s
  | .readTote => Sys2Proof.Machine.execReadTote s
  | .readLane => Sys2Proof.Machine.execReadLane s
  | .readWillcall => Sys2Proof.Machine.execReadWillcall s
  | .readEntry => Sys2Proof.Machine.execReadEntry s
  | .readEntryReaderStatus => Sys2Proof.Machine.execReadEntryReaderStatus s
  | .writeEntryGate => Sys2Proof.Machine.execWriteEntryGate s
  | .writeEntryLane => Sys2Proof.Machine.execWriteEntryLane s
  | .writeEntryBandStaging => Sys2Proof.Machine.execWriteEntryBandStaging s
  | .writeEntryInduct => Sys2Proof.Machine.execWriteEntryInduct s
  | .writeEntrySite => Sys2Proof.Machine.execWriteEntrySite s
  | .writeEntryDrive => Sys2Proof.Machine.execWriteEntryDrive s
  | .writeEntryThrottle => Sys2Proof.Machine.execWriteEntryThrottle s
  | .writeEntryReadOnlyTable => Sys2Proof.Machine.execWriteEntryReadOnlyTable s
  | .commitBands => Sys2Proof.Machine.execCommitBands s
  | .controlStart => Sys2Proof.Machine.execControlStart s
  | .controlHalt => Sys2Proof.Machine.execControlHalt s
  | .controlEstop => Sys2Proof.Machine.execControlEstop s
  | .controlClearEstop => Sys2Proof.Machine.execControlClearEstop s
  | .controlThrottleNow => Sys2Proof.Machine.execControlThrottleNow s
  | .controlLock => Sys2Proof.Machine.execControlLock s
  | .controlServiceOpen => Sys2Proof.Machine.execControlServiceOpen s
  | .controlServiceClose => Sys2Proof.Machine.execControlServiceClose s
  | .controlRestart => Sys2Proof.Machine.execControlRestart s
  | .restoreLane => Sys2Proof.Machine.execRestoreLane s
  | .clearLane => Sys2Proof.Machine.execClearLane s
  | .laneEditRemove => Sys2Proof.Machine.execLaneEditRemove s
  | .laneEditIdentify => Sys2Proof.Machine.execLaneEditIdentify s
  | .readFlags => Sys2Proof.Machine.execReadFlags s
  | .clearFlags => Sys2Proof.Machine.execClearFlags s
  | .setNoticeMask => Sys2Proof.Machine.execSetNoticeMask s
  | .readIdentity => Sys2Proof.Machine.execReadIdentity s
  | .transmissionEnd => Sys2Proof.Machine.execTransmissionEnd s
  | .readWindowExpiry r => Sys2Proof.Machine.execReadWindowExpiry r s
  | .scanIntervalExpiry l => Sys2Proof.Machine.execScanIntervalExpiry l s
  | .confirmExpiry l t => Sys2Proof.Machine.execConfirmExpiry l t s
  | .willcallConfirmExpiry t => Sys2Proof.Machine.execWillcallConfirmExpiry t s
  | .advanceLimitExpiry l => Sys2Proof.Machine.execAdvanceLimitExpiry l s
  | .unattendedExpiry l => Sys2Proof.Machine.execUnattendedExpiry l s
  | .collectExpiry k => Sys2Proof.Machine.execCollectExpiry k s
  | .deadlineExpiry t => Sys2Proof.Machine.execDeadlineExpiry t s
  | .mergeHoldExpiry => Sys2Proof.Machine.execMergeHoldExpiry s
  | .samplingWindowExpiry => Sys2Proof.Machine.execSamplingWindowExpiry s
  | .monitorWindowExpiry => Sys2Proof.Machine.execMonitorWindowExpiry s
  | .haltTimerExpiry => Sys2Proof.Machine.execHaltTimerExpiry s
  | .startDelayExpiry => Sys2Proof.Machine.execStartDelayExpiry s
  | .idleExpiry => Sys2Proof.Machine.execIdleExpiry s
  | .stopDelayExpiry => Sys2Proof.Machine.execStopDelayExpiry s
  | .controlUndefinedOperation => Sys2Proof.Machine.execControlUndefinedOperation s
  | .writeEntryUndefinedTable => Sys2Proof.Machine.execWriteEntryUndefinedTable s

end Sys2Proof.Machine
end

