-- ==== Sys2Proof/Machine/Step.lean ====
section
/-! DEFINITION. One step: the command at the front of the queue; on an empty queue an event of the part's
own that is due, or the passing of 10 µs (log entries 2 and 4). -/

namespace Sys2Proof.Machine

/-- What an event of the part's own does. -/
def OwnEvent.run (e : OwnEvent) (s : State) : Host.Outcome State Fault Refusal :=
  match e with
  | .command c => exec c s
  | .laneReturn l => .next (s.laneReturn l)

/-- The event of the part's own that an empty queue leaves room for. -/
def State.ownEvent (s : State) : Host.Outcome State Fault Refusal :=
  match s.dueEvents with
  | [] => .next s.tick
  | [e] => e.run s
  | e :: es => ((e :: es).getD (Config.freeChoice s.choices % (es.length + 1)) e).run s.drawChoice

def step (s : State) : Host.Outcome State Fault Refusal :=
  match s.pending with
  | c :: rest => exec c { s with pending := rest }
  | [] => s.ownEvent

/-- The command that a word spells, at the front of the queue. No row of the table gives bits. -/
def State.withFetchWord (s : State) (nbits w : Nat) : State :=
  match decodeTableWord nbits w with
  | some c => { s with pending := c :: s.pending }
  | none => s

end Sys2Proof.Machine
end

