-- ==== Sys2Proof/Safety.lean ====
section
/-! DEFINITION. What the statements speak of: invariants of the machine, the conditions under which a
frame is heard and a request is asked, and the rows of one shape. -/

namespace Sys2Proof.Machine

/-! ## Between events -/

/-- Nothing waits to be placed and no frame is half received: how the model stands between events. -/
abbrev Quiet (s : State) : Prop := s.ring.outbox = [] ∧ s.ring.reception = []

/-- R162, R163, R159, R164, R168: the Ring Port and the request buffer keep their sizes. -/
abbrev RingBounds (s : State) : Prop :=
  Quiet s ∧ s.ring.urgent.length ≤ 16 ∧ s.ring.routine.length ≤ 32 ∧ s.ring.forward.length ≤ 4 ∧
    s.ring.waitCount ≤ 8 ∧ s.req.buffer.length ≤ 4

/-- R11, R12: no lap count is above the lap limit, and no trail holds more than 4 entries. -/
abbrev RecordBounds (s : State) : Prop :=
  ∀ p ∈ s.totes, p.2.laps ≤ s.cfg.site.lapLimit ∧ p.2.trail.length ≤ 4

/-- R33: occupied and incoming stay within the capacity of every lane; a lane that is not OPEN has neither,
and its head reader has no cycle (R43, R54). -/
abbrev LaneBounds (s : State) : Prop :=
  ∀ l : LaneIx, s.occupied l + s.incoming l ≤ (s.laneCfg l).capacity ∧
    (s.laneOpen l = false →
      (s.lane l).queue = [] ∧ (s.lane l).incoming = [] ∧ (s.reader (headReader l)).cycle = .idle)

/-- R1, R8: the Order Table has 128 slots and the Tote Table 256, each slot held once, in the one
canonical form of a slot table. -/
abbrev TablesCanonical (s : State) : Prop := Slots.wf 128 s.orders ∧ Slots.wf 256 s.totes

/-- R125, R110, R116: no induct queue holds more than 4 entries, and a record located INDUCT stands in the queue it
names; the return-belt set has at most 6 members; the will-call count is within the will-call capacity. -/
abbrev PlaceBounds (s : State) : Prop :=
  (∀ i : InductIx, (s.queue i).length ≤ 4 ∧
    ∀ p ∈ s.totes, p.2.location = .induct i → ∃ e ∈ s.queue i, e.tote = some p.1) ∧
  s.beltCount ≤ 6 ∧ s.willcallCount ≤ s.cfg.site.willcallCapacity

/-- R6, R8: every tote record names a live order; an order's live count is the number of its records, and live count
and done count together are within its total. -/
abbrev CountsAgree (s : State) : Prop :=
  (∀ p ∈ s.totes, s.order? p.2.order ≠ none) ∧
    ∀ p ∈ s.orders, p.2.live = (s.totesOf p.1).length ∧ p.2.done + p.2.live ≤ p.2.total

/-- R150: DRIVE HALT, the one actuation frame of the urgent class that can be queued in ESTOP. -/
abbrev isDriveHalt (f : Frame) : Prop := f.kind = Kind.drive ∧ f.payload = [0x02#8]

/-- R150: what holds while the run state is ESTOP: the drive is OFF, no reader has a cycle under way, and
the urgent queue holds DRIVE HALT frames only. -/
abbrev EstopQuiet (s : State) : Prop :=
  s.run.state = .estop →
    s.drive.state = .off ∧ (∀ r : ReaderIx, (s.reader r).cycle = .idle) ∧ ∀ f ∈ s.ring.urgent, isDriveHalt f

/-- R176: two lane entries that agree but for TAKE and GIVE. -/
abbrev sameButTakeGive (e x : LaneEntry) : Prop := { x with take := e.take, give := e.give } = e

/-- R176: no configuration field differs but lane TAKE and GIVE. -/
abbrev SameLockedConfig (a b : Tables) : Prop :=
  b.gates = a.gates ∧ b.bandActive = a.bandActive ∧ b.bandStaging = a.bandStaging ∧ b.inducts = a.inducts ∧
    b.site = a.site ∧ b.drive = a.drive ∧ b.throttle = a.throttle ∧
    ∀ l : LaneIx, sameButTakeGive (row a.lanes l) (row b.lanes l)

/-! ## The ring output -/

/-- R53: the head reader of lane l, whose counter station is a, waits for its SCAN to begin transmission. -/
abbrev AwaitsScan (s : State) (a : Nat) (l : LaneIx) : Prop :=
  (s.laneCfg l).capacity ≠ 0 ∧ (s.laneCfg l).station = a ∧ (s.reader (headReader l)).cycle = .wait ∧
    (s.reader (headReader l)).scanPending = true

/-- R164, R165, R53: t is state v with frame f beginning transmission (its end: log entry 7). A SCAN opens the
window of the lowest head reader that waits for it, for 250 ms. -/
abbrev Begins (v : State) (f : Frame) (t : State) : Prop :=
  let u := { v with ring := { v.ring with transmission := some ⟨f, v.now + 7 + f.payload.length + 2⟩ } }
  (f.kind ≠ Kind.scan ∨ (∀ l, ¬AwaitsScan v f.dest.toNat l) → t = u) ∧
    ∀ l, f.kind = Kind.scan → AwaitsScan v f.dest.toNat l → (∀ m < l, ¬AwaitsScan v f.dest.toNat m) →
      t = { u with readers := (setRow v.readers (headReader l)
              { v.reader (headReader l) with cycle := .opened, scanPending := false, window := some (v.now + 25000) }) }

/-! ## Hearing and asking -/

/-- R159, R160: a station frame with this header, KIND and payload is consumed by the part. -/
abbrev Heard (s : State) (h : Header) : Prop :=
  s.ring.ready = true ∧ (h.dest = 0x01#8 ∨ h.dest = 0x3F#8) ∧ h.src ≠ 0x01#8 ∧ s.named h.src.toNat = true

/-- R159: a consumed frame is forwarded too when it was sent to all. -/
def passOn (h : Header) (kind : Byte) (payload : List Byte) (u : State) : State :=
  if h.dest = 0x3F#8 then u.hand (Header.frame h kind payload) else u

/-- R168: the oldest request r of the buffer can be taken, and it is command c. -/
abbrev Asked (s : State) (c : Instr) (r : Request) (rest : List Request) : Prop :=
  s.req.buffer = r :: rest ∧ s.ring.routine.length < 32 ∧ requestCommand r = c

/-- Asked, and its length fits its code (R170). -/
abbrev AskedWell (s : State) (c : Instr) (r : Request) (rest : List Request) : Prop :=
  Asked s c r rest ∧ r.malformed = false

/-- R168, R169: the event of a taken request: the RESPONSE goes first, then the other frames of the event. -/
def answered (s : State) (r : Request) (u : State) (x : Status) (data : List Byte) : Host.Outcome State Fault Refusal :=
  .next (closeEvent s (respond r ⟨u, x, data⟩))

/-! ## The settling of an event -/

/-- R91: the conditions of an advance. -/
abbrev Advances (s : State) (l : LaneIx) : Prop :=
  (s.lane l).window = .empty ∧ (s.laneCfg l).give = true ∧ s.laneOpen l = true ∧ (s.lane l).queue ≠ [] ∧
    s.run.state ≠ .estop

/-- R102: the test of auto-return but for room on the belt: entry 0 is PRESENTED, with no foreign tote, and is a
tote of an order that is not in the lane's book. -/
abbrev ReturnsTote (s : State) (l : LaneIx) : Prop :=
  (s.lane l).window = .presented ∧ (s.lane l).foreign = none ∧ s.run.state ≠ .estop ∧
    ∃ k rest t o, (s.lane l).queue = .known k :: rest ∧ s.tote? k = some t ∧ s.order? t.order = some o ∧
      o.state ≠ .routed l ∧ o.state ≠ .ready l

/-- R98, R90: the push of a known entry 0, tote k, with its CHUTE frame. -/
abbrev Pushed (s : State) (l : LaneIx) (k : ToteSlot) : State :=
  let t := ((s.hand (chuteFrame (s.laneCfg l).station)).removeTote k).modTote k (fun t => { t with location := .returnBelt })
  t.putLane l { t.lane l with window := .empty, foreign := none, emptyScans := 0 }

/-- R100: order k, whose record is o, is READY in lane l. -/
abbrev ReadyIn (s : State) (l : LaneIx) (k : OrderSlot) (o : Order) : Prop :=
  o.live = o.total - o.done ∧ ∀ q ∈ s.totes, q.2.order = k → q.2.location = .lane l

/-- What follows in an event that began in state `before` and whose own rule and grant left s (log entries 25 and
35); `ends` says that HALTING ends (R147), and the lanes of `forced` hand both counter frames over. R91: the
advances. R106: the unattended timers. R100, R101: readiness, whose lists and orders are those of
State.readiness. R34: OVERBOOKED at a rise. R130, R154: the claimant report. R103, R104: lamps and displays. All
else stands. -/
def Settled (forced : List LaneIx) (ends : Bool) (before s t : State) : Prop :=
  let report := ends = false ∧ t.claimant = true ∧ before.claimant = false
  let counter := fun l : LaneIx =>
    (if l ∈ forced ∨ (s.lane l).lamp ≠ (t.lane l).lamp then [lampFrame (s.laneCfg l).station (t.lane l).lamp] else []) ++
    (if l ∈ forced ∨ (s.lane l).display ≠ (t.lane l).display then
      [displayFrame (s.laneCfg l).station (t.lane l).display] else [])
  (∀ l : LaneIx, t.lane l =
    { s.lane l with
      window := (if Advances s l then .advancing else (s.lane l).window)
      advance := (if Advances s l then some (s.now + (s.laneCfg l).advanceLimit * 100) else (s.lane l).advance)
      unattended :=
        (if (s.lane l).queue = [] ∨ s.run.state = .estop ∨ s.laneOpen l = false then .stopped
         else if (s.lane l).unattended = .stopped then .running (s.now + (s.laneCfg l).unattendedInterval * 100000)
         else (s.lane l).unattended)
      ready := (s.readiness.lane l).ready
      lamp := t.lampOf l
      display := t.displayOf l }) ∧
  t.orders = s.readiness.orders ∧
  t.ring = { s.ring with outbox := (s.ring.outbox ++
      (allLanes.filter (fun l => Advances s l)).map (fun l => stopFrame (s.laneCfg l).station) ++
      (if ends = true ∧ s.drive.state ≠ .off then [driveFrame s.cfg.drive.station false] else []) ++
      (if report ∧ s.drive.state = .resting then [driveFrame s.cfg.drive.station true] else []) ++
      allLanes.flatMap counter) } ∧
  t.drive =
    (if ends then ⟨.off, none, none, false⟩
     else if report ∧ s.drive.state = .resting then
       ⟨.starting, none, some (s.now + s.cfg.drive.startDelay * 100), false⟩
     else if report ∧ s.drive.state = .stopping then { s.drive with wakePending := true }
     else s.drive) ∧
  ((∃ l, t.overbooked l = true ∧ before.overbooked l = false) →
    t.req = { s.req with flags := s.req.flags ||| Flag.overbooked.only }) ∧
  ((∀ l, t.overbooked l = true → before.overbooked l = true) → t.req = s.req) ∧
  t.run = (if ends then { s.run with state := .stopped, haltTimer := none } else s.run) ∧
  t.throttle = (if ends then ⟨false, 0, none, 0, none, 0⟩ else s.throttle) ∧
  t.totes = (if ends then s.totes.map (fun q => (q.1, { q.2 with deadline := none })) else s.totes) ∧
  (∀ r : ReaderIx, t.reader r =
    if ends = true ∧ r.val < 16 then
      { s.reader r with cycle := .idle, window := none, scanPending := false, scanTimer := none }
    else s.reader r) ∧
  t.willcall = s.willcall ∧ t.merge = s.merge ∧ t.cfg = s.cfg ∧ t.now = s.now ∧ t.pending = s.pending ∧
  t.choices = s.choices

/-! ## Words and codes of the images (chapter 11) -/

/-- 11.7: the word of a lane queue entry: a known tote's tag, a noted tag in kind 1, or kind 2. -/
def laneWord (s : State) (e : QueueEntry) : List Byte :=
  match e with
  | .known k => twoBytes (s.tagOf k)
  | .unknown (some t) => twoBytes (0x4000 + t)
  | .unknown none => [0x80#8, 0x00#8]

/-- 11.7: the word of an induct entry: a known tote's tag, a stray tag in kind 1, or kind 2. -/
def inductWord (e : InductItem) : List Byte :=
  if e.tote.isSome then twoBytes (e.tag.getD 0)
  else e.tag.elim [0x80#8, 0x00#8] (fun t => twoBytes (0x4000 + t))

/-- 11.9: the foreign tote. -/
def foreignWord (f : Foreign) : List Byte :=
  match f with
  | .unread => [0xFF#8, 0xFF#8]
  | .tag t => twoBytes t

/-- 11.7: a last result and its tag. -/
def resultWord (x : ReadResult) : List Byte :=
  match x with
  | .tag t => 0x01#8 :: twoBytes t
  | .noread => [0x02#8, 0x00#8, 0x00#8]
  | .empty => [0x03#8, 0x00#8, 0x00#8]
  | .none => [0x04#8, 0x00#8, 0x00#8]

/-- 11.2, 11.6 to 11.9: the codes of states, places, kinds and outcomes, as the tables of the spec give them. -/
abbrev ImageCodes : Prop :=
  (OrderState.unassigned.code = 0x00#8 ∧ (∀ l, (OrderState.routed l).code = 0x10#8) ∧
    (∀ l, (OrderState.ready l).code = 0x20#8) ∧ (OrderState.willcall .unbanded).code = 0x31#8 ∧
    (OrderState.willcall .oversize).code = 0x32#8 ∧ (OrderState.willcall .lapped).code = 0x33#8 ∧
    (OrderState.willcall .refused).code = 0x34#8 ∧ (OrderState.willcall .expired).code = 0x35#8 ∧
    (OrderState.willcall .cancelled).code = 0x36#8 ∧ Reason.unbanded.code = 1 ∧ Reason.oversize.code = 2 ∧
    Reason.lapped.code = 3 ∧ Reason.refused.code = 4 ∧ Reason.expired.code = 5 ∧ Reason.cancelled.code = 6 ∧
    OrderState.unassigned.laneByte = 0xFF#8 ∧ (∀ l, (OrderState.routed l).laneByte = byte l.val) ∧
    (∀ l, (OrderState.ready l).laneByte = byte l.val) ∧ ∀ r, (OrderState.willcall r).laneByte = 0xFF#8) ∧
  (Location.unplaced.code = 0x00#8 ∧ (∀ i, (Location.induct i).code = byte (0x10 + i.val)) ∧
    Location.loop.code = 0x20#8 ∧ (∀ l, (Location.incoming l).code = byte (0x30 + l.val)) ∧
    (∀ l, (Location.lane l).code = byte (0x40 + l.val)) ∧ Location.returnBelt.code = 0x50#8 ∧
    Location.willcallIncoming.code = 0x60#8 ∧ Location.willcall.code = 0x70#8) ∧
  (sightingCode none = 0x00#8 ∧ sightingCode (some .seen) = 0x01#8 ∧
    (∀ n, sightingCode (some (.unseen n)) = byte (0x10 + n)) ∧ sightingCode (some .lost) = 0x20#8) ∧
  (Outcome.diverted.code = 0x01#8 ∧ Outcome.redirected.code = 0x02#8 ∧ Outcome.refusedFull.code = 0x03#8 ∧
    Outcome.refusedTake.code = 0x04#8 ∧ Outcome.refusedClosed.code = 0x05#8) ∧
  (GateKind.lap.code = 0x00#8 ∧ GateKind.lane.code = 0x01#8 ∧ GateKind.willcall.code = 0x02#8 ∧
    GateKind.track.code = 0x03#8) ∧
  (UnattendedAction.lamp.code = 0x00#8 ∧ UnattendedAction.autoReturn.code = 0x01#8 ∧
    AssignMethod.fixed.code = 0x00#8 ∧ AssignMethod.spread.code = 0x01#8) ∧
  (ThrottleMode.none.code = 0x00#8 ∧ ThrottleMode.monitor.code = 0x01#8 ∧ ThrottleMode.count.code = 0x02#8 ∧
    ThrottleMode.load.code = 0x03#8 ∧ ThrottleMode.countLoad.code = 0x04#8) ∧
  (RunState.stopped.code = 0x00#8 ∧ RunState.running.code = 0x01#8 ∧ RunState.halting.code = 0x02#8 ∧
    RunState.estop.code = 0x03#8) ∧
  (DriveState.off.code = 0x00#8 ∧ DriveState.starting.code = 0x01#8 ∧ DriveState.running.code = 0x02#8 ∧
    DriveState.stopping.code = 0x03#8 ∧ DriveState.resting.code = 0x04#8) ∧
  (Window.empty.code = 0x00#8 ∧ Window.advancing.code = 0x01#8 ∧ Window.presented.code = 0x02#8 ∧
    Window.held.code = 0x03#8) ∧
  (Cycle.idle.code = 0x00#8 ∧ Cycle.opened.code = 0x01#8 ∧ Cycle.wait.code = 0x02#8) ∧
  (Unattended.stopped.code = 0x00#8 ∧ (∀ e, (Unattended.running e).code = 0x01#8) ∧
    Unattended.expired.code = 0x02#8) ∧
  (Lamp.off.code = 0x00#8 ∧ Lamp.steady.code = 0x01#8 ∧ Lamp.slow.code = 0x02#8 ∧ Lamp.attention.code = 0x03#8) ∧
  (yesNo false = 0x00#8 ∧ yesNo true = 0x01#8)

/-! ## Events of the part's own -/

/-- A timer's time has come. -/
abbrev RunsOut (s : State) (timer : Option Time) : Prop := ∃ e, timer = some e ∧ e ≤ s.now

/-- What the rows wait for whose events are the part's own; the other rows come from outside. The rows after the
expiries are those of the requests (R168). -/
def Due (s : State) (c : Instr) : Prop :=
  match c with
  | .powerOn | .resetLinePulse | .receptionFailure _ | .ownFrameStrip _ | .forwardedFrame _
  | .unreceivedKindFrame _ | .gateEye _ | .inductEntryEye _ | .returnHeadEye _ | .willcallExitEye _
  | .laneEntryEye _ | .willcallEntryEye _ | .mergeApproachEye _ | .tag _ _ | .noread _ | .empty _ | .taken _
  | .returnButton _ | .removed _ | .estopPressed _ | .estopReleased _ | .stationUp _ | .requestFrame _ _ => False
  | .partReady => s.ring.ready = false ∧ s.ring.readyBy ≤ s.now
  | .transmissionEnd => RunsOut s ((s.ring.transmission.map (·.ends)).or s.ring.gap)
  | .readWindowExpiry r => (s.reader r).cycle = .opened ∧ RunsOut s (s.reader r).window
  | .scanIntervalExpiry l =>
    let x := s.reader (headReader l)
    x.cycle = .wait ∧ x.scanPending = false ∧ RunsOut s x.scanTimer
  | .confirmExpiry l tag => ∃ e ∈ (s.lane l).incoming, s.tagOf e.tote = tag ∧ RunsOut s e.confirm
  | .willcallConfirmExpiry tag => ∃ e ∈ s.willcall.incoming, s.tagOf e.tote = tag ∧ RunsOut s e.confirm
  | .advanceLimitExpiry l => (s.lane l).window = .advancing ∧ RunsOut s (s.lane l).advance
  | .unattendedExpiry l => ∃ e, (s.lane l).unattended = .running e ∧ e ≤ s.now
  | .collectExpiry ticket => ∃ l, ∃ e ∈ (s.lane l).ready, s.ticketOf e.order = ticket ∧ e.collect ≤ s.now
  | .deadlineExpiry tag => ∃ p ∈ s.totes, p.2.tag = tag ∧ ∃ d, p.2.deadline = some d ∧ d.expiry ≤ s.now
  | .mergeHoldExpiry => RunsOut s s.merge.hold
  | .samplingWindowExpiry => RunsOut s s.throttle.samplingTimer
  | .monitorWindowExpiry => s.throttle.throttled = true ∧ RunsOut s s.throttle.monitorTimer
  | .haltTimerExpiry => s.run.state = .halting ∧ RunsOut s s.run.haltTimer
  | .startDelayExpiry => s.drive.state = .starting ∧ RunsOut s s.drive.delay
  | .idleExpiry => s.drive.state = .running ∧ RunsOut s s.drive.idle
  | .stopDelayExpiry => s.drive.state = .stopping ∧ RunsOut s s.drive.delay
  | c => ∃ r rest, s.req.buffer = r :: rest ∧ requestCommand r = c ∧ s.ring.routine.length < 32

/-! ## Rows of one shape -/

/-- The rows of the EYE frames that trigger readers, with the readers of the role and the role byte. -/
abbrev TriggerRow (h : Header) (c : Instr) (rs : List ReaderIx) (role : Byte) : Prop :=
  (c = .gateEye h ∧ rs = gateReaders ∧ role = 0x01#8) ∨
  (c = .inductEntryEye h ∧ rs = inductReaders ∧ role = 0x02#8) ∨
  (c = .returnHeadEye h ∧ rs = [returnHeadReader] ∧ role = 0x04#8) ∨
  (c = .willcallExitEye h ∧ rs = [exitReader] ∧ role = 0x06#8)

/-- The rows of the result frames, with the result a frame gives, its KIND and its payload. -/
abbrev ResultRow (h : Header) (c : Instr) (res : ReadResult) (kind : Byte) (payload : List Byte) : Prop :=
  (∃ v, c = .tag h v ∧ res = tagResult v.toNat ∧ kind = Kind.tag ∧ payload = bytes16 v) ∨
  (c = .noread h ∧ res = .noread ∧ kind = Kind.noread ∧ payload = []) ∨
  (c = .empty h ∧ res = .empty ∧ kind = Kind.empty ∧ payload = [])

/-- The reader that an EYE from station a reaches among the readers of its role. -/
abbrev ReachedBy (s : State) (rs : List ReaderIx) (a : Nat) (r : ReaderIx) : Prop :=
  rs.find? (fun r => s.enabled r && s.stationOf r == a) = some r

/-- The request rows: every command that the Request Unit takes from its buffer. -/
abbrev IsRequestRow (c : Instr) : Prop := ∃ r, requestCommand r = c

/-- The rows whose own effect is to refuse, with the status of the refusal. -/
abbrev RefusingRow (c : Instr) (x : Status) : Prop :=
  (c = .unknownRequest ∧ x = .unknown) ∨ (c = .controlUndefinedOperation ∧ x = .range) ∨
    (c = .writeEntryUndefinedTable ∧ x = .range)

end Sys2Proof.Machine
end

