-- ==== Sys2Proof/Certificates/Slice0/Obligations.lean ====
section
/-! DEFINITION. The statements about the machine that the provers settle. A statement that says `exec c s`
answers `closeEvent …` gives the whole next state: what `closeEvent` and `settle` may change beside it is
said by CloseEventFrame and SettleFrame. -/

open Sys2Proof Sys2Proof.Machine

/-! ## The step -/

/-- A step runs the command at the front of the queue on the state with the queue's rest. -/
def Obligations.FrontCommandRuns : Prop :=
  ∀ (c : Instr) (rest : List Instr) (s : State),
    s.pending = c :: rest → step s = exec c { s with pending := rest }

/-- The model's choice (log entries 2, 4, 34 and 40): an empty queue lets one due event happen, or 10 µs pass. A due
event is a row of the table, or the auto-return of a lane whose test of R102 holds while the belt holds fewer than
6 totes: it pushes the window tote. A row is due where its own timer has run out, the reset time or the time of RING
OUT is over, or, for a request row, where the oldest request is its own and the routine queue has room. -/
def Obligations.EmptyQueueStep : Prop :=
  ∀ s : State,
    (s.pending = [] →
      (s.dueEvents = [] → step s = .next { s with now := s.now + 1 }) ∧
      (∀ e, s.dueEvents = [e] → step s = e.run s) ∧
      (2 ≤ s.dueEvents.length → ∃ e ∈ s.dueEvents, step s = e.run { s with choices := s.choices + 1 })) ∧
    (∀ c, OwnEvent.command c ∈ s.dueEvents ↔ c ∈ s.dueCommands) ∧ (∀ c, c ∈ s.dueCommands ↔ Due s c) ∧
    (∀ l : LaneIx, OwnEvent.laneReturn l ∈ s.dueEvents ↔ ReturnsTote s l ∧ s.beltCount < 6) ∧
    (∀ c, OwnEvent.run (.command c) s = exec c s) ∧
    (∀ (l : LaneIx) k rest, ReturnsTote s l → s.beltCount < 6 → (s.lane l).queue = .known k :: rest →
      OwnEvent.run (.laneReturn l) s = .next (closeEvent s (settle s (Pushed s l k))))

/-- No command stops the part, and none touches the queue of waiting commands. -/
def Obligations.EveryCommandAnswersNext : Prop :=
  ∀ (c : Instr) (s : State), ∃ t, exec c s = .next t ∧ t.pending = s.pending

/-! ## Resets -/

/-- What power-on leaves. The NOTICE in transmission and its end are the model's reading (log entries 7 and
11). -/
def Obligations.ResetStateHolds : Prop :=
  let s := State.reset
  s.orders = [] ∧ s.totes = [] ∧ s.willcall = ⟨[], []⟩ ∧
  (∀ r : ReaderIx, s.reader r = ⟨.idle, none, false, none, true, false, none⟩) ∧
  (∀ l : LaneIx, s.lane l = ⟨.unsurveyed, [], [], .held, none, none, 0, [], .stopped, false, .off, []⟩) ∧
  (∀ i : InductIx, s.queue i = []) ∧ s.merge.head = .absent ∧ s.merge.hold = none ∧ s.merge.pointer = 3 ∧
  s.throttle = ⟨false, 0, none, 0, none, 0⟩ ∧ s.drive = ⟨.off, none, none, false⟩ ∧ s.run = ⟨.stopped, none, 0⟩ ∧
  s.ring.forward = [] ∧ s.ring.urgent = [] ∧ s.ring.routine = [] ∧ s.ring.waitCount = 0 ∧ s.ring.reception = [] ∧
  s.ring.transmission = some ⟨noticeFrame Flag.startPower.only, 12⟩ ∧ s.ring.gap = none ∧
  s.req = ⟨[], false, false, Flag.startPower.only, BitVec.allOnes 20⟩ ∧
  (∀ g : GateIx, s.gateCfg g = ⟨false, .track, 0, 3, 120, 80, true⟩) ∧
  (∀ l : LaneIx, s.laneCfg l = ⟨0, true, true, none, 3, 1500, 1000, 3000, 120, .lamp, true⟩) ∧
  (∀ b : BandIx, row s.cfg.bandActive b = ⟨9999, 0, .fixed, 20⟩ ∧ row s.cfg.bandStaging b = ⟨9999, 0, .fixed, 20⟩) ∧
  (∀ i : InductIx, s.inductCfg i = ⟨false, 3, 50, true⟩) ∧
  s.cfg.site = ⟨24, 3, 3, 50, 3, 800, 6, 3, 2, 300, 1500, true⟩ ∧ s.cfg.drive = ⟨3, 600, 2000, 1500⟩ ∧
  s.cfg.throttle = ⟨.none, 60, 120, 2, 50, 4, 40⟩

/-- Power-on gives the reset state, and the end of the reset time lets RING IN be read; until then every
received frame is lost. The model's own queue and counter of choices are kept (log entry 11). -/
def Obligations.PowerOnAndResetTime : Prop :=
  ∀ s : State,
    exec .powerOn s = .next { State.reset with pending := s.pending, choices := s.choices } ∧
    exec .partReady s = .next { s with ring := { s.ring with ready := true } } ∧
    (Quiet s → s.ring.ready = false → ∀ f : Frame, receiveFrame f s = s ∧ receiveBytes f.bytes s = s)

/-- A warm start, by the RESET line or by CONTROL RESTART: tables, blocks and queues are reset; the
configuration, the lock and the notice mask stay; the start flag alone is set; DRIVE HALT begins
transmission where RING OUT is free, and else waits for the end of the gap behind the frame that is cut off;
the NOTICE stands first in the routine queue where its flag is enabled, and every present lane's LAMP OFF and
empty DISPLAY wait there too. The model's choice: the length of the reset time (log entry 10), the 10 byte
times that DRIVE HALT holds RING OUT (log entry 7), the order of the frames (log entry 8) and the length of the
gap (log entry 44). -/
def Obligations.WarmStartLeaves : Prop :=
  ∀ (s : State) (c : Instr) (f : Flag),
    let ends := (s.ring.transmission.map (·.ends)).or s.ring.gap
    let halt := driveFrame s.cfg.drive.station false
    ((c = .resetLinePulse ∧ f = .startLine) ∨
      (c = .controlRestart ∧ f = .startRequest ∧ ∃ r rest, AskedWell s .controlRestart r rest)) →
    ∃ t, exec c s = .next t ∧
      t.cfg = s.cfg ∧ t.req = ⟨[], s.req.lock, false, f.only, s.req.mask⟩ ∧
      t.orders = [] ∧ t.totes = [] ∧ t.willcall = ⟨[], []⟩ ∧
      (∀ r : ReaderIx, t.reader r = ⟨.idle, none, false, none, true, false, none⟩) ∧
      (∀ l : LaneIx, t.lane l = ⟨.unsurveyed, [], [], .held, none, none, 0, [], .stopped, false, .off, []⟩) ∧
      (∀ i : InductIx, t.queue i = []) ∧ t.merge.head = .absent ∧ t.merge.hold = none ∧ t.merge.pointer = 3 ∧
      t.throttle = ⟨false, 0, none, 0, none, 0⟩ ∧ t.drive = ⟨.off, none, none, false⟩ ∧
      t.run = ⟨.stopped, none, 0⟩ ∧
      t.now = s.now ∧ t.ring.ready = false ∧ t.ring.readyBy = s.now + 500 ∧ Quiet t ∧
      t.ring.forward = [] ∧ t.ring.waitCount = 0 ∧
      ((∀ e, ends = some e → e ≤ s.now) →
        t.ring.urgent = [] ∧ t.ring.gap = none ∧ t.ring.transmission = some ⟨halt, s.now + 10⟩) ∧
      (∀ e, ends = some e → s.now < e →
        t.ring.urgent = [halt] ∧ t.ring.gap = some (min e (s.now + 2)) ∧ t.ring.transmission = none) ∧
      (f.isIn s.req.mask = true → t.ring.routine.head? = some (noticeFrame f.only)) ∧
      (∀ l : LaneIx, s.lanePresent l = true →
        lampFrame (s.laneCfg l).station .off ∈ t.ring.routine ∧
        displayFrame (s.laneCfg l).station [] ∈ t.ring.routine) ∧
      (∀ g ∈ t.ring.routine,
        (g = noticeFrame f.only ∧ f.isIn s.req.mask = true) ∨
        ∃ l, s.lanePresent l = true ∧
          (g = lampFrame (s.laneCfg l).station .off ∨ g = displayFrame (s.laneCfg l).station []))

/-! ## Frames on the ring -/

/-- The check: its preset, its reference value, and 0000h over every whole frame. -/
def Obligations.CheckValues : Prop :=
  crc [] = 0xFFFF#16 ∧ crc [0x31#8, 0x32#8, 0x33#8, 0x34#8, 0x35#8, 0x36#8, 0x37#8, 0x38#8, 0x39#8] = 0x29B1#16 ∧
  ∀ f : Frame, crc f.bytes = 0x0000#16

/-- The bytes that a frame stands for on the line are read back as that frame, and only they are: bytes fail
reception exactly where no frame to an address other than 0, of at most 32 payload bytes, has them. -/
def Obligations.FrameBytesReadBack : Prop :=
  ∀ (bytes : List Byte) (f : Frame),
    frameOfBytes bytes = some f ↔ f.bytes = bytes ∧ f.dest ≠ 0x00#8 ∧ f.payload.length ≤ 32

/-- Bytes that fail reception are dropped with FRAME-CHECK; a frame of SRC 1 is stripped, and a consumed frame
is ignored, neither changing anything, where its kind is not one the part receives, its LEN is not its
kind's, its sender is no named address (for an ESTOP: lies outside 3 to 62), or it is an EYE, BUTTON or ESTOP whose
payload byte names no role, button or state; a REQUEST of LEN 0 is ignored too. A frame for another node goes
out unchanged: at once where RING OUT is free and nothing waits, else at the tail of the forward buffer while
that holds fewer than 4; else it is lost with FORWARD-DROP. The model's choice: when RING OUT is free again (log
entries 7 and 44), and that a forwarded SCAN is reported as the part's own is (log entry 27). -/
def Obligations.FramesNotForThePart : Prop :=
  (∀ s : State, Quiet s → s.ring.ready = true →
     (∀ bytes, frameOfBytes bytes = none →
       exec (.receptionFailure bytes) s = .next (closeEvent s (s.raise .frameCheck))) ∧
     (∀ f : Frame, f.dest ≠ 0x00#8 → f.payload.length ≤ 32 → f.src = 0x01#8 →
       exec (.ownFrameStrip f) s = .next (closeEvent s s)) ∧
     (∀ f : Frame, f.payload.length ≤ 32 → f.src ≠ 0x01#8 → (f.dest = 0x01#8 ∨ f.dest = 0x3F#8) →
       f.kind ≠ Kind.request →
       let a := f.src.toNat
       let named :=
         (∃ g, (s.gateCfg g).present = true ∧ (s.gateCfg g).station = a) ∨
         (∃ i, (s.inductCfg i).present = true ∧ (s.inductCfg i).station = a) ∨
         (∃ l, (s.laneCfg l).capacity ≠ 0 ∧ (s.laneCfg l).station = a) ∨
         s.cfg.site.willcallStation = a ∨ s.cfg.site.returnStation = a ∨ s.cfg.site.mergeStation = a ∨
         s.cfg.drive.station = a
       stationLength f.kind ≠ some f.payload.length ∨ (f.kind ≠ Kind.estop ∧ ¬named) ∨
           (f.kind = Kind.estop ∧ (a < 3 ∨ 62 < a)) →
         exec (.unreceivedKindFrame f) s = .next (closeEvent s (if f.dest = 0x3F#8 then s.hand f else s))) ∧
     (∀ (f : Frame) (b : Byte), f.src ≠ 0x01#8 → (f.dest = 0x01#8 ∨ f.dest = 0x3F#8) → f.payload = [b] →
       (f.kind = Kind.eye ∧ (b.toNat = 0 ∨ 7 < b.toNat)) ∨ (f.kind = Kind.button ∧ (b.toNat = 0 ∨ 3 < b.toNat)) ∨
           (f.kind = Kind.estop ∧ (b.toNat = 0 ∨ 2 < b.toNat)) →
         exec (.unreceivedKindFrame f) s = .next (closeEvent s (if f.dest = 0x3F#8 then s.hand f else s))) ∧
     (∀ h : Header, h.src ≠ 0x01#8 → (h.dest = 0x01#8 ∨ h.dest = 0x3F#8) →
       exec (.requestFrame h []) s = .next (closeEvent s (passOn h Kind.request [] s)))) ∧
  (∀ (s : State) (f : Frame), Quiet s → s.ring.ready = true → f.src ≠ 0x01#8 → f.dest ≠ 0x00#8 →
     f.dest ≠ 0x01#8 → f.dest ≠ 0x3F#8 → f.payload.length ≤ 32 →
     let busy := s.ring.transmission ≠ none ∨ s.ring.gap ≠ none
     exec (.forwardedFrame f) s = .next (closeEvent s (s.hand f)) ∧
     (busy → s.ring.forward.length < 4 →
       closeEvent s (s.hand f) = { s with ring := { s.ring with forward := s.ring.forward ++ [f] } }) ∧
     (busy → 4 ≤ s.ring.forward.length →
       closeEvent s (s.hand f) = (s.raise .forwardDrop).notify s.req.flags) ∧
     (¬busy → s.ring.forward = [] → s.ring.urgent = [] → s.ring.routine = [] →
       Begins s f (closeEvent s (s.hand f)))) ∧
  (Kind.eye = 0x01#8 ∧ Kind.tag = 0x02#8 ∧ Kind.noread = 0x03#8 ∧ Kind.empty = 0x04#8 ∧ Kind.button = 0x05#8 ∧
    Kind.estop = 0x06#8 ∧ Kind.stationUp = 0x07#8 ∧ Kind.request = 0x20#8) ∧
  (stationLength Kind.eye = some 1 ∧ stationLength Kind.tag = some 2 ∧ stationLength Kind.noread = some 0 ∧
    stationLength Kind.empty = some 0 ∧ stationLength Kind.button = some 1 ∧ stationLength Kind.estop = some 1 ∧
    stationLength Kind.stationUp = some 0 ∧
    ∀ k, k ≠ Kind.eye → k ≠ Kind.tag → k ≠ Kind.noread → k ≠ Kind.empty → k ≠ Kind.button → k ≠ Kind.estop →
      k ≠ Kind.stationUp → stationLength k = none)

/-- The ring-output arbiter's choice when RING OUT becomes free, at the end of a transmission or of the gap that
a warm start left: the queue the frame leaves, the wait count, and the frame's transmission, which for a SCAN
opens the window of the lowest head reader that waits for it, for 250 ms. Where RING OUT is free already nothing
happens. The model's choice: the end of the next transmission (log entry 7), the clock at the event (log entry
3), the gap (log entry 44), that every SCAN is reported (log entry 27), and that at a wait count of 8 the routine
head goes before the DRIVE HALT of an entry into ESTOP (log entry 45). -/
def Obligations.TransmissionEndChooses : Prop :=
  (∀ (s : State) (e : Time), (s.ring.transmission.map (·.ends)).or s.ring.gap = some e →
    ∃ t, exec .transmissionEnd s = .next t ∧
      (Quiet s →
        let u := { s.advanceTo e with ring := { s.ring with transmission := none, gap := none } }
        let counted := if s.ring.routine = [] then s.ring.waitCount else min 8 (s.ring.waitCount + 1)
        t = u.choose ∧
        (∀ f rest, s.ring.routine = f :: rest →
          s.ring.waitCount = 8 ∨ (s.ring.urgent = [] ∧ s.ring.forward = []) →
          Begins { u with ring := { u.ring with routine := rest, waitCount := 0 } } f t) ∧
        (∀ f rest, s.ring.urgent = f :: rest → s.ring.routine = [] ∨ s.ring.waitCount ≠ 8 →
          Begins { u with ring := { u.ring with urgent := rest, waitCount := counted } } f t) ∧
        (∀ f rest, s.ring.urgent = [] → s.ring.forward = f :: rest →
          s.ring.routine = [] ∨ s.ring.waitCount ≠ 8 →
          Begins { u with ring := { u.ring with forward := rest, waitCount := counted } } f t) ∧
        (s.ring.urgent = [] → s.ring.forward = [] → s.ring.routine = [] → t = u))) ∧
  (∀ s : State, s.ring.transmission = none → s.ring.gap = none → exec .transmissionEnd s = .next s)

/-! ## Eyes -/

/-- An EYE that reaches an IDLE triggered reader in service opens its window. An EYE at an open window
leaves it as it is, sets the crowded mark and raises READ-CROWDED; one at a reader out of service, or for no
enabled reader, changes nothing. The readers of each role in rising order, and each reader's station, its window
length, when it is enabled and when it is in service. The model's choice (log entry 9): a frame to all is consumed
before it is forwarded. -/
def Obligations.TriggerEyes : Prop :=
  (∀ (s : State) (h : Header) (c : Instr) (rs : List ReaderIx) (role : Byte) (r : ReaderIx),
     Quiet s → Heard s h → TriggerRow h c rs role → ReachedBy s rs h.src.toNat r →
     s.inService r = true → (s.reader r).cycle = .idle →
     exec c s = .next (closeEvent s (passOn h Kind.eye [role]
       { s with readers := (setRow s.readers r
           { s.reader r with cycle := .opened, window := some (s.now + s.windowLength r) }) }))) ∧
  (∀ (s : State) (h : Header) (c : Instr) (rs : List ReaderIx) (role : Byte),
     Quiet s → Heard s h → TriggerRow h c rs role →
     (∀ r, ReachedBy s rs h.src.toNat r → s.inService r = true → (s.reader r).cycle = .opened →
       exec c s = .next (closeEvent s (passOn h Kind.eye [role]
         ({ s with readers := setRow s.readers r { s.reader r with crowded := true } }.raise .readCrowded)))) ∧
     (∀ r, ReachedBy s rs h.src.toNat r → s.inService r = false →
       exec c s = .next (closeEvent s (passOn h Kind.eye [role] s))) ∧
     ((∀ r ∈ rs, s.enabled r = true → s.stationOf r ≠ h.src.toNat) →
       exec c s = .next (closeEvent s (passOn h Kind.eye [role] s)))) ∧
  (∀ r : ReaderIx, (r ∈ gateReaders ↔ r.val < 16) ∧ (r ∈ inductReaders ↔ 16 ≤ r.val ∧ r.val < 20)) ∧
  gateReaders.Pairwise (· < ·) ∧ inductReaders.Pairwise (· < ·) ∧
  (∀ (s : State) (r : ReaderIx),
     (∀ g : GateIx, r.val = g.val →
       (s.enabled r = true ↔ (s.gateCfg g).present = true) ∧ s.stationOf r = (s.gateCfg g).station ∧
       (s.inService r = true ↔ s.run.state = .running ∨ s.run.state = .halting) ∧
       s.windowLength r = (s.gateCfg g).decisionWindow * 100) ∧
     (∀ i : InductIx, r.val = 16 + i.val →
       (s.enabled r = true ↔ (s.inductCfg i).present = true) ∧ s.stationOf r = (s.inductCfg i).station) ∧
     (∀ l : LaneIx, r.val = 20 + l.val →
       (s.enabled r = true ↔ (s.laneCfg l).capacity ≠ 0) ∧ s.stationOf r = (s.laneCfg l).station ∧
       (s.inService r = true ↔ s.laneOpen l = true ∧ s.run.state ≠ .estop)) ∧
     (r.val = 32 → s.enabled r = true ∧ s.stationOf r = s.cfg.site.returnStation) ∧
     (r.val = 33 → s.enabled r = true ∧ s.stationOf r = s.cfg.site.willcallStation) ∧
     ((16 ≤ r.val ∧ r.val < 20) ∨ 32 ≤ r.val → (s.inService r = true ↔ s.run.state ≠ .estop)) ∧
     (16 ≤ r.val → s.windowLength r = 25000))

/-- A LANE-ENTRY eye at an OPEN lane confirms the oldest incoming entry; with none it appends an unknown
entry while there is room, and raises STRAY-TOTE; a lane that is not OPEN, or no lane, ignores it. The lane is the
lowest-numbered present one whose counter station sent the eye. The model's choice (log entry 9): a frame to all is
consumed, and its frames placed, before it is forwarded. -/
def Obligations.LaneEntryEye : Prop :=
  (∀ (s : State) (a : Nat),
     let names := fun l : LaneIx => (s.laneCfg l).capacity ≠ 0 ∧ (s.laneCfg l).station = a
     (∀ l, s.laneAt a = some l ↔ names l ∧ ∀ m < l, ¬names m) ∧ (s.laneAt a = none ↔ ∀ l, ¬names l)) ∧
  ∀ (s : State) (h : Header), Quiet s → Heard s h →
    (∀ l, s.laneAt h.src.toNat = some l → s.laneOpen l = true →
      (∀ e rest, (s.lane l).incoming = e :: rest →
        exec (.laneEntryEye h) s = .next (closeEvent s (passOn h Kind.eye [0x03#8] (settleLanes s
          ((s.putLane l { s.lane l with incoming := rest, queue := (s.lane l).queue ++ [.known e.tote] }).modTote
            e.tote (fun t => { t with location := .lane l })))))) ∧
      ((s.lane l).incoming = [] → (s.lane l).queue.length < (s.laneCfg l).capacity →
        exec (.laneEntryEye h) s = .next (closeEvent s (passOn h Kind.eye [0x03#8] (settleLanes s
          ((s.putLane l { s.lane l with queue := (s.lane l).queue ++ [.unknown none] }).raise .strayTote))))) ∧
      ((s.lane l).incoming = [] → (s.laneCfg l).capacity ≤ (s.lane l).queue.length →
        exec (.laneEntryEye h) s =
          .next (closeEvent s (passOn h Kind.eye [0x03#8] (settleLanes s (s.raise .strayTote)))))) ∧
    ((∀ l, s.laneAt h.src.toNat = some l → s.laneOpen l = false) →
      exec (.laneEntryEye h) s = .next (closeEvent s (passOn h Kind.eye [0x03#8] s)))

/-- A WILLCALL-ENTRY eye confirms the oldest entry of the will-call incoming list, or raises STRAY-TOTE; a
MERGE-APPROACH eye starts the merge hold anew. Each is taken from its own station only. The model's choice (log
entry 42): after the merge gap was lowered in a hold, the new end can be the earlier one. -/
def Obligations.SpurAndApproachEyes : Prop :=
  ∀ (s : State) (h : Header), Quiet s → Heard s h →
    (h.src.toNat = s.cfg.site.willcallStation →
      (∀ e rest, s.willcall.incoming = e :: rest →
        exec (.willcallEntryEye h) s = .next (closeEvent s (passOn h Kind.eye [0x05#8]
          ({ s with willcall := WillCall.mk rest (s.willcall.list ++ [Stay.mk e.tote s.now]) }.modTote e.tote
            (fun t => { t with location := .willcall }))))) ∧
      (s.willcall.incoming = [] →
        exec (.willcallEntryEye h) s =
          .next (closeEvent s (passOn h Kind.eye [0x05#8] (s.raise .strayTote))))) ∧
    (h.src.toNat ≠ s.cfg.site.willcallStation →
      exec (.willcallEntryEye h) s = .next (closeEvent s (passOn h Kind.eye [0x05#8] s))) ∧
    (h.src.toNat = s.cfg.site.mergeStation →
      exec (.mergeApproachEye h) s = .next (closeEvent s (passOn h Kind.eye [0x07#8]
        { s with merge := { s.merge with hold := some (s.now + s.cfg.site.mergeGap * 100) } }))) ∧
    (h.src.toNat ≠ s.cfg.site.mergeStation →
      exec (.mergeApproachEye h) s = .next (closeEvent s (passOn h Kind.eye [0x07#8] s)))

/-! ## Results -/

/-- A result frame completes the cycle of the OPEN reader it reaches, and the owner acts on the result as it
is delivered: as NONE where the fresh mark discards it. The reader's own state after a completion, and the
idle timer after a gate read completion. The setting "discard first read" of each reader, and the result of a TAG
frame: NOREAD for a value of 0 or above 4095. The model's choice: the discarded mark of the last result is set for
a result of NONE too (log entry 12), and a frame to all is consumed, and its frames placed, before it is forwarded
(log entry 9). -/
def Obligations.ResultCompletesCycle : Prop :=
  (∀ (s : State) (h : Header) (c : Instr) (res : ReadResult) (kind : Byte) (payload : List Byte) (r : ReaderIx),
     Quiet s → Heard s h → ResultRow h c res kind payload →
     s.enabled r = true → s.stationOf r = h.src.toNat → (s.reader r).cycle = .opened →
     (∀ q < r, s.enabled q = true → s.stationOf q = h.src.toNat → (s.reader q).cycle ≠ .opened) →
     exec c s = .next (closeEvent s (passOn h kind payload (settle s
       ((s.finishCycle r res).deliver r
         (if (s.reader r).fresh = true ∧ s.discardFirst r = true then .none else res)))))) ∧
  (∀ (s : State) (r : ReaderIx) (res : ReadResult),
     let x := s.reader r
     let last := some ⟨res, x.fresh && s.discardFirst r⟩
     (r.val < 16 → s.drive.state = .running →
       s.finishCycle r res =
         { s with
           readers := setRow s.readers r ⟨.idle, none, false, none, false, x.crowded, last⟩
           drive := { s.drive with idle := some (s.now + s.cfg.drive.idleInterval * 100000) } }) ∧
     (r.val < 16 → s.drive.state ≠ .running →
       s.finishCycle r res =
         { s with readers := setRow s.readers r ⟨.idle, none, false, none, false, x.crowded, last⟩ }) ∧
     ((16 ≤ r.val ∧ r.val < 20) ∨ 32 ≤ r.val →
       s.finishCycle r res =
         { s with readers := setRow s.readers r ⟨.idle, none, false, none, false, x.crowded, last⟩ }) ∧
     (∀ l : LaneIx, r.val = 20 + l.val →
       s.finishCycle r res =
         { s with readers := (setRow s.readers r
             ⟨.wait, none, false, some (s.now + (s.laneCfg l).scanInterval * 100), false, x.crowded, last⟩) })) ∧
  (∀ (s : State) (r : ReaderIx),
     (∀ g : GateIx, r.val = g.val → s.discardFirst r = (s.gateCfg g).discardFirst) ∧
     (∀ i : InductIx, r.val = 16 + i.val → s.discardFirst r = (s.inductCfg i).discardFirst) ∧
     (∀ l : LaneIx, r.val = 20 + l.val → s.discardFirst r = (s.laneCfg l).discardFirst) ∧
     (32 ≤ r.val → s.discardFirst r = s.cfg.site.discardFirst)) ∧
  (∀ v : Nat, (v = 0 ∨ 4095 < v → tagResult v = .noread) ∧ (1 ≤ v → v ≤ 4095 → tagResult v = .tag v))

/-- A result frame that reaches no OPEN reader changes no state; only its forwarding, where it was sent to
all, is left. -/
def Obligations.LateResultChangesNothing : Prop :=
  ∀ (s : State) (h : Header) (c : Instr) (res : ReadResult) (kind : Byte) (payload : List Byte),
    Quiet s → Heard s h → ResultRow h c res kind payload →
    (∀ r, s.enabled r = true → s.stationOf r = h.src.toNat →
      (s.reader r).cycle = .idle ∨ (s.reader r).cycle = .wait) →
    exec c s = .next (closeEvent s (passOn h kind payload s))

/-- What a delivered result does at gate g before the decision: nothing for an unread tote, STRAY-TOTE for a
tag with no record; a tote on the loop is seen at g, its deadline armed to the next present gate, and then
decided; one recorded elsewhere is relocated to the loop first. The next present gate: the lowest present
one above, else the lowest of all. A tote that comes onto the loop is located LOOP and SEEN, and where the loop was
empty the drive hears of it: RESTING starts up with DRIVE RUN, STOPPING notes wake-pending. -/
def Obligations.GateDelivery : Prop :=
  (∀ (s : State) (g : GateIx),
     let r := gateReader g
     s.deliver r .noread = s ∧ s.deliver r .empty = s ∧ s.deliver r .none = s ∧
     (∀ t, s.findTote t = none → s.deliver r (.tag t) = s.raise .strayTote) ∧
     (∀ t k x, s.findTote t = some (k, x) → s.tote? k = some x → x.location = .loop →
       s.deliver r (.tag t) =
         State.decide
           { s with totes := (slotPut k
               { x with
                 sighting := some .seen, lastGate := some g
                 deadline := some ⟨s.now + (s.gateCfg g).transitLimit * 10000, s.nextGate g⟩ } s.totes) } g k) ∧
     (∀ t k x, s.findTote t = some (k, x) → x.location ≠ .loop →
       s.deliver r (.tag t) =
         (((((s.removeTote k).raise .strayTote).placeOnLoop k id).readiness).loopUpdate g k).decide g k)) ∧
  (∀ (s : State) (g : GateIx),
     (∀ h, (s.gateCfg h).present = true → g < h →
       (s.gateCfg (s.nextGate g)).present = true ∧ g < s.nextGate g ∧ s.nextGate g ≤ h) ∧
     ((∀ h, (s.gateCfg h).present = true → h ≤ g) → ∀ h, (s.gateCfg h).present = true →
       (s.gateCfg (s.nextGate g)).present = true ∧ s.nextGate g ≤ h)) ∧
  (∀ (s : State) (k : ToteSlot) (f : Tote → Tote) (x : Tote), s.tote? k = some x →
     let t := { s with totes := slotPut k (f { x with location := .loop, sighting := some .seen }) s.totes }
     ((∃ q ∈ s.totes, q.2.location = .loop) → s.placeOnLoop k f = t) ∧
     ((∀ q ∈ s.totes, q.2.location ≠ .loop) →
       (s.drive.state = .off ∨ s.drive.state = .starting ∨ s.drive.state = .running → s.placeOnLoop k f = t) ∧
       (s.drive.state = .stopping →
         s.placeOnLoop k f = { t with drive := { s.drive with wakePending := true } }) ∧
       (s.drive.state = .resting →
         s.placeOnLoop k f =
           { t with drive := ⟨.starting, none, some (s.now + s.cfg.drive.startDelay * 100), false⟩ }.hand
             (driveFrame s.cfg.drive.station true))))

/-! ## Decisions at the gates -/

/-- The decision for a tote at a LANE gate, by the answer of the lane: divert, redirect, or refuse; a tote
of an order not assigned to the lane passes. At a TAKE-OFF answer the order is redirected to the lane's
alternate exactly where none of its totes is in the lane or on the way to it and the alternate is a candidate:
the order is ROUTED there, the trails of its totes are cleared and the tote read has its REDIRECTED entry. A
refusal pushes its trail entry, and sends the order to WILLCALL(REFUSED) exactly where the newest entries, as many as
the refusal limit, are all there and all refusals. -/
def Obligations.LaneGateDecides : Prop :=
  (∀ (s : State) (g : GateIx) (k : ToteSlot) (x : Tote) (o : Order) (l : LaneIx),
     (s.gateCfg g).kind = .lane → (s.gateCfg g).lane = l → s.tote? k = some x → s.order? x.order = some o →
     let closed := s.laneOpen l = false ∨ s.overbooked l = true
     let redirects := fun a : LaneIx =>
       (s.laneCfg l).alternate = some a ∧
         (∀ q ∈ s.totes, q.2.order = x.order → q.2.location ≠ .lane l ∧ q.2.location ≠ .incoming l) ∧
         ∃ b, o.band = some b ∧ (row s.cfg.bandActive b).laneSet.getLsbD a.val = true ∧
           (s.laneCfg a).capacity ≠ 0 ∧ s.laneOpen a = true ∧ (s.laneCfg a).take = true ∧
           s.overbooked a = false ∧ ((o.total - o.done : Nat) : Int) ≤ s.free a
     (o.state ≠ .routed l → o.state ≠ .ready l → s.decide g k = s) ∧
     (o.state = .routed l ∨ o.state = .ready l →
       (closed → s.decide g k = s.refuse k g x.order .refusedClosed) ∧
       (¬closed → (s.laneCfg l).take = false →
         (∀ a, redirects a →
           s.decide g k =
             { s with
               orders := slotPut x.order { o with state := .routed a } s.orders
               totes := slotPut k { x with trail := [⟨g, .redirected⟩] }
                 (s.totes.map (fun q => (q.1, if q.2.order = x.order then { q.2 with trail := [] } else q.2))) }) ∧
         ((∀ a, ¬redirects a) → s.decide g k = s.refuse k g x.order .refusedTake)) ∧
       (¬closed → (s.laneCfg l).take = true → s.occupied l + s.incoming l = (s.laneCfg l).capacity →
         s.decide g k = s.refuse k g x.order .refusedFull) ∧
       (¬closed → (s.laneCfg l).take = true → s.occupied l + s.incoming l ≠ (s.laneCfg l).capacity →
         s.decide g k =
           { (s.hand (bladeFrame (s.gateCfg g).station)).putLane l
               { s.lane l with
                 incoming := (s.lane l).incoming ++ [⟨k, some (s.now + (s.laneCfg l).confirmLimit * 100)⟩] } with
             totes := (slotPut k
               { x with
                 location := .incoming l, sighting := none, deadline := none
                 trail := pushTrail ⟨g, .diverted⟩ x.trail } s.totes) }))) ∧
  (∀ (s : State) (k : ToteSlot) (x : Tote) (g : GateIx) (o : OrderSlot) (why : Outcome),
     s.tote? k = some x →
     let trail := pushTrail ⟨g, why⟩ x.trail
     let t := { s with totes := slotPut k { x with trail := trail } s.totes }
     let limit := s.cfg.site.refusalLimit
     s.refuse k g o why =
       if limit ≤ trail.length ∧
           ∀ e ∈ trail.drop (trail.length - limit),
             e.outcome = .refusedFull ∨ e.outcome = .refusedTake ∨ e.outcome = .refusedClosed then
         t.enterWillcall o .refused
       else t)

/-- The decisions at G0 of kind LAP and at a WILLCALL gate; a TRACK gate makes no decision, for any tote. -/
def Obligations.LapAndWillcallGates : Prop :=
  (∀ (s : State) (g : GateIx) (k : ToteSlot), (s.gateCfg g).kind = .track → s.decide g k = s) ∧
  ∀ (s : State) (g : GateIx) (k : ToteSlot) (x : Tote) (o : Order),
    s.tote? k = some x → s.order? x.order = some o →
    ((s.gateCfg g).kind = .lap →
      let t := { s with totes := slotPut k { x with laps := min s.cfg.site.lapLimit (x.laps + 1) } s.totes }
      (o.state ≠ .unassigned → s.decide g k = t) ∧
      (o.state = .unassigned → ∀ o', (t.attempt x.order).order? x.order = some o' →
        s.decide g k =
          if o'.state = .unassigned ∧ (t.attempt x.order).lapsOf k = s.cfg.site.lapLimit then
            (t.attempt x.order).enterWillcall x.order .lapped
          else t.attempt x.order)) ∧
    ((s.gateCfg g).kind = .willcall →
      ((∀ r, o.state ≠ .willcall r) → s.decide g k = s) ∧
      (∀ r, o.state = .willcall r →
        (s.willcall.list.length + s.willcall.incoming.length < s.cfg.site.willcallCapacity →
          s.decide g k =
            { s.hand (bladeFrame (s.gateCfg g).station) with
              willcall := { s.willcall with
                incoming := s.willcall.incoming ++ [⟨k, some (s.now + s.cfg.site.willcallConfirmLimit * 100)⟩] }
              totes := (slotPut k
                { x with location := .willcallIncoming, sighting := none, deadline := none } s.totes) }) ∧
        (s.cfg.site.willcallCapacity ≤ s.willcall.list.length + s.willcall.incoming.length →
          s.decide g k = s.raise .willcallFull)))

/-- Entry into WILLCALL: the state and reason, the ready list, the trails and the flag. R15: freeing a
record as done counts it in its order and frees the slot, and the order with it where done then equals
total; a READY order that is freed leaves its lane's ready list, and no other ready list changes. R13, R90: a tote
that is removed from its recorded place leaves the collection that held it, and is UNPLACED. -/
def Obligations.OrderEndings : Prop :=
  (∀ (s : State) (k : OrderSlot) (o : Order) (why : Reason), s.order? k = some o →
     let t := s.enterWillcall k why
     t.order? k = some { o with state := .willcall why } ∧
     (∀ j, j ≠ k → t.order? j = s.order? j) ∧
     t.totes = s.totes.map (fun p => (p.1, if p.2.order = k then { p.2 with trail := [] } else p.2)) ∧
     t.req = { s.req with flags := s.req.flags ||| Flag.orderToWillcall.only } ∧
     (∀ l, o.state = .ready l →
       t.lanes = setRow s.lanes l
         { s.lane l with ready := (s.lane l).ready.filter (fun e => e.order != k) }) ∧
     ((∀ l, o.state ≠ .ready l) → t.lanes = s.lanes) ∧
     t.cfg = s.cfg ∧ t.ring = s.ring ∧ t.readers = s.readers ∧ t.willcall = s.willcall ∧ t.merge = s.merge ∧
     t.throttle = s.throttle ∧ t.drive = s.drive ∧ t.run = s.run ∧ t.now = s.now ∧ t.pending = s.pending) ∧
  (∀ (s : State) (k : ToteSlot) (x : Tote) (o : Order),
     TablesCanonical s → s.tote? k = some x → s.order? x.order = some o →
     let t := s.freeDone k
     t.tote? k = none ∧ (∀ j, j ≠ k → t.tote? j = s.tote? j) ∧
     (o.done + 1 ≠ o.total → t.order? x.order = some { o with done := o.done + 1, live := o.live - 1 }) ∧
     (o.done + 1 = o.total → t.order? x.order = none) ∧
     (∀ j, j ≠ x.order → t.order? j = s.order? j) ∧
     (∀ l, (t.lane l).ready =
       if o.done + 1 = o.total ∧ o.state = .ready l then (s.lane l).ready.filter (fun e => e.order != x.order)
       else (s.lane l).ready) ∧
     (∀ l j, x.location = .lane l → (s.lane l).positionOf k = some j →
       (t.lane l).queue = (s.lane l).queue.eraseIdx j ∧
       (t.lane l).window = if j = 0 ∧ (s.lane l).window = .presented then .empty else (s.lane l).window) ∧
     (∀ l, x.location ≠ .lane l → (t.lane l).queue = (s.lane l).queue ∧ (t.lane l).window = (s.lane l).window) ∧
     t.willcall.list = (if x.location = .willcall then s.willcall.list.filter (fun e => e.tote != k) else s.willcall.list) ∧
     t.cfg = s.cfg ∧ t.ring = s.ring ∧ t.req = s.req ∧ t.readers = s.readers ∧ t.throttle = s.throttle ∧
     t.drive = s.drive ∧ t.run = s.run ∧ t.now = s.now ∧ t.pending = s.pending) ∧
  (∀ (s : State) (k : ToteSlot) (x : Tote), s.tote? k = some x →
     let t := { s with totes := (slotPut k { x with location := .unplaced, sighting := none, deadline := none } s.totes) }
     let entry := fun l : LaneIx => (s.lane l).positionOf k
     (x.location = .unplaced ∨ x.location = .loop → s.removeTote k = t) ∧
     (∀ i, x.location = .induct i →
       s.removeTote k =
         { t with merge := { s.merge with
             queues := setRow s.merge.queues i ((s.queue i).filter (fun e => e.tote != some k)) } }) ∧
     (∀ l, x.location = .incoming l →
       s.removeTote k =
         { t with lanes := (setRow s.lanes l
             { s.lane l with incoming := (s.lane l).incoming.filter (fun e => e.tote != k) }) }) ∧
     (∀ l, x.location = .lane l →
       (entry l = none → s.removeTote k = t) ∧
       (∀ j, entry l = some j →
         let gone := j = 0 ∧ (s.lane l).window = .presented
         let rest := (s.lane l).queue.eraseIdx j
         (gone → s.removeTote k =
           { t with lanes := (setRow s.lanes l
               { s.lane l with
                 queue := rest, window := .empty, emptyScans := 0
                 unattended := if rest = [] then .stopped else (s.lane l).unattended }) }) ∧
         (¬gone → s.removeTote k =
           { t with lanes := (setRow s.lanes l
               { s.lane l with
                 queue := rest, unattended := if rest = [] then .stopped else (s.lane l).unattended }) }))) ∧
     (x.location = .returnBelt →
       s.removeTote k =
         { t with merge := { s.merge with head := if s.merge.head = .known k then .absent else s.merge.head } }) ∧
     (x.location = .willcallIncoming →
       s.removeTote k =
         { t with willcall := ⟨s.willcall.incoming.filter (fun e => e.tote != k), s.willcall.list⟩ }) ∧
     (x.location = .willcall →
       s.removeTote k =
         { t with willcall := ⟨s.willcall.incoming, s.willcall.list.filter (fun e => e.tote != k)⟩ }))

/-- An assignment attempt: OVERSIZE where no present lane of the set has the capacity; else the lowest
candidate for FIXED, the roomiest one for SPREAD and the lowest of those that tie; else no change. -/
def Obligations.AssignmentChoice : Prop :=
  ∀ (s : State) (k : OrderSlot) (o : Order) (bx : BandIx),
    s.order? k = some o → o.state = .unassigned → o.band = some bx →
    let b := row s.cfg.bandActive bx
    let n := o.total - o.done
    let fits := fun l : LaneIx => b.laneSet.getLsbD l.val = true ∧ (s.laneCfg l).capacity ≠ 0 ∧ n ≤ (s.laneCfg l).capacity
    let cand := fun l : LaneIx =>
      b.laneSet.getLsbD l.val = true ∧ (s.laneCfg l).capacity ≠ 0 ∧ s.laneOpen l = true ∧
        (s.laneCfg l).take = true ∧ s.overbooked l = false ∧ (n : Int) ≤ s.free l
    ((∀ l, ¬fits l) → s.attempt k = s.enterWillcall k .oversize) ∧
    ((∃ l, fits l) →
      ((∀ l, ¬cand l) → s.attempt k = s) ∧
      (∀ l, cand l →
        (b.method = .fixed → (∀ m, cand m → l ≤ m) → s.attempt k = s.routeTo k l) ∧
        (b.method = .spread → (∀ m, cand m → s.free m < s.free l ∨ (s.free m = s.free l ∧ l ≤ m)) →
          s.attempt k = s.routeTo k l)))

/-! ## Induct, merge, return belt, spur -/

/-- The merge arbiter: the return belt first, then the induct heads of the highest priority, and among those
the first after the round-robin pointer; with nothing releasable, no grant. A grant of the head of induct i:
the STOP, the queue, the tote's record, the hold, the pointer, the throttle's counts, the idle timer, and at
the order's first release its attempt of assignment. A grant of the return-belt head: the STOP, the head, the
hold and the idle timer, and for a KNOWN head the tote's record and its order; an UNNAMED head moves no record.
When a head is releasable, and when a claimant stands. -/
def Obligations.MergeGrants : Prop :=
  (∀ s : State,
     (s.beltReleasable = true → s.grant = s.grantBelt) ∧
     (s.beltReleasable = false →
       (∀ i k, s.inductReleasable i = true → s.knownHead i = some k →
         (∀ j, s.inductReleasable j = true →
           s.headPriority j < s.headPriority i ∨
           (s.headPriority j = s.headPriority i ∧ (i - s.merge.pointer - 1).val ≤ (j - s.merge.pointer - 1).val)) →
         s.grant = s.grantInduct i k) ∧
       ((∀ i, s.inductReleasable i = false) → s.grant = s))) ∧
  (∀ (s : State) (i : InductIx) (k : ToteSlot) (x : Tote) (o : Order),
     s.tote? k = some x → s.order? x.order = some o → s.drive.state = .running →
     let t := { s.hand (stopFrame (s.inductCfg i).station) with
         totes := slotPut k
           { x with
             location := .loop, sighting := some .seen, laps := 0, lastGate := none
             deadline := some ⟨s.now + (s.inductCfg i).transitLimit * 10000, 0⟩ } s.totes
         merge :=
           { s.merge with
             queues := setRow s.merge.queues i (s.queue i).tail
             hold := some (s.now + s.cfg.site.mergeGap * 100), pointer := i }
         throttle :=
           { s.throttle with
             samplingCount := min 65535 (s.throttle.samplingCount + 1)
             monitorCount := if s.throttle.throttled = true then s.throttle.monitorCount + 1 else s.throttle.monitorCount } }
     let idle := some (s.now + s.cfg.drive.idleInterval * 100000)
     (o.released = true → s.grantInduct i k = { t with drive := { s.drive with idle := idle } }) ∧
     (o.released = false →
       s.grantInduct i k =
         { ({ t with orders := slotPut x.order { o with released := true } s.orders } : State).attempt x.order with
           drive := { s.drive with idle := idle } })) ∧
  (∀ s : State, s.drive.state = .running →
     let t := { s.hand (stopFrame s.cfg.site.returnStation) with
         merge := { s.merge with head := .absent, hold := some (s.now + s.cfg.site.mergeGap * 100) } }
     let idle := some (s.now + s.cfg.drive.idleInterval * 100000)
     (s.merge.head = .unnamed → s.grantBelt = { t with drive := { s.drive with idle := idle } }) ∧
     (∀ k x o, s.merge.head = .known k → s.tote? k = some x → s.order? x.order = some o →
       let u := { t with totes := (slotPut k
           { x with
             location := .loop, sighting := some .seen, laps := 0, lastGate := none
             deadline := some ⟨s.now + s.cfg.site.returnTransitLimit * 10000, 0⟩ } s.totes) }
       (o.released = true → s.grantBelt = { u with drive := { s.drive with idle := idle } }) ∧
       (o.released = false →
         s.grantBelt =
           { ({ u with orders := slotPut x.order { o with released := true } s.orders } : State).attempt x.order with
             drive := { s.drive with idle := idle } }))) ∧
  (∀ s : State,
     let tracks := s.run.state = .running ∨ s.run.state = .halting
     let allows := s.throttle.throttled = false ∨ s.throttle.monitorCount < s.cfg.throttle.windowMax
     (s.beltReleasable = true ↔
       s.merge.head ≠ .absent ∧ tracks ∧ s.drive.state = .running ∧ s.merge.hold = none) ∧
     (∀ i k, s.knownHead i = some k ↔ ∃ e rest, s.queue i = e :: rest ∧ e.tote = some k) ∧
     (∀ i, s.inductReleasable i = true ↔
       (s.inductCfg i).present = true ∧ s.knownHead i ≠ none ∧ s.run.state = .running ∧
         s.drive.state = .running ∧ s.merge.hold = none ∧ allows) ∧
     (∀ i k x o, s.knownHead i = some k → s.tote? k = some x → s.order? x.order = some o →
       s.headPriority i = o.priority) ∧
     (s.claimant = true ↔
       ((∃ i, (s.inductCfg i).present = true ∧ s.knownHead i ≠ none) ∧ s.run.state = .running ∧ allows) ∨
         ((s.merge.head ≠ .absent ∨ ∃ q ∈ s.totes, q.2.location = .returnBelt) ∧ tracks)))

/-- The reads of an induct reader, by the first case that holds. The reads of the return-head reader and of
the will-call exit reader. -/
def Obligations.OtherReaderDeliveries : Prop :=
  (∀ (s : State) (i : InductIx),
     let r := inductReader i
     let stray := fun tag : Option Nat =>
       if (s.queue i).length < 4 then (s.putQueue i (s.queue i ++ [⟨tag, none⟩])).raise .strayTote
       else s.raise .inductOverfill
     let known := fun (t : State) (k : ToteSlot) (x : Tote) =>
       (t.putQueue i (t.queue i ++ [⟨some x.tag, some k⟩])).modTote k (fun y => { y with location := .induct i })
     s.deliver r .noread = stray none ∧ s.deliver r .empty = stray none ∧ s.deliver r .none = stray none ∧
     (∀ t, s.findTote t = none → s.deliver r (.tag t) = stray (some t)) ∧
     (∀ t k x, s.findTote t = some (k, x) →
       (x.location = .induct i → s.deliver r (.tag t) = (known (s.removeTote k) k x).raise .strayTote) ∧
       (x.location ≠ .induct i → (s.queue i).length = 4 → s.deliver r (.tag t) = s.raise .inductOverfill) ∧
       (x.location = .unplaced → (s.queue i).length ≠ 4 → s.deliver r (.tag t) = known (s.removeTote k) k x) ∧
       (x.location ≠ .induct i → x.location ≠ .unplaced → (s.queue i).length ≠ 4 →
         s.deliver r (.tag t) = (known (s.removeTote k) k x).raise .strayTote))) ∧
  (∀ s : State,
     let head := fun (t : State) (h : BeltHead) => { t with merge := { t.merge with head := h } }
     (∀ res, res = .noread ∨ res = .empty ∨ res = .none → s.deliver returnHeadReader res = head s .unnamed) ∧
     (∀ t, s.findTote t = none → s.deliver returnHeadReader (.tag t) = (head s .unnamed).raise .strayTote) ∧
     (∀ t k x, s.findTote t = some (k, x) →
       (x.location = .returnBelt → s.deliver returnHeadReader (.tag t) = head s (.known k)) ∧
       (x.location ≠ .returnBelt → s.beltCount < 6 →
         s.deliver returnHeadReader (.tag t) =
           (head ((s.removeTote k).modTote k (fun y => { y with location := .returnBelt })) (.known k)).raise
             .strayTote) ∧
       (x.location ≠ .returnBelt → 6 ≤ s.beltCount →
         s.deliver returnHeadReader (.tag t) = (head s .unnamed).raise .strayTote)) ∧
     s.deliver exitReader .empty = s ∧ s.deliver exitReader .none = s ∧
     (s.willcall.list = [] → s.deliver exitReader .noread = s) ∧
     (∀ e rest, s.willcall.list = e :: rest → s.deliver exitReader .noread = s.freeDone e.tote) ∧
     (∀ t, s.findTote t = none → s.deliver exitReader (.tag t) = s.raise .strayTote) ∧
     (∀ t k x, s.findTote t = some (k, x) →
       s.deliver exitReader (.tag t) =
         if x.location = .willcall then s.freeDone k else (s.raise .strayTote).freeDone k))

/-! ## The counter window -/

/-- A scan of the counter window, in every window state. NOREAD presents entry 0, finds an unknown tote at an
empty queue, and changes nothing at a foreign tote. A TAG of the tote of a known entry 0 presents it; at another
entry 0 or at an empty queue the tag is a foreign tote, identifies an unknown entry 0, is noted in it, or is
found, by R94, and so where the window was HELD with another foreign tote; the scan of the foreign tote itself
changes nothing. A tag whose record stands outside this lane's queue is relocated first, with STRAY-TOTE. EMPTY
counts, and is TAKEN the second time; NONE changes nothing. A scan that makes the window PRESENTED with a known
entry 0, or a PRESENTED entry 0 known, is followed by the auto-return test of R102. The model's choice: entry 0's
tag presents it also where the foreign tote bears it (log entry 14), and the repeated scan of a foreign tote outside
the queue raises STRAY-TOTE again (log entry 15); a foreign tote shown where another stood takes ATTENTION anew, with
LANE-ATTENTION (log entry 46). -/
def Obligations.WindowScan : Prop :=
  (∀ (s : State) (l : LaneIx),
     (∀ k rest, ReturnsTote s l → s.beltCount < 6 → (s.lane l).queue = .known k :: rest →
       s.returnTest l = Pushed s l k) ∧
     (¬(ReturnsTote s l ∧ s.beltCount < 6) → s.returnTest l = s)) ∧
  ∀ (s : State) (l : LaneIx),
    let r := headReader l
    let stands := (s.lane l).window = .presented ∧ (s.lane l).foreign = none ∧ ∃ k rest, (s.lane l).queue = .known k :: rest
    let scanned := fun (q : ReadResult) (t : State) =>
      (stands → s.deliver r q = t) ∧ (¬stands → s.deliver r q = t.returnTest l)
    let shown := fun t : State => t.putLane l { t.lane l with window := .presented, foreign := none, advance := none }
    let held := fun (t : State) (f : Foreign) =>
      ((t.putLane l { t.lane l with
          window := .held, foreign := some f, advance := none, attention := true }).raise .laneAttention)
    let reset := fun t : State => t.putLane l { t.lane l with emptyScans := 0 }
    let entries := fun (t : State) (q : List QueueEntry) => t.putLane l { t.lane l with queue := q }
    let z := reset s
    let foreign := (s.lane l).window = .held ∧ (s.lane l).foreign ≠ none
    (¬foreign →
      (∀ e rest, (s.lane l).queue = e :: rest → scanned .noread (shown z)) ∧
      ((s.lane l).queue = [] → (s.lane l).incoming.length < (s.laneCfg l).capacity →
        s.deliver r .noread = (shown (entries z [.unknown none])).raise .strayTote) ∧
      ((s.lane l).queue = [] → (s.laneCfg l).capacity ≤ (s.lane l).incoming.length →
        s.deliver r .noread = held z .unread)) ∧
    (foreign → s.deliver r .noread = z) ∧
    (∀ t, s.findTote t = none →
      let again := (s.lane l).window = .held ∧ (s.lane l).foreign = some (.tag t)
      (∀ k rest, (s.lane l).queue = .known k :: rest → s.tagOf k ≠ t →
        (again → s.deliver r (.tag t) = z) ∧ (¬again → s.deliver r (.tag t) = held z (.tag t))) ∧
      (∀ n rest, (s.lane l).queue = .unknown n :: rest →
        (again → s.deliver r (.tag t) = z) ∧
        (¬again → s.deliver r (.tag t) = shown (entries z (.unknown (some t) :: rest)))) ∧
      ((s.lane l).queue = [] →
        (again → s.deliver r (.tag t) = z) ∧
        (¬again → (s.lane l).incoming.length < (s.laneCfg l).capacity →
          s.deliver r (.tag t) = (shown (entries z [.unknown (some t)])).raise .strayTote) ∧
        (¬again → (s.laneCfg l).capacity ≤ (s.lane l).incoming.length →
          s.deliver r (.tag t) = held z (.tag t)))) ∧
    (∀ t k x, s.findTote t = some (k, x) → s.tote? k = some x →
      let again := (s.lane l).window = .held ∧ (s.lane l).foreign = some (.tag t)
      let m := if x.location = .lane l then s else (s.removeTote k).raise .strayTote
      let z := reset m
      let located := fun u : State => u.modTote k (fun y => { y with location := .lane l })
      (∀ j rest, (s.lane l).queue = .known j :: rest →
        (s.tagOf j = t → scanned (.tag t) (shown z)) ∧
        (s.tagOf j ≠ t →
          (again → s.deliver r (.tag t) = z) ∧ (¬again → s.deliver r (.tag t) = held z (.tag t)))) ∧
      (∀ n rest, (s.lane l).queue = .unknown n :: rest →
        (again → s.deliver r (.tag t) = z) ∧
        (¬again → scanned (.tag t) (shown (located (entries z
          (.known k :: rest.map (fun e => if e = .known k then .unknown none else e))))))) ∧
      ((s.lane l).queue = [] →
        (again → s.deliver r (.tag t) = z) ∧
        (¬again → (m.lane l).incoming.length < (s.laneCfg l).capacity →
          scanned (.tag t) ((shown (located (entries z [.known k]))).raise .strayTote)) ∧
        (¬again → (s.laneCfg l).capacity ≤ (m.lane l).incoming.length →
          s.deliver r (.tag t) = held z (.tag t)))) ∧
    s.deliver r .none = s ∧
    ((s.lane l).toteAtWindow = false → s.deliver r .empty = s) ∧
    ((s.lane l).toteAtWindow = true → (s.lane l).emptyScans = 0 →
      s.deliver r .empty = s.putLane l { s.lane l with emptyScans := 1 }) ∧
    ((s.lane l).toteAtWindow = true → (s.lane l).emptyScans ≠ 0 → s.deliver r .empty = s.takenAt l)

/-- The TAKEN button: at a presented known entry 0 its record is freed as done and the window becomes EMPTY;
in every window state ATTENTION and the empty-scan count are cleared and the unattended timer is restarted;
a foreign tote is cleared from a HELD window, its record, where it has one, freed as done; a HELD window with no
foreign tote becomes EMPTY. A lane that is not OPEN, or an address that names no present lane, changes nothing. The
model's choice (log entry 9): a frame to all is consumed, and its frames placed, before it is forwarded. -/
def Obligations.TakenButton : Prop :=
  (∀ (s : State) (h : Header), Quiet s → Heard s h →
    (∀ l, (s.laneCfg l).capacity = 0 ∨ (s.laneCfg l).station ≠ h.src.toNat) →
    exec (.taken h) s = .next (closeEvent s (passOn h Kind.button [0x01#8] s))) ∧
  ∀ (s : State) (h : Header) (l : LaneIx), Quiet s → Heard s h → s.laneAt h.src.toNat = some l →
    (s.laneOpen l = false → exec (.taken h) s = .next (closeEvent s (passOn h Kind.button [0x01#8] s))) ∧
    (s.laneOpen l = true →
      let c := s.clerkButton l
      c = s.putLane l { s.lane l with
            attention := false, emptyScans := 0
            unattended := if (s.lane l).unattended = .stopped then .stopped
              else .running (s.now + (s.laneCfg l).unattendedInterval * 100000) } ∧
      exec (.taken h) s = .next (closeEvent s (passOn h Kind.button [0x01#8] (settle s (s.takenAt l)))) ∧
      (∀ k rest, (s.lane l).window = .presented → (s.lane l).foreign = none →
        (s.lane l).queue = .known k :: rest → s.takenAt l = (c.freeDone k).emptyWindow l) ∧
      (∀ n rest, (s.lane l).window = .presented → (s.lane l).foreign = none →
        (s.lane l).queue = .unknown n :: rest →
        s.takenAt l = c.putLane l { c.lane l with
          queue := rest, window := .empty, foreign := none
          unattended := if rest = [] then .stopped else (c.lane l).unattended }) ∧
      (∀ t, (s.lane l).window = .held → (s.lane l).foreign = some (.tag t) →
        (∀ k x, s.findTote t = some (k, x) → s.takenAt l = (c.freeDone k).emptyWindow l) ∧
        (s.findTote t = none → s.takenAt l = c.emptyWindow l)) ∧
      ((s.lane l).window = .held → (s.lane l).foreign = some .unread → s.takenAt l = c.emptyWindow l) ∧
      ((s.lane l).window = .held → (s.lane l).foreign = none → s.takenAt l = c.emptyWindow l) ∧
      ((s.lane l).window = .empty ∨ (s.lane l).window = .advancing → s.takenAt l = c) ∧
      (∀ t : State, t.emptyWindow l =
        t.putLane l { t.lane l with window := .empty, foreign := none, emptyScans := 0 }))

/-- The RETURN button: refused with RETURN-FULL at a full belt, not made in ESTOP, and otherwise CHUTE goes
to the counter station and a tote with a record joins the return-belt set. A lane that is not OPEN, or an address that
names no present lane, changes nothing. The model's choice: a full belt is refused in ESTOP too (log entry 18), a
frame to all is consumed, and its frames placed, before it is forwarded (log entry 9), and a foreign tote that the
records have as the KNOWN head of the return belt leaves that head ABSENT (log entry 47). -/
def Obligations.ReturnButton : Prop :=
  (∀ (s : State) (h : Header), Quiet s → Heard s h →
    (∀ l, (s.laneCfg l).capacity = 0 ∨ (s.laneCfg l).station ≠ h.src.toNat) →
    exec (.returnButton h) s = .next (closeEvent s (passOn h Kind.button [0x02#8] s))) ∧
  ∀ (s : State) (h : Header) (l : LaneIx), Quiet s → Heard s h → s.laneAt h.src.toNat = some l →
    (s.laneOpen l = false → exec (.returnButton h) s = .next (closeEvent s (passOn h Kind.button [0x02#8] s))) ∧
    (s.laneOpen l = true →
      let c := s.clerkButton l
      exec (.returnButton h) s = .next (closeEvent s (passOn h Kind.button [0x02#8] (settle s (s.returnAt l)))) ∧
      ((s.lane l).toteAtWindow = true → 6 ≤ s.beltCount →
        s.returnAt l = ((c.raise .returnFull).putLane l { c.lane l with attention := true }).raise .laneAttention) ∧
      ((s.lane l).toteAtWindow = true → s.beltCount < 6 → s.run.state = .estop → s.returnAt l = c) ∧
      ((s.lane l).toteAtWindow = true → s.beltCount < 6 → s.run.state ≠ .estop →
        let d := c.hand (chuteFrame (s.laneCfg l).station)
        (∀ k rest, (s.lane l).foreign = none → (s.lane l).queue = .known k :: rest →
          s.returnAt l =
            ((d.removeTote k).modTote k (fun t => { t with location := .returnBelt })).emptyWindow l) ∧
        (∀ n rest, (s.lane l).foreign = none → (s.lane l).queue = .unknown n :: rest →
          s.returnAt l = (d.dropEntry0 l).emptyWindow l) ∧
        ((s.lane l).foreign = some .unread → s.returnAt l = d.emptyWindow l) ∧
        (∀ t k x, (s.lane l).foreign = some (.tag t) → s.findTote t = some (k, x) →
          s.returnAt l =
            ((d.removeTote k).modTote k (fun y => { y with location := .returnBelt })).emptyWindow l) ∧
        (∀ t, (s.lane l).foreign = some (.tag t) → s.findTote t = none → s.returnAt l = d.emptyWindow l)) ∧
      ((s.lane l).window = .held → (s.lane l).foreign = none → s.returnAt l = c.emptyWindow l) ∧
      ((s.lane l).window = .empty ∨ (s.lane l).window = .advancing → s.returnAt l = c))

/-- The REMOVED button takes the head entry off its induct queue; its tote becomes UNPLACED. The induct is the
lowest-numbered present one whose station sent the frame. The model's choice (log entry 9): a frame to all is
consumed, and its frames placed, before it is forwarded. -/
def Obligations.RemovedButton : Prop :=
  (∀ (s : State) (a : Nat),
     let names := fun i : InductIx => (s.inductCfg i).present = true ∧ (s.inductCfg i).station = a
     (∀ i, s.inductAt a = some i ↔ names i ∧ ∀ j < i, ¬names j) ∧ (s.inductAt a = none ↔ ∀ i, ¬names i)) ∧
  ∀ (s : State) (h : Header), Quiet s → Heard s h →
    (∀ i e rest, s.inductAt h.src.toNat = some i → s.queue i = e :: rest →
      (∀ k, e.tote = some k →
        exec (.removed h) s = .next (closeEvent s (passOn h Kind.button [0x03#8] (settle s
          ((s.putQueue i rest).modTote k (fun t => { t with location := .unplaced })))))) ∧
      (e.tote = none →
        exec (.removed h) s = .next (closeEvent s (passOn h Kind.button [0x03#8] (settle s (s.putQueue i rest)))))) ∧
    ((∀ i, s.inductAt h.src.toNat = some i → s.queue i = []) →
      exec (.removed h) s = .next (closeEvent s (passOn h Kind.button [0x03#8] s)))

/-! ## Emergency stop, stations -/

/-- ESTOP PRESSED from any station address adds the holder and raises ESTOP; outside ESTOP it enters it:
drive OFF with DRIVE HALT, urgent queue emptied, readers IDLE, no deadline and no confirm timer, advances
held and unattended timers stopped. ESTOP RELEASED takes the holder away and does nothing more. The model's
choice: an expired unattended timer is stopped too (log entry 16), DRIVE HALT is placed ahead of the frame where
that was sent to all (log entry 9), and a routine frame goes before it at a wait count of 8 (log entry 45). -/
def Obligations.EstopButtons : Prop :=
  ∀ (s : State) (h : Header), Quiet s → s.ring.ready = true → (h.dest = 0x01#8 ∨ h.dest = 0x3F#8) →
    3 ≤ h.src.toNat → h.src.toNat ≤ 62 →
    let held := s.run.holders ||| 1#64 <<< h.src.toNat
    (s.run.state = .estop →
      exec (.estopPressed h) s = .next (closeEvent s (passOn h Kind.estop [0x01#8]
        ({ s with run := { s.run with holders := held } }.raise .estop)))) ∧
    (s.run.state ≠ .estop →
      ∃ u, exec (.estopPressed h) s = .next (closeEvent s (passOn h Kind.estop [0x01#8] u)) ∧
        u.run = ⟨.estop, none, held⟩ ∧ u.drive = ⟨.off, none, none, false⟩ ∧
        u.throttle = ⟨false, 0, none, 0, none, 0⟩ ∧
        u.ring = { s.ring with urgent := [], outbox := [driveFrame s.cfg.drive.station false] } ∧
        u.req = { s.req with flags := s.req.flags ||| Flag.estop.only } ∧
        (∀ r, u.reader r =
          { s.reader r with cycle := .idle, window := none, scanPending := false, scanTimer := none }) ∧
        (∀ l, u.lane l =
          { s.lane l with
            window := if (s.lane l).window = .advancing then .held else (s.lane l).window
            advance := none, unattended := .stopped
            incoming := (s.lane l).incoming.map (fun e => ⟨e.tote, none⟩) }) ∧
        u.willcall = ⟨s.willcall.incoming.map (fun e => ⟨e.tote, none⟩), s.willcall.list⟩ ∧
        u.totes = s.totes.map (fun p => (p.1, { p.2 with deadline := none })) ∧
        u.orders = s.orders ∧ u.merge = s.merge ∧ u.cfg = s.cfg ∧ u.now = s.now ∧ u.pending = s.pending) ∧
    exec (.estopReleased h) s = .next (closeEvent s (passOn h Kind.estop [0x02#8]
      { s with run := { s.run with holders := s.run.holders &&& ~~~(1#64 <<< h.src.toNat) } }))

/-- STATION-UP: the lamp and display last handed over go again to a counter station, for each present lane that
names it, in rising order, and the drive command to the drive station; nothing else changes. The model's choice:
the order of these frames (log entry 8), and that a frame to all is consumed, and its frames placed, before it is
forwarded (log entry 9). -/
def Obligations.StationUpResends : Prop :=
  ∀ (s : State) (h : Header), Quiet s → Heard s h →
    let a := h.src.toNat
    let lanes := allLanes.filter (fun l => (s.laneCfg l).capacity ≠ 0 ∧ (s.laneCfg l).station = a)
    let drive := if s.cfg.drive.station = a then
        [driveFrame a (s.drive.state = .starting ∨ s.drive.state = .running)] else []
    exec (.stationUp h) s = .next (closeEvent s (passOn h Kind.stationUp []
      { s with ring := { s.ring with
          outbox := lanes.flatMap (fun l => [lampFrame a (s.lane l).lamp, displayFrame a (s.lane l).display]) ++
            drive } }))

/-! ## Requests -/

/-- A REQUEST from the adapter joins a buffer of fewer than 4, marked where its length does not fit; at 4 it
is dropped; from another address, or sent to all, it is ignored. The lengths that fit, by request code; an undefined
code fits at any length. The model's choice: the LEN of a WRITE-ENTRY naming READER-STATUS or an undefined table is
3 at least (log entry 41), and a frame to all is consumed before it is forwarded (log entry 9). -/
def Obligations.RequestIsBuffered : Prop :=
  (∀ p : List Byte,
     let code := byteAt p 0
     let table := byteAt p 1
     let n := p.length
     requestFits p = true ↔
       (code = 0x01 ∧ n = 5) ∨ (code = 0x02 ∧ n = 6) ∨ (code = 0x03 ∧ n = 3) ∨ (code = 0x04 ∧ n = 3) ∨
       (code = 0x05 ∧ ∃ k ≤ 6, n = 13 + 3 * k) ∨ (code = 0x06 ∧ n = 3) ∨ (code = 0x07 ∧ n = 3) ∨
       (code = 0x08 ∧ n = 3) ∨ (code = 0x09 ∧ n = 3) ∨ (code = 0x0A ∧ n = 3) ∨
       (code = 0x0B ∧
         ((table = 1 ∧ n = 3 + 9) ∨ (table = 2 ∧ n = 3 + 15) ∨ ((table = 3 ∨ table = 4) ∧ n = 3 + 6) ∨
          (table = 5 ∧ n = 3 + 5) ∨ (table = 6 ∧ n = 3 + 16) ∨ (table = 7 ∧ n = 3 + 7) ∨ (table = 8 ∧ n = 3 + 8) ∨
          ((table = 0 ∨ 9 ≤ table) ∧ 3 ≤ n))) ∨
       (code = 0x0C ∧ n = 1) ∨ (code = 0x0D ∧ n = 2) ∨ (code = 0x0E ∧ ∃ k, n = 2 + 2 * k) ∨
       (code = 0x0F ∧ n = 2) ∨ (code = 0x10 ∧ n = 6) ∨ (code = 0x11 ∧ n = 4) ∨ (code = 0x12 ∧ n = 4) ∨
       (code = 0x13 ∧ n = 4) ∨ (code = 0x14 ∧ n = 1) ∨ code = 0 ∨ 0x15 ≤ code) ∧
  ∀ (s : State) (h : Header) (p : List Byte), Quiet s → s.ring.ready = true →
    1 ≤ p.length → p.length ≤ 32 → (h.dest = 0x01#8 ∨ h.dest = 0x3F#8) → h.src ≠ 0x01#8 →
    (h.dest = 0x01#8 → h.src = 0x02#8 → s.req.buffer.length < 4 →
      exec (.requestFrame h p) s = .next (closeEvent s
        { s with req := { s.req with buffer := s.req.buffer ++ [⟨h.tag, p, !requestFits p⟩] } })) ∧
    (h.dest = 0x01#8 → h.src = 0x02#8 → 4 ≤ s.req.buffer.length →
      exec (.requestFrame h p) s = .next (closeEvent s s)) ∧
    (h.src ≠ 0x02#8 ∨ h.dest = 0x3F#8 →
      exec (.requestFrame h p) s = .next (closeEvent s (passOn h Kind.request p s)))

/-- Every request whose length does not fit is answered MALFORMED and changes nothing else; the rows whose
own effect is a refusal are answered with it. The model's choice (log entry 1): a request row changes nothing
where no request waits, where the oldest is another command, and where the routine queue is full. The RESPONSE to
any request: to address 2 from SRC 1, KIND 21h, with the request's TAG, its code, the status code and the data; and
the code of each status. -/
def Obligations.RefusedRequests : Prop :=
  (∀ (r : Request) (u : State) (x : Status) (data : List Byte) (code : Byte) (args : List Byte),
     r.payload = code :: args →
     respond r ⟨u, x, data⟩ =
       { u with ring := { u.ring with
           outbox := ⟨0x02#8, 0x01#8, 0x21#8, r.tag, code :: x.code :: data⟩ :: u.ring.outbox } }) ∧
  (Status.ok.code = 0x00#8 ∧ Status.okIgnored.code = 0x01#8 ∧ Status.busy.code = 0x02#8 ∧
    Status.range.code = 0x03#8 ∧ Status.malformed.code = 0x04#8 ∧ Status.unknown.code = 0x05#8 ∧
    Status.noOrder.code = 0x06#8 ∧ Status.noTote.code = 0x07#8 ∧ Status.duplicate.code = 0x08#8 ∧
    Status.full.code = 0x09#8 ∧ Status.locked.code = 0x0A#8 ∧ Status.notOpen.code = 0x0B#8 ∧
    Status.state.code = 0x0C#8 ∧ Status.invalid.code = 0x0D#8 ∧ Status.conflict.code = 0x0E#8 ∧
    Status.held.code = 0x0F#8 ∧ Status.inLane.code = 0x10#8) ∧
  ∀ (s : State) (c : Instr) (r : Request) (rest : List Request),
    (Asked s c r rest → r.malformed = true → exec c s = answered s r (s.popRequest rest) .malformed []) ∧
    (∀ x, RefusingRow c x → AskedWell s c r rest → exec c s = answered s r (s.popRequest rest) x []) ∧
    (IsRequestRow c → s.req.buffer = [] ∨ 32 ≤ s.ring.routine.length → exec c s = .next s) ∧
    (IsRequestRow c → s.req.buffer = r :: rest → requestCommand r ≠ c → exec c s = .next s)

/-- BIND-ORDER: its checks in order, and the order it creates in the lowest free slot: the first of the 128 that
holds no order. -/
def Obligations.BindOrder : Prop :=
  (∀ s : State, TablesCanonical s → s.orders.length < 128 →
     lowestFree s.orders < 128 ∧ s.order? (lowestFree s.orders) = none ∧
     ∀ k < lowestFree s.orders, s.order? k ≠ none) ∧
  ∀ (s : State) (r : Request) (rest : List Request), AskedWell s .bindOrder r rest →
    let p := s.popRequest rest
    let ticket := wordAt r.args 0
    let total := byteAt r.args 2
    let priority := byteAt r.args 3
    let band := bandOf s.cfg.bandActive ticket
    let slot := lowestFree s.orders
    exec .bindOrder s =
      if ¬(ticket ≤ 9999 ∧ 1 ≤ total ∧ total ≤ 6 ∧ priority ≤ 2) then answered s r p .range []
      else if ∃ q ∈ s.orders, q.2.ticket = ticket then answered s r p .duplicate []
      else if 128 ≤ s.orders.length then answered s r p .full []
      else
        match band with
        | some b =>
          answered s r
            { p with orders := slotPut slot ⟨ticket, total, priority, some b, .unassigned, false, 0, 0⟩ s.orders }
            .ok [0x00#8, byte b.val]
        | none =>
          answered s r
            ({ p with orders :=
                slotPut slot ⟨ticket, total, priority, none, .willcall .unbanded, false, 0, 0⟩ s.orders }.raise
              .orderToWillcall)
            .ok [0x31#8, 0xFF#8]

/-- R24: the band of a ticket is the first whose upper bound is not below it, which in a copy that does not
fall is the one band that covers it; a ticket above the last bound has none. -/
def Obligations.BandOfTicket : Prop :=
  ∀ (bands : Vector BandEntry 8) (t : Nat),
    (∀ i j : BandIx, i ≤ j → (row bands i).upper ≤ (row bands j).upper) →
    (∀ k : BandIx, bandOf bands t = some k ↔
      t ≤ (row bands k).upper ∧ (k = 0 ∨ (row bands (k - 1)).upper < t)) ∧
    (bandOf bands t = none ↔ (row bands 7).upper < t)

/-- ADD-TOTE: its checks in order, the record in the lowest free slot, the first of the 256 that holds none, and its
attachment to the first stray entry of its tag, from I0 to I3 and each queue from head to tail. -/
def Obligations.AddTote : Prop :=
  (∀ s : State, TablesCanonical s → s.totes.length < 256 →
     lowestFree s.totes < 256 ∧ s.tote? (lowestFree s.totes) = none ∧ ∀ k < lowestFree s.totes, s.tote? k ≠ none) ∧
  (∀ (s : State) (tag : Nat),
     let stray := fun (i : InductIx) (j : Nat) => (s.queue i)[j]? = some ⟨some tag, none⟩
     (∀ i j, s.findStray tag = some (i, j) ↔
       stray i j ∧ (∀ m < j, ¬stray i m) ∧ ∀ h < i, ∀ m, ¬stray h m) ∧
     (s.findStray tag = none ↔ ∀ i j, ¬stray i j)) ∧
  ∀ (s : State) (r : Request) (rest : List Request), AskedWell s .addTote r rest →
    let p := s.popRequest rest
    let ticket := wordAt r.args 0
    let tag := wordAt r.args 2
    let part := byteAt r.args 4
    let k := lowestFree s.totes
    (¬(ticket ≤ 9999 ∧ 1 ≤ tag ∧ tag ≤ 4095 ∧ 1 ≤ part ∧ part ≤ 6) → exec .addTote s = answered s r p .range []) ∧
    (ticket ≤ 9999 ∧ 1 ≤ tag ∧ tag ≤ 4095 ∧ 1 ≤ part ∧ part ≤ 6 →
      (s.findOrder ticket = none → exec .addTote s = answered s r p .noOrder []) ∧
      (∀ o x, s.findOrder ticket = some (o, x) → exec .addTote s =
        if x.state = .willcall .cancelled then answered s r p .state []
        else if x.total < part ∨ x.total - x.done - x.live = 0 then answered s r p .range []
        else if (∃ q ∈ s.totes, q.2.tag = tag) ∨ (∃ q ∈ s.totes, q.2.order = o ∧ q.2.part = part) then
          answered s r p .duplicate []
        else if 256 ≤ s.totes.length then answered s r p .full []
        else
          let u := { p with totes := slotPut k ⟨tag, o, part, .unplaced, none, none, none, 0, []⟩ s.totes }.modOrder o
            (fun y => { y with live := y.live + 1 })
          match s.findStray tag with
          | none => answered s r (settle p u) .ok [0x00#8]
          | some (i, j) =>
            answered s r
              (settle p ((u.putQueue i ((s.queue i).set j ⟨some tag, some k⟩)).modTote k
                (fun t => { t with location := .induct i })))
              .ok [byte (0x10 + i.val)]))

/-- CANCEL-ORDER frees an order with no live tote; it sends another to WILLCALL(CANCELLED) with its total
cut to the totes it has. DROP-TOTE frees a record that is not in a counted place of a lane or the spur: an
induct entry becomes stray, a KNOWN head UNNAMED, and the order's total falls; the order is freed where that
makes done equal total. An order that is freed leaves its slot and, where it was READY, its lane's ready list.
The model's choice (log entry 40): a PRESENTED tote of a cancelled order stays at the window in this event, for a
TAKEN that follows or for the lane's own auto-return. -/
def Obligations.CancelAndDrop : Prop :=
  let unready := fun (s : State) (k : OrderSlot) (l : LaneIx) =>
    setRow s.lanes l { s.lane l with ready := (s.lane l).ready.filter (fun e => e.order != k) }
  (∀ (s : State) (r : Request) (rest : List Request), AskedWell s .cancelOrder r rest →
     let p := s.popRequest rest
     let ticket := wordAt r.args 0
     (9999 < ticket → exec .cancelOrder s = answered s r p .range []) ∧
     (ticket ≤ 9999 →
       (s.findOrder ticket = none → exec .cancelOrder s = answered s r p .noOrder []) ∧
       (∀ k o, s.findOrder ticket = some (k, o) →
         let o' := { o with total := o.done + o.live }
         (o.live = 0 →
           (∀ l, o.state = .ready l →
             exec .cancelOrder s = answered s r
               (settleLanes p { p with orders := slotFree k s.orders, lanes := unready s k l }) .ok [0x00#8]) ∧
           ((∀ l, o.state ≠ .ready l) →
             exec .cancelOrder s = answered s r (settleLanes p { p with orders := slotFree k s.orders }) .ok [0x00#8])) ∧
         (o.live ≠ 0 →
           (∀ w, o.state = .willcall w →
             exec .cancelOrder s = answered s r
               (settleLanes p ((p.putOrder k { o' with state := .willcall .cancelled }).raise .orderToWillcall))
               .ok [0x01#8]) ∧
           ((∀ w, o.state ≠ .willcall w) →
             exec .cancelOrder s = answered s r
               (settleLanes p ((p.putOrder k o').enterWillcall k .cancelled)) .ok [0x01#8]))))) ∧
  (∀ (s : State) (r : Request) (rest : List Request), AskedWell s .dropTote r rest →
     let p := s.popRequest rest
     let tag := wordAt r.args 0
     (¬(1 ≤ tag ∧ tag ≤ 4095) → exec .dropTote s = answered s r p .range []) ∧
     (1 ≤ tag → tag ≤ 4095 →
       (s.findTote tag = none → exec .dropTote s = answered s r p .noTote []) ∧
       (∀ k t, s.findTote tag = some (k, t) →
         ((∃ l, t.location = .incoming l ∨ t.location = .lane l) ∨ t.location = .willcallIncoming ∨
             t.location = .willcall → exec .dropTote s = answered s r p .inLane []) ∧
         (∀ o v, s.order? t.order = some o →
           (∃ i, t.location = .induct i ∧
               v = { p with
                 totes := slotFree k s.totes
                 merge := { s.merge with queues := (setRow s.merge.queues i
                   ((s.queue i).map (fun e => if e.tote = some k then ⟨e.tag, none⟩ else e))) } }) ∨
             (t.location = .returnBelt ∧
               v = { p with
                 totes := slotFree k s.totes
                 merge := { s.merge with head := if s.merge.head = .known k then .unnamed else s.merge.head } }) ∨
             (t.location = .unplaced ∨ t.location = .loop) ∧ v = { p with totes := slotFree k s.totes } →
           let ok := fun u : State => exec .dropTote s = answered s r (settle p u) .ok [byte (o.total - 1)]
           (o.done ≠ o.total - 1 →
             ok { v with orders := slotPut t.order { o with total := o.total - 1, live := o.live - 1 } s.orders }) ∧
           (o.done = o.total - 1 →
             (∀ l, o.state = .ready l →
               ok { v with orders := slotFree t.order s.orders, lanes := unready s t.order l }) ∧
             ((∀ l, o.state ≠ .ready l) → ok { v with orders := slotFree t.order s.orders }))))))

/-- WRITE-ORDER writes the priority alone, and answers OK-IGNORED where another byte of the image differs.
-/
def Obligations.WriteOrder : Prop :=
  ∀ (s : State) (r : Request) (rest : List Request), AskedWell s .writeOrder r rest →
    let p := s.popRequest rest
    let ticket := wordAt r.args 0
    let image := r.args.drop 2
    let priority := byteAt image 3
    (¬(ticket ≤ 9999 ∧ priority ≤ 2) → exec .writeOrder s = answered s r p .range []) ∧
    (ticket ≤ 9999 → priority ≤ 2 →
      (s.findOrder ticket = none → exec .writeOrder s = answered s r p .noOrder []) ∧
      (∀ k o, s.findOrder ticket = some (k, o) →
        exec .writeOrder s = answered s r { p with orders := slotPut k { o with priority := priority } s.orders }
          (if (s.orderImage k o).eraseIdx 3 = image.eraseIdx 3 then .ok else .okIgnored) []))

/-- The reads of records, lanes, the spur and the configuration: nothing changes, and the data is the image
of the state as it stands; a key out of range is RANGE, and a missing record NO-ORDER or NO-TOTE. A read of
the reader status table gives the reader's image and then clears its crowded mark. The images, byte by byte, and
the codes in them. The model's choice: a time left between two whole units is rounded either way (log entry 6),
the drive image shows 0 where no timer runs (log entry 37), FIGURES shows 0 for an unattended timer that does not
run (log entry 43), and the stay counts the whole seconds passed (log entry 36). -/
def Obligations.ReadRequests : Prop :=
  (∀ (s : State) (r : Request) (rest : List Request),
     let p := s.popRequest rest
     let w := wordAt r.args 0
     let a := byteAt r.args 0
     let b := byteAt r.args 1
     (AskedWell s .readOrder r rest → exec .readOrder s =
       if 9999 < w then answered s r p .range []
       else match s.findOrder w with
         | some (k, o) => answered s r p .ok (s.orderImage k o)
         | none => answered s r p .noOrder []) ∧
     (AskedWell s .readTote r rest → exec .readTote s =
       if w = 0 ∨ 4095 < w then answered s r p .range []
       else match s.findTote w with
         | some (_, t) => answered s r p .ok (s.toteImage t)
         | none => answered s r p .noTote []) ∧
     (AskedWell s .readLane r rest → exec .readLane s =
       if a ≤ 11 ∧ 1 ≤ b ∧ b ≤ 4 then
         answered s r p .ok (byte a :: byte b ::
           (if b = 1 then s.figures (laneIx a) else if b = 2 then s.queueSection (laneIx a)
             else if b = 3 then s.bookSection (laneIx a) else s.readySection (laneIx a)))
       else answered s r p .range []) ∧
     (AskedWell s .readWillcall r rest → exec .readWillcall s =
       if a ≤ 47 ∧ 1 ≤ b ∧ b ≤ 4 then
         answered s r p .ok (byte s.willcall.list.length :: byte s.willcall.incoming.length ::
           ((s.willcall.list.drop a).take b).flatMap s.stayEntry)
       else answered s r p .range []) ∧
     (AskedWell s .readEntry r rest → exec .readEntry s =
       match s.entryImage a b with
       | some image => answered s r p .ok (byte a :: byte b :: image)
       | none => answered s r p .range [])) ∧
  (∀ (s : State) (r : Request) (rest : List Request), AskedWell s .readEntryReaderStatus r rest →
     let p := s.popRequest rest
     (∀ i : ReaderIx, byteAt r.args 1 = i.val →
       exec .readEntryReaderStatus s = answered s r
         { p with readers := setRow s.readers i { s.reader i with crowded := false } } .ok
         (0x09#8 :: byte i.val :: s.readerImage i)) ∧
     (34 ≤ byteAt r.args 1 → exec .readEntryReaderStatus s = answered s r p .range [])) ∧
  (∀ (s : State) (k : OrderSlot) (o : Order), ∃ live : List Tote,
     live.Perm ((s.totes.filter (fun q => q.2.order == k)).map (·.2)) ∧ live.Pairwise (fun a b => a.part ≤ b.part) ∧
     s.orderImage k o = twoBytes o.ticket ++
       [byte o.total, byte o.priority, o.band.elim 0xFF#8 (fun b => byte b.val), o.state.code, o.state.laneByte,
        yesNo o.released, byte (o.done * 16 + o.live),
        byte ((o.total - o.done) * 16 + (o.total - o.done - o.live))] ++
       live.flatMap (fun t => twoBytes (t.part * 4096 + t.tag) ++ [t.location.code])) ∧
  (∀ (s : State) (t : Tote) (o : Order), s.order? t.order = some o →
     s.toteImage t = twoBytes t.tag ++ twoBytes o.ticket ++
       [byte t.part, t.location.code, sightingCode t.sighting, t.lastGate.elim 0xFF#8 (fun g => byte g.val)] ++
       t.deadline.elim [0xFF#8, 0xFF#8] (fun d => twoBytes (s.left 10000 d.expiry)) ++
       [byte t.laps, byte t.trail.length] ++ t.trail.flatMap (fun e => [byte e.gate.val, e.outcome.code]) ++
       List.replicate (8 - 2 * t.trail.length) 0) ∧
  (∀ (s : State) (l : LaneIx),
     let x := s.lane l
     (∀ k o, s.order? k = some o → s.ticketOf k = o.ticket) ∧ (∀ k t, s.tote? k = some t → s.tagOf k = t.tag) ∧
     s.figures l =
       [byte (s.laneCfg l).capacity, yesNo (s.laneOpen l), yesNo (s.overbooked l), byte x.queue.length,
        byte x.incoming.length, byte (s.reserved l), BitVec.ofInt 8 (s.free l), x.window.code] ++
       x.foreign.elim [0x00#8, 0x00#8] foreignWord ++ [byte x.emptyScans, yesNo x.attention, x.unattended.code] ++
       twoBytes (x.unattended.expiry.elim 0 (s.left 100000)) ++ twoBytes (x.advance.elim 0 (s.left 100)) ++
       [x.lamp.code, byte x.display.length] ++ x.display.flatMap twoBytes ++
       List.replicate (8 - 2 * x.display.length) 0 ∧
     s.queueSection l =
       byte x.queue.length :: (x.queue.flatMap (laneWord s) ++ byte x.incoming.length ::
         x.incoming.flatMap (fun e => twoBytes (s.tagOf e.tote) ++
           [e.confirm.elim 0xFF#8 (fun t => byte (s.left 10000 t))])) ∧
     (∃ book : List (OrderSlot × Order),
       book.Perm (s.orders.filter (fun q => q.2.state = .routed l ∨ q.2.state = .ready l)) ∧
       book.Pairwise (fun a b => a.2.ticket ≤ b.2.ticket) ∧
       s.bookSection l = byte book.length :: book.flatMap (fun q =>
         twoBytes q.2.ticket ++ [q.2.state.code ||| byte (s.share q.1 q.2 l)])) ∧
     s.readySection l = byte x.ready.length :: x.ready.flatMap (fun e =>
       twoBytes (s.ticketOf e.order) ++ [byte ((e.collect - s.now + 5999999) / 6000000)]) ∧
     (∀ e t o w, s.tote? e.tote = some t → s.order? t.order = some o → o.state = .willcall w →
       s.stayEntry e = twoBytes t.tag ++ twoBytes o.ticket ++
         byte w.code :: twoBytes (min 65535 ((s.now - e.since) / 100000)))) ∧
  (∀ s : State,
     (∀ g : GateIx, let e := s.gateCfg g
       s.entryImage 1 g.val = some ([yesNo e.present, e.kind.code, byte e.lane.val, byte e.station] ++
         twoBytes e.decisionWindow ++ twoBytes e.transitLimit ++ [yesNo e.discardFirst])) ∧
     (∀ l : LaneIx, let e := s.laneCfg l
       s.entryImage 2 l.val = some ([byte e.capacity, yesNo e.take, yesNo e.give,
         e.alternate.elim 0xFF#8 (fun a => byte a.val), byte e.station] ++ twoBytes e.confirmLimit ++
         twoBytes e.scanInterval ++ twoBytes e.advanceLimit ++ twoBytes e.unattendedInterval ++
         [e.unattendedAction.code, yesNo e.discardFirst])) ∧
     (∀ (n : Nat) (v : Vector BandEntry 8), (n = 3 ∧ v = s.cfg.bandActive) ∨ (n = 4 ∧ v = s.cfg.bandStaging) →
       ∀ b : BandIx, let e := row v b
       s.entryImage n b.val = some (twoBytes e.upper ++ twoBytes e.laneSet.toNat ++
         [e.method.code, byte e.collectInterval])) ∧
     (∀ i : InductIx, let e := s.inductCfg i
       s.entryImage 5 i.val = some ([yesNo e.present, byte e.station] ++ twoBytes e.transitLimit ++
         [yesNo e.discardFirst] ++ byte (s.queue i).length :: ((s.queue i).flatMap inductWord ++
           List.replicate (8 - 2 * (s.queue i).length) 0))) ∧
     (let e := s.cfg.site
      s.entryImage 6 0 = some ([byte e.willcallCapacity, byte e.willcallStation, byte e.returnStation] ++
        twoBytes e.returnTransitLimit ++ [byte e.mergeStation] ++ twoBytes e.mergeGap ++
        [byte e.lapLimit, byte e.refusalLimit, byte e.lostLimit] ++ twoBytes e.haltTimeout ++
        twoBytes e.willcallConfirmLimit ++ [yesNo e.discardFirst])) ∧
     (let e := s.cfg.drive
      s.entryImage 7 0 = some ([byte e.station] ++ twoBytes e.idleInterval ++ twoBytes e.startDelay ++
        twoBytes e.stopDelay ++ [s.drive.state.code, yesNo s.drive.wakePending] ++
        twoBytes ((s.drive.idle.or s.drive.delay).elim 0 (s.left 10000)))) ∧
     (let e := s.cfg.throttle
      s.entryImage 8 0 = some ([e.mode.code, byte e.samplingWindow] ++ twoBytes e.threshold ++
        [byte e.duration, byte e.monitorWindow, byte e.windowMax, byte e.loadMark, yesNo s.throttle.throttled,
         byte s.throttle.windowsLeft] ++ twoBytes s.throttle.samplingCount ++ [byte s.throttle.monitorCount])) ∧
     (∀ table i, table = 0 ∨ 9 ≤ table ∨ (table = 1 ∧ 16 ≤ i) ∨ (table = 2 ∧ 12 ≤ i) ∨ (table = 3 ∧ 8 ≤ i) ∨
       (table = 4 ∧ 8 ≤ i) ∨ (table = 5 ∧ 4 ≤ i) ∨ (6 ≤ table ∧ i ≠ 0) → s.entryImage table i = none) ∧
     (∀ r : ReaderIx, let x := s.reader r
       s.readerImage r =
         [if r.val < 16 then 0x01#8 else if r.val < 20 then 0x02#8 else if r.val < 32 then 0x03#8
            else if r.val = 32 then 0x04#8 else 0x05#8,
          byte r.val, byte (s.stationOf r),
          if s.enabled r = false then 0x00#8 else if s.inService r = true then 0x03#8 else 0x01#8,
          x.cycle.code, yesNo x.scanPending] ++ twoBytes (x.window.elim 0 (s.left 100)) ++
         [yesNo x.fresh, yesNo x.crowded] ++
         x.last.elim [0x00#8, 0x00#8, 0x00#8, 0x00#8] (fun y => resultWord y.result ++ [yesNo y.discarded])) ∧
     (∀ unit e, (e - s.now) % unit = 0 → s.left unit e = (e - s.now) / unit) ∧
     (∀ unit e, s.left unit e = (e - s.now) / unit ∨ s.left unit e = (e - s.now) / unit + 1)) ∧
  ImageCodes

/-- READ-IDENTITY: the identity record that is fixed in the part, and the lock and service access as they
stand; nothing changes. -/
def Obligations.ReadIdentity : Prop :=
  ∀ (s : State) (r : Request) (rest : List Request), AskedWell s .readIdentity r rest →
    exec .readIdentity s = answered s r (s.popRequest rest) .ok
      ([byte 217] ++ twoBytes 4120 ++ [byte 2, byte 1, if s.req.lock = true then 0x01#8 else 0x00#8,
        if s.req.service = true then 0x01#8 else 0x00#8])

/-! ## Configuration writes -/

/-- A write to a gate or induct entry in range, unlocked and not turned away replaces the entry and makes
its reader IDLE, fresh where it has become present; while the track runs, a write that would move the entry
is refused STATE, and an induct with totes made absent is refused BUSY. An index out of range is RANGE. The ranges of
the fields with their numbers, and the entry that an image in range gives. -/
def Obligations.GateAndInductWrites : Prop :=
  (∀ (p : List Byte) (g : GateIx),
     let b := byteAt p
     let w := wordAt p
     let e := gateOfImage p
     firstBad 1 (gateChecks g p) =
       (if 1 < b 0 then some 1
        else if 3 < b 1 ∨ (b 1 = 0 ∧ g ≠ 0) then some 2
        else if 11 < b 2 then some 3
        else if b 3 < 3 ∨ 62 < b 3 then some 4
        else if w 4 < 20 ∨ 500 < w 4 then some 5
        else if w 6 < 5 ∨ 600 < w 6 then some 6
        else if 1 < b 8 then some 7
        else none) ∧
     (e.present = true ↔ b 0 = 1) ∧ (b 1 ≤ 3 → e.kind.code.toNat = b 1) ∧ (b 2 ≤ 11 → e.lane.val = b 2) ∧
     e.station = b 3 ∧ e.decisionWindow = w 4 ∧ e.transitLimit = w 6 ∧ (e.discardFirst = true ↔ b 8 = 1)) ∧
  (∀ p : List Byte,
     let b := byteAt p
     let w := wordAt p
     let e := inductOfImage p
     firstBad 1 (inductChecks p) =
       (if 1 < b 0 then some 1
        else if b 1 < 3 ∨ 62 < b 1 then some 2
        else if w 2 < 5 ∨ 300 < w 2 then some 3
        else if 1 < b 4 then some 4
        else none) ∧
     (e.present = true ↔ b 0 = 1) ∧ e.station = b 1 ∧ e.transitLimit = w 2 ∧ (e.discardFirst = true ↔ b 4 = 1)) ∧
  ∀ (s : State) (r : Request) (rest : List Request),
    let p := s.popRequest rest
    let idle := fun (x : Reader) (fresh : Bool) =>
      ({ x with cycle := .idle, window := none, scanPending := false, scanTimer := none
                fresh := x.fresh || fresh } : Reader)
    (AskedWell s .writeEntryGate r rest → 16 ≤ r.index → exec .writeEntryGate s = answered s r p .range []) ∧
    (AskedWell s .writeEntryInduct r rest → 4 ≤ r.index → exec .writeEntryInduct s = answered s r p .range []) ∧
    (AskedWell s .writeEntryGate r rest → ∀ g : GateIx, r.index = g.val →
      (∀ n, firstBad 1 (gateChecks g r.image) = some n → exec .writeEntryGate s = answered s r p .range [byte n]) ∧
      (firstBad 1 (gateChecks g r.image) = none →
        let e := gateOfImage r.image
        let d := s.gateCfg g
        let moves := d.present ≠ e.present ∨ d.kind ≠ e.kind ∨ d.lane ≠ e.lane ∨ d.station ≠ e.station
        (s.req.lock = true → exec .writeEntryGate s = answered s r (p.raise .lockedWrite) .locked []) ∧
        (s.req.lock = false → s.trackRuns = true → moves → exec .writeEntryGate s = answered s r p .state []) ∧
        (s.req.lock = false → s.trackRuns = false ∨ ¬moves →
          exec .writeEntryGate s = answered s r
            { p with
              cfg := { s.cfg with gates := setRow s.cfg.gates g e }
              readers := setRow s.readers (gateReader g)
                (idle (s.reader (gateReader g)) (e.present && !d.present)) } .ok []))) ∧
    (AskedWell s .writeEntryInduct r rest → ∀ i : InductIx, r.index = i.val →
      (∀ n, firstBad 1 (inductChecks r.image) = some n → exec .writeEntryInduct s = answered s r p .range [byte n]) ∧
      (firstBad 1 (inductChecks r.image) = none →
        let e := inductOfImage r.image
        let d := s.inductCfg i
        let moves := d.present ≠ e.present ∨ d.station ≠ e.station
        (s.req.lock = true → exec .writeEntryInduct s = answered s r (p.raise .lockedWrite) .locked []) ∧
        (s.req.lock = false → s.trackRuns = true → moves → exec .writeEntryInduct s = answered s r p .state []) ∧
        (s.req.lock = false → s.trackRuns = false ∨ ¬moves →
          (e.present = false → s.queue i ≠ [] → exec .writeEntryInduct s = answered s r p .busy []) ∧
          (e.present = true ∨ s.queue i = [] →
            exec .writeEntryInduct s = answered s r
              { p with
                cfg := { s.cfg with inducts := setRow s.cfg.inducts i e }
                readers := setRow s.readers (inductReader i)
                  (idle (s.reader (inductReader i)) (e.present && !d.present)) } .ok []))))

/-- A write to a lane entry in range: LOCKED where the lock is set and more than TAKE and GIVE would change,
BUSY where the capacity of a lane in use would, and otherwise carried out. A lane that stays present keeps
its state; one made absent or present starts UNSURVEYED (its lamp and display are handed OFF and empty in
the settling, log entry 32). An index out of range is RANGE. The ranges of the fields with their numbers, the entry
that an image in range gives, and what an accepted write does to a head reader that stays enabled: OPEN, or with its
SCAN pending, it restarts from WAIT; else its cycle stands. -/
def Obligations.LaneWrite : Prop :=
  (∀ (p : List Byte) (l : LaneIx),
     let b := byteAt p
     let w := wordAt p
     let e := laneOfImage p
     firstBad 1 (laneChecks l p) =
       (if b 0 = 1 ∨ 8 < b 0 then some 1
        else if 1 < b 1 then some 2
        else if 1 < b 2 then some 3
        else if b 3 ≠ 255 ∧ (11 < b 3 ∨ b 3 = l.val) then some 4
        else if b 4 < 3 ∨ 62 < b 4 then some 5
        else if w 5 < 200 ∨ 5000 < w 5 then some 6
        else if w 7 < 200 ∨ 5000 < w 7 then some 7
        else if w 9 < 500 ∨ 10000 < w 9 then some 8
        else if w 11 < 10 ∨ 600 < w 11 then some 9
        else if 1 < b 13 then some 10
        else if 1 < b 14 then some 11
        else none) ∧
     e.capacity = b 0 ∧ (e.take = true ↔ b 1 = 1) ∧ (e.give = true ↔ b 2 = 1) ∧
     (b 3 = 255 → e.alternate = none) ∧ (∀ a : LaneIx, b 3 = a.val → e.alternate = some a) ∧ e.station = b 4 ∧
     e.confirmLimit = w 5 ∧ e.scanInterval = w 7 ∧ e.advanceLimit = w 9 ∧ e.unattendedInterval = w 11 ∧
     (b 13 ≤ 1 → e.unattendedAction.code.toNat = b 13) ∧ (e.discardFirst = true ↔ b 14 = 1)) ∧
  (∀ (s : State) (l : LaneIx),
     let x := s.reader (headReader l)
     let restarts := x.cycle = .opened ∨ (x.cycle = .wait ∧ x.scanPending = true)
     (restarts → s.writtenHead l =
       { s with readers := (setRow s.readers (headReader l)
           { x with
             cycle := .wait, window := none, scanPending := false
             scanTimer := some (s.now + (s.laneCfg l).scanInterval * 100) }) }) ∧
     (¬restarts → s.writtenHead l = s)) ∧
  (∀ (s : State) (r : Request) (rest : List Request), AskedWell s .writeEntryLane r rest → 12 ≤ r.index →
    exec .writeEntryLane s = answered s r (s.popRequest rest) .range []) ∧
  ∀ (s : State) (r : Request) (rest : List Request) (l : LaneIx),
    AskedWell s .writeEntryLane r rest → r.index = l.val →
    let p := s.popRequest rest
    let e := laneOfImage r.image
    let d := s.laneCfg l
    let q := { p with cfg := { s.cfg with lanes := setRow s.cfg.lanes l e } }
    (∀ n, firstBad 1 (laneChecks l r.image) = some n → exec .writeEntryLane s = answered s r p .range [byte n]) ∧
    (firstBad 1 (laneChecks l r.image) = none →
      let other := { e with take := d.take, give := d.give } ≠ d
      let used := s.laneOpen l = true ∧
        ((s.lane l).queue ≠ [] ∨ (s.lane l).incoming ≠ [] ∨ s.book l ≠ [])
      (s.req.lock = true → other →
        exec .writeEntryLane s = answered s r (p.raise .lockedWrite) .locked []) ∧
      (s.req.lock = false ∨ ¬other →
        (e.capacity ≠ d.capacity → used → exec .writeEntryLane s = answered s r p .busy []) ∧
        (e.capacity = d.capacity ∨ ¬used →
          (d.capacity ≠ 0 → e.capacity ≠ 0 →
            exec .writeEntryLane s = answered s r (settleLanes p (q.writtenHead l)) .ok []) ∧
          (d.capacity = 0 → e.capacity = 0 →
            exec .writeEntryLane s = answered s r (settleLanes p (q.writtenHead l)) .ok []) ∧
          ((d.capacity ≠ 0 ∧ e.capacity = 0) ∨ (d.capacity = 0 ∧ e.capacity ≠ 0) →
            exec .writeEntryLane s = answered s r
              (settleLanes p
                { q with
                  lanes := (setRow s.lanes l
                    ⟨.unsurveyed, [], [], .held, none, none, 0, [], .stopped, false, (s.lane l).lamp,
                      (s.lane l).display⟩)
                  readers := (setRow s.readers (headReader l)
                    { s.reader (headReader l) with
                      cycle := .idle, window := none, scanPending := false, scanTimer := none
                      fresh := (s.reader (headReader l)).fresh || (e.capacity != 0) }) })
              .ok []))))

/-- Writes to the band staging copy and the drive record, and to the tables that are read only. The ranges of the
fields with their numbers, and the entry that an image in range gives. -/
def Obligations.BandDriveAndReadOnlyWrites : Prop :=
  (∀ p : List Byte,
     let b := byteAt p
     let w := wordAt p
     let e := bandOfImage p
     let d := driveOfImage p
     firstBad 1 (bandChecks p) =
       (if 9999 < w 0 then some 1
        else if 4096 ≤ w 2 then some 2
        else if 1 < b 4 then some 3
        else if b 5 < 1 ∨ 120 < b 5 then some 4
        else none) ∧
     e.upper = w 0 ∧ (∀ l : LaneIx, e.laneSet.getLsbD l.val = (w 2).testBit l.val) ∧
     (b 4 ≤ 1 → e.method.code.toNat = b 4) ∧ e.collectInterval = b 5 ∧
     firstBad 1 (driveChecks p) =
       (if b 0 < 3 ∨ 62 < b 0 then some 1
        else if w 1 < 10 ∨ 3600 < w 1 then some 2
        else if w 3 < 100 ∨ 10000 < w 3 then some 3
        else if w 5 < 100 ∨ 10000 < w 5 then some 4
        else none) ∧
     d = ⟨b 0, w 1, w 3, w 5⟩) ∧
  ∀ (s : State) (r : Request) (rest : List Request),
    let p := s.popRequest rest
    (AskedWell s .writeEntryBandStaging r rest →
      (8 ≤ r.index → exec .writeEntryBandStaging s = answered s r p .range []) ∧
      (∀ b : BandIx, r.index = b.val → exec .writeEntryBandStaging s =
        match firstBad 1 (bandChecks r.image) with
        | some n => answered s r p .range [byte n]
        | none =>
          if s.req.lock = true then answered s r (p.raise .lockedWrite) .locked []
          else answered s r
            { p with cfg := { s.cfg with bandStaging := setRow s.cfg.bandStaging b (bandOfImage r.image) } } .ok
            [])) ∧
    (AskedWell s .writeEntryDrive r rest → exec .writeEntryDrive s =
      if r.index ≠ 0 then answered s r p .range []
      else match firstBad 1 (driveChecks r.image) with
        | some n => answered s r p .range [byte n]
        | none =>
          if s.req.lock = true then answered s r (p.raise .lockedWrite) .locked []
          else if s.trackRuns = true ∧ (driveOfImage r.image).station ≠ s.cfg.drive.station then
            answered s r p .state []
          else answered s r { p with cfg := { s.cfg with drive := driveOfImage r.image } } .ok []) ∧
    (AskedWell s .writeEntryReadOnlyTable r rest → exec .writeEntryReadOnlyTable s =
      if (byteAt r.args 0 = 3 ∧ r.index < 8) ∨ (byteAt r.args 0 = 9 ∧ r.index < 34) then answered s r p .state []
      else answered s r p .range [])

/-- A write to the site record: lap counts are cut to the new limit, totes at a lowered lost limit become
LOST with TOTE-LOST, and the windows of the return-head and exit readers are abandoned. A write to the
throttle profile: to NONE or MONITOR it ends THROTTLED; to another mode while THROTTLED it keeps the lesser
of windows left and new duration and starts a new monitor window. The ranges of the fields with their numbers, and
the record that an image in range gives. -/
def Obligations.SiteAndThrottleWrites : Prop :=
  (∀ p : List Byte,
     let b := byteAt p
     let w := wordAt p
     let e := throttleOfImage p
     firstBad 1 (siteChecks p) =
       (if b 0 < 8 ∨ 48 < b 0 then some 1
        else if b 1 < 3 ∨ 62 < b 1 then some 2
        else if b 2 < 3 ∨ 62 < b 2 then some 3
        else if w 3 < 5 ∨ 300 < w 3 then some 4
        else if b 5 < 3 ∨ 62 < b 5 then some 5
        else if w 6 < 100 ∨ 5000 < w 6 then some 6
        else if b 8 < 1 ∨ 15 < b 8 then some 7
        else if b 9 < 1 ∨ 4 < b 9 then some 8
        else if b 10 < 1 ∨ 3 < b 10 then some 9
        else if w 11 < 10 ∨ 600 < w 11 then some 10
        else if w 13 < 200 ∨ 5000 < w 13 then some 11
        else if 1 < b 15 then some 12
        else none) ∧
     siteOfImage p = ⟨b 0, b 1, b 2, w 3, b 5, w 6, b 8, b 9, b 10, w 11, w 13, b 15 == 1⟩ ∧
     firstBad 1 (throttleChecks p) =
       (if 4 < b 0 then some 1
        else if b 1 < 1 then some 2
        else if w 2 < 1 ∨ 4095 < w 2 then some 3
        else if b 4 < 1 ∨ 63 < b 4 then some 4
        else if b 5 < 1 then some 5
        else if 15 < b 6 then some 6
        else if b 7 < 1 then some 7
        else none) ∧
     (b 0 ≤ 4 → e.mode.code.toNat = b 0) ∧ e.samplingWindow = b 1 ∧ e.threshold = w 2 ∧ e.duration = b 4 ∧
     e.monitorWindow = b 5 ∧ e.windowMax = b 6 ∧ e.loadMark = b 7) ∧
  (∀ (s : State) (r : Request) (rest : List Request), AskedWell s .writeEntrySite r rest →
     let p := s.popRequest rest
     let e := siteOfImage r.image
     let d := s.cfg.site
     let moves := d.willcallStation ≠ e.willcallStation ∨ d.returnStation ≠ e.returnStation ∨
       d.mergeStation ≠ e.mergeStation
     let lost := fun t : Tote => e.lostLimit < d.lostLimit ∧ ∃ n, t.sighting = some (.unseen n) ∧ e.lostLimit ≤ n
     let idle := fun x : Reader =>
       ({ x with cycle := .idle, window := none, scanPending := false, scanTimer := none } : Reader)
     (r.index ≠ 0 → exec .writeEntrySite s = answered s r p .range []) ∧
     (r.index = 0 →
       (∀ n, firstBad 1 (siteChecks r.image) = some n → exec .writeEntrySite s = answered s r p .range [byte n]) ∧
       (firstBad 1 (siteChecks r.image) = none →
         (s.req.lock = true → exec .writeEntrySite s = answered s r (p.raise .lockedWrite) .locked []) ∧
         (s.req.lock = false → s.trackRuns = true → moves → exec .writeEntrySite s = answered s r p .state []) ∧
         (s.req.lock = false → s.trackRuns = false ∨ ¬moves →
           (e.willcallCapacity < s.willcall.list.length + s.willcall.incoming.length →
             exec .writeEntrySite s = answered s r p .busy []) ∧
           (s.willcall.list.length + s.willcall.incoming.length ≤ e.willcallCapacity →
             ∃ u, exec .writeEntrySite s = answered s r u .ok [] ∧
               u.cfg = { s.cfg with site := e } ∧
               u.totes.length = s.totes.length ∧
               (∀ j (hj : j < s.totes.length) (hu : j < u.totes.length),
                 u.totes[j].1 = s.totes[j].1 ∧
                 (lost s.totes[j].2 → u.totes[j].2 =
                   { s.totes[j].2 with
                     laps := min e.lapLimit s.totes[j].2.laps, sighting := some .lost, deadline := none }) ∧
                 (¬lost s.totes[j].2 →
                   u.totes[j].2 = { s.totes[j].2 with laps := min e.lapLimit s.totes[j].2.laps })) ∧
               ((∃ q ∈ s.totes, lost q.2) → u.req = { p.req with flags := s.req.flags ||| Flag.toteLost.only }) ∧
               ((∀ q ∈ s.totes, ¬lost q.2) → u.req = p.req) ∧
               u.reader returnHeadReader = idle (s.reader returnHeadReader) ∧
               u.reader exitReader = idle (s.reader exitReader) ∧
               (∀ q, q ≠ returnHeadReader → q ≠ exitReader → u.reader q = s.reader q) ∧
               u.orders = s.orders ∧ u.lanes = s.lanes ∧ u.willcall = s.willcall ∧ u.merge = s.merge ∧
               u.throttle = s.throttle ∧ u.drive = s.drive ∧ u.run = s.run ∧ u.ring = s.ring ∧
               u.now = s.now ∧ u.pending = s.pending))))) ∧
  (∀ (s : State) (r : Request) (rest : List Request), AskedWell s .writeEntryThrottle r rest →
     let p := s.popRequest rest
     let e := throttleOfImage r.image
     let q := { p with cfg := { s.cfg with throttle := e } }
     (r.index ≠ 0 → exec .writeEntryThrottle s = answered s r p .range []) ∧
     (r.index = 0 →
       (∀ n, firstBad 1 (throttleChecks r.image) = some n →
         exec .writeEntryThrottle s = answered s r p .range [byte n]) ∧
       (firstBad 1 (throttleChecks r.image) = none →
         (s.req.lock = true → exec .writeEntryThrottle s = answered s r (p.raise .lockedWrite) .locked []) ∧
         (s.req.lock = false →
           (s.throttle.throttled = false → exec .writeEntryThrottle s = answered s r (settle p q) .ok []) ∧
           (s.throttle.throttled = true → e.mode = .none ∨ e.mode = .monitor →
             exec .writeEntryThrottle s = answered s r
               (settle p { q with throttle :=
                 ⟨false, 0, none, 0, s.throttle.samplingTimer, s.throttle.samplingCount⟩ }) .ok []) ∧
           (s.throttle.throttled = true → e.mode ≠ .none → e.mode ≠ .monitor →
             exec .writeEntryThrottle s = answered s r
               (settle p { q with throttle :=
                 ⟨true, min s.throttle.windowsLeft e.duration, some (s.now + e.monitorWindow * 10000), 0,
                   s.throttle.samplingTimer, s.throttle.samplingCount⟩ }) .ok [])))))

/-- COMMIT-BANDS: LOCKED while locked; INVALID with the check and band where the staging copy falls or a
band that covers a ticket has no lane; else the active copy becomes the staging copy, and UNASSIGNED orders
take their band anew. An order that is left unbanded enters WILLCALL(UNBANDED): its totes' trails are cleared and
ORDER-TO-WILLCALL is raised. All else stands. -/
def Obligations.CommitBands : Prop :=
  ∀ (s : State) (r : Request) (rest : List Request), AskedWell s .commitBands r rest →
    let p := s.popRequest rest
    let v := s.cfg.bandStaging
    let falls := fun b : BandIx => b ≠ 0 ∧ (row v b).upper < (row v (b - 1)).upper
    let bare := fun b : BandIx => (b = 0 ∨ (row v (b - 1)).upper < (row v b).upper) ∧ (row v b).laneSet = 0
    (s.req.lock = true → exec .commitBands s = answered s r (p.raise .lockedWrite) .locked []) ∧
    (s.req.lock = false →
      (∀ b, falls b → (∀ a < b, ¬falls a) →
        exec .commitBands s = answered s r p .invalid [0x01#8, byte b.val]) ∧
      ((∀ a, ¬falls a) →
        (∀ b, bare b → (∀ a < b, ¬bare a) →
          exec .commitBands s = answered s r p .invalid [0x02#8, byte b.val]) ∧
        ((∀ a, ¬bare a) → ∃ u, exec .commitBands s = answered s r u .ok [] ∧
          u.cfg = { s.cfg with bandActive := v } ∧
          (TablesCanonical s → ∀ k o, s.order? k = some o →
            (o.state ≠ .unassigned → u.order? k = some o) ∧
            (o.state = .unassigned → bandOf v o.ticket ≠ none →
              u.order? k = some { o with band := bandOf v o.ticket }) ∧
            (o.state = .unassigned → bandOf v o.ticket = none →
              u.order? k = some { o with band := none, state := .willcall .unbanded } ∧
              Flag.orderToWillcall.isIn u.req.flags = true)) ∧
          (TablesCanonical s →
            let unbanded := fun k : OrderSlot =>
              (s.order? k).any (fun o => o.state == .unassigned && (bandOf v o.ticket).isNone)
            (∀ k, s.order? k = none → u.order? k = none) ∧
            u.totes = s.totes.map (fun q => (q.1, if unbanded q.2.order then { q.2 with trail := [] } else q.2)) ∧
            u.req = { p.req with
              flags := if s.orders.any (fun q => unbanded q.1) then s.req.flags ||| Flag.orderToWillcall.only
                else s.req.flags }) ∧
          u.lanes = s.lanes ∧ u.readers = s.readers ∧ u.willcall = s.willcall ∧ u.merge = s.merge ∧
          u.throttle = s.throttle ∧ u.drive = s.drive ∧ u.run = s.run ∧ u.ring = s.ring ∧ u.now = s.now ∧
          u.pending = s.pending ∧ u.choices = s.choices)))

/-! ## Run control -/

/-- CONTROL START and HALT: STATE where they do not apply; START from STOPPED or HALTING is INVALID where
validation fails, and otherwise starts or resumes the track; HALT of a RUNNING track starts HALTING. The
data of every CONTROL request that is carried out: the run state, the drive state and the eight bytes of the holder
set after the event, address a in bit a mod 8 of byte 7 - a / 8. The checks of the validation in their
order, each with its code and index: LAP-GATE 11h, WILLCALL-GATE 12h, LANE-GATE 13h, GATE-LANE 14h, NO-INDUCT 15h,
STATION 16h. The deadline of a tote on the loop at START: from its last gate where that is present, else to
G0 with the greatest merge transit limit of the present inducts and the return transit limit. The model's choice
(log entry 30): the first half of the last check, that stored stations lie in 3 to 62, is not computed. -/
def Obligations.StartAndHalt : Prop :=
  (∀ s : State,
     s.controlData = s.run.state.code :: s.drive.state.code :: holderBytes s.run.holders ∧
     RunState.stopped.code = 0x00#8 ∧ RunState.running.code = 0x01#8 ∧ RunState.halting.code = 0x02#8 ∧
     RunState.estop.code = 0x03#8 ∧ DriveState.off.code = 0x00#8 ∧ DriveState.starting.code = 0x01#8 ∧
     DriveState.running.code = 0x02#8 ∧ DriveState.stopping.code = 0x03#8 ∧ DriveState.resting.code = 0x04#8) ∧
  (∀ h : BitVec 64, (holderBytes h).length = 8 ∧
     ∀ a : Fin 64, ((holderBytes h).getD (7 - a.val / 8) 0x00#8).getLsbD (a.val % 8) = h.getLsbD a.val) ∧
  (∀ (s : State) (x : Tote),
     (∀ g, x.lastGate = some g → (s.gateCfg g).present = true →
       s.startDeadline x = ⟨s.now + (s.gateCfg g).transitLimit * 10000, s.nextGate g⟩) ∧
     ((∀ g, x.lastGate = some g → (s.gateCfg g).present = false) →
       ∃ m, s.startDeadline x = ⟨s.now + m * 10000, 0⟩ ∧
         s.cfg.site.returnTransitLimit ≤ m ∧
         (∀ i, (s.inductCfg i).present = true → (s.inductCfg i).transitLimit ≤ m) ∧
         (m = s.cfg.site.returnTransitLimit ∨
           ∃ i, (s.inductCfg i).present = true ∧ (s.inductCfg i).transitLimit = m))) ∧
  (∀ s : State,
    let at_ := fun (g : GateIx) (k : GateKind) => (s.gateCfg g).present = true ∧ (s.gateCfg g).kind = k
    let serves := fun (g : GateIx) (l : LaneIx) => at_ g .lane ∧ (s.gateCfg g).lane = l
    let lapGate := at_ 0 .lap
    let oneSpur := ∃ g, at_ g .willcall ∧ ∀ h, at_ h .willcall → h = g
    let badLane := fun l : LaneIx =>
      (s.laneCfg l).capacity ≠ 0 ∧ ¬∃ g, serves g l ∧ ∀ h, serves h l → h = g
    let badGate := fun g : GateIx => at_ g .lane ∧ (s.laneCfg (s.gateCfg g).lane).capacity = 0
    let induct := ∃ i, (s.inductCfg i).present = true
    let shared := fun a : Nat => a ≤ 62 ∧ ∃ q r : ReaderIx, q ≠ r ∧ s.enabled q = true ∧ s.enabled r = true ∧
      s.stationOf q = a ∧ s.stationOf r = a
    (¬lapGate → s.startFault = some (0x11#8, 0)) ∧
    (lapGate →
      ((∀ g, ¬at_ g .willcall) → s.startFault = some (0x12#8, 255)) ∧
      (∀ g h, at_ g .willcall → at_ h .willcall → g < h → (∀ m, at_ m .willcall → m = g ∨ h ≤ m) →
        s.startFault = some (0x12#8, h.val)) ∧
      (oneSpur →
        (∀ l, badLane l → (∀ m < l, ¬badLane m) → s.startFault = some (0x13#8, l.val)) ∧
        ((∀ l, ¬badLane l) →
          (∀ g, badGate g → (∀ m < g, ¬badGate m) → s.startFault = some (0x14#8, g.val)) ∧
          ((∀ g, ¬badGate g) →
            (¬induct → s.startFault = some (0x15#8, 255)) ∧
            (induct →
              (∀ a, shared a → (∀ b < a, ¬shared b) → s.startFault = some (0x16#8, a)) ∧
              ((∀ a, ¬shared a) → s.startFault = none))))))) ∧
  ∀ (s : State) (r : Request) (rest : List Request),
    let p := s.popRequest rest
    (AskedWell s .controlStart r rest →
      (s.run.state = .running ∨ s.run.state = .estop → exec .controlStart s = answered s r p .state []) ∧
      (s.run.state = .stopped ∨ s.run.state = .halting → ∀ code i, s.startFault = some (code, i) →
        exec .controlStart s = answered s r p .invalid [code, byte i]) ∧
      (s.run.state = .halting → s.startFault = none →
        let u := settle p { p with run := { s.run with state := .running, haltTimer := none } }
        exec .controlStart s = answered s r u .ok u.controlData) ∧
      (s.run.state = .stopped → s.startFault = none →
        ∃ v, (let u := settle p v; exec .controlStart s = answered s r u .ok u.controlData) ∧
          v.run = { s.run with state := .running } ∧
          v.drive = ⟨.starting, none, some (s.now + s.cfg.drive.startDelay * 100), false⟩ ∧
          v.throttle = { s.throttle with
            samplingCount := 0, samplingTimer := some (s.now + s.cfg.throttle.samplingWindow * 100000) } ∧
          v.ring = { s.ring with outbox := s.ring.outbox ++ [driveFrame s.cfg.drive.station true] } ∧
          v.totes = s.totes.map (fun q =>
            (q.1, if q.2.location = .loop then { q.2 with deadline := some (s.startDeadline q.2) } else q.2)) ∧
          (∀ l, v.lane l = { s.lane l with
            incoming := (s.lane l).incoming.map
              (fun e => ⟨e.tote, some (s.now + (s.laneCfg l).confirmLimit * 100)⟩) }) ∧
          v.willcall = ⟨s.willcall.incoming.map
            (fun e => ⟨e.tote, some (s.now + s.cfg.site.willcallConfirmLimit * 100)⟩), s.willcall.list⟩ ∧
          v.orders = s.orders ∧ v.merge = s.merge ∧ v.readers = s.readers ∧ v.cfg = s.cfg ∧ v.req = p.req ∧
          v.now = s.now ∧ v.pending = s.pending ∧ v.choices = s.choices)) ∧
    (AskedWell s .controlHalt r rest →
      (s.run.state ≠ .running → exec .controlHalt s = answered s r p .state []) ∧
      (s.run.state = .running →
        let u := settle p { p with run :=
          { s.run with state := .halting, haltTimer := some (s.now + s.cfg.site.haltTimeout * 100000) } }
        exec .controlHalt s = answered s r u .ok u.controlData))

/-- CONTROL ESTOP enters ESTOP and adds no holder; CLEAR-ESTOP leaves it where no station holds it, with
every reader fresh, the head readers of OPEN lanes scanning again and the auto-return test of each lane made, and is
HELD otherwise. The model's choice: disabled readers are made fresh too (log entry 13), and the order in which the
lanes make their tests (log entry 5). -/
def Obligations.EstopRequests : Prop :=
  (∀ v : State,
     let asking := allLanes.filter v.wantsReturn
     (∀ l : LaneIx, v.wantsReturn l = true ↔ ReturnsTote v l) ∧
     (asking.length ≤ 6 - v.beltCount → v.returnTests = allLanes.foldl State.returnTest v) ∧
     (6 - v.beltCount < asking.length → ∃ ls : List LaneIx, ls.Perm allLanes ∧
       v.returnTests = ls.foldl State.returnTest { v with choices := v.choices + 12 })) ∧
  ∀ (s : State) (r : Request) (rest : List Request),
    let p := s.popRequest rest
    (AskedWell s .controlEstop r rest →
      ∃ u, exec .controlEstop s = answered s r u .ok u.controlData ∧
        u.run.state = .estop ∧ u.run.holders = s.run.holders ∧
        Flag.estop.isIn u.req.flags = true ∧
        (s.run.state = .estop → u = p.raise .estop) ∧ (s.run.state ≠ .estop → u = p.enterEstop.raise .estop)) ∧
    (AskedWell s .controlClearEstop r rest →
      (s.run.state ≠ .estop → exec .controlClearEstop s = answered s r p .state []) ∧
      (s.run.state = .estop → s.run.holders ≠ 0 →
        exec .controlClearEstop s = answered s r p .held (holderBytes s.run.holders)) ∧
      (s.run.state = .estop → s.run.holders = 0 →
        ∃ v : State, (let u := settleLanes p v.returnTests; exec .controlClearEstop s = answered s r u .ok u.controlData) ∧
          (∀ l, s.laneOpen l = true → v.reader (headReader l) =
            { s.reader (headReader l) with
              cycle := .wait, window := none, scanPending := false, fresh := true
              scanTimer := some (s.now + (s.laneCfg l).scanInterval * 100) }) ∧
          (∀ q, (∀ l, q = headReader l → s.laneOpen l = false) →
            v.reader q = { s.reader q with fresh := true }) ∧
          { v with readers := s.readers } = { p with run := { s.run with state := .stopped } }))

/-- CONTROL THROTTLE-NOW, LOCK, SERVICE-OPEN and SERVICE-CLOSE. -/
def Obligations.ThrottleLockService : Prop :=
  ∀ (s : State) (r : Request) (rest : List Request),
    let p := s.popRequest rest
    let ok := fun (u : State) => answered s r u .ok u.controlData
    (AskedWell s .controlThrottleNow r rest →
      (s.trackRuns = false → exec .controlThrottleNow s = answered s r p .state []) ∧
      (s.trackRuns = true →
        (s.cfg.throttle.mode = .none → exec .controlThrottleNow s = answered s r p .okIgnored p.controlData) ∧
        (s.cfg.throttle.mode = .monitor → exec .controlThrottleNow s = ok (p.raise .throttle)) ∧
        (s.cfg.throttle.mode ≠ .none → s.cfg.throttle.mode ≠ .monitor →
          (s.throttle.throttled = true → exec .controlThrottleNow s =
            ok ({ p with throttle := { s.throttle with windowsLeft := s.cfg.throttle.duration } }.raise .throttle)) ∧
          (s.throttle.throttled = false → exec .controlThrottleNow s =
            ok ({ p with throttle :=
              { s.throttle with
                throttled := true, windowsLeft := s.cfg.throttle.duration, monitorCount := 0
                monitorTimer := some (s.now + s.cfg.throttle.monitorWindow * 10000) } }.raise .throttle))))) ∧
    (AskedWell s .controlLock r rest →
      (s.req.lock = true → exec .controlLock s = answered s r p .okIgnored p.controlData) ∧
      (s.req.lock = false → exec .controlLock s =
        ok { p with req := { p.req with lock := true, service := false } })) ∧
    (AskedWell s .controlServiceOpen r rest →
      (s.req.lock = true → exec .controlServiceOpen s = answered s r p .locked []) ∧
      (s.req.lock = false → s.req.service = true →
        exec .controlServiceOpen s = answered s r p .okIgnored p.controlData) ∧
      (s.req.lock = false → s.req.service = false → exec .controlServiceOpen s =
        ok { p with req := { p.req with service := true } })) ∧
    (AskedWell s .controlServiceClose r rest →
      (s.req.service = false → exec .controlServiceClose s = answered s r p .okIgnored p.controlData) ∧
      (s.req.service = true → exec .controlServiceClose s =
        ok { p with req := { p.req with service := false } }))

/-! ## Lane requests, flags -/

/-- CLEAR-LANE and RESTORE-LANE: their checks in order, and the lane they open: with an empty queue and an
EMPTY window, or with the stated queue, a HELD window, the named totes located in it and their UNASSIGNED orders
ROUTED to it. A RESTORE-LANE is CONFLICT at the first entry whose tag stands in the list already, has no record,
is not UNPLACED or is of an order neither UNASSIGNED nor ROUTED to the lane; the model's choice (log entry 22) is
that of two equal tags the second fails. Both hand over the lane's LAMP and then its DISPLAY whatever it held. -/
def Obligations.LaneOpening : Prop :=
  (∀ (s : State) (r : Request) (rest : List Request),
    let p := s.popRequest rest
    let l := laneIx (byteAt r.args 0)
    (AskedWell s .clearLane r rest →
      (11 < byteAt r.args 0 → exec .clearLane s = answered s r p .range []) ∧
      (byteAt r.args 0 ≤ 11 →
        ((s.laneCfg l).capacity = 0 ∨ s.laneOpen l = true → exec .clearLane s = answered s r p .state []) ∧
        ((s.laneCfg l).capacity ≠ 0 → s.laneOpen l = false →
          exec .clearLane s = answered s r (settleLanesWith [l] p (p.openLane l [] .empty)) .ok []))) ∧
    (AskedWell s .restoreLane r rest →
      let tags := restoreEntries r.args
      let fails := fun n : Nat => tags.getD n 0 ≠ 0 ∧
        (tags.getD n 0 ∈ tags.take n ∨
          ¬∃ k x o, s.findTote (tags.getD n 0) = some (k, x) ∧ x.location = .unplaced ∧
            s.order? x.order = some o ∧ (o.state = .unassigned ∨ o.state = .routed l))
      (¬(byteAt r.args 0 ≤ 11 ∧ 1 ≤ tags.length ∧ tags.length ≤ 8 ∧ ∀ t ∈ tags, t ≤ 4095) →
        exec .restoreLane s = answered s r p .range []) ∧
      (byteAt r.args 0 ≤ 11 → 1 ≤ tags.length → tags.length ≤ 8 → (∀ t ∈ tags, t ≤ 4095) →
        ((s.laneCfg l).capacity = 0 ∨ s.laneOpen l = true → exec .restoreLane s = answered s r p .state []) ∧
        ((s.laneCfg l).capacity ≠ 0 → s.laneOpen l = false →
          ((s.laneCfg l).capacity < tags.length → exec .restoreLane s = answered s r p .range []) ∧
          (tags.length ≤ (s.laneCfg l).capacity →
            (∀ n < tags.length, fails n → (∀ m < n, ¬fails m) →
              exec .restoreLane s = answered s r p .conflict [byte n]) ∧
            ((∀ n < tags.length, ¬fails n) →
              ∃ v, exec .restoreLane s = answered s r (settleLanesWith [l] p v) .ok [] ∧
                { v with orders := s.orders, totes := s.totes } =
                  p.openLane l (tags.map (fun t =>
                    (s.findTote t).elim (.unknown none) (fun q => .known q.1))) .held ∧
                (TablesCanonical s →
                  let named := fun k => ∃ t ∈ tags, ∃ x, s.findTote t = some (k, x)
                  let routes := fun o => ∃ k x z, named k ∧ s.tote? k = some x ∧ x.order = o ∧
                    s.order? o = some z ∧ z.state = .unassigned
                  (∀ k, s.tote? k = none → v.tote? k = none) ∧ (∀ o, s.order? o = none → v.order? o = none) ∧
                  (∀ k x, s.tote? k = some x → ∃ y, v.tote? k = some y ∧
                    { y with location := x.location, trail := x.trail } = x ∧
                    (named k → y.location = .lane l) ∧ (¬named k → y.location = x.location) ∧
                    (routes x.order → y.trail = []) ∧ (¬routes x.order → y.trail = x.trail)) ∧
                  (∀ o z, s.order? o = some z →
                    (routes o → v.order? o = some { z with state := .routed l }) ∧
                    (¬routes o → v.order? o = some z)))))))) ∧
    (∀ (queue : List QueueEntry) (w : Window), p.openLane l queue w =
      let t := p.putLane l { s.lane l with state := .opened, queue := queue, window := w }
      if s.run.state = .estop then t
      else { t with readers := (setRow s.readers (headReader l)
              { s.reader (headReader l) with
                cycle := .wait, window := none, scanPending := false
                scanTimer := some (s.now + (s.laneCfg l).scanInterval * 100) }) })) ∧
  (∀ (before s : State) (l : LaneIx),
    let u := settleLanesWith [l] before s
    let station := (s.laneCfg l).station
    (∃ first last, u.ring.outbox = first ++
      [lampFrame station (u.lane l).lamp, displayFrame station (u.lane l).display] ++ last) ∧
    (u.lane l).lamp = u.lampOf l ∧ (u.lane l).display = u.displayOf l ∧
    ((s.lane l).queue = [] → (s.lane l).foreign = none → (s.lane l).ready = [] → (s.lane l).window = .empty →
      (u.lane l).lamp = .off ∧ (u.lane l).display = []))

/-- LANE-EDIT: its checks in order, REMOVE of an entry, and IDENTIFY of an unknown one. What the removal of an entry
does to queue, window, empty-scan count and unattended timer. IDENTIFY takes a tote recorded elsewhere from its
place, makes another entry of this queue that held it unknown, and locates it in the lane at the position; at position
0 the auto-return test of R102 follows. The model's choice (log
entry 19): an undefined operation is RANGE, REMOVE takes any tag to 4095 and ignores it, IDENTIFY of tag 0 is
RANGE, and the data of CONFLICT is the position. -/
def Obligations.LaneEdits : Prop :=
  (∀ (x : Lane) (j : Nat),
     let rest := x.queue.eraseIdx j
     let timer := if rest = [] then .stopped else x.unattended
     (j = 0 ∧ x.window = .presented →
       x.removeAt j = { x with queue := rest, unattended := timer, window := .empty, emptyScans := 0 }) ∧
     (¬(j = 0 ∧ x.window = .presented) → x.removeAt j = { x with queue := rest, unattended := timer })) ∧
  (∀ (s : State) (l : LaneIx) (pos : Nat) (k : ToteSlot) (t : Tote), s.tote? k = some t →
     let m := if t.location = .lane l then s else s.removeTote k
     let forgotten := (m.lane l).queue.map (fun e => if e = .known k then .unknown none else e)
     let v := { m with lanes := setRow m.lanes l { m.lane l with queue := forgotten.set pos (.known k) } }.modTote k
       (fun y => { y with location := .lane l })
     (∀ y, m.tote? k = some y →
       v.totes = slotPut k { y with location := .lane l } m.totes) ∧
     (pos = 0 → s.identify l pos k t = v.returnTest l) ∧ (pos ≠ 0 → s.identify l pos k t = v)) ∧
  ∀ (s : State) (r : Request) (rest : List Request),
    let p := s.popRequest rest
    let lane := byteAt r.args 0
    let l := laneIx lane
    let pos := byteAt r.args 1
    let op := byteAt r.args 2
    let tag := wordAt r.args 3
    (∀ c, c = .laneEditRemove ∨ c = .laneEditIdentify → AskedWell s c r rest →
      (s.req.service = false → exec c s = answered s r p .notOpen []) ∧
      (s.req.service = true →
        (11 < lane ∨ 4095 < tag ∨ (c = .laneEditRemove ∧ op ≠ 1) ∨ (c = .laneEditIdentify ∧ tag = 0) →
          exec c s = answered s r p .range []) ∧
        (lane ≤ 11 → tag ≤ 4095 → (c = .laneEditRemove → op = 1) → (c = .laneEditIdentify → tag ≠ 0) →
          (s.laneOpen l = false → exec c s = answered s r p .state []) ∧
          (s.laneOpen l = true → (s.lane l).queue.length ≤ pos → exec c s = answered s r p .range [])))) ∧
    (AskedWell s .laneEditRemove r rest → s.req.service = true → lane ≤ 11 → tag ≤ 4095 → op = 1 →
      s.laneOpen l = true →
      (∀ k, (s.lane l).queue[pos]? = some (.known k) →
        exec .laneEditRemove s = answered s r (settle p (p.freeDone k)) .ok []) ∧
      (∀ n, (s.lane l).queue[pos]? = some (.unknown n) →
        exec .laneEditRemove s = answered s r (settle p (p.putLane l ((s.lane l).removeAt pos))) .ok [])) ∧
    (AskedWell s .laneEditIdentify r rest → s.req.service = true → lane ≤ 11 → 1 ≤ tag → tag ≤ 4095 →
      s.laneOpen l = true →
      (∀ k, (s.lane l).queue[pos]? = some (.known k) →
        exec .laneEditIdentify s = answered s r p .conflict [byte pos]) ∧
      (∀ n, (s.lane l).queue[pos]? = some (.unknown n) →
        (s.findTote tag = none → exec .laneEditIdentify s = answered s r p .noTote []) ∧
        (∀ k t, s.findTote tag = some (k, t) →
          exec .laneEditIdentify s = answered s r (settle p (p.identify l pos k t)) .ok [])))

/-- READ-FLAGS and CLEAR-FLAGS clear the flags they name, after the image was taken; SET-NOTICE-MASK
replaces the mask unless locked; a mask that names no flag is RANGE, which the model's choice (log entry 21) puts
ahead of LOCKED. -/
def Obligations.FlagRequests : Prop :=
  ∀ (s : State) (r : Request) (rest : List Request),
    let p := s.popRequest rest
    let m := maskAt r.args 0
    let bad := 0x100000 ≤ m.toNat
    let cleared := { p with req := { p.req with flags := s.req.flags &&& ~~~(m.setWidth 20) } }
    (∀ c, c = .readFlags ∨ c = .clearFlags ∨ c = .setNoticeMask → AskedWell s c r rest → bad →
      exec c s = answered s r p .range []) ∧
    (AskedWell s .readFlags r rest → ¬bad →
      exec .readFlags s = answered s r cleared .ok (maskBytes s.req.flags ++ maskBytes s.req.mask)) ∧
    (AskedWell s .clearFlags r rest → ¬bad → exec .clearFlags s = answered s r cleared .ok []) ∧
    (AskedWell s .setNoticeMask r rest → ¬bad →
      (s.req.lock = true → exec .setNoticeMask s = answered s r (p.raise .lockedWrite) .locked []) ∧
      (s.req.lock = false → exec .setNoticeMask s =
        answered s r { p with req := { p.req with mask := m.setWidth 20 } } .ok []))

/-! ## Timers -/

/-- The expiry of a read window completes the cycle with NONE; the expiry of a scan interval queues a SCAN
where the routine queue has room, and otherwise skips the cycle. The advance limit, unattended and collect
timers of a lane. The model's choice: the clock stands at the expiry (log entry 3), and the window
tote of an order whose collect timer expires stays at the window in this event (log entry 40). -/
def Obligations.ReaderAndLaneTimers : Prop :=
  (∀ (s : State) (e : Time),
     let u := s.advanceTo e
     (∀ r : ReaderIx, (s.reader r).cycle = .opened → (s.reader r).window = some e →
       exec (.readWindowExpiry r) s = .next (closeEvent u (settle u ((u.finishCycle r .none).deliver r .none)))) ∧
     (∀ l : LaneIx, (s.reader (headReader l)).cycle = .wait → (s.reader (headReader l)).scanPending = false →
       (s.reader (headReader l)).scanTimer = some e →
       (s.ring.routine.length < 32 →
         exec (.scanIntervalExpiry l) s = .next (closeEvent u
           ({ u with readers := (setRow s.readers (headReader l)
               { s.reader (headReader l) with scanPending := true, scanTimer := none }) }.hand
             (scanFrame (s.laneCfg l).station)))) ∧
       (32 ≤ s.ring.routine.length →
         exec (.scanIntervalExpiry l) s = .next (closeEvent u
           ({ u with readers := (setRow s.readers (headReader l)
               { s.reader (headReader l) with
                 scanTimer := some (u.now + (s.laneCfg l).scanInterval * 100) }) }.hand
             (scanFrame (s.laneCfg l).station)))))) ∧
  (∀ (s : State) (l : LaneIx) (e : Time),
     let u := s.advanceTo e
     ((s.lane l).window = .advancing → (s.lane l).advance = some e →
       exec (.advanceLimitExpiry l) s = .next (closeEvent u (settleLanes u
         ((u.putLane l { s.lane l with
             window := .held, foreign := none, advance := none, attention := true }).raise .laneAttention)))) ∧
     ((s.lane l).unattended = .running e →
       let v := (u.putLane l { s.lane l with unattended := .expired, attention := true }).raise .laneAttention
       exec (.unattendedExpiry l) s = .next (closeEvent u (settle u
         (if (s.laneCfg l).unattendedAction = .autoReturn ∧ (s.lane l).toteAtWindow = true then v.askReturn l
          else v)))) ∧
     (∀ ticket k o, s.findOrder ticket = some (k, o) → o.state = .ready l →
       ((s.lane l).ready.find? (fun x => x.order == k)).map (·.collect) = some e →
       exec (.collectExpiry ticket) s = .next (closeEvent u (settleLanes u (u.enterWillcall k .expired)))))

/-- The expiry of a confirm timer returns the tote to the loop with BLADE-MISS. The expiry of a deadline
counts a miss: UNSEEN with the deadline armed to the next stretch below the lost limit, LOST with TOTE-LOST
at it. The model's choice: the clock stands at the expiry (log entry 3), and a tote that comes back with no last
gate has no deadline (log entry 31). -/
def Obligations.ToteTimers : Prop :=
  (∀ (s : State) (tag : Nat) (k : ToteSlot) (x : Tote) (e : Time), s.findTote tag = some (k, x) →
     let u := s.advanceTo e
     let back := ((u.removeTote k).placeOnLoop k
       (fun t => { t with deadline := if s.trackRuns = true then x.lastGate.map (fun g => u.deadlineFrom g u.now) else none })).raise
       .bladeMiss
     TablesCanonical s →
     (∀ l, x.location = .incoming l → confirmOf k (s.lane l).incoming = some e →
       exec (.confirmExpiry l tag) s = .next (closeEvent u (settleLanes u back))) ∧
     (x.location = .willcallIncoming → confirmOf k s.willcall.incoming = some e →
       exec (.willcallConfirmExpiry tag) s = .next (closeEvent u (settleLanes u back)))) ∧
  (∀ (s : State) (tag : Nat) (k : ToteSlot) (x : Tote) (d : Deadline),
     s.findTote tag = some (k, x) → x.deadline = some d →
     let u := s.advanceTo d.expiry
     let lost := { u with totes := slotPut k { x with sighting := some .lost, deadline := none } s.totes }.raise .toteLost
     let unseen := fun n : Nat =>
       { u with totes := (slotPut k
           { x with
             sighting := some (.unseen n)
             deadline := some ⟨d.expiry + (s.gateCfg d.target).transitLimit * 10000, s.nextGate d.target⟩ } s.totes) }
     (x.sighting = some .seen →
       (1 < s.cfg.site.lostLimit → exec (.deadlineExpiry tag) s = .next (closeEvent u (unseen 1))) ∧
       (s.cfg.site.lostLimit ≤ 1 → exec (.deadlineExpiry tag) s = .next (closeEvent u lost))) ∧
     (∀ n, x.sighting = some (.unseen n) →
       (n + 1 < s.cfg.site.lostLimit → exec (.deadlineExpiry tag) s = .next (closeEvent u (unseen (n + 1)))) ∧
       (s.cfg.site.lostLimit ≤ n + 1 → exec (.deadlineExpiry tag) s = .next (closeEvent u lost))) ∧
     (x.sighting = some .lost → exec (.deadlineExpiry tag) s = .next (closeEvent u lost)))

/-- The merge hold, the throttle's two windows and the halt timer. The drive's delays and its idle test. The
model's choice (log entry 3): the clock stands at the expiry. -/
def Obligations.TrackAndDriveTimers : Prop :=
  (∀ (s : State) (e : Time),
     let u := s.advanceTo e
     let t := s.throttle
     let mode := s.cfg.throttle.mode
     let load := s.cfg.throttle.loadMark ≤ s.loopOccupancy
     let count := s.cfg.throttle.threshold < t.samplingCount
     let triggers := (mode = .monitor ∧ (count ∨ load)) ∨ (mode = .count ∧ count) ∨ (mode = .load ∧ load) ∨
       (mode = .countLoad ∧ (count ∨ load))
     let timer := some (u.now + s.cfg.throttle.samplingWindow * 100000)
     let win := s.cfg.throttle.monitorWindow * 10000
     (s.merge.hold = some e →
       exec .mergeHoldExpiry s = .next (closeEvent u (settle u { u with merge := { s.merge with hold := none } }))) ∧
     (s.throttle.throttled = true → s.throttle.monitorTimer = some e →
       exec .monitorWindowExpiry s = .next (closeEvent u (settle u
         { u with throttle := { t with monitorCount := 0, monitorTimer := some (u.now + win) } }))) ∧
     (t.samplingTimer = some e →
       (¬triggers → t.throttled = false →
         exec .samplingWindowExpiry s = .next (closeEvent u (settle u
           { u with throttle := { t with samplingCount := 0, samplingTimer := timer } }))) ∧
       (¬triggers → t.throttled = true → 2 ≤ t.windowsLeft →
         exec .samplingWindowExpiry s = .next (closeEvent u (settle u
           { u with throttle :=
               { t with windowsLeft := t.windowsLeft - 1, samplingCount := 0, samplingTimer := timer } }))) ∧
       (¬triggers → t.throttled = true → t.windowsLeft ≤ 1 →
         exec .samplingWindowExpiry s = .next (closeEvent u (settle u
           { u with throttle := ⟨false, 0, none, 0, timer, 0⟩ }))) ∧
       (triggers → mode ≠ .monitor → 1 ≤ s.cfg.throttle.duration →
         exec .samplingWindowExpiry s = .next (closeEvent u (settle u
           ({ u with throttle :=
               ⟨true, s.cfg.throttle.duration, if t.throttled = true then t.monitorTimer else some (u.now + win),
                 if t.throttled = true then t.monitorCount else 0, timer, 0⟩ }.raise .throttle)))) ∧
       (triggers → mode = .monitor → t.throttled = false →
         exec .samplingWindowExpiry s = .next (closeEvent u (settle u
           ({ u with throttle := { t with samplingCount := 0, samplingTimer := timer } }.raise .throttle))))) ∧
     (s.run.state = .halting → s.run.haltTimer = some e →
       ∃ v, exec .haltTimerExpiry s = .next (closeEvent u v) ∧
         v.run = { s.run with state := .stopped, haltTimer := none } ∧
         v.drive = ⟨.off, none, none, false⟩ ∧ v.throttle = ⟨false, 0, none, 0, none, 0⟩ ∧
         v.totes = s.totes.map (fun q => (q.1, { q.2 with deadline := none })) ∧
         (∀ r : ReaderIx, v.reader r = if r.val < 16 then
           { s.reader r with cycle := .idle, window := none, scanPending := false, scanTimer := none }
           else s.reader r) ∧
         v.ring = { s.ring with outbox := s.ring.outbox ++
           (if s.drive.state = .off then [] else [driveFrame s.cfg.drive.station false]) } ∧
         v.req = { s.req with flags := s.req.flags ||| Flag.haltTimeout.only } ∧
         v.orders = s.orders ∧ v.lanes = s.lanes ∧ v.willcall = s.willcall ∧ v.merge = s.merge ∧ v.cfg = s.cfg ∧
         v.now = u.now ∧ v.pending = s.pending ∧ v.choices = s.choices)) ∧
  (∀ (s : State) (e : Time),
     let u := s.advanceTo e
     let restIdle := some (u.now + s.cfg.drive.idleInterval * 100000)
     (s.drive.state = .starting → s.drive.delay = some e →
       exec .startDelayExpiry s = .next (closeEvent u (settle u { u with drive := ⟨.running, restIdle, none, false⟩ }))) ∧
     (s.drive.state = .running → s.drive.idle = some e →
       ((∀ q ∈ s.totes, q.2.location ≠ .loop) → s.beltEmpty = true → s.claimant = false →
         exec .idleExpiry s = .next (closeEvent u
           ({ u with drive := ⟨.stopping, none, some (u.now + s.cfg.drive.stopDelay * 100), false⟩ }.hand
             (driveFrame s.cfg.drive.station false)))) ∧
       ((∃ q ∈ s.totes, q.2.location = .loop) ∨ s.beltEmpty = false ∨ s.claimant = true →
         exec .idleExpiry s = .next (closeEvent u { u with drive := { s.drive with idle := restIdle } }))) ∧
     (s.drive.state = .stopping → s.drive.delay = some e →
       (s.drive.wakePending = false →
         exec .stopDelayExpiry s = .next (closeEvent u { u with drive := ⟨.resting, none, none, false⟩ })) ∧
       (s.drive.wakePending = true →
         exec .stopDelayExpiry s = .next (closeEvent u
           ({ u with drive := ⟨.starting, none, some (u.now + s.cfg.drive.startDelay * 100), false⟩ }.hand
             (driveFrame s.cfg.drive.station true))))))

/-! ## Frames of the shared endings of an event -/

/-- The settling of an event: after the merge grant, where the event can give one, the lanes' advances (R91),
unattended timers (R106) and readiness with the ready lists and collect timers (R100, R101), the end of HALTING
(R147), OVERBOOKED at a rise (R34), the claimant report (R130, R154), and the lamps and displays (R103, R104), with
all else left alone; no order is freed and no record added or taken away, and the only flags it can raise are
OVERBOOKED and ORDER-TO-WILLCALL. The model's choice: the order of these effects, of the lanes within one of them and
of their frames (log entries 8, 25 and 35), and that of orders that become READY together (log entry 29). -/
def Obligations.SettleFrame : Prop :=
  (∀ before s : State,
     let t := settle before s
     t.pending = s.pending ∧ t.now = s.now ∧ t.cfg = s.cfg ∧
     (∃ fs, t.ring = { s.ring with outbox := s.ring.outbox ++ fs }) ∧
     (∃ flags, t.req = { s.req with flags := flags } ∧
       (flags = s.req.flags ∨ flags = s.req.flags ||| Flag.overbooked.only ∨
         flags = s.req.flags ||| Flag.orderToWillcall.only ∨
         flags = s.req.flags ||| Flag.orderToWillcall.only ||| Flag.overbooked.only)) ∧
     t.run.holders = s.run.holders ∧
     (s.run.state ≠ .halting → t.readers = s.readers ∧ t.run = s.run) ∧
     (TablesCanonical s →
      t.orders.map (fun q => (q.1, q.2.ticket, q.2.total, q.2.priority, q.2.band, q.2.done, q.2.live)) =
        s.orders.map (fun q => (q.1, q.2.ticket, q.2.total, q.2.priority, q.2.band, q.2.done, q.2.live)) ∧
      t.totes.map (fun q => (q.1, q.2.tag, q.2.order, q.2.part)) =
       s.totes.map (fun q => (q.1, q.2.tag, q.2.order, q.2.part)))) ∧
  (∀ (before s : State) (l : LaneIx),
     (((settle before s).lane l).lamp = (settle before s).lampOf l ∧
       ((settle before s).lane l).display = (settle before s).displayOf l) ∧
     (((settleLanes before s).lane l).lamp = (settleLanes before s).lampOf l ∧
       ((settleLanes before s).lane l).display = (settleLanes before s).displayOf l)) ∧
  (∀ (forced : List LaneIx) (before s : State),
     Settled forced false before s (settleLanesWith forced before s) ∧
     settleLanes before s = settleLanesWith [] before s) ∧
  (∀ before s : State,
     let g := s.grant
     let ends := g.run.state = .halting ∧ (∀ q ∈ g.totes, q.2.location ≠ .loop ∧ q.2.location ≠ .returnBelt) ∧
       g.merge.head = .absent
     (ends → Settled [] true before g (settle before s)) ∧ (¬ends → Settled [] false before g (settle before s))) ∧
  (∀ (s : State) (l : LaneIx),
     (∀ e, s.order? e.order = none → s.unready l e = s) ∧
     (∀ e o, s.order? e.order = some o →
       (ReadyIn s l e.order o → s.unready l e = s) ∧
       (¬ReadyIn s l e.order o → s.unready l e =
         { s with
           lanes := setRow s.lanes l { s.lane l with ready := (s.lane l).ready.filter (fun d => d.order != e.order) }
           orders := slotPut e.order { o with state := .routed l } s.orders })) ∧
     (∀ k, s.order? k = none → s.promote l k = s) ∧
     (∀ k o, s.order? k = some o →
       (o.state = .routed l → ReadyIn s l k o →
         s.promote l k =
           { s with
             lanes := setRow s.lanes l { s.lane l with ready := (s.lane l).ready ++
               [⟨k, s.now + o.band.elim 0 (fun b => (row s.cfg.bandActive b).collectInterval * 6000000)⟩] }
             orders := slotPut k { o with state := .ready l } s.orders }) ∧
       (o.state ≠ .routed l ∨ ¬ReadyIn s l k o → s.promote l k = s)) ∧
     (let t := (s.lane l).ready.foldl (fun t e => t.unready l e) s
      s.evalReadiness l = ((t.lane l).queue.filterMap (fun e =>
        match e with
        | .known k => (t.tote? k).map (·.order)
        | .unknown _ => none)).foldl (fun t k => t.promote l k) t)) ∧
  (∀ s : State, s.readiness = allLanes.foldl State.evalReadiness s) ∧
  (∀ (s : State) (l : LaneIx),
     let x := s.lane l
     let off := s.laneOpen l = false ∨ (x.queue = [] ∧ x.foreign = none)
     let steady := x.window = .presented ∧ ∃ k rest t o m, x.queue = .known k :: rest ∧ s.tote? k = some t ∧
       s.order? t.order = some o ∧ o.state = .ready m
     (off → s.lampOf l = .off) ∧ (¬off → x.attention = true → s.lampOf l = .attention) ∧
     (¬off → x.attention = false → steady → s.lampOf l = .steady) ∧
     (¬off → x.attention = false → ¬steady → s.lampOf l = .slow) ∧
     s.displayOf l = (x.ready.take 4).map (fun e => s.ticketOf e.order))

/-- The end of an event places the frames handed over, in their order, and then a NOTICE with the whole flag set
where an enabled flag has risen. Placing: a frame that is not the part's own joins the forward buffer, BLADE,
STOP, CHUTE and DRIVE the urgent queue, every other frame the routine queue, where a LAMP or DISPLAY for one
station and a NOTICE take the place of a queued one; a full queue loses the frame with its flag; and where RING OUT
is free the arbiter chooses at once. Nothing changes but the Ring Port, the flags FORWARD-DROP and TX-OVERRUN, and
the head reader whose SCAN begins transmission. The model's choice: frames are placed at the end of the event (log
entry 8), how long a frame holds RING OUT (log entry 7), that every SCAN is reported (log entry 27), and that RING
OUT is not free in the gap that a warm start left (log entry 44). Every frame the part sends of its own accord, byte by
byte, and the number of each flag in a flag set. -/
def Obligations.CloseEventFrame : Prop :=
  (∀ (a : Nat) (ts : List Nat) (m : BitVec 20),
    let own := fun (dest kind : Byte) (payload : List Byte) => (⟨dest, 0x01#8, kind, 0x00#8, payload⟩ : Frame)
    let node := BitVec.ofNat 8 a
    bladeFrame a = own node 0x10#8 [0x01#8] ∧ stopFrame a = own node 0x11#8 [0x01#8] ∧ chuteFrame a = own node 0x12#8 [] ∧
    driveFrame a true = own node 0x13#8 [0x01#8] ∧ driveFrame a false = own node 0x13#8 [0x02#8] ∧
    lampFrame a .off = own node 0x14#8 [0x00#8] ∧ lampFrame a .steady = own node 0x14#8 [0x01#8] ∧
    lampFrame a .slow = own node 0x14#8 [0x02#8] ∧ lampFrame a .attention = own node 0x14#8 [0x03#8] ∧
    displayFrame a ts = own node 0x15#8
      (BitVec.ofNat 8 ts.length :: ts.flatMap (fun t => [BitVec.ofNat 8 (t / 256), BitVec.ofNat 8 t])) ∧
    scanFrame a = own node 0x16#8 [] ∧ noticeFrame m = own 0x02#8 0x22#8 (maskBytes m) ∧
    maskBytes m = [BitVec.ofNat 8 (m.toNat / 65536), BitVec.ofNat 8 (m.toNat / 256), BitVec.ofNat 8 m.toNat]) ∧
  ((∀ (f : Flag) (m : BitVec 20), f.isIn m = true ↔ m &&& f.only ≠ 0) ∧
    [Flag.startPower, .startLine, .startRequest, .frameCheck, .forwardDrop, .txOverrun, .lockedWrite, .strayTote,
      .toteLost, .bladeMiss, .readCrowded, .willcallFull, .returnFull, .laneAttention, .overbooked, .orderToWillcall,
      .inductOverfill, .throttle, .haltTimeout, .estop].map (fun f => f.only.toNat) =
      (List.range 20).map (fun n => 2 ^ n)) ∧
  (∀ before s : State,
    let u := s.ring.outbox.foldl State.place { s with ring := { s.ring with outbox := [] } }
    (u.req.flags &&& ~~~before.req.flags &&& u.req.mask = 0 → closeEvent before s = u) ∧
    (u.req.flags &&& ~~~before.req.flags &&& u.req.mask ≠ 0 →
      closeEvent before s = u.place (noticeFrame u.req.flags))) ∧
  (∀ (s : State) (f : Frame),
    let busy := s.ring.transmission ≠ none ∨ s.ring.gap ≠ none
    let goes := fun v : State => (busy → s.place f = v) ∧ (¬busy → s.place f = v.choose)
    let urgent := f.kind = Kind.blade ∨ f.kind = Kind.stop ∨ f.kind = Kind.chute ∨ f.kind = Kind.drive
    let same := fun g : Frame => g.kind = f.kind ∧ g.dest = f.dest ∧
      (f.kind = Kind.lamp ∨ f.kind = Kind.display ∨ f.kind = Kind.notice)
    (f.src ≠ 0x01#8 →
      (s.ring.forward.length < 4 → goes { s with ring := { s.ring with forward := s.ring.forward ++ [f] } }) ∧
      (4 ≤ s.ring.forward.length → goes (s.raise .forwardDrop))) ∧
    (f.src = 0x01#8 → urgent →
      (s.ring.urgent.length < 16 → goes { s with ring := { s.ring with urgent := s.ring.urgent ++ [f] } }) ∧
      (16 ≤ s.ring.urgent.length → goes (s.raise .txOverrun))) ∧
    (f.src = 0x01#8 → ¬urgent →
      (∀ first g last, s.ring.routine = first ++ g :: last → same g → (∀ h ∈ first, ¬same h) →
        goes { s with ring := { s.ring with routine := first ++ f :: last } }) ∧
      ((∀ g ∈ s.ring.routine, ¬same g) →
        (s.ring.routine.length < 32 →
          goes { s with ring := { s.ring with routine := s.ring.routine ++ [f] } }) ∧
        (32 ≤ s.ring.routine.length → goes (s.raise .txOverrun)))) ∧
    (¬busy → s.ring.forward = [] → s.ring.urgent = [] → s.ring.routine = [] →
      Begins { s with ring := { s.ring with
          waitCount := if f.src = 0x01#8 ∧ ¬urgent then 0 else s.ring.waitCount } } f (s.place f))) ∧
  ∀ before s : State,
    let t := closeEvent before s
    { t with ring := s.ring, readers := s.readers, req := s.req } = s ∧
    t.ring.outbox = [] ∧ t.ring.ready = s.ring.ready ∧ t.ring.readyBy = s.ring.readyBy ∧
    t.ring.reception = s.ring.reception ∧ t.ring.gap = s.ring.gap ∧
    (∃ flags, t.req = { s.req with flags := flags } ∧
      s.req.flags &&& ~~~flags = 0 ∧
      flags &&& ~~~(s.req.flags ||| Flag.forwardDrop.only ||| Flag.txOverrun.only) = 0) ∧
    (∀ r, t.reader r = s.reader r ∨
      ((s.reader r).cycle = .wait ∧ (s.reader r).scanPending = true ∧
        t.reader r = { s.reader r with cycle := .opened, scanPending := false, window := some (s.now + 25000) }))

/-! ## Invariants -/

/-- The queues, buffers and the wait count keep their sizes, and nothing is left unplaced, in every step. -/
def Obligations.RingBoundsKept : Prop := ∀ s t : State, RingBounds s → step s = .next t → RingBounds t

/-- R33: occupied and incoming never exceed the capacity of any lane, in every step; with it, a lane that is
not OPEN has neither and its head reader is IDLE. -/
def Obligations.LaneBoundsKept : Prop := ∀ s t : State, LaneBounds s → step s = .next t → LaneBounds t

/-- No lap count passes the lap limit and no trail holds more than 4 entries, in every step. No induct queue holds
more than 4 entries, the return-belt set no more than 6 totes, and the spur no more than the will-call capacity, in
every step; with it, a record located INDUCT stands in the queue it names. -/
def Obligations.RecordBoundsKept : Prop :=
  ∀ s t : State, step s = .next t →
    (RecordBounds s → RecordBounds t) ∧ (TablesCanonical s → PlaceBounds s → PlaceBounds t)

/-- The Order Table and the Tote Table keep their one form and their sizes, in every step. Live count + done count
never exceeds the total of an order; with it, the live count is the number of the order's records, and every record
names a live order. -/
def Obligations.TablesStayCanonical : Prop :=
  ∀ s t : State, TablesCanonical s → step s = .next t → TablesCanonical t ∧ (CountsAgree s → CountsAgree t)

/-- While the run state is ESTOP no reader has a cycle, the drive is OFF and no actuation but DRIVE HALT
waits, in every step. -/
def Obligations.EstopQuietKept : Prop :=
  ∀ s t : State, Quiet s → EstopQuiet s → step s = .next t → EstopQuiet t

/-- While the lock is set no command but power-on clears it or changes a configuration field other than lane
TAKE and GIVE, or the notice mask. -/
def Obligations.ConfigurationLock : Prop :=
  ∀ (c : Instr) (s t : State), c ≠ .powerOn → s.req.lock = true → exec c s = .next t →
    t.req.lock = true ∧ t.req.mask = s.req.mask ∧ SameLockedConfig s.cfg t.cfg

/-- The invariants hold after power-on. -/
def Obligations.InvariantsAtReset : Prop :=
  RingBounds State.reset ∧ RecordBounds State.reset ∧ PlaceBounds State.reset ∧ TablesCanonical State.reset ∧
    CountsAgree State.reset ∧ EstopQuiet State.reset ∧ LaneBounds State.reset
end

