-- ==== Sys2Proof/Laws/State.lean ====
section
/-! SUPPORT. One lemma for each field, and for each read of one table, under each small named update of the
state, so that no proof unfolds a record update. -/

namespace Sys2Proof.Machine

/-! ## raise -/

@[simp] theorem State.raise_pending (s : State) (f : Flag) : (s.raise f).pending = s.pending := rfl
@[simp] theorem State.raise_now (s : State) (f : Flag) : (s.raise f).now = s.now := rfl
@[simp] theorem State.raise_choices (s : State) (f : Flag) : (s.raise f).choices = s.choices := rfl
@[simp] theorem State.raise_cfg (s : State) (f : Flag) : (s.raise f).cfg = s.cfg := rfl
@[simp] theorem State.raise_ring (s : State) (f : Flag) : (s.raise f).ring = s.ring := rfl
@[simp] theorem State.raise_req (s : State) (f : Flag) :
    (s.raise f).req = { s.req with flags := s.req.flags ||| f.only } := rfl
@[simp] theorem State.raise_orders (s : State) (f : Flag) : (s.raise f).orders = s.orders := rfl
@[simp] theorem State.raise_totes (s : State) (f : Flag) : (s.raise f).totes = s.totes := rfl
@[simp] theorem State.raise_readers (s : State) (f : Flag) : (s.raise f).readers = s.readers := rfl
@[simp] theorem State.raise_lanes (s : State) (f : Flag) : (s.raise f).lanes = s.lanes := rfl
@[simp] theorem State.raise_willcall (s : State) (f : Flag) : (s.raise f).willcall = s.willcall := rfl
@[simp] theorem State.raise_merge (s : State) (f : Flag) : (s.raise f).merge = s.merge := rfl
@[simp] theorem State.raise_throttle (s : State) (f : Flag) : (s.raise f).throttle = s.throttle := rfl
@[simp] theorem State.raise_drive (s : State) (f : Flag) : (s.raise f).drive = s.drive := rfl
@[simp] theorem State.raise_run (s : State) (f : Flag) : (s.raise f).run = s.run := rfl

/-! ## hand -/

@[simp] theorem State.hand_pending (s : State) (f : Frame) : (s.hand f).pending = s.pending := rfl
@[simp] theorem State.hand_now (s : State) (f : Frame) : (s.hand f).now = s.now := rfl
@[simp] theorem State.hand_choices (s : State) (f : Frame) : (s.hand f).choices = s.choices := rfl
@[simp] theorem State.hand_cfg (s : State) (f : Frame) : (s.hand f).cfg = s.cfg := rfl
@[simp] theorem State.hand_ring (s : State) (f : Frame) :
    (s.hand f).ring = { s.ring with outbox := s.ring.outbox ++ [f] } := rfl
@[simp] theorem State.hand_req (s : State) (f : Frame) : (s.hand f).req = s.req := rfl
@[simp] theorem State.hand_orders (s : State) (f : Frame) : (s.hand f).orders = s.orders := rfl
@[simp] theorem State.hand_totes (s : State) (f : Frame) : (s.hand f).totes = s.totes := rfl
@[simp] theorem State.hand_readers (s : State) (f : Frame) : (s.hand f).readers = s.readers := rfl
@[simp] theorem State.hand_lanes (s : State) (f : Frame) : (s.hand f).lanes = s.lanes := rfl
@[simp] theorem State.hand_willcall (s : State) (f : Frame) : (s.hand f).willcall = s.willcall := rfl
@[simp] theorem State.hand_merge (s : State) (f : Frame) : (s.hand f).merge = s.merge := rfl
@[simp] theorem State.hand_throttle (s : State) (f : Frame) : (s.hand f).throttle = s.throttle := rfl
@[simp] theorem State.hand_drive (s : State) (f : Frame) : (s.hand f).drive = s.drive := rfl
@[simp] theorem State.hand_run (s : State) (f : Frame) : (s.hand f).run = s.run := rfl

/-! ## advanceTo -/

@[simp] theorem State.advanceTo_pending (s : State) (t : Time) : (s.advanceTo t).pending = s.pending := rfl
@[simp] theorem State.advanceTo_now (s : State) (t : Time) : (s.advanceTo t).now = max s.now t := rfl
@[simp] theorem State.advanceTo_choices (s : State) (t : Time) : (s.advanceTo t).choices = s.choices := rfl
@[simp] theorem State.advanceTo_cfg (s : State) (t : Time) : (s.advanceTo t).cfg = s.cfg := rfl
@[simp] theorem State.advanceTo_ring (s : State) (t : Time) : (s.advanceTo t).ring = s.ring := rfl
@[simp] theorem State.advanceTo_req (s : State) (t : Time) : (s.advanceTo t).req = s.req := rfl
@[simp] theorem State.advanceTo_orders (s : State) (t : Time) : (s.advanceTo t).orders = s.orders := rfl
@[simp] theorem State.advanceTo_totes (s : State) (t : Time) : (s.advanceTo t).totes = s.totes := rfl
@[simp] theorem State.advanceTo_readers (s : State) (t : Time) : (s.advanceTo t).readers = s.readers := rfl
@[simp] theorem State.advanceTo_lanes (s : State) (t : Time) : (s.advanceTo t).lanes = s.lanes := rfl
@[simp] theorem State.advanceTo_willcall (s : State) (t : Time) : (s.advanceTo t).willcall = s.willcall := rfl
@[simp] theorem State.advanceTo_merge (s : State) (t : Time) : (s.advanceTo t).merge = s.merge := rfl
@[simp] theorem State.advanceTo_throttle (s : State) (t : Time) : (s.advanceTo t).throttle = s.throttle := rfl
@[simp] theorem State.advanceTo_drive (s : State) (t : Time) : (s.advanceTo t).drive = s.drive := rfl
@[simp] theorem State.advanceTo_run (s : State) (t : Time) : (s.advanceTo t).run = s.run := rfl

/-! ## putOrder -/

@[simp] theorem State.putOrder_pending (s : State) (k : OrderSlot) (o : Order) :
    (s.putOrder k o).pending = s.pending := rfl
@[simp] theorem State.putOrder_now (s : State) (k : OrderSlot) (o : Order) : (s.putOrder k o).now = s.now := rfl
@[simp] theorem State.putOrder_choices (s : State) (k : OrderSlot) (o : Order) :
    (s.putOrder k o).choices = s.choices := rfl
@[simp] theorem State.putOrder_cfg (s : State) (k : OrderSlot) (o : Order) : (s.putOrder k o).cfg = s.cfg := rfl
@[simp] theorem State.putOrder_ring (s : State) (k : OrderSlot) (o : Order) : (s.putOrder k o).ring = s.ring := rfl
@[simp] theorem State.putOrder_req (s : State) (k : OrderSlot) (o : Order) : (s.putOrder k o).req = s.req := rfl
@[simp] theorem State.putOrder_orders (s : State) (k : OrderSlot) (o : Order) :
    (s.putOrder k o).orders = slotPut k o s.orders := rfl
@[simp] theorem State.putOrder_totes (s : State) (k : OrderSlot) (o : Order) : (s.putOrder k o).totes = s.totes := rfl
@[simp] theorem State.putOrder_readers (s : State) (k : OrderSlot) (o : Order) :
    (s.putOrder k o).readers = s.readers := rfl
@[simp] theorem State.putOrder_lanes (s : State) (k : OrderSlot) (o : Order) : (s.putOrder k o).lanes = s.lanes := rfl
@[simp] theorem State.putOrder_willcall (s : State) (k : OrderSlot) (o : Order) :
    (s.putOrder k o).willcall = s.willcall := rfl
@[simp] theorem State.putOrder_merge (s : State) (k : OrderSlot) (o : Order) : (s.putOrder k o).merge = s.merge := rfl
@[simp] theorem State.putOrder_throttle (s : State) (k : OrderSlot) (o : Order) :
    (s.putOrder k o).throttle = s.throttle := rfl
@[simp] theorem State.putOrder_drive (s : State) (k : OrderSlot) (o : Order) : (s.putOrder k o).drive = s.drive := rfl
@[simp] theorem State.putOrder_run (s : State) (k : OrderSlot) (o : Order) : (s.putOrder k o).run = s.run := rfl

/-! ## putTote -/

@[simp] theorem State.putTote_pending (s : State) (k : ToteSlot) (t : Tote) : (s.putTote k t).pending = s.pending :=
  rfl
@[simp] theorem State.putTote_now (s : State) (k : ToteSlot) (t : Tote) : (s.putTote k t).now = s.now := rfl
@[simp] theorem State.putTote_choices (s : State) (k : ToteSlot) (t : Tote) : (s.putTote k t).choices = s.choices :=
  rfl
@[simp] theorem State.putTote_cfg (s : State) (k : ToteSlot) (t : Tote) : (s.putTote k t).cfg = s.cfg := rfl
@[simp] theorem State.putTote_ring (s : State) (k : ToteSlot) (t : Tote) : (s.putTote k t).ring = s.ring := rfl
@[simp] theorem State.putTote_req (s : State) (k : ToteSlot) (t : Tote) : (s.putTote k t).req = s.req := rfl
@[simp] theorem State.putTote_orders (s : State) (k : ToteSlot) (t : Tote) : (s.putTote k t).orders = s.orders := rfl
@[simp] theorem State.putTote_totes (s : State) (k : ToteSlot) (t : Tote) :
    (s.putTote k t).totes = slotPut k t s.totes := rfl
@[simp] theorem State.putTote_readers (s : State) (k : ToteSlot) (t : Tote) : (s.putTote k t).readers = s.readers :=
  rfl
@[simp] theorem State.putTote_lanes (s : State) (k : ToteSlot) (t : Tote) : (s.putTote k t).lanes = s.lanes := rfl
@[simp] theorem State.putTote_willcall (s : State) (k : ToteSlot) (t : Tote) :
    (s.putTote k t).willcall = s.willcall := rfl
@[simp] theorem State.putTote_merge (s : State) (k : ToteSlot) (t : Tote) : (s.putTote k t).merge = s.merge := rfl
@[simp] theorem State.putTote_throttle (s : State) (k : ToteSlot) (t : Tote) :
    (s.putTote k t).throttle = s.throttle := rfl
@[simp] theorem State.putTote_drive (s : State) (k : ToteSlot) (t : Tote) : (s.putTote k t).drive = s.drive := rfl
@[simp] theorem State.putTote_run (s : State) (k : ToteSlot) (t : Tote) : (s.putTote k t).run = s.run := rfl

/-! ## mapTotes -/

@[simp] theorem State.mapTotes_pending (s : State) (f : Tote → Tote) : (s.mapTotes f).pending = s.pending := rfl
@[simp] theorem State.mapTotes_now (s : State) (f : Tote → Tote) : (s.mapTotes f).now = s.now := rfl
@[simp] theorem State.mapTotes_choices (s : State) (f : Tote → Tote) : (s.mapTotes f).choices = s.choices := rfl
@[simp] theorem State.mapTotes_cfg (s : State) (f : Tote → Tote) : (s.mapTotes f).cfg = s.cfg := rfl
@[simp] theorem State.mapTotes_ring (s : State) (f : Tote → Tote) : (s.mapTotes f).ring = s.ring := rfl
@[simp] theorem State.mapTotes_req (s : State) (f : Tote → Tote) : (s.mapTotes f).req = s.req := rfl
@[simp] theorem State.mapTotes_orders (s : State) (f : Tote → Tote) : (s.mapTotes f).orders = s.orders := rfl
@[simp] theorem State.mapTotes_totes (s : State) (f : Tote → Tote) :
    (s.mapTotes f).totes = s.totes.map (fun p => (p.1, f p.2)) := rfl
@[simp] theorem State.mapTotes_readers (s : State) (f : Tote → Tote) : (s.mapTotes f).readers = s.readers := rfl
@[simp] theorem State.mapTotes_lanes (s : State) (f : Tote → Tote) : (s.mapTotes f).lanes = s.lanes := rfl
@[simp] theorem State.mapTotes_willcall (s : State) (f : Tote → Tote) : (s.mapTotes f).willcall = s.willcall := rfl
@[simp] theorem State.mapTotes_merge (s : State) (f : Tote → Tote) : (s.mapTotes f).merge = s.merge := rfl
@[simp] theorem State.mapTotes_throttle (s : State) (f : Tote → Tote) : (s.mapTotes f).throttle = s.throttle := rfl
@[simp] theorem State.mapTotes_drive (s : State) (f : Tote → Tote) : (s.mapTotes f).drive = s.drive := rfl
@[simp] theorem State.mapTotes_run (s : State) (f : Tote → Tote) : (s.mapTotes f).run = s.run := rfl

/-! ## putLane -/

@[simp] theorem State.putLane_pending (s : State) (l : LaneIx) (x : Lane) : (s.putLane l x).pending = s.pending := rfl
@[simp] theorem State.putLane_now (s : State) (l : LaneIx) (x : Lane) : (s.putLane l x).now = s.now := rfl
@[simp] theorem State.putLane_choices (s : State) (l : LaneIx) (x : Lane) : (s.putLane l x).choices = s.choices := rfl
@[simp] theorem State.putLane_cfg (s : State) (l : LaneIx) (x : Lane) : (s.putLane l x).cfg = s.cfg := rfl
@[simp] theorem State.putLane_ring (s : State) (l : LaneIx) (x : Lane) : (s.putLane l x).ring = s.ring := rfl
@[simp] theorem State.putLane_req (s : State) (l : LaneIx) (x : Lane) : (s.putLane l x).req = s.req := rfl
@[simp] theorem State.putLane_orders (s : State) (l : LaneIx) (x : Lane) : (s.putLane l x).orders = s.orders := rfl
@[simp] theorem State.putLane_totes (s : State) (l : LaneIx) (x : Lane) : (s.putLane l x).totes = s.totes := rfl
@[simp] theorem State.putLane_readers (s : State) (l : LaneIx) (x : Lane) : (s.putLane l x).readers = s.readers := rfl
@[simp] theorem State.putLane_lanes (s : State) (l : LaneIx) (x : Lane) :
    (s.putLane l x).lanes = setRow s.lanes l x := rfl
@[simp] theorem State.putLane_willcall (s : State) (l : LaneIx) (x : Lane) : (s.putLane l x).willcall = s.willcall :=
  rfl
@[simp] theorem State.putLane_merge (s : State) (l : LaneIx) (x : Lane) : (s.putLane l x).merge = s.merge := rfl
@[simp] theorem State.putLane_throttle (s : State) (l : LaneIx) (x : Lane) : (s.putLane l x).throttle = s.throttle :=
  rfl
@[simp] theorem State.putLane_drive (s : State) (l : LaneIx) (x : Lane) : (s.putLane l x).drive = s.drive := rfl
@[simp] theorem State.putLane_run (s : State) (l : LaneIx) (x : Lane) : (s.putLane l x).run = s.run := rfl

/-! ## modLane -/

@[simp] theorem State.modLane_pending (s : State) (l : LaneIx) (f : Lane → Lane) :
    (s.modLane l f).pending = s.pending := rfl
@[simp] theorem State.modLane_now (s : State) (l : LaneIx) (f : Lane → Lane) : (s.modLane l f).now = s.now := rfl
@[simp] theorem State.modLane_choices (s : State) (l : LaneIx) (f : Lane → Lane) :
    (s.modLane l f).choices = s.choices := rfl
@[simp] theorem State.modLane_cfg (s : State) (l : LaneIx) (f : Lane → Lane) : (s.modLane l f).cfg = s.cfg := rfl
@[simp] theorem State.modLane_ring (s : State) (l : LaneIx) (f : Lane → Lane) : (s.modLane l f).ring = s.ring := rfl
@[simp] theorem State.modLane_req (s : State) (l : LaneIx) (f : Lane → Lane) : (s.modLane l f).req = s.req := rfl
@[simp] theorem State.modLane_orders (s : State) (l : LaneIx) (f : Lane → Lane) : (s.modLane l f).orders = s.orders :=
  rfl
@[simp] theorem State.modLane_totes (s : State) (l : LaneIx) (f : Lane → Lane) : (s.modLane l f).totes = s.totes :=
  rfl
@[simp] theorem State.modLane_readers (s : State) (l : LaneIx) (f : Lane → Lane) :
    (s.modLane l f).readers = s.readers := rfl
@[simp] theorem State.modLane_lanes (s : State) (l : LaneIx) (f : Lane → Lane) :
    (s.modLane l f).lanes = setRow s.lanes l (f (s.lane l)) := rfl
@[simp] theorem State.modLane_willcall (s : State) (l : LaneIx) (f : Lane → Lane) :
    (s.modLane l f).willcall = s.willcall := rfl
@[simp] theorem State.modLane_merge (s : State) (l : LaneIx) (f : Lane → Lane) : (s.modLane l f).merge = s.merge :=
  rfl
@[simp] theorem State.modLane_throttle (s : State) (l : LaneIx) (f : Lane → Lane) :
    (s.modLane l f).throttle = s.throttle := rfl
@[simp] theorem State.modLane_drive (s : State) (l : LaneIx) (f : Lane → Lane) : (s.modLane l f).drive = s.drive :=
  rfl
@[simp] theorem State.modLane_run (s : State) (l : LaneIx) (f : Lane → Lane) : (s.modLane l f).run = s.run := rfl

/-! ## putReader -/

@[simp] theorem State.putReader_pending (s : State) (r : ReaderIx) (x : Reader) :
    (s.putReader r x).pending = s.pending := rfl
@[simp] theorem State.putReader_now (s : State) (r : ReaderIx) (x : Reader) : (s.putReader r x).now = s.now := rfl
@[simp] theorem State.putReader_choices (s : State) (r : ReaderIx) (x : Reader) :
    (s.putReader r x).choices = s.choices := rfl
@[simp] theorem State.putReader_cfg (s : State) (r : ReaderIx) (x : Reader) : (s.putReader r x).cfg = s.cfg := rfl
@[simp] theorem State.putReader_ring (s : State) (r : ReaderIx) (x : Reader) : (s.putReader r x).ring = s.ring := rfl
@[simp] theorem State.putReader_req (s : State) (r : ReaderIx) (x : Reader) : (s.putReader r x).req = s.req := rfl
@[simp] theorem State.putReader_orders (s : State) (r : ReaderIx) (x : Reader) :
    (s.putReader r x).orders = s.orders := rfl
@[simp] theorem State.putReader_totes (s : State) (r : ReaderIx) (x : Reader) : (s.putReader r x).totes = s.totes :=
  rfl
@[simp] theorem State.putReader_readers (s : State) (r : ReaderIx) (x : Reader) :
    (s.putReader r x).readers = setRow s.readers r x := rfl
@[simp] theorem State.putReader_lanes (s : State) (r : ReaderIx) (x : Reader) : (s.putReader r x).lanes = s.lanes :=
  rfl
@[simp] theorem State.putReader_willcall (s : State) (r : ReaderIx) (x : Reader) :
    (s.putReader r x).willcall = s.willcall := rfl
@[simp] theorem State.putReader_merge (s : State) (r : ReaderIx) (x : Reader) : (s.putReader r x).merge = s.merge :=
  rfl
@[simp] theorem State.putReader_throttle (s : State) (r : ReaderIx) (x : Reader) :
    (s.putReader r x).throttle = s.throttle := rfl
@[simp] theorem State.putReader_drive (s : State) (r : ReaderIx) (x : Reader) : (s.putReader r x).drive = s.drive :=
  rfl
@[simp] theorem State.putReader_run (s : State) (r : ReaderIx) (x : Reader) : (s.putReader r x).run = s.run := rfl

/-! ## putQueue -/

@[simp] theorem State.putQueue_pending (s : State) (i : InductIx) (q : List InductItem) :
    (s.putQueue i q).pending = s.pending := rfl
@[simp] theorem State.putQueue_now (s : State) (i : InductIx) (q : List InductItem) : (s.putQueue i q).now = s.now :=
  rfl
@[simp] theorem State.putQueue_choices (s : State) (i : InductIx) (q : List InductItem) :
    (s.putQueue i q).choices = s.choices := rfl
@[simp] theorem State.putQueue_cfg (s : State) (i : InductIx) (q : List InductItem) : (s.putQueue i q).cfg = s.cfg :=
  rfl
@[simp] theorem State.putQueue_ring (s : State) (i : InductIx) (q : List InductItem) :
    (s.putQueue i q).ring = s.ring := rfl
@[simp] theorem State.putQueue_req (s : State) (i : InductIx) (q : List InductItem) : (s.putQueue i q).req = s.req :=
  rfl
@[simp] theorem State.putQueue_orders (s : State) (i : InductIx) (q : List InductItem) :
    (s.putQueue i q).orders = s.orders := rfl
@[simp] theorem State.putQueue_totes (s : State) (i : InductIx) (q : List InductItem) :
    (s.putQueue i q).totes = s.totes := rfl
@[simp] theorem State.putQueue_readers (s : State) (i : InductIx) (q : List InductItem) :
    (s.putQueue i q).readers = s.readers := rfl
@[simp] theorem State.putQueue_lanes (s : State) (i : InductIx) (q : List InductItem) :
    (s.putQueue i q).lanes = s.lanes := rfl
@[simp] theorem State.putQueue_willcall (s : State) (i : InductIx) (q : List InductItem) :
    (s.putQueue i q).willcall = s.willcall := rfl
@[simp] theorem State.putQueue_merge (s : State) (i : InductIx) (q : List InductItem) :
    (s.putQueue i q).merge = { s.merge with queues := setRow s.merge.queues i q } := rfl
@[simp] theorem State.putQueue_throttle (s : State) (i : InductIx) (q : List InductItem) :
    (s.putQueue i q).throttle = s.throttle := rfl
@[simp] theorem State.putQueue_drive (s : State) (i : InductIx) (q : List InductItem) :
    (s.putQueue i q).drive = s.drive := rfl
@[simp] theorem State.putQueue_run (s : State) (i : InductIx) (q : List InductItem) : (s.putQueue i q).run = s.run :=
  rfl

/-! ## popRequest -/

@[simp] theorem State.popRequest_pending (s : State) (b : List Request) : (s.popRequest b).pending = s.pending := rfl
@[simp] theorem State.popRequest_now (s : State) (b : List Request) : (s.popRequest b).now = s.now := rfl
@[simp] theorem State.popRequest_choices (s : State) (b : List Request) : (s.popRequest b).choices = s.choices := rfl
@[simp] theorem State.popRequest_cfg (s : State) (b : List Request) : (s.popRequest b).cfg = s.cfg := rfl
@[simp] theorem State.popRequest_ring (s : State) (b : List Request) : (s.popRequest b).ring = s.ring := rfl
@[simp] theorem State.popRequest_req (s : State) (b : List Request) :
    (s.popRequest b).req = { s.req with buffer := b } := rfl
@[simp] theorem State.popRequest_orders (s : State) (b : List Request) : (s.popRequest b).orders = s.orders := rfl
@[simp] theorem State.popRequest_totes (s : State) (b : List Request) : (s.popRequest b).totes = s.totes := rfl
@[simp] theorem State.popRequest_readers (s : State) (b : List Request) : (s.popRequest b).readers = s.readers := rfl
@[simp] theorem State.popRequest_lanes (s : State) (b : List Request) : (s.popRequest b).lanes = s.lanes := rfl
@[simp] theorem State.popRequest_willcall (s : State) (b : List Request) : (s.popRequest b).willcall = s.willcall :=
  rfl
@[simp] theorem State.popRequest_merge (s : State) (b : List Request) : (s.popRequest b).merge = s.merge := rfl
@[simp] theorem State.popRequest_throttle (s : State) (b : List Request) : (s.popRequest b).throttle = s.throttle :=
  rfl
@[simp] theorem State.popRequest_drive (s : State) (b : List Request) : (s.popRequest b).drive = s.drive := rfl
@[simp] theorem State.popRequest_run (s : State) (b : List Request) : (s.popRequest b).run = s.run := rfl

/-! ## endReception -/

@[simp] theorem State.endReception_pending (s : State) : (s.endReception).pending = s.pending := rfl
@[simp] theorem State.endReception_now (s : State) : (s.endReception).now = s.now := rfl
@[simp] theorem State.endReception_choices (s : State) : (s.endReception).choices = s.choices := rfl
@[simp] theorem State.endReception_cfg (s : State) : (s.endReception).cfg = s.cfg := rfl
@[simp] theorem State.endReception_ring (s : State) : (s.endReception).ring = { s.ring with reception := [] } := rfl
@[simp] theorem State.endReception_req (s : State) : (s.endReception).req = s.req := rfl
@[simp] theorem State.endReception_orders (s : State) : (s.endReception).orders = s.orders := rfl
@[simp] theorem State.endReception_totes (s : State) : (s.endReception).totes = s.totes := rfl
@[simp] theorem State.endReception_readers (s : State) : (s.endReception).readers = s.readers := rfl
@[simp] theorem State.endReception_lanes (s : State) : (s.endReception).lanes = s.lanes := rfl
@[simp] theorem State.endReception_willcall (s : State) : (s.endReception).willcall = s.willcall := rfl
@[simp] theorem State.endReception_merge (s : State) : (s.endReception).merge = s.merge := rfl
@[simp] theorem State.endReception_throttle (s : State) : (s.endReception).throttle = s.throttle := rfl
@[simp] theorem State.endReception_drive (s : State) : (s.endReception).drive = s.drive := rfl
@[simp] theorem State.endReception_run (s : State) : (s.endReception).run = s.run := rfl

/-! ## setRun -/

@[simp] theorem State.setRun_pending (s : State) (r : RunState) : (s.setRun r).pending = s.pending := rfl
@[simp] theorem State.setRun_now (s : State) (r : RunState) : (s.setRun r).now = s.now := rfl
@[simp] theorem State.setRun_choices (s : State) (r : RunState) : (s.setRun r).choices = s.choices := rfl
@[simp] theorem State.setRun_cfg (s : State) (r : RunState) : (s.setRun r).cfg = s.cfg := rfl
@[simp] theorem State.setRun_ring (s : State) (r : RunState) : (s.setRun r).ring = s.ring := rfl
@[simp] theorem State.setRun_req (s : State) (r : RunState) : (s.setRun r).req = s.req := rfl
@[simp] theorem State.setRun_orders (s : State) (r : RunState) : (s.setRun r).orders = s.orders := rfl
@[simp] theorem State.setRun_totes (s : State) (r : RunState) : (s.setRun r).totes = s.totes := rfl
@[simp] theorem State.setRun_readers (s : State) (r : RunState) : (s.setRun r).readers = s.readers := rfl
@[simp] theorem State.setRun_lanes (s : State) (r : RunState) : (s.setRun r).lanes = s.lanes := rfl
@[simp] theorem State.setRun_willcall (s : State) (r : RunState) : (s.setRun r).willcall = s.willcall := rfl
@[simp] theorem State.setRun_merge (s : State) (r : RunState) : (s.setRun r).merge = s.merge := rfl
@[simp] theorem State.setRun_throttle (s : State) (r : RunState) : (s.setRun r).throttle = s.throttle := rfl
@[simp] theorem State.setRun_drive (s : State) (r : RunState) : (s.setRun r).drive = s.drive := rfl
@[simp] theorem State.setRun_run (s : State) (r : RunState) : (s.setRun r).run = { s.run with state := r } := rfl

/-! ## setHead -/

@[simp] theorem State.setHead_pending (s : State) (h : BeltHead) : (s.setHead h).pending = s.pending := rfl
@[simp] theorem State.setHead_now (s : State) (h : BeltHead) : (s.setHead h).now = s.now := rfl
@[simp] theorem State.setHead_choices (s : State) (h : BeltHead) : (s.setHead h).choices = s.choices := rfl
@[simp] theorem State.setHead_cfg (s : State) (h : BeltHead) : (s.setHead h).cfg = s.cfg := rfl
@[simp] theorem State.setHead_ring (s : State) (h : BeltHead) : (s.setHead h).ring = s.ring := rfl
@[simp] theorem State.setHead_req (s : State) (h : BeltHead) : (s.setHead h).req = s.req := rfl
@[simp] theorem State.setHead_orders (s : State) (h : BeltHead) : (s.setHead h).orders = s.orders := rfl
@[simp] theorem State.setHead_totes (s : State) (h : BeltHead) : (s.setHead h).totes = s.totes := rfl
@[simp] theorem State.setHead_readers (s : State) (h : BeltHead) : (s.setHead h).readers = s.readers := rfl
@[simp] theorem State.setHead_lanes (s : State) (h : BeltHead) : (s.setHead h).lanes = s.lanes := rfl
@[simp] theorem State.setHead_willcall (s : State) (h : BeltHead) : (s.setHead h).willcall = s.willcall := rfl
@[simp] theorem State.setHead_merge (s : State) (h : BeltHead) : (s.setHead h).merge = { s.merge with head := h } :=
  rfl
@[simp] theorem State.setHead_throttle (s : State) (h : BeltHead) : (s.setHead h).throttle = s.throttle := rfl
@[simp] theorem State.setHead_drive (s : State) (h : BeltHead) : (s.setHead h).drive = s.drive := rfl
@[simp] theorem State.setHead_run (s : State) (h : BeltHead) : (s.setHead h).run = s.run := rfl

/-! ## drawChoice -/

@[simp] theorem State.drawChoice_pending (s : State) : (s.drawChoice).pending = s.pending := rfl
@[simp] theorem State.drawChoice_now (s : State) : (s.drawChoice).now = s.now := rfl
@[simp] theorem State.drawChoice_choices (s : State) : (s.drawChoice).choices = s.choices + 1 := rfl
@[simp] theorem State.drawChoice_cfg (s : State) : (s.drawChoice).cfg = s.cfg := rfl
@[simp] theorem State.drawChoice_ring (s : State) : (s.drawChoice).ring = s.ring := rfl
@[simp] theorem State.drawChoice_req (s : State) : (s.drawChoice).req = s.req := rfl
@[simp] theorem State.drawChoice_orders (s : State) : (s.drawChoice).orders = s.orders := rfl
@[simp] theorem State.drawChoice_totes (s : State) : (s.drawChoice).totes = s.totes := rfl
@[simp] theorem State.drawChoice_readers (s : State) : (s.drawChoice).readers = s.readers := rfl
@[simp] theorem State.drawChoice_lanes (s : State) : (s.drawChoice).lanes = s.lanes := rfl
@[simp] theorem State.drawChoice_willcall (s : State) : (s.drawChoice).willcall = s.willcall := rfl
@[simp] theorem State.drawChoice_merge (s : State) : (s.drawChoice).merge = s.merge := rfl
@[simp] theorem State.drawChoice_throttle (s : State) : (s.drawChoice).throttle = s.throttle := rfl
@[simp] theorem State.drawChoice_drive (s : State) : (s.drawChoice).drive = s.drive := rfl
@[simp] theorem State.drawChoice_run (s : State) : (s.drawChoice).run = s.run := rfl


/-! ### Reads that raise leaves alone -/

@[simp] theorem State.toteAt_raise (s : State) (f : Flag) (j : ToteSlot) : (s.raise f).tote? j = s.tote? j := rfl
@[simp] theorem State.findTote_raise (s : State) (f : Flag) (n : Nat) : (s.raise f).findTote n = s.findTote n := rfl
@[simp] theorem State.tagOf_raise (s : State) (f : Flag) (j : ToteSlot) : (s.raise f).tagOf j = s.tagOf j := rfl
@[simp] theorem State.totesOf_raise (s : State) (f : Flag) (j : OrderSlot) :
    (s.raise f).totesOf j = s.totesOf j := rfl
@[simp] theorem State.loopOccupancy_raise (s : State) (f : Flag) : (s.raise f).loopOccupancy = s.loopOccupancy := rfl
@[simp] theorem State.beltCount_raise (s : State) (f : Flag) : (s.raise f).beltCount = s.beltCount := rfl
@[simp] theorem State.beltRoom_raise (s : State) (f : Flag) : (s.raise f).beltRoom = s.beltRoom := rfl
@[simp] theorem State.orderAt_raise (s : State) (f : Flag) (j : OrderSlot) : (s.raise f).order? j = s.order? j := rfl
@[simp] theorem State.findOrder_raise (s : State) (f : Flag) (n : Nat) :
    (s.raise f).findOrder n = s.findOrder n := rfl
@[simp] theorem State.ticketOf_raise (s : State) (f : Flag) (j : OrderSlot) :
    (s.raise f).ticketOf j = s.ticketOf j := rfl
@[simp] theorem State.lane_raise (s : State) (f : Flag) (m : LaneIx) : (s.raise f).lane m = s.lane m := rfl
@[simp] theorem State.laneOpen_raise (s : State) (f : Flag) (m : LaneIx) :
    (s.raise f).laneOpen m = s.laneOpen m := rfl
@[simp] theorem State.laneCfg_raise (s : State) (f : Flag) (m : LaneIx) : (s.raise f).laneCfg m = s.laneCfg m := rfl
@[simp] theorem State.gateCfg_raise (s : State) (f : Flag) (g : GateIx) : (s.raise f).gateCfg g = s.gateCfg g := rfl
@[simp] theorem State.inductCfg_raise (s : State) (f : Flag) (j : InductIx) :
    (s.raise f).inductCfg j = s.inductCfg j := rfl
@[simp] theorem State.lanePresent_raise (s : State) (f : Flag) (m : LaneIx) :
    (s.raise f).lanePresent m = s.lanePresent m := rfl
@[simp] theorem State.nextGate_raise (s : State) (f : Flag) (g : GateIx) :
    (s.raise f).nextGate g = s.nextGate g := rfl
@[simp] theorem State.reader_raise (s : State) (f : Flag) (p : ReaderIx) : (s.raise f).reader p = s.reader p := rfl
@[simp] theorem State.trackRuns_raise (s : State) (f : Flag) : (s.raise f).trackRuns = s.trackRuns := rfl
@[simp] theorem State.queue_raise (s : State) (f : Flag) (j : InductIx) : (s.raise f).queue j = s.queue j := rfl

/-! ### Reads that hand leaves alone -/

@[simp] theorem State.toteAt_hand (s : State) (f : Frame) (j : ToteSlot) : (s.hand f).tote? j = s.tote? j := rfl
@[simp] theorem State.findTote_hand (s : State) (f : Frame) (n : Nat) : (s.hand f).findTote n = s.findTote n := rfl
@[simp] theorem State.tagOf_hand (s : State) (f : Frame) (j : ToteSlot) : (s.hand f).tagOf j = s.tagOf j := rfl
@[simp] theorem State.totesOf_hand (s : State) (f : Frame) (j : OrderSlot) : (s.hand f).totesOf j = s.totesOf j := rfl
@[simp] theorem State.loopOccupancy_hand (s : State) (f : Frame) : (s.hand f).loopOccupancy = s.loopOccupancy := rfl
@[simp] theorem State.beltCount_hand (s : State) (f : Frame) : (s.hand f).beltCount = s.beltCount := rfl
@[simp] theorem State.beltRoom_hand (s : State) (f : Frame) : (s.hand f).beltRoom = s.beltRoom := rfl
@[simp] theorem State.orderAt_hand (s : State) (f : Frame) (j : OrderSlot) : (s.hand f).order? j = s.order? j := rfl
@[simp] theorem State.findOrder_hand (s : State) (f : Frame) (n : Nat) : (s.hand f).findOrder n = s.findOrder n := rfl
@[simp] theorem State.ticketOf_hand (s : State) (f : Frame) (j : OrderSlot) :
    (s.hand f).ticketOf j = s.ticketOf j := rfl
@[simp] theorem State.lane_hand (s : State) (f : Frame) (m : LaneIx) : (s.hand f).lane m = s.lane m := rfl
@[simp] theorem State.laneOpen_hand (s : State) (f : Frame) (m : LaneIx) : (s.hand f).laneOpen m = s.laneOpen m := rfl
@[simp] theorem State.laneCfg_hand (s : State) (f : Frame) (m : LaneIx) : (s.hand f).laneCfg m = s.laneCfg m := rfl
@[simp] theorem State.gateCfg_hand (s : State) (f : Frame) (g : GateIx) : (s.hand f).gateCfg g = s.gateCfg g := rfl
@[simp] theorem State.inductCfg_hand (s : State) (f : Frame) (j : InductIx) :
    (s.hand f).inductCfg j = s.inductCfg j := rfl
@[simp] theorem State.lanePresent_hand (s : State) (f : Frame) (m : LaneIx) :
    (s.hand f).lanePresent m = s.lanePresent m := rfl
@[simp] theorem State.nextGate_hand (s : State) (f : Frame) (g : GateIx) : (s.hand f).nextGate g = s.nextGate g := rfl
@[simp] theorem State.reader_hand (s : State) (f : Frame) (p : ReaderIx) : (s.hand f).reader p = s.reader p := rfl
@[simp] theorem State.trackRuns_hand (s : State) (f : Frame) : (s.hand f).trackRuns = s.trackRuns := rfl
@[simp] theorem State.queue_hand (s : State) (f : Frame) (j : InductIx) : (s.hand f).queue j = s.queue j := rfl

/-! ### Reads that advanceTo leaves alone -/

@[simp] theorem State.toteAt_advanceTo (s : State) (t : Time) (j : ToteSlot) :
    (s.advanceTo t).tote? j = s.tote? j := rfl
@[simp] theorem State.findTote_advanceTo (s : State) (t : Time) (n : Nat) :
    (s.advanceTo t).findTote n = s.findTote n := rfl
@[simp] theorem State.tagOf_advanceTo (s : State) (t : Time) (j : ToteSlot) :
    (s.advanceTo t).tagOf j = s.tagOf j := rfl
@[simp] theorem State.totesOf_advanceTo (s : State) (t : Time) (j : OrderSlot) :
    (s.advanceTo t).totesOf j = s.totesOf j := rfl
@[simp] theorem State.loopOccupancy_advanceTo (s : State) (t : Time) :
    (s.advanceTo t).loopOccupancy = s.loopOccupancy := rfl
@[simp] theorem State.beltCount_advanceTo (s : State) (t : Time) : (s.advanceTo t).beltCount = s.beltCount := rfl
@[simp] theorem State.beltRoom_advanceTo (s : State) (t : Time) : (s.advanceTo t).beltRoom = s.beltRoom := rfl
@[simp] theorem State.orderAt_advanceTo (s : State) (t : Time) (j : OrderSlot) :
    (s.advanceTo t).order? j = s.order? j := rfl
@[simp] theorem State.findOrder_advanceTo (s : State) (t : Time) (n : Nat) :
    (s.advanceTo t).findOrder n = s.findOrder n := rfl
@[simp] theorem State.ticketOf_advanceTo (s : State) (t : Time) (j : OrderSlot) :
    (s.advanceTo t).ticketOf j = s.ticketOf j := rfl
@[simp] theorem State.lane_advanceTo (s : State) (t : Time) (m : LaneIx) : (s.advanceTo t).lane m = s.lane m := rfl
@[simp] theorem State.laneOpen_advanceTo (s : State) (t : Time) (m : LaneIx) :
    (s.advanceTo t).laneOpen m = s.laneOpen m := rfl
@[simp] theorem State.laneCfg_advanceTo (s : State) (t : Time) (m : LaneIx) :
    (s.advanceTo t).laneCfg m = s.laneCfg m := rfl
@[simp] theorem State.gateCfg_advanceTo (s : State) (t : Time) (g : GateIx) :
    (s.advanceTo t).gateCfg g = s.gateCfg g := rfl
@[simp] theorem State.inductCfg_advanceTo (s : State) (t : Time) (j : InductIx) :
    (s.advanceTo t).inductCfg j = s.inductCfg j := rfl
@[simp] theorem State.lanePresent_advanceTo (s : State) (t : Time) (m : LaneIx) :
    (s.advanceTo t).lanePresent m = s.lanePresent m := rfl
@[simp] theorem State.nextGate_advanceTo (s : State) (t : Time) (g : GateIx) :
    (s.advanceTo t).nextGate g = s.nextGate g := rfl
@[simp] theorem State.reader_advanceTo (s : State) (t : Time) (p : ReaderIx) :
    (s.advanceTo t).reader p = s.reader p := rfl
@[simp] theorem State.trackRuns_advanceTo (s : State) (t : Time) : (s.advanceTo t).trackRuns = s.trackRuns := rfl
@[simp] theorem State.queue_advanceTo (s : State) (t : Time) (j : InductIx) :
    (s.advanceTo t).queue j = s.queue j := rfl

/-! ### Reads that putOrder leaves alone -/

@[simp] theorem State.toteAt_putOrder (s : State) (k : OrderSlot) (o : Order) (j : ToteSlot) :
    (s.putOrder k o).tote? j = s.tote? j := rfl
@[simp] theorem State.findTote_putOrder (s : State) (k : OrderSlot) (o : Order) (n : Nat) :
    (s.putOrder k o).findTote n = s.findTote n := rfl
@[simp] theorem State.tagOf_putOrder (s : State) (k : OrderSlot) (o : Order) (j : ToteSlot) :
    (s.putOrder k o).tagOf j = s.tagOf j := rfl
@[simp] theorem State.totesOf_putOrder (s : State) (k : OrderSlot) (o : Order) (j : OrderSlot) :
    (s.putOrder k o).totesOf j = s.totesOf j := rfl
@[simp] theorem State.loopOccupancy_putOrder (s : State) (k : OrderSlot) (o : Order) :
    (s.putOrder k o).loopOccupancy = s.loopOccupancy := rfl
@[simp] theorem State.beltCount_putOrder (s : State) (k : OrderSlot) (o : Order) :
    (s.putOrder k o).beltCount = s.beltCount := rfl
@[simp] theorem State.beltRoom_putOrder (s : State) (k : OrderSlot) (o : Order) :
    (s.putOrder k o).beltRoom = s.beltRoom := rfl
@[simp] theorem State.lane_putOrder (s : State) (k : OrderSlot) (o : Order) (m : LaneIx) :
    (s.putOrder k o).lane m = s.lane m := rfl
@[simp] theorem State.laneOpen_putOrder (s : State) (k : OrderSlot) (o : Order) (m : LaneIx) :
    (s.putOrder k o).laneOpen m = s.laneOpen m := rfl
@[simp] theorem State.laneCfg_putOrder (s : State) (k : OrderSlot) (o : Order) (m : LaneIx) :
    (s.putOrder k o).laneCfg m = s.laneCfg m := rfl
@[simp] theorem State.gateCfg_putOrder (s : State) (k : OrderSlot) (o : Order) (g : GateIx) :
    (s.putOrder k o).gateCfg g = s.gateCfg g := rfl
@[simp] theorem State.inductCfg_putOrder (s : State) (k : OrderSlot) (o : Order) (j : InductIx) :
    (s.putOrder k o).inductCfg j = s.inductCfg j := rfl
@[simp] theorem State.lanePresent_putOrder (s : State) (k : OrderSlot) (o : Order) (m : LaneIx) :
    (s.putOrder k o).lanePresent m = s.lanePresent m := rfl
@[simp] theorem State.nextGate_putOrder (s : State) (k : OrderSlot) (o : Order) (g : GateIx) :
    (s.putOrder k o).nextGate g = s.nextGate g := rfl
@[simp] theorem State.reader_putOrder (s : State) (k : OrderSlot) (o : Order) (p : ReaderIx) :
    (s.putOrder k o).reader p = s.reader p := rfl
@[simp] theorem State.trackRuns_putOrder (s : State) (k : OrderSlot) (o : Order) :
    (s.putOrder k o).trackRuns = s.trackRuns := rfl
@[simp] theorem State.queue_putOrder (s : State) (k : OrderSlot) (o : Order) (j : InductIx) :
    (s.putOrder k o).queue j = s.queue j := rfl

/-! ### Reads that putTote leaves alone -/

@[simp] theorem State.orderAt_putTote (s : State) (k : ToteSlot) (t : Tote) (j : OrderSlot) :
    (s.putTote k t).order? j = s.order? j := rfl
@[simp] theorem State.findOrder_putTote (s : State) (k : ToteSlot) (t : Tote) (n : Nat) :
    (s.putTote k t).findOrder n = s.findOrder n := rfl
@[simp] theorem State.ticketOf_putTote (s : State) (k : ToteSlot) (t : Tote) (j : OrderSlot) :
    (s.putTote k t).ticketOf j = s.ticketOf j := rfl
@[simp] theorem State.lane_putTote (s : State) (k : ToteSlot) (t : Tote) (m : LaneIx) :
    (s.putTote k t).lane m = s.lane m := rfl
@[simp] theorem State.laneOpen_putTote (s : State) (k : ToteSlot) (t : Tote) (m : LaneIx) :
    (s.putTote k t).laneOpen m = s.laneOpen m := rfl
@[simp] theorem State.laneCfg_putTote (s : State) (k : ToteSlot) (t : Tote) (m : LaneIx) :
    (s.putTote k t).laneCfg m = s.laneCfg m := rfl
@[simp] theorem State.gateCfg_putTote (s : State) (k : ToteSlot) (t : Tote) (g : GateIx) :
    (s.putTote k t).gateCfg g = s.gateCfg g := rfl
@[simp] theorem State.inductCfg_putTote (s : State) (k : ToteSlot) (t : Tote) (j : InductIx) :
    (s.putTote k t).inductCfg j = s.inductCfg j := rfl
@[simp] theorem State.lanePresent_putTote (s : State) (k : ToteSlot) (t : Tote) (m : LaneIx) :
    (s.putTote k t).lanePresent m = s.lanePresent m := rfl
@[simp] theorem State.nextGate_putTote (s : State) (k : ToteSlot) (t : Tote) (g : GateIx) :
    (s.putTote k t).nextGate g = s.nextGate g := rfl
@[simp] theorem State.reader_putTote (s : State) (k : ToteSlot) (t : Tote) (p : ReaderIx) :
    (s.putTote k t).reader p = s.reader p := rfl
@[simp] theorem State.trackRuns_putTote (s : State) (k : ToteSlot) (t : Tote) :
    (s.putTote k t).trackRuns = s.trackRuns := rfl
@[simp] theorem State.queue_putTote (s : State) (k : ToteSlot) (t : Tote) (j : InductIx) :
    (s.putTote k t).queue j = s.queue j := rfl

/-! ### Reads that mapTotes leaves alone -/

@[simp] theorem State.orderAt_mapTotes (s : State) (f : Tote → Tote) (j : OrderSlot) :
    (s.mapTotes f).order? j = s.order? j := rfl
@[simp] theorem State.findOrder_mapTotes (s : State) (f : Tote → Tote) (n : Nat) :
    (s.mapTotes f).findOrder n = s.findOrder n := rfl
@[simp] theorem State.ticketOf_mapTotes (s : State) (f : Tote → Tote) (j : OrderSlot) :
    (s.mapTotes f).ticketOf j = s.ticketOf j := rfl
@[simp] theorem State.lane_mapTotes (s : State) (f : Tote → Tote) (m : LaneIx) :
    (s.mapTotes f).lane m = s.lane m := rfl
@[simp] theorem State.laneOpen_mapTotes (s : State) (f : Tote → Tote) (m : LaneIx) :
    (s.mapTotes f).laneOpen m = s.laneOpen m := rfl
@[simp] theorem State.laneCfg_mapTotes (s : State) (f : Tote → Tote) (m : LaneIx) :
    (s.mapTotes f).laneCfg m = s.laneCfg m := rfl
@[simp] theorem State.gateCfg_mapTotes (s : State) (f : Tote → Tote) (g : GateIx) :
    (s.mapTotes f).gateCfg g = s.gateCfg g := rfl
@[simp] theorem State.inductCfg_mapTotes (s : State) (f : Tote → Tote) (j : InductIx) :
    (s.mapTotes f).inductCfg j = s.inductCfg j := rfl
@[simp] theorem State.lanePresent_mapTotes (s : State) (f : Tote → Tote) (m : LaneIx) :
    (s.mapTotes f).lanePresent m = s.lanePresent m := rfl
@[simp] theorem State.nextGate_mapTotes (s : State) (f : Tote → Tote) (g : GateIx) :
    (s.mapTotes f).nextGate g = s.nextGate g := rfl
@[simp] theorem State.reader_mapTotes (s : State) (f : Tote → Tote) (p : ReaderIx) :
    (s.mapTotes f).reader p = s.reader p := rfl
@[simp] theorem State.trackRuns_mapTotes (s : State) (f : Tote → Tote) : (s.mapTotes f).trackRuns = s.trackRuns := rfl
@[simp] theorem State.queue_mapTotes (s : State) (f : Tote → Tote) (j : InductIx) :
    (s.mapTotes f).queue j = s.queue j := rfl

/-! ### Reads that putLane leaves alone -/

@[simp] theorem State.toteAt_putLane (s : State) (l : LaneIx) (x : Lane) (j : ToteSlot) :
    (s.putLane l x).tote? j = s.tote? j := rfl
@[simp] theorem State.findTote_putLane (s : State) (l : LaneIx) (x : Lane) (n : Nat) :
    (s.putLane l x).findTote n = s.findTote n := rfl
@[simp] theorem State.tagOf_putLane (s : State) (l : LaneIx) (x : Lane) (j : ToteSlot) :
    (s.putLane l x).tagOf j = s.tagOf j := rfl
@[simp] theorem State.totesOf_putLane (s : State) (l : LaneIx) (x : Lane) (j : OrderSlot) :
    (s.putLane l x).totesOf j = s.totesOf j := rfl
@[simp] theorem State.loopOccupancy_putLane (s : State) (l : LaneIx) (x : Lane) :
    (s.putLane l x).loopOccupancy = s.loopOccupancy := rfl
@[simp] theorem State.beltCount_putLane (s : State) (l : LaneIx) (x : Lane) :
    (s.putLane l x).beltCount = s.beltCount := rfl
@[simp] theorem State.beltRoom_putLane (s : State) (l : LaneIx) (x : Lane) :
    (s.putLane l x).beltRoom = s.beltRoom := rfl
@[simp] theorem State.orderAt_putLane (s : State) (l : LaneIx) (x : Lane) (j : OrderSlot) :
    (s.putLane l x).order? j = s.order? j := rfl
@[simp] theorem State.findOrder_putLane (s : State) (l : LaneIx) (x : Lane) (n : Nat) :
    (s.putLane l x).findOrder n = s.findOrder n := rfl
@[simp] theorem State.ticketOf_putLane (s : State) (l : LaneIx) (x : Lane) (j : OrderSlot) :
    (s.putLane l x).ticketOf j = s.ticketOf j := rfl
@[simp] theorem State.laneCfg_putLane (s : State) (l : LaneIx) (x : Lane) (m : LaneIx) :
    (s.putLane l x).laneCfg m = s.laneCfg m := rfl
@[simp] theorem State.gateCfg_putLane (s : State) (l : LaneIx) (x : Lane) (g : GateIx) :
    (s.putLane l x).gateCfg g = s.gateCfg g := rfl
@[simp] theorem State.inductCfg_putLane (s : State) (l : LaneIx) (x : Lane) (j : InductIx) :
    (s.putLane l x).inductCfg j = s.inductCfg j := rfl
@[simp] theorem State.lanePresent_putLane (s : State) (l : LaneIx) (x : Lane) (m : LaneIx) :
    (s.putLane l x).lanePresent m = s.lanePresent m := rfl
@[simp] theorem State.nextGate_putLane (s : State) (l : LaneIx) (x : Lane) (g : GateIx) :
    (s.putLane l x).nextGate g = s.nextGate g := rfl
@[simp] theorem State.reader_putLane (s : State) (l : LaneIx) (x : Lane) (p : ReaderIx) :
    (s.putLane l x).reader p = s.reader p := rfl
@[simp] theorem State.trackRuns_putLane (s : State) (l : LaneIx) (x : Lane) :
    (s.putLane l x).trackRuns = s.trackRuns := rfl
@[simp] theorem State.queue_putLane (s : State) (l : LaneIx) (x : Lane) (j : InductIx) :
    (s.putLane l x).queue j = s.queue j := rfl

/-! ### Reads that modLane leaves alone -/

@[simp] theorem State.toteAt_modLane (s : State) (l : LaneIx) (f : Lane → Lane) (j : ToteSlot) :
    (s.modLane l f).tote? j = s.tote? j := rfl
@[simp] theorem State.findTote_modLane (s : State) (l : LaneIx) (f : Lane → Lane) (n : Nat) :
    (s.modLane l f).findTote n = s.findTote n := rfl
@[simp] theorem State.tagOf_modLane (s : State) (l : LaneIx) (f : Lane → Lane) (j : ToteSlot) :
    (s.modLane l f).tagOf j = s.tagOf j := rfl
@[simp] theorem State.totesOf_modLane (s : State) (l : LaneIx) (f : Lane → Lane) (j : OrderSlot) :
    (s.modLane l f).totesOf j = s.totesOf j := rfl
@[simp] theorem State.loopOccupancy_modLane (s : State) (l : LaneIx) (f : Lane → Lane) :
    (s.modLane l f).loopOccupancy = s.loopOccupancy := rfl
@[simp] theorem State.beltCount_modLane (s : State) (l : LaneIx) (f : Lane → Lane) :
    (s.modLane l f).beltCount = s.beltCount := rfl
@[simp] theorem State.beltRoom_modLane (s : State) (l : LaneIx) (f : Lane → Lane) :
    (s.modLane l f).beltRoom = s.beltRoom := rfl
@[simp] theorem State.orderAt_modLane (s : State) (l : LaneIx) (f : Lane → Lane) (j : OrderSlot) :
    (s.modLane l f).order? j = s.order? j := rfl
@[simp] theorem State.findOrder_modLane (s : State) (l : LaneIx) (f : Lane → Lane) (n : Nat) :
    (s.modLane l f).findOrder n = s.findOrder n := rfl
@[simp] theorem State.ticketOf_modLane (s : State) (l : LaneIx) (f : Lane → Lane) (j : OrderSlot) :
    (s.modLane l f).ticketOf j = s.ticketOf j := rfl
@[simp] theorem State.laneCfg_modLane (s : State) (l : LaneIx) (f : Lane → Lane) (m : LaneIx) :
    (s.modLane l f).laneCfg m = s.laneCfg m := rfl
@[simp] theorem State.gateCfg_modLane (s : State) (l : LaneIx) (f : Lane → Lane) (g : GateIx) :
    (s.modLane l f).gateCfg g = s.gateCfg g := rfl
@[simp] theorem State.inductCfg_modLane (s : State) (l : LaneIx) (f : Lane → Lane) (j : InductIx) :
    (s.modLane l f).inductCfg j = s.inductCfg j := rfl
@[simp] theorem State.lanePresent_modLane (s : State) (l : LaneIx) (f : Lane → Lane) (m : LaneIx) :
    (s.modLane l f).lanePresent m = s.lanePresent m := rfl
@[simp] theorem State.nextGate_modLane (s : State) (l : LaneIx) (f : Lane → Lane) (g : GateIx) :
    (s.modLane l f).nextGate g = s.nextGate g := rfl
@[simp] theorem State.reader_modLane (s : State) (l : LaneIx) (f : Lane → Lane) (p : ReaderIx) :
    (s.modLane l f).reader p = s.reader p := rfl
@[simp] theorem State.trackRuns_modLane (s : State) (l : LaneIx) (f : Lane → Lane) :
    (s.modLane l f).trackRuns = s.trackRuns := rfl
@[simp] theorem State.queue_modLane (s : State) (l : LaneIx) (f : Lane → Lane) (j : InductIx) :
    (s.modLane l f).queue j = s.queue j := rfl

/-! ### Reads that putReader leaves alone -/

@[simp] theorem State.toteAt_putReader (s : State) (r : ReaderIx) (x : Reader) (j : ToteSlot) :
    (s.putReader r x).tote? j = s.tote? j := rfl
@[simp] theorem State.findTote_putReader (s : State) (r : ReaderIx) (x : Reader) (n : Nat) :
    (s.putReader r x).findTote n = s.findTote n := rfl
@[simp] theorem State.tagOf_putReader (s : State) (r : ReaderIx) (x : Reader) (j : ToteSlot) :
    (s.putReader r x).tagOf j = s.tagOf j := rfl
@[simp] theorem State.totesOf_putReader (s : State) (r : ReaderIx) (x : Reader) (j : OrderSlot) :
    (s.putReader r x).totesOf j = s.totesOf j := rfl
@[simp] theorem State.loopOccupancy_putReader (s : State) (r : ReaderIx) (x : Reader) :
    (s.putReader r x).loopOccupancy = s.loopOccupancy := rfl
@[simp] theorem State.beltCount_putReader (s : State) (r : ReaderIx) (x : Reader) :
    (s.putReader r x).beltCount = s.beltCount := rfl
@[simp] theorem State.beltRoom_putReader (s : State) (r : ReaderIx) (x : Reader) :
    (s.putReader r x).beltRoom = s.beltRoom := rfl
@[simp] theorem State.orderAt_putReader (s : State) (r : ReaderIx) (x : Reader) (j : OrderSlot) :
    (s.putReader r x).order? j = s.order? j := rfl
@[simp] theorem State.findOrder_putReader (s : State) (r : ReaderIx) (x : Reader) (n : Nat) :
    (s.putReader r x).findOrder n = s.findOrder n := rfl
@[simp] theorem State.ticketOf_putReader (s : State) (r : ReaderIx) (x : Reader) (j : OrderSlot) :
    (s.putReader r x).ticketOf j = s.ticketOf j := rfl
@[simp] theorem State.lane_putReader (s : State) (r : ReaderIx) (x : Reader) (m : LaneIx) :
    (s.putReader r x).lane m = s.lane m := rfl
@[simp] theorem State.laneOpen_putReader (s : State) (r : ReaderIx) (x : Reader) (m : LaneIx) :
    (s.putReader r x).laneOpen m = s.laneOpen m := rfl
@[simp] theorem State.laneCfg_putReader (s : State) (r : ReaderIx) (x : Reader) (m : LaneIx) :
    (s.putReader r x).laneCfg m = s.laneCfg m := rfl
@[simp] theorem State.gateCfg_putReader (s : State) (r : ReaderIx) (x : Reader) (g : GateIx) :
    (s.putReader r x).gateCfg g = s.gateCfg g := rfl
@[simp] theorem State.inductCfg_putReader (s : State) (r : ReaderIx) (x : Reader) (j : InductIx) :
    (s.putReader r x).inductCfg j = s.inductCfg j := rfl
@[simp] theorem State.lanePresent_putReader (s : State) (r : ReaderIx) (x : Reader) (m : LaneIx) :
    (s.putReader r x).lanePresent m = s.lanePresent m := rfl
@[simp] theorem State.nextGate_putReader (s : State) (r : ReaderIx) (x : Reader) (g : GateIx) :
    (s.putReader r x).nextGate g = s.nextGate g := rfl
@[simp] theorem State.trackRuns_putReader (s : State) (r : ReaderIx) (x : Reader) :
    (s.putReader r x).trackRuns = s.trackRuns := rfl
@[simp] theorem State.queue_putReader (s : State) (r : ReaderIx) (x : Reader) (j : InductIx) :
    (s.putReader r x).queue j = s.queue j := rfl

/-! ### Reads that putQueue leaves alone -/

@[simp] theorem State.toteAt_putQueue (s : State) (i : InductIx) (q : List InductItem) (j : ToteSlot) :
    (s.putQueue i q).tote? j = s.tote? j := rfl
@[simp] theorem State.findTote_putQueue (s : State) (i : InductIx) (q : List InductItem) (n : Nat) :
    (s.putQueue i q).findTote n = s.findTote n := rfl
@[simp] theorem State.tagOf_putQueue (s : State) (i : InductIx) (q : List InductItem) (j : ToteSlot) :
    (s.putQueue i q).tagOf j = s.tagOf j := rfl
@[simp] theorem State.totesOf_putQueue (s : State) (i : InductIx) (q : List InductItem) (j : OrderSlot) :
    (s.putQueue i q).totesOf j = s.totesOf j := rfl
@[simp] theorem State.loopOccupancy_putQueue (s : State) (i : InductIx) (q : List InductItem) :
    (s.putQueue i q).loopOccupancy = s.loopOccupancy := rfl
@[simp] theorem State.beltCount_putQueue (s : State) (i : InductIx) (q : List InductItem) :
    (s.putQueue i q).beltCount = s.beltCount := rfl
@[simp] theorem State.beltRoom_putQueue (s : State) (i : InductIx) (q : List InductItem) :
    (s.putQueue i q).beltRoom = s.beltRoom := rfl
@[simp] theorem State.orderAt_putQueue (s : State) (i : InductIx) (q : List InductItem) (j : OrderSlot) :
    (s.putQueue i q).order? j = s.order? j := rfl
@[simp] theorem State.findOrder_putQueue (s : State) (i : InductIx) (q : List InductItem) (n : Nat) :
    (s.putQueue i q).findOrder n = s.findOrder n := rfl
@[simp] theorem State.ticketOf_putQueue (s : State) (i : InductIx) (q : List InductItem) (j : OrderSlot) :
    (s.putQueue i q).ticketOf j = s.ticketOf j := rfl
@[simp] theorem State.lane_putQueue (s : State) (i : InductIx) (q : List InductItem) (m : LaneIx) :
    (s.putQueue i q).lane m = s.lane m := rfl
@[simp] theorem State.laneOpen_putQueue (s : State) (i : InductIx) (q : List InductItem) (m : LaneIx) :
    (s.putQueue i q).laneOpen m = s.laneOpen m := rfl
@[simp] theorem State.laneCfg_putQueue (s : State) (i : InductIx) (q : List InductItem) (m : LaneIx) :
    (s.putQueue i q).laneCfg m = s.laneCfg m := rfl
@[simp] theorem State.gateCfg_putQueue (s : State) (i : InductIx) (q : List InductItem) (g : GateIx) :
    (s.putQueue i q).gateCfg g = s.gateCfg g := rfl
@[simp] theorem State.inductCfg_putQueue (s : State) (i : InductIx) (q : List InductItem) (j : InductIx) :
    (s.putQueue i q).inductCfg j = s.inductCfg j := rfl
@[simp] theorem State.lanePresent_putQueue (s : State) (i : InductIx) (q : List InductItem) (m : LaneIx) :
    (s.putQueue i q).lanePresent m = s.lanePresent m := rfl
@[simp] theorem State.nextGate_putQueue (s : State) (i : InductIx) (q : List InductItem) (g : GateIx) :
    (s.putQueue i q).nextGate g = s.nextGate g := rfl
@[simp] theorem State.reader_putQueue (s : State) (i : InductIx) (q : List InductItem) (p : ReaderIx) :
    (s.putQueue i q).reader p = s.reader p := rfl
@[simp] theorem State.trackRuns_putQueue (s : State) (i : InductIx) (q : List InductItem) :
    (s.putQueue i q).trackRuns = s.trackRuns := rfl

/-! ### Reads that popRequest leaves alone -/

@[simp] theorem State.toteAt_popRequest (s : State) (b : List Request) (j : ToteSlot) :
    (s.popRequest b).tote? j = s.tote? j := rfl
@[simp] theorem State.findTote_popRequest (s : State) (b : List Request) (n : Nat) :
    (s.popRequest b).findTote n = s.findTote n := rfl
@[simp] theorem State.tagOf_popRequest (s : State) (b : List Request) (j : ToteSlot) :
    (s.popRequest b).tagOf j = s.tagOf j := rfl
@[simp] theorem State.totesOf_popRequest (s : State) (b : List Request) (j : OrderSlot) :
    (s.popRequest b).totesOf j = s.totesOf j := rfl
@[simp] theorem State.loopOccupancy_popRequest (s : State) (b : List Request) :
    (s.popRequest b).loopOccupancy = s.loopOccupancy := rfl
@[simp] theorem State.beltCount_popRequest (s : State) (b : List Request) :
    (s.popRequest b).beltCount = s.beltCount := rfl
@[simp] theorem State.beltRoom_popRequest (s : State) (b : List Request) :
    (s.popRequest b).beltRoom = s.beltRoom := rfl
@[simp] theorem State.orderAt_popRequest (s : State) (b : List Request) (j : OrderSlot) :
    (s.popRequest b).order? j = s.order? j := rfl
@[simp] theorem State.findOrder_popRequest (s : State) (b : List Request) (n : Nat) :
    (s.popRequest b).findOrder n = s.findOrder n := rfl
@[simp] theorem State.ticketOf_popRequest (s : State) (b : List Request) (j : OrderSlot) :
    (s.popRequest b).ticketOf j = s.ticketOf j := rfl
@[simp] theorem State.lane_popRequest (s : State) (b : List Request) (m : LaneIx) :
    (s.popRequest b).lane m = s.lane m := rfl
@[simp] theorem State.laneOpen_popRequest (s : State) (b : List Request) (m : LaneIx) :
    (s.popRequest b).laneOpen m = s.laneOpen m := rfl
@[simp] theorem State.laneCfg_popRequest (s : State) (b : List Request) (m : LaneIx) :
    (s.popRequest b).laneCfg m = s.laneCfg m := rfl
@[simp] theorem State.gateCfg_popRequest (s : State) (b : List Request) (g : GateIx) :
    (s.popRequest b).gateCfg g = s.gateCfg g := rfl
@[simp] theorem State.inductCfg_popRequest (s : State) (b : List Request) (j : InductIx) :
    (s.popRequest b).inductCfg j = s.inductCfg j := rfl
@[simp] theorem State.lanePresent_popRequest (s : State) (b : List Request) (m : LaneIx) :
    (s.popRequest b).lanePresent m = s.lanePresent m := rfl
@[simp] theorem State.nextGate_popRequest (s : State) (b : List Request) (g : GateIx) :
    (s.popRequest b).nextGate g = s.nextGate g := rfl
@[simp] theorem State.reader_popRequest (s : State) (b : List Request) (p : ReaderIx) :
    (s.popRequest b).reader p = s.reader p := rfl
@[simp] theorem State.trackRuns_popRequest (s : State) (b : List Request) :
    (s.popRequest b).trackRuns = s.trackRuns := rfl
@[simp] theorem State.queue_popRequest (s : State) (b : List Request) (j : InductIx) :
    (s.popRequest b).queue j = s.queue j := rfl

/-! ### Reads that endReception leaves alone -/

@[simp] theorem State.toteAt_endReception (s : State) (j : ToteSlot) : (s.endReception).tote? j = s.tote? j := rfl
@[simp] theorem State.findTote_endReception (s : State) (n : Nat) : (s.endReception).findTote n = s.findTote n := rfl
@[simp] theorem State.tagOf_endReception (s : State) (j : ToteSlot) : (s.endReception).tagOf j = s.tagOf j := rfl
@[simp] theorem State.totesOf_endReception (s : State) (j : OrderSlot) :
    (s.endReception).totesOf j = s.totesOf j := rfl
@[simp] theorem State.loopOccupancy_endReception (s : State) : (s.endReception).loopOccupancy = s.loopOccupancy := rfl
@[simp] theorem State.beltCount_endReception (s : State) : (s.endReception).beltCount = s.beltCount := rfl
@[simp] theorem State.beltRoom_endReception (s : State) : (s.endReception).beltRoom = s.beltRoom := rfl
@[simp] theorem State.orderAt_endReception (s : State) (j : OrderSlot) : (s.endReception).order? j = s.order? j := rfl
@[simp] theorem State.findOrder_endReception (s : State) (n : Nat) :
    (s.endReception).findOrder n = s.findOrder n := rfl
@[simp] theorem State.ticketOf_endReception (s : State) (j : OrderSlot) :
    (s.endReception).ticketOf j = s.ticketOf j := rfl
@[simp] theorem State.lane_endReception (s : State) (m : LaneIx) : (s.endReception).lane m = s.lane m := rfl
@[simp] theorem State.laneOpen_endReception (s : State) (m : LaneIx) :
    (s.endReception).laneOpen m = s.laneOpen m := rfl
@[simp] theorem State.laneCfg_endReception (s : State) (m : LaneIx) : (s.endReception).laneCfg m = s.laneCfg m := rfl
@[simp] theorem State.gateCfg_endReception (s : State) (g : GateIx) : (s.endReception).gateCfg g = s.gateCfg g := rfl
@[simp] theorem State.inductCfg_endReception (s : State) (j : InductIx) :
    (s.endReception).inductCfg j = s.inductCfg j := rfl
@[simp] theorem State.lanePresent_endReception (s : State) (m : LaneIx) :
    (s.endReception).lanePresent m = s.lanePresent m := rfl
@[simp] theorem State.nextGate_endReception (s : State) (g : GateIx) :
    (s.endReception).nextGate g = s.nextGate g := rfl
@[simp] theorem State.reader_endReception (s : State) (p : ReaderIx) : (s.endReception).reader p = s.reader p := rfl
@[simp] theorem State.trackRuns_endReception (s : State) : (s.endReception).trackRuns = s.trackRuns := rfl
@[simp] theorem State.queue_endReception (s : State) (j : InductIx) : (s.endReception).queue j = s.queue j := rfl

/-! ### Reads that setRun leaves alone -/

@[simp] theorem State.toteAt_setRun (s : State) (r : RunState) (j : ToteSlot) :
    (s.setRun r).tote? j = s.tote? j := rfl
@[simp] theorem State.findTote_setRun (s : State) (r : RunState) (n : Nat) :
    (s.setRun r).findTote n = s.findTote n := rfl
@[simp] theorem State.tagOf_setRun (s : State) (r : RunState) (j : ToteSlot) : (s.setRun r).tagOf j = s.tagOf j := rfl
@[simp] theorem State.totesOf_setRun (s : State) (r : RunState) (j : OrderSlot) :
    (s.setRun r).totesOf j = s.totesOf j := rfl
@[simp] theorem State.loopOccupancy_setRun (s : State) (r : RunState) :
    (s.setRun r).loopOccupancy = s.loopOccupancy := rfl
@[simp] theorem State.beltCount_setRun (s : State) (r : RunState) : (s.setRun r).beltCount = s.beltCount := rfl
@[simp] theorem State.beltRoom_setRun (s : State) (r : RunState) : (s.setRun r).beltRoom = s.beltRoom := rfl
@[simp] theorem State.orderAt_setRun (s : State) (r : RunState) (j : OrderSlot) :
    (s.setRun r).order? j = s.order? j := rfl
@[simp] theorem State.findOrder_setRun (s : State) (r : RunState) (n : Nat) :
    (s.setRun r).findOrder n = s.findOrder n := rfl
@[simp] theorem State.ticketOf_setRun (s : State) (r : RunState) (j : OrderSlot) :
    (s.setRun r).ticketOf j = s.ticketOf j := rfl
@[simp] theorem State.lane_setRun (s : State) (r : RunState) (m : LaneIx) : (s.setRun r).lane m = s.lane m := rfl
@[simp] theorem State.laneOpen_setRun (s : State) (r : RunState) (m : LaneIx) :
    (s.setRun r).laneOpen m = s.laneOpen m := rfl
@[simp] theorem State.laneCfg_setRun (s : State) (r : RunState) (m : LaneIx) :
    (s.setRun r).laneCfg m = s.laneCfg m := rfl
@[simp] theorem State.gateCfg_setRun (s : State) (r : RunState) (g : GateIx) :
    (s.setRun r).gateCfg g = s.gateCfg g := rfl
@[simp] theorem State.inductCfg_setRun (s : State) (r : RunState) (j : InductIx) :
    (s.setRun r).inductCfg j = s.inductCfg j := rfl
@[simp] theorem State.lanePresent_setRun (s : State) (r : RunState) (m : LaneIx) :
    (s.setRun r).lanePresent m = s.lanePresent m := rfl
@[simp] theorem State.nextGate_setRun (s : State) (r : RunState) (g : GateIx) :
    (s.setRun r).nextGate g = s.nextGate g := rfl
@[simp] theorem State.reader_setRun (s : State) (r : RunState) (p : ReaderIx) :
    (s.setRun r).reader p = s.reader p := rfl
@[simp] theorem State.queue_setRun (s : State) (r : RunState) (j : InductIx) : (s.setRun r).queue j = s.queue j := rfl

/-! ### Reads that setHead leaves alone -/

@[simp] theorem State.toteAt_setHead (s : State) (h : BeltHead) (j : ToteSlot) :
    (s.setHead h).tote? j = s.tote? j := rfl
@[simp] theorem State.findTote_setHead (s : State) (h : BeltHead) (n : Nat) :
    (s.setHead h).findTote n = s.findTote n := rfl
@[simp] theorem State.tagOf_setHead (s : State) (h : BeltHead) (j : ToteSlot) :
    (s.setHead h).tagOf j = s.tagOf j := rfl
@[simp] theorem State.totesOf_setHead (s : State) (h : BeltHead) (j : OrderSlot) :
    (s.setHead h).totesOf j = s.totesOf j := rfl
@[simp] theorem State.loopOccupancy_setHead (s : State) (h : BeltHead) :
    (s.setHead h).loopOccupancy = s.loopOccupancy := rfl
@[simp] theorem State.beltCount_setHead (s : State) (h : BeltHead) : (s.setHead h).beltCount = s.beltCount := rfl
@[simp] theorem State.beltRoom_setHead (s : State) (h : BeltHead) : (s.setHead h).beltRoom = s.beltRoom := rfl
@[simp] theorem State.orderAt_setHead (s : State) (h : BeltHead) (j : OrderSlot) :
    (s.setHead h).order? j = s.order? j := rfl
@[simp] theorem State.findOrder_setHead (s : State) (h : BeltHead) (n : Nat) :
    (s.setHead h).findOrder n = s.findOrder n := rfl
@[simp] theorem State.ticketOf_setHead (s : State) (h : BeltHead) (j : OrderSlot) :
    (s.setHead h).ticketOf j = s.ticketOf j := rfl
@[simp] theorem State.lane_setHead (s : State) (h : BeltHead) (m : LaneIx) : (s.setHead h).lane m = s.lane m := rfl
@[simp] theorem State.laneOpen_setHead (s : State) (h : BeltHead) (m : LaneIx) :
    (s.setHead h).laneOpen m = s.laneOpen m := rfl
@[simp] theorem State.laneCfg_setHead (s : State) (h : BeltHead) (m : LaneIx) :
    (s.setHead h).laneCfg m = s.laneCfg m := rfl
@[simp] theorem State.gateCfg_setHead (s : State) (h : BeltHead) (g : GateIx) :
    (s.setHead h).gateCfg g = s.gateCfg g := rfl
@[simp] theorem State.inductCfg_setHead (s : State) (h : BeltHead) (j : InductIx) :
    (s.setHead h).inductCfg j = s.inductCfg j := rfl
@[simp] theorem State.lanePresent_setHead (s : State) (h : BeltHead) (m : LaneIx) :
    (s.setHead h).lanePresent m = s.lanePresent m := rfl
@[simp] theorem State.nextGate_setHead (s : State) (h : BeltHead) (g : GateIx) :
    (s.setHead h).nextGate g = s.nextGate g := rfl
@[simp] theorem State.reader_setHead (s : State) (h : BeltHead) (p : ReaderIx) :
    (s.setHead h).reader p = s.reader p := rfl
@[simp] theorem State.trackRuns_setHead (s : State) (h : BeltHead) : (s.setHead h).trackRuns = s.trackRuns := rfl

/-! ### Reads that drawChoice leaves alone -/

@[simp] theorem State.toteAt_drawChoice (s : State) (j : ToteSlot) : (s.drawChoice).tote? j = s.tote? j := rfl
@[simp] theorem State.findTote_drawChoice (s : State) (n : Nat) : (s.drawChoice).findTote n = s.findTote n := rfl
@[simp] theorem State.tagOf_drawChoice (s : State) (j : ToteSlot) : (s.drawChoice).tagOf j = s.tagOf j := rfl
@[simp] theorem State.totesOf_drawChoice (s : State) (j : OrderSlot) : (s.drawChoice).totesOf j = s.totesOf j := rfl
@[simp] theorem State.loopOccupancy_drawChoice (s : State) : (s.drawChoice).loopOccupancy = s.loopOccupancy := rfl
@[simp] theorem State.beltCount_drawChoice (s : State) : (s.drawChoice).beltCount = s.beltCount := rfl
@[simp] theorem State.beltRoom_drawChoice (s : State) : (s.drawChoice).beltRoom = s.beltRoom := rfl
@[simp] theorem State.orderAt_drawChoice (s : State) (j : OrderSlot) : (s.drawChoice).order? j = s.order? j := rfl
@[simp] theorem State.findOrder_drawChoice (s : State) (n : Nat) : (s.drawChoice).findOrder n = s.findOrder n := rfl
@[simp] theorem State.ticketOf_drawChoice (s : State) (j : OrderSlot) :
    (s.drawChoice).ticketOf j = s.ticketOf j := rfl
@[simp] theorem State.lane_drawChoice (s : State) (m : LaneIx) : (s.drawChoice).lane m = s.lane m := rfl
@[simp] theorem State.laneOpen_drawChoice (s : State) (m : LaneIx) : (s.drawChoice).laneOpen m = s.laneOpen m := rfl
@[simp] theorem State.laneCfg_drawChoice (s : State) (m : LaneIx) : (s.drawChoice).laneCfg m = s.laneCfg m := rfl
@[simp] theorem State.gateCfg_drawChoice (s : State) (g : GateIx) : (s.drawChoice).gateCfg g = s.gateCfg g := rfl
@[simp] theorem State.inductCfg_drawChoice (s : State) (j : InductIx) :
    (s.drawChoice).inductCfg j = s.inductCfg j := rfl
@[simp] theorem State.lanePresent_drawChoice (s : State) (m : LaneIx) :
    (s.drawChoice).lanePresent m = s.lanePresent m := rfl
@[simp] theorem State.nextGate_drawChoice (s : State) (g : GateIx) : (s.drawChoice).nextGate g = s.nextGate g := rfl
@[simp] theorem State.reader_drawChoice (s : State) (p : ReaderIx) : (s.drawChoice).reader p = s.reader p := rfl
@[simp] theorem State.trackRuns_drawChoice (s : State) : (s.drawChoice).trackRuns = s.trackRuns := rfl
@[simp] theorem State.queue_drawChoice (s : State) (j : InductIx) : (s.drawChoice).queue j = s.queue j := rfl

/-! ## modTote -/

@[simp] theorem State.modTote_pending (s : State) (k : ToteSlot) (f : Tote → Tote) :
    (s.modTote k f).pending = s.pending := by
  unfold State.modTote; split <;> rfl
@[simp] theorem State.modTote_now (s : State) (k : ToteSlot) (f : Tote → Tote) : (s.modTote k f).now = s.now := by
  unfold State.modTote; split <;> rfl
@[simp] theorem State.modTote_choices (s : State) (k : ToteSlot) (f : Tote → Tote) :
    (s.modTote k f).choices = s.choices := by
  unfold State.modTote; split <;> rfl
@[simp] theorem State.modTote_cfg (s : State) (k : ToteSlot) (f : Tote → Tote) : (s.modTote k f).cfg = s.cfg := by
  unfold State.modTote; split <;> rfl
@[simp] theorem State.modTote_ring (s : State) (k : ToteSlot) (f : Tote → Tote) : (s.modTote k f).ring = s.ring := by
  unfold State.modTote; split <;> rfl
@[simp] theorem State.modTote_req (s : State) (k : ToteSlot) (f : Tote → Tote) : (s.modTote k f).req = s.req := by
  unfold State.modTote; split <;> rfl
@[simp] theorem State.modTote_orders (s : State) (k : ToteSlot) (f : Tote → Tote) :
    (s.modTote k f).orders = s.orders := by
  unfold State.modTote; split <;> rfl
@[simp] theorem State.modTote_readers (s : State) (k : ToteSlot) (f : Tote → Tote) :
    (s.modTote k f).readers = s.readers := by
  unfold State.modTote; split <;> rfl
@[simp] theorem State.modTote_lanes (s : State) (k : ToteSlot) (f : Tote → Tote) :
    (s.modTote k f).lanes = s.lanes := by
  unfold State.modTote; split <;> rfl
@[simp] theorem State.modTote_willcall (s : State) (k : ToteSlot) (f : Tote → Tote) :
    (s.modTote k f).willcall = s.willcall := by
  unfold State.modTote; split <;> rfl
@[simp] theorem State.modTote_merge (s : State) (k : ToteSlot) (f : Tote → Tote) :
    (s.modTote k f).merge = s.merge := by
  unfold State.modTote; split <;> rfl
@[simp] theorem State.modTote_throttle (s : State) (k : ToteSlot) (f : Tote → Tote) :
    (s.modTote k f).throttle = s.throttle := by
  unfold State.modTote; split <;> rfl
@[simp] theorem State.modTote_drive (s : State) (k : ToteSlot) (f : Tote → Tote) :
    (s.modTote k f).drive = s.drive := by
  unfold State.modTote; split <;> rfl
@[simp] theorem State.modTote_run (s : State) (k : ToteSlot) (f : Tote → Tote) : (s.modTote k f).run = s.run := by
  unfold State.modTote; split <;> rfl
@[simp] theorem State.orderAt_modTote (s : State) (k : ToteSlot) (f : Tote → Tote) (j : OrderSlot) :
    (s.modTote k f).order? j = s.order? j := by
  unfold State.modTote; split <;> rfl
@[simp] theorem State.findOrder_modTote (s : State) (k : ToteSlot) (f : Tote → Tote) (n : Nat) :
    (s.modTote k f).findOrder n = s.findOrder n := by
  unfold State.modTote; split <;> rfl
@[simp] theorem State.ticketOf_modTote (s : State) (k : ToteSlot) (f : Tote → Tote) (j : OrderSlot) :
    (s.modTote k f).ticketOf j = s.ticketOf j := by
  unfold State.modTote; split <;> rfl
@[simp] theorem State.lane_modTote (s : State) (k : ToteSlot) (f : Tote → Tote) (m : LaneIx) :
    (s.modTote k f).lane m = s.lane m := by
  unfold State.modTote; split <;> rfl
@[simp] theorem State.laneOpen_modTote (s : State) (k : ToteSlot) (f : Tote → Tote) (m : LaneIx) :
    (s.modTote k f).laneOpen m = s.laneOpen m := by
  unfold State.modTote; split <;> rfl
@[simp] theorem State.laneCfg_modTote (s : State) (k : ToteSlot) (f : Tote → Tote) (m : LaneIx) :
    (s.modTote k f).laneCfg m = s.laneCfg m := by
  unfold State.modTote; split <;> rfl
@[simp] theorem State.gateCfg_modTote (s : State) (k : ToteSlot) (f : Tote → Tote) (g : GateIx) :
    (s.modTote k f).gateCfg g = s.gateCfg g := by
  unfold State.modTote; split <;> rfl
@[simp] theorem State.inductCfg_modTote (s : State) (k : ToteSlot) (f : Tote → Tote) (j : InductIx) :
    (s.modTote k f).inductCfg j = s.inductCfg j := by
  unfold State.modTote; split <;> rfl
@[simp] theorem State.lanePresent_modTote (s : State) (k : ToteSlot) (f : Tote → Tote) (m : LaneIx) :
    (s.modTote k f).lanePresent m = s.lanePresent m := by
  unfold State.modTote; split <;> rfl
@[simp] theorem State.nextGate_modTote (s : State) (k : ToteSlot) (f : Tote → Tote) (g : GateIx) :
    (s.modTote k f).nextGate g = s.nextGate g := by
  unfold State.modTote; split <;> rfl
@[simp] theorem State.reader_modTote (s : State) (k : ToteSlot) (f : Tote → Tote) (p : ReaderIx) :
    (s.modTote k f).reader p = s.reader p := by
  unfold State.modTote; split <;> rfl
@[simp] theorem State.trackRuns_modTote (s : State) (k : ToteSlot) (f : Tote → Tote) :
    (s.modTote k f).trackRuns = s.trackRuns := by
  unfold State.modTote; split <;> rfl
@[simp] theorem State.queue_modTote (s : State) (k : ToteSlot) (f : Tote → Tote) (j : InductIx) :
    (s.modTote k f).queue j = s.queue j := by
  unfold State.modTote; split <;> rfl

/-! ## modOrder -/

@[simp] theorem State.modOrder_pending (s : State) (k : OrderSlot) (f : Order → Order) :
    (s.modOrder k f).pending = s.pending := by
  unfold State.modOrder; split <;> rfl
@[simp] theorem State.modOrder_now (s : State) (k : OrderSlot) (f : Order → Order) :
    (s.modOrder k f).now = s.now := by
  unfold State.modOrder; split <;> rfl
@[simp] theorem State.modOrder_choices (s : State) (k : OrderSlot) (f : Order → Order) :
    (s.modOrder k f).choices = s.choices := by
  unfold State.modOrder; split <;> rfl
@[simp] theorem State.modOrder_cfg (s : State) (k : OrderSlot) (f : Order → Order) :
    (s.modOrder k f).cfg = s.cfg := by
  unfold State.modOrder; split <;> rfl
@[simp] theorem State.modOrder_ring (s : State) (k : OrderSlot) (f : Order → Order) :
    (s.modOrder k f).ring = s.ring := by
  unfold State.modOrder; split <;> rfl
@[simp] theorem State.modOrder_req (s : State) (k : OrderSlot) (f : Order → Order) :
    (s.modOrder k f).req = s.req := by
  unfold State.modOrder; split <;> rfl
@[simp] theorem State.modOrder_totes (s : State) (k : OrderSlot) (f : Order → Order) :
    (s.modOrder k f).totes = s.totes := by
  unfold State.modOrder; split <;> rfl
@[simp] theorem State.modOrder_readers (s : State) (k : OrderSlot) (f : Order → Order) :
    (s.modOrder k f).readers = s.readers := by
  unfold State.modOrder; split <;> rfl
@[simp] theorem State.modOrder_lanes (s : State) (k : OrderSlot) (f : Order → Order) :
    (s.modOrder k f).lanes = s.lanes := by
  unfold State.modOrder; split <;> rfl
@[simp] theorem State.modOrder_willcall (s : State) (k : OrderSlot) (f : Order → Order) :
    (s.modOrder k f).willcall = s.willcall := by
  unfold State.modOrder; split <;> rfl
@[simp] theorem State.modOrder_merge (s : State) (k : OrderSlot) (f : Order → Order) :
    (s.modOrder k f).merge = s.merge := by
  unfold State.modOrder; split <;> rfl
@[simp] theorem State.modOrder_throttle (s : State) (k : OrderSlot) (f : Order → Order) :
    (s.modOrder k f).throttle = s.throttle := by
  unfold State.modOrder; split <;> rfl
@[simp] theorem State.modOrder_drive (s : State) (k : OrderSlot) (f : Order → Order) :
    (s.modOrder k f).drive = s.drive := by
  unfold State.modOrder; split <;> rfl
@[simp] theorem State.modOrder_run (s : State) (k : OrderSlot) (f : Order → Order) :
    (s.modOrder k f).run = s.run := by
  unfold State.modOrder; split <;> rfl
@[simp] theorem State.toteAt_modOrder (s : State) (k : OrderSlot) (f : Order → Order) (j : ToteSlot) :
    (s.modOrder k f).tote? j = s.tote? j := by
  unfold State.modOrder; split <;> rfl
@[simp] theorem State.findTote_modOrder (s : State) (k : OrderSlot) (f : Order → Order) (n : Nat) :
    (s.modOrder k f).findTote n = s.findTote n := by
  unfold State.modOrder; split <;> rfl
@[simp] theorem State.tagOf_modOrder (s : State) (k : OrderSlot) (f : Order → Order) (j : ToteSlot) :
    (s.modOrder k f).tagOf j = s.tagOf j := by
  unfold State.modOrder; split <;> rfl
@[simp] theorem State.totesOf_modOrder (s : State) (k : OrderSlot) (f : Order → Order) (j : OrderSlot) :
    (s.modOrder k f).totesOf j = s.totesOf j := by
  unfold State.modOrder; split <;> rfl
@[simp] theorem State.loopOccupancy_modOrder (s : State) (k : OrderSlot) (f : Order → Order) :
    (s.modOrder k f).loopOccupancy = s.loopOccupancy := by
  unfold State.modOrder; split <;> rfl
@[simp] theorem State.beltCount_modOrder (s : State) (k : OrderSlot) (f : Order → Order) :
    (s.modOrder k f).beltCount = s.beltCount := by
  unfold State.modOrder; split <;> rfl
@[simp] theorem State.beltRoom_modOrder (s : State) (k : OrderSlot) (f : Order → Order) :
    (s.modOrder k f).beltRoom = s.beltRoom := by
  unfold State.modOrder; split <;> rfl
@[simp] theorem State.lane_modOrder (s : State) (k : OrderSlot) (f : Order → Order) (m : LaneIx) :
    (s.modOrder k f).lane m = s.lane m := by
  unfold State.modOrder; split <;> rfl
@[simp] theorem State.laneOpen_modOrder (s : State) (k : OrderSlot) (f : Order → Order) (m : LaneIx) :
    (s.modOrder k f).laneOpen m = s.laneOpen m := by
  unfold State.modOrder; split <;> rfl
@[simp] theorem State.laneCfg_modOrder (s : State) (k : OrderSlot) (f : Order → Order) (m : LaneIx) :
    (s.modOrder k f).laneCfg m = s.laneCfg m := by
  unfold State.modOrder; split <;> rfl
@[simp] theorem State.gateCfg_modOrder (s : State) (k : OrderSlot) (f : Order → Order) (g : GateIx) :
    (s.modOrder k f).gateCfg g = s.gateCfg g := by
  unfold State.modOrder; split <;> rfl
@[simp] theorem State.inductCfg_modOrder (s : State) (k : OrderSlot) (f : Order → Order) (j : InductIx) :
    (s.modOrder k f).inductCfg j = s.inductCfg j := by
  unfold State.modOrder; split <;> rfl
@[simp] theorem State.lanePresent_modOrder (s : State) (k : OrderSlot) (f : Order → Order) (m : LaneIx) :
    (s.modOrder k f).lanePresent m = s.lanePresent m := by
  unfold State.modOrder; split <;> rfl
@[simp] theorem State.nextGate_modOrder (s : State) (k : OrderSlot) (f : Order → Order) (g : GateIx) :
    (s.modOrder k f).nextGate g = s.nextGate g := by
  unfold State.modOrder; split <;> rfl
@[simp] theorem State.reader_modOrder (s : State) (k : OrderSlot) (f : Order → Order) (p : ReaderIx) :
    (s.modOrder k f).reader p = s.reader p := by
  unfold State.modOrder; split <;> rfl
@[simp] theorem State.trackRuns_modOrder (s : State) (k : OrderSlot) (f : Order → Order) :
    (s.modOrder k f).trackRuns = s.trackRuns := by
  unfold State.modOrder; split <;> rfl
@[simp] theorem State.queue_modOrder (s : State) (k : OrderSlot) (f : Order → Order) (j : InductIx) :
    (s.modOrder k f).queue j = s.queue j := by
  unfold State.modOrder; split <;> rfl

/-! ## raiseIf -/

@[simp] theorem State.raiseIf_pending (s : State) (b : Bool) (f : Flag) : (s.raiseIf b f).pending = s.pending := by
  cases b <;> rfl
@[simp] theorem State.raiseIf_now (s : State) (b : Bool) (f : Flag) : (s.raiseIf b f).now = s.now := by
  cases b <;> rfl
@[simp] theorem State.raiseIf_choices (s : State) (b : Bool) (f : Flag) : (s.raiseIf b f).choices = s.choices := by
  cases b <;> rfl
@[simp] theorem State.raiseIf_cfg (s : State) (b : Bool) (f : Flag) : (s.raiseIf b f).cfg = s.cfg := by
  cases b <;> rfl
@[simp] theorem State.raiseIf_ring (s : State) (b : Bool) (f : Flag) : (s.raiseIf b f).ring = s.ring := by
  cases b <;> rfl
@[simp] theorem State.raiseIf_orders (s : State) (b : Bool) (f : Flag) : (s.raiseIf b f).orders = s.orders := by
  cases b <;> rfl
@[simp] theorem State.raiseIf_totes (s : State) (b : Bool) (f : Flag) : (s.raiseIf b f).totes = s.totes := by
  cases b <;> rfl
@[simp] theorem State.raiseIf_readers (s : State) (b : Bool) (f : Flag) : (s.raiseIf b f).readers = s.readers := by
  cases b <;> rfl
@[simp] theorem State.raiseIf_lanes (s : State) (b : Bool) (f : Flag) : (s.raiseIf b f).lanes = s.lanes := by
  cases b <;> rfl
@[simp] theorem State.raiseIf_willcall (s : State) (b : Bool) (f : Flag) : (s.raiseIf b f).willcall = s.willcall := by
  cases b <;> rfl
@[simp] theorem State.raiseIf_merge (s : State) (b : Bool) (f : Flag) : (s.raiseIf b f).merge = s.merge := by
  cases b <;> rfl
@[simp] theorem State.raiseIf_throttle (s : State) (b : Bool) (f : Flag) : (s.raiseIf b f).throttle = s.throttle := by
  cases b <;> rfl
@[simp] theorem State.raiseIf_drive (s : State) (b : Bool) (f : Flag) : (s.raiseIf b f).drive = s.drive := by
  cases b <;> rfl
@[simp] theorem State.raiseIf_run (s : State) (b : Bool) (f : Flag) : (s.raiseIf b f).run = s.run := by
  cases b <;> rfl
@[simp] theorem State.toteAt_raiseIf (s : State) (b : Bool) (f : Flag) (j : ToteSlot) :
    (s.raiseIf b f).tote? j = s.tote? j := by
  cases b <;> rfl
@[simp] theorem State.findTote_raiseIf (s : State) (b : Bool) (f : Flag) (n : Nat) :
    (s.raiseIf b f).findTote n = s.findTote n := by
  cases b <;> rfl
@[simp] theorem State.tagOf_raiseIf (s : State) (b : Bool) (f : Flag) (j : ToteSlot) :
    (s.raiseIf b f).tagOf j = s.tagOf j := by
  cases b <;> rfl
@[simp] theorem State.totesOf_raiseIf (s : State) (b : Bool) (f : Flag) (j : OrderSlot) :
    (s.raiseIf b f).totesOf j = s.totesOf j := by
  cases b <;> rfl
@[simp] theorem State.loopOccupancy_raiseIf (s : State) (b : Bool) (f : Flag) :
    (s.raiseIf b f).loopOccupancy = s.loopOccupancy := by
  cases b <;> rfl
@[simp] theorem State.beltCount_raiseIf (s : State) (b : Bool) (f : Flag) :
    (s.raiseIf b f).beltCount = s.beltCount := by
  cases b <;> rfl
@[simp] theorem State.beltRoom_raiseIf (s : State) (b : Bool) (f : Flag) : (s.raiseIf b f).beltRoom = s.beltRoom := by
  cases b <;> rfl
@[simp] theorem State.orderAt_raiseIf (s : State) (b : Bool) (f : Flag) (j : OrderSlot) :
    (s.raiseIf b f).order? j = s.order? j := by
  cases b <;> rfl
@[simp] theorem State.findOrder_raiseIf (s : State) (b : Bool) (f : Flag) (n : Nat) :
    (s.raiseIf b f).findOrder n = s.findOrder n := by
  cases b <;> rfl
@[simp] theorem State.ticketOf_raiseIf (s : State) (b : Bool) (f : Flag) (j : OrderSlot) :
    (s.raiseIf b f).ticketOf j = s.ticketOf j := by
  cases b <;> rfl
@[simp] theorem State.lane_raiseIf (s : State) (b : Bool) (f : Flag) (m : LaneIx) :
    (s.raiseIf b f).lane m = s.lane m := by
  cases b <;> rfl
@[simp] theorem State.laneOpen_raiseIf (s : State) (b : Bool) (f : Flag) (m : LaneIx) :
    (s.raiseIf b f).laneOpen m = s.laneOpen m := by
  cases b <;> rfl
@[simp] theorem State.laneCfg_raiseIf (s : State) (b : Bool) (f : Flag) (m : LaneIx) :
    (s.raiseIf b f).laneCfg m = s.laneCfg m := by
  cases b <;> rfl
@[simp] theorem State.gateCfg_raiseIf (s : State) (b : Bool) (f : Flag) (g : GateIx) :
    (s.raiseIf b f).gateCfg g = s.gateCfg g := by
  cases b <;> rfl
@[simp] theorem State.inductCfg_raiseIf (s : State) (b : Bool) (f : Flag) (j : InductIx) :
    (s.raiseIf b f).inductCfg j = s.inductCfg j := by
  cases b <;> rfl
@[simp] theorem State.lanePresent_raiseIf (s : State) (b : Bool) (f : Flag) (m : LaneIx) :
    (s.raiseIf b f).lanePresent m = s.lanePresent m := by
  cases b <;> rfl
@[simp] theorem State.nextGate_raiseIf (s : State) (b : Bool) (f : Flag) (g : GateIx) :
    (s.raiseIf b f).nextGate g = s.nextGate g := by
  cases b <;> rfl
@[simp] theorem State.reader_raiseIf (s : State) (b : Bool) (f : Flag) (p : ReaderIx) :
    (s.raiseIf b f).reader p = s.reader p := by
  cases b <;> rfl
@[simp] theorem State.trackRuns_raiseIf (s : State) (b : Bool) (f : Flag) :
    (s.raiseIf b f).trackRuns = s.trackRuns := by
  cases b <;> rfl
@[simp] theorem State.queue_raiseIf (s : State) (b : Bool) (f : Flag) (j : InductIx) :
    (s.raiseIf b f).queue j = s.queue j := by
  cases b <;> rfl

end Sys2Proof.Machine
end

