-- ==== Sys2Proof/Laws/Tables.lean ====
section
/-! SUPPORT. Rows of fixed tables and slot tables: what reading gives after writing, and the one form that
every write keeps. -/

namespace Sys2Proof.Machine

/-! ## Rows -/

@[simp] theorem row_setRow_same {α : Type} {n : Nat} (v : Vector α n) (i : Fin n) (x : α) :
    row (setRow v i x) i = x := by
  simp [row, setRow]

theorem row_setRow_ne {α : Type} {n : Nat} (v : Vector α n) (i j : Fin n) (x : α) (h : i ≠ j) :
    row (setRow v i x) j = row v j := by
  have : i.val ≠ j.val := fun e => h (Fin.ext e)
  simp [row, setRow, this]

theorem row_setRow {α : Type} {n : Nat} (v : Vector α n) (i j : Fin n) (x : α) :
    row (setRow v i x) j = if i = j then x else row v j := by
  by_cases h : i = j
  · subst h; simp
  · simp [h, row_setRow_ne]

@[simp] theorem setRow_row {α : Type} {n : Nat} (v : Vector α n) (i : Fin n) : setRow v i (row v i) = v := by
  simp [row, setRow]

@[simp] theorem setRow_setRow {α : Type} {n : Nat} (v : Vector α n) (i : Fin n) (x y : α) :
    setRow (setRow v i x) i y = setRow v i y := by
  simp [setRow]

theorem row_ext {α : Type} {n : Nat} {v w : Vector α n} (h : ∀ i : Fin n, row v i = row w i) : v = w := by
  apply Vector.ext
  intro i hi
  exact h ⟨i, hi⟩

@[simp] theorem row_map {α β : Type} {n : Nat} (v : Vector α n) (f : α → β) (i : Fin n) :
    row (v.map f) i = f (row v i) := by
  simp [row]

@[simp] theorem row_replicate {α : Type} {n : Nat} (x : α) (i : Fin n) : row (Vector.replicate n x) i = x := by
  simp [row]

theorem State.lane_putLane (s : State) (l m : LaneIx) (x : Lane) :
    (s.putLane l x).lane m = if l = m then x else s.lane m := row_setRow s.lanes l m x

@[simp] theorem State.lane_putLane_same (s : State) (l : LaneIx) (x : Lane) : (s.putLane l x).lane l = x := by
  simp [State.lane_putLane]

theorem State.reader_putReader (s : State) (r q : ReaderIx) (x : Reader) :
    (s.putReader r x).reader q = if r = q then x else s.reader q := row_setRow s.readers r q x

@[simp] theorem State.reader_putReader_same (s : State) (r : ReaderIx) (x : Reader) :
    (s.putReader r x).reader r = x := by
  simp [State.reader_putReader]

@[simp] theorem State.putLane_putLane (s : State) (l : LaneIx) (x y : Lane) :
    (s.putLane l x).putLane l y = s.putLane l y := by
  simp [State.putLane]

@[simp] theorem State.putReader_putReader (s : State) (r : ReaderIx) (x y : Reader) :
    (s.putReader r x).putReader r y = s.putReader r y := by
  simp [State.putReader]

/-- A change of one lane is a put of the changed lane. -/
theorem State.modLane_eq (s : State) (l : LaneIx) (f : Lane → Lane) : s.modLane l f = s.putLane l (f (s.lane l)) :=
  rfl

theorem State.lane_modLane (s : State) (l m : LaneIx) (f : Lane → Lane) :
    (s.modLane l f).lane m = if l = m then f (s.lane l) else s.lane m := State.lane_putLane s l m (f (s.lane l))

@[simp] theorem State.lane_modLane_same (s : State) (l : LaneIx) (f : Lane → Lane) :
    (s.modLane l f).lane l = f (s.lane l) := by
  simp [State.lane_modLane]

theorem State.queue_putQueue (s : State) (i j : InductIx) (q : List InductItem) :
    (s.putQueue i q).queue j = if i = j then q else s.queue j := row_setRow s.merge.queues i j q

/-! ## Slots -/

@[simp] theorem slotGet_slotPut_same {α : Type} (k : Nat) (x : α) (t : List (Nat × α)) :
    slotGet k (slotPut k x t) = some x := by
  induction t with
  | nil => simp [slotPut, slotGet]
  | cons p r ih =>
    obtain ⟨j, y⟩ := p
    unfold slotPut
    split_ifs with h₁ h₂
    · simp [slotGet]
    · simp [slotGet]
    · simp [slotGet, Ne.symm h₂, ih]

theorem slotGet_slotPut_ne {α : Type} (k j : Nat) (x : α) (t : List (Nat × α)) (h : k ≠ j) :
    slotGet j (slotPut k x t) = slotGet j t := by
  induction t with
  | nil => simp [slotPut, slotGet, h]
  | cons p r ih =>
    obtain ⟨i, y⟩ := p
    unfold slotPut
    split_ifs with h₁ h₂
    · simp [slotGet, h]
    · subst h₂; simp [slotGet, h]
    · simp only [slotGet, ih]

@[simp] theorem slotPut_slotPut {α : Type} (k : Nat) (x y : α) (t : List (Nat × α)) :
    slotPut k y (slotPut k x t) = slotPut k y t := by
  induction t with
  | nil => simp [slotPut]
  | cons p r ih =>
    obtain ⟨j, z⟩ := p
    by_cases h₁ : k < j
    · simp [slotPut, h₁]
    · by_cases h₂ : k = j
      · simp [slotPut, h₂]
      · simp [slotPut, h₁, h₂, ih]

theorem slotGet_mem {α : Type} {k : Nat} {x : α} {t : List (Nat × α)} (h : slotGet k t = some x) : (k, x) ∈ t := by
  induction t with
  | nil => simp [slotGet] at h
  | cons p r ih =>
    obtain ⟨j, y⟩ := p
    unfold slotGet at h
    split_ifs at h with e
    · simp_all
    · exact List.mem_cons_of_mem _ (ih h)

/-- In the one form, a record that stands in the table is the one its slot gives. -/
theorem slotGet_of_mem {α : Type} {n k : Nat} {x : α} {t : List (Nat × α)} (w : Slots.wf n t) (h : (k, x) ∈ t) :
    slotGet k t = some x := by
  obtain ⟨w, -⟩ := w
  induction t with
  | nil => simp at h
  | cons p r ih =>
    obtain ⟨j, y⟩ := p
    rw [List.map_cons, List.pairwise_cons] at w
    rcases List.mem_cons.1 h with e | e
    · cases e; simp [slotGet]
    · have lt : j < k := w.1 k (List.mem_map_of_mem (f := (·.1)) e)
      simp [slotGet, Nat.ne_of_lt lt, ih e w.2]

theorem mem_slotPut {α : Type} {k : Nat} {x : α} {t : List (Nat × α)} {p : Nat × α} (h : p ∈ slotPut k x t) :
    p = (k, x) ∨ p ∈ t := by
  induction t with
  | nil => simpa [slotPut] using h
  | cons q r ih =>
    obtain ⟨j, y⟩ := q
    unfold slotPut at h
    split_ifs at h with h₁ h₂
    · rcases List.mem_cons.1 h with e | e
      · exact .inl e
      · exact .inr e
    · rcases List.mem_cons.1 h with e | e
      · exact .inl e
      · exact .inr (List.mem_cons_of_mem _ e)
    · rcases List.mem_cons.1 h with e | e
      · exact .inr (e ▸ List.mem_cons_self)
      · exact (ih e).imp_right (List.mem_cons_of_mem _)

/-- In the one form, a put in a held slot replaces its record in place. -/
theorem slotPut_of_mem {α : Type} {n k : Nat} {x : α} {t : List (Nat × α)} (w : Slots.wf n t) (h : (k, x) ∈ t) :
    ∃ u v, t = u ++ (k, x) :: v ∧ ∀ y, slotPut k y t = u ++ (k, y) :: v := by
  obtain ⟨w, -⟩ := w
  induction t with
  | nil => simp at h
  | cons p r ih =>
    obtain ⟨j, z⟩ := p
    rw [List.map_cons, List.pairwise_cons] at w
    rcases List.mem_cons.1 h with e | e
    · cases e
      exact ⟨[], r, rfl, fun y => by simp [slotPut]⟩
    · have lt : j < k := w.1 k (List.mem_map_of_mem (f := (·.1)) e)
      obtain ⟨u, v, f, g⟩ := ih e w.2
      refine ⟨(j, z) :: u, v, by rw [f]; rfl, fun y => ?_⟩
      unfold slotPut
      rw [if_neg (by omega), if_neg (by omega), g y]; rfl

/-- In the one form, what stands in the table after a put is the record put, or stands in another slot. -/
theorem mem_slotPut_of_mem {α : Type} {n k : Nat} {x y : α} {t : List (Nat × α)} {p : Nat × α} (w : Slots.wf n t)
    (h : (k, x) ∈ t) (m : p ∈ slotPut k y t) : p = (k, y) ∨ (p ∈ t ∧ p.1 ≠ k) := by
  obtain ⟨u, v, f, g⟩ := slotPut_of_mem w h
  have nd := w.1.imp (fun {a b} (h : a < b) => Nat.ne_of_lt h)
  rw [f, List.map_append, List.map_cons, List.pairwise_append, List.pairwise_cons] at nd
  rw [g, List.mem_append, List.mem_cons] at m
  rw [f]
  rcases m with m | m | m
  · exact .inr ⟨List.mem_append_left _ m, nd.2.2 _ (List.mem_map_of_mem m) _ List.mem_cons_self⟩
  · exact .inl m
  · exact .inr ⟨List.mem_append_right _ (List.mem_cons_of_mem _ m), Ne.symm (nd.2.1.1 _ (List.mem_map_of_mem m))⟩

/-- A put in a free slot adds its record. -/
theorem slotPut_of_free {α : Type} {k : Nat} {t : List (Nat × α)} (h : slotGet k t = none) :
    ∃ u v, t = u ++ v ∧ ∀ y, slotPut k y t = u ++ (k, y) :: v := by
  induction t with
  | nil => exact ⟨[], [], rfl, fun _ => rfl⟩
  | cons p r ih =>
    obtain ⟨j, z⟩ := p
    unfold slotGet at h
    split_ifs at h with e
    by_cases lt : k < j
    · exact ⟨[], (j, z) :: r, rfl, fun y => by simp [slotPut, lt]⟩
    · obtain ⟨u, v, f, g⟩ := ih h
      refine ⟨(j, z) :: u, v, by rw [f]; rfl, fun y => ?_⟩
      unfold slotPut
      rw [if_neg lt, if_neg (Ne.symm e), g y]; rfl

/-- In the one form, a freed slot loses its record alone. -/
theorem slotFree_of_mem {α : Type} {n k : Nat} {x : α} {t : List (Nat × α)} (w : Slots.wf n t) (h : (k, x) ∈ t) :
    ∃ u v, t = u ++ (k, x) :: v ∧ slotFree k t = u ++ v := by
  obtain ⟨u, v, f, -⟩ := slotPut_of_mem w h
  refine ⟨u, v, f, ?_⟩
  have nd := w.1.imp (fun {a b} (h : a < b) => Nat.ne_of_lt h)
  rw [f, List.map_append, List.map_cons, List.pairwise_append, List.pairwise_cons] at nd
  have hu : ∀ p ∈ u, p.1 ≠ k := fun p m => nd.2.2 _ (List.mem_map_of_mem m) _ List.mem_cons_self
  have hv : ∀ p ∈ v, p.1 ≠ k := fun p m => Ne.symm (nd.2.1.1 _ (List.mem_map_of_mem m))
  unfold slotFree
  rw [f, List.filter_append, List.filter_cons]
  simp only [bne_self_eq_false, Bool.false_eq_true, if_false]
  rw [List.filter_eq_self.2 (fun p m => by simpa using hu p m), List.filter_eq_self.2 (fun p m => by simpa using hv p m)]

/-- A put keeps the one form. -/
theorem Slots.wf_slotPut {α : Type} {n k : Nat} {x : α} {t : List (Nat × α)} (w : Slots.wf n t) (h : k < n) :
    Slots.wf n (slotPut k x t) := by
  refine ⟨?_, fun p hp => ?_⟩
  · obtain ⟨w, -⟩ := w
    induction t with
    | nil => simp [slotPut]
    | cons q r ih =>
      obtain ⟨j, y⟩ := q
      rw [List.map_cons, List.pairwise_cons] at w
      unfold slotPut
      split_ifs with h₁ h₂
      · rw [List.map_cons, List.pairwise_cons, List.map_cons, List.pairwise_cons]
        refine ⟨fun a ha => ?_, w⟩
        rcases List.mem_cons.1 ha with e | e
        · exact e ▸ h₁
        · exact lt_trans h₁ (w.1 a e)
      · subst h₂
        rw [List.map_cons, List.pairwise_cons]
        exact w
      · rw [List.map_cons, List.pairwise_cons]
        refine ⟨fun a ha => ?_, ih w.2⟩
        obtain ⟨p, hp, rfl⟩ := List.mem_map.1 ha
        rcases mem_slotPut hp with e | e
        · subst e; exact lt_of_le_of_ne (Nat.le_of_not_lt h₁) (Ne.symm h₂)
        · exact w.1 _ (List.mem_map_of_mem (f := (·.1)) e)
  · rcases mem_slotPut hp with e | e
    · exact e ▸ h
    · exact w.2 p e

/-- A freed slot leaves the one form. -/
theorem Slots.wf_slotFree {α : Type} {n k : Nat} {t : List (Nat × α)} (w : Slots.wf n t) :
    Slots.wf n (slotFree k t) :=
  ⟨w.1.sublist (List.filter_sublist.map _), fun p hp => w.2 p (List.mem_of_mem_filter hp)⟩

/-- Changing records in place keeps the one form. -/
theorem Slots.wf_map {α : Type} {n : Nat} {f : α → α} {t : List (Nat × α)} (w : Slots.wf n t) :
    Slots.wf n (t.map (fun p => (p.1, f p.2))) := by
  refine ⟨?_, fun p hp => ?_⟩
  · have : (t.map (fun p => (p.1, f p.2))).map (·.1) = t.map (·.1) := by simp [Function.comp_def]
    rw [this]; exact w.1
  · obtain ⟨q, hq, rfl⟩ := List.mem_map.1 hp
    exact w.2 q hq

theorem lowestFreeFrom_spec {α : Type} (t : List (Nat × α)) (n : Nat) (w : (t.map (·.1)).Pairwise (· < ·))
    (b : ∀ p ∈ t, n ≤ p.1) :
    n ≤ lowestFreeFrom n t ∧ lowestFreeFrom n t ≤ n + t.length ∧ ∀ p ∈ t, p.1 ≠ lowestFreeFrom n t := by
  induction t generalizing n with
  | nil => simp [lowestFreeFrom]
  | cons q r ih =>
    obtain ⟨j, y⟩ := q
    rw [List.map_cons, List.pairwise_cons] at w
    unfold lowestFreeFrom
    have hj : n ≤ j := b (j, y) List.mem_cons_self
    have above : ∀ p ∈ r, j < p.1 := fun p hp => w.1 p.1 (List.mem_map_of_mem (f := (·.1)) hp)
    split_ifs with e
    · subst e
      obtain ⟨h₁, h₂, h₃⟩ := ih (j + 1) w.2 (fun p hp => above p hp)
      refine ⟨by omega, by simp only [List.length_cons]; omega, fun p hp => ?_⟩
      rcases List.mem_cons.1 hp with e' | e'
      · subst e'; simp only; omega
      · exact h₃ p e'
    · refine ⟨le_refl _, by simp, fun p hp => ?_⟩
      rcases List.mem_cons.1 hp with e' | e'
      · subst e'; exact e
      · have := above p e'; omega

/-- R1, R8: in a table that is not full, the lowest free slot is a slot of the table. -/
theorem lowestFree_lt {α : Type} {size : Nat} {t : List (Nat × α)} (w : Slots.wf size t) (h : t.length < size) :
    lowestFree t < size := by
  have := lowestFreeFrom_spec t 0 w.1 (fun _ _ => Nat.zero_le _)
  unfold lowestFree; omega

/-- The lowest free slot holds no record. -/
theorem slotGet_lowestFree {α : Type} {size : Nat} {t : List (Nat × α)} (w : Slots.wf size t) :
    slotGet (lowestFree t) t = none := by
  by_contra h
  obtain ⟨x, hx⟩ := Option.ne_none_iff_exists'.1 h
  exact (lowestFreeFrom_spec t 0 w.1 (fun _ _ => Nat.zero_le _)).2.2 _ (slotGet_mem hx) rfl

theorem slotGet_slotFree_same {α : Type} (k : Nat) (t : List (Nat × α)) : slotGet k (slotFree k t) = none := by
  induction t with
  | nil => rfl
  | cons p r ih =>
    obtain ⟨j, y⟩ := p
    by_cases e : j = k
    · simpa [slotFree, e] using ih
    · simpa [slotFree, slotGet, e] using ih

theorem slotGet_slotFree_ne {α : Type} (k j : Nat) (t : List (Nat × α)) (h : j ≠ k) :
    slotGet j (slotFree k t) = slotGet j t := by
  induction t with
  | nil => rfl
  | cons p r ih =>
    obtain ⟨i, y⟩ := p
    by_cases e : i = k
    · have : i ≠ j := fun e' => h (e' ▸ e)
      simpa [slotFree, slotGet, e, Ne.symm h] using ih
    · by_cases e' : i = j
      · simp [slotFree, slotGet, e', h]
      · simpa [slotFree, slotGet, e, e'] using ih

end Sys2Proof.Machine
end

