-- ==== Sys2Proof/Laws/Inside.lean ====
section
/-! SUPPORT. Everything that the blocks can do inside an event before its frames are placed, said once: the
relation Inside, and what each small update keeps. -/

namespace Sys2Proof.Machine

/-- A frame that an event in ESTOP can hand over: DRIVE HALT, one of another class than urgent, or one of
another node. -/
def Calm (f : Frame) : Prop := isDriveHalt f ∨ isUrgent f.kind = false ∨ f.src ≠ byte Config.ringAddress

/-- ESTOP with the drive OFF, as ESTOP leaves it. -/
def Still (s : State) : Prop := s.run.state = .estop ∧ s.drive.state = .off

/-- The number of totes a lane holds and awaits. -/
def Lane.load (x : Lane) : Nat := x.queue.length + x.incoming.length

theorem Lane.load_eq_zero {x : Lane} : x.load = 0 ↔ x.queue = [] ∧ x.incoming = [] := by
  unfold Lane.load
  constructor
  · intro h
    exact ⟨List.length_eq_zero_iff.1 (by omega), List.length_eq_zero_iff.1 (by omega)⟩
  · rintro ⟨h, k⟩
    rw [h, k]; rfl

/-- R33 for the lanes alone. -/
def LaneRoom (s : State) : Prop :=
  ∀ l : LaneIx, (s.lane l).load ≤ (s.laneCfg l).capacity ∧ (s.laneOpen l = false → (s.lane l).load = 0)

theorem RingPort.same {p q : RingPort} (h : q = p) : q = { p with outbox := p.outbox ++ [] } := by
  rw [h, List.append_nil]

theorem RequestUnit.same {p q : RequestUnit} (h : q = p) : q = { p with flags := p.flags ||| 0 } := by
  rw [h]; simp

/-- What a block's operations can do inside an event: they append frames to the outbox, raise flags, change
records and lanes within their bounds, and move no clock, configuration, queue, request or reader, but for
the end of HALTING, which makes the run state STOPPED and readers IDLE. The frames are calm in ESTOP where c
holds, and the lanes' loads stay within bounds where d holds. -/
structure Within (c d : Prop) (s t : State) : Prop where
  pending : t.pending = s.pending := by rfl
  now : t.now = s.now := by rfl
  cfg : t.cfg = s.cfg := by rfl
  ring : ∃ fs, t.ring = { s.ring with outbox := s.ring.outbox ++ fs } ∧ (c → Still s → ∀ f ∈ fs, Calm f) := by
    exact ⟨[], RingPort.same rfl, by simp⟩
  req : ∃ m, t.req = { s.req with flags := s.req.flags ||| m } := by exact ⟨0, RequestUnit.same rfl⟩
  steady : s.run.state ≠ .halting → t.readers = s.readers ∧ t.run = s.run := by exact fun _ => ⟨rfl, rfl⟩
  state : t.run.state = s.run.state ∨ (s.run.state = .halting ∧ t.run.state = .stopped) := by exact .inl rfl
  holders : t.run.holders = s.run.holders := by rfl
  readers : ∀ r, t.reader r = s.reader r ∨ t.reader r = (s.reader r).toIdle := by exact fun _ => .inl rfl
  drive : Still s → t.drive.state = .off := by exact fun h => h.2
  orders : Slots.wf 128 s.orders → Slots.wf 128 t.orders := by exact fun h => h
  totes : Slots.wf 256 s.totes → Slots.wf 256 t.totes := by exact fun h => h
  records : RecordBounds s → RecordBounds t := by exact fun h => h
  opened : ∀ l, (t.lane l).state = (s.lane l).state := by exact fun _ => rfl
  room : d → LaneRoom s → LaneRoom t := by exact fun _ h => h

/-- What the records and the places that hold totes keep, in tables of the one form. -/
structure Books (s t : State) : Prop where
  counts : TablesCanonical s → CountsAgree s → CountsAgree t := by exact fun _ h => h
  places : TablesCanonical s → PlaceBounds s → PlaceBounds t := by exact fun _ h => h

/-- A whole operation of an event: what it can touch, and the records and places it keeps in agreement. -/
structure InsideIf (c d : Prop) (s t : State) : Prop extends Within c d s t, Books s t

/-- An operation of an event, with both of its conditions. -/
abbrev Inside (s t : State) : Prop := InsideIf True True s t

variable {c d : Prop}

namespace Within

theorem refl (s : State) : Within c d s s where

theorem estop_iff {s t : State} (h : Within c d s t) : t.run.state = .estop ↔ s.run.state = .estop := by
  rcases h.state with e | ⟨a, b⟩
  · rw [e]
  · rw [a, b]; simp

theorem still {s t : State} (h : Within c d s t) (w : Still s) : Still t := ⟨h.estop_iff.2 w.1, h.drive w⟩

theorem trans {s t u : State} (a : Within c d s t) (b : Within c d t u) : Within c d s u where
  pending := b.pending.trans a.pending
  now := b.now.trans a.now
  cfg := b.cfg.trans a.cfg
  ring := by
    obtain ⟨fs, hf, cf⟩ := a.ring
    obtain ⟨gs, hg, cg⟩ := b.ring
    refine ⟨fs ++ gs, by rw [hg, hf]; simp, fun i e f m => ?_⟩
    rcases List.mem_append.1 m with m | m
    · exact cf i e f m
    · exact cg i (a.still e) f m
  req := by
    obtain ⟨m, hm⟩ := a.req
    obtain ⟨n, hn⟩ := b.req
    exact ⟨m ||| n, by rw [hn, hm]; simp [BitVec.or_assoc]⟩
  steady := fun h => by
    obtain ⟨r, e⟩ := a.steady h
    obtain ⟨r', e'⟩ := b.steady (by rw [e]; exact h)
    exact ⟨r'.trans r, e'.trans e⟩
  state := by
    rcases a.state with e | ⟨e, f⟩ <;> rcases b.state with g | ⟨g, k⟩
    · exact .inl (g.trans e)
    · exact .inr ⟨by rw [← e]; exact g, k⟩
    · exact .inr ⟨e, by rw [g]; exact f⟩
    · rw [f] at g; simp at g
  holders := b.holders.trans a.holders
  readers := fun r => by
    rcases a.readers r with e | e <;> rcases b.readers r with g | g
    · exact .inl (g.trans e)
    · exact .inr (by rw [g, e])
    · exact .inr (by rw [g, e])
    · exact .inr (by rw [g, e]; rfl)
  drive := fun w => b.drive (a.still w)
  orders := fun h => b.orders (a.orders h)
  totes := fun h => b.totes (a.totes h)
  records := fun h => b.records (a.records h)
  opened := fun l => (b.opened l).trans (a.opened l)
  room := fun i h => b.room i (a.room i h)

theorem tables {s t : State} (h : Within c d s t) (w : TablesCanonical s) : TablesCanonical t :=
  ⟨h.orders w.1, h.totes w.2⟩

theorem laneOpen {s t : State} (h : Within c d s t) (l : LaneIx) : t.laneOpen l = s.laneOpen l := by
  unfold State.laneOpen; rw [h.opened l]

theorem laneCfg {s t : State} (h : Within c d s t) (l : LaneIx) : t.laneCfg l = s.laneCfg l := by
  unfold State.laneCfg; rw [h.cfg]

end Within

namespace InsideIf

theorem refl (s : State) : InsideIf c d s s where

theorem trans {s t u : State} (a : InsideIf c d s t) (b : InsideIf c d t u) : InsideIf c d s u where
  toWithin := a.toWithin.trans b.toWithin
  counts := fun w h => b.counts (a.tables w) (a.counts w h)
  places := fun w h => b.places (a.tables w) (a.places w h)

/-- Steps for the members of a list, one after another. -/
theorem foldl {α : Type} {f : State → α → State} (h : ∀ s x, InsideIf c d s (f s x)) (xs : List α) (s : State) :
    InsideIf c d s (xs.foldl f s) := by
  induction xs generalizing s with
  | nil => exact refl s
  | cons x r ih => exact (h s x).trans (ih _)

/-- One of two steps. -/
theorem ite {s t u : State} {p : Prop} [Decidable p] (a : p → InsideIf c d s t) (b : ¬p → InsideIf c d s u) :
    InsideIf c d s (if p then t else u) := by
  split
  · exact a ‹_›
  · exact b ‹_›

end InsideIf

/-! ## Small updates -/

theorem State.raise_inside (s : State) (f : Flag) : InsideIf c d s (s.raise f) where
  req := ⟨f.only, rfl⟩

theorem State.raiseIf_inside (s : State) (b : Bool) (f : Flag) : InsideIf c d s (s.raiseIf b f) := by
  unfold State.raiseIf; exact .ite (fun _ => s.raise_inside f) (fun _ => .refl s)

theorem State.hand_inside {s : State} {f : Frame} (h : c → Still s → Calm f) : InsideIf c d s (s.hand f) where
  ring := ⟨[f], rfl, fun i e g m => by rw [List.mem_singleton.1 m]; exact h i e⟩

/-- A change of a lane that keeps its state and does not add to its load. -/
theorem State.modLane_inside {s : State} {l : LaneIx} {f : Lane → Lane} (hs : (f (s.lane l)).state = (s.lane l).state)
    (hl : (f (s.lane l)).load ≤ (s.lane l).load) : InsideIf c d s (s.modLane l f) where
  opened := fun m => by
    rw [State.lane_modLane]; split
    · rename_i e; rw [hs, e]
    · rfl
  room := fun _ h m => by
    have o : (s.modLane l f).laneOpen m = s.laneOpen m := by
      unfold State.laneOpen; rw [State.lane_modLane]; split
      · rename_i e; rw [hs, e]
      · rfl
    rw [o, State.lane_modLane]
    split
    · rename_i e; subst e
      exact ⟨Nat.le_trans hl (h l).1, fun c => by have := (h l).2 c; omega⟩
    · exact h m

/-- A change of a lane that keeps its state and adds to its load, where that stays within the capacity of an
OPEN lane. -/
theorem State.modLane_inside_open {s : State} {l : LaneIx} {f : Lane → Lane}
    (hs : (f (s.lane l)).state = (s.lane l).state) (o : d → s.laneOpen l = true)
    (hl : d → (s.lane l).load ≤ (s.laneCfg l).capacity → (f (s.lane l)).load ≤ (s.laneCfg l).capacity) :
    InsideIf c d s (s.modLane l f) where
  opened := fun m => by
    rw [State.lane_modLane]; split
    · rename_i e; rw [hs, e]
    · rfl
  room := fun i h m => by
    have o := o i
    rw [State.lane_modLane]
    split
    · rename_i e; subst e
      refine ⟨hl i (h l).1, fun c => ?_⟩
      unfold State.laneOpen at c o
      rw [State.lane_modLane_same, hs, o] at c
      simp at c
    · rename_i ne
      refine ⟨(h m).1, fun c => (h m).2 ?_⟩
      unfold State.laneOpen at c ⊢
      rwa [State.lane_modLane, if_neg ne] at c

/-- A record changed by an operation: it stays within the bounds where the record before it was. -/
def InBounds (limit : Nat) (x y : Tote) : Prop :=
  x.laps ≤ limit ∧ x.trail.length ≤ 4 → y.laps ≤ limit ∧ y.trail.length ≤ 4

theorem InBounds.same {limit : Nat} {x y : Tote} (l : y.laps = x.laps) (t : y.trail = x.trail) : InBounds limit x y :=
  fun h => by rw [l, t]; exact h

/-- A record that keeps its order and does not come into an induct queue or the return-belt set. -/
def KeepsOut (x y : Tote) : Prop :=
  y.order = x.order ∧
    (y.location = x.location ∨ ((∀ i, y.location ≠ .induct i) ∧ y.location ≠ .returnBelt))

/-- A record within its bounds that keeps out of the counted sets. -/
def Bounded (limit : Nat) (x y : Tote) : Prop := InBounds limit x y ∧ KeepsOut x y

theorem Bounded.stays {limit : Nat} {x y : Tote} (b : InBounds limit x y) (o : y.order = x.order := by rfl)
    (l : y.location = x.location := by rfl) : Bounded limit x y := ⟨b, o, .inl l⟩

theorem Bounded.same {limit : Nat} {x y : Tote} (l : y.laps = x.laps) (t : y.trail = x.trail)
    (o : y.order = x.order := by rfl) (m : y.location = x.location := by rfl) : Bounded limit x y :=
  .stays (.same l t) o m

theorem Bounded.moved {limit : Nat} {x y : Tote} (l : y.laps = x.laps) (t : y.trail = x.trail)
    (o : y.order = x.order := by rfl)
    (m : (∀ i, y.location ≠ .induct i) ∧ y.location ≠ .returnBelt := by simp) : Bounded limit x y :=
  ⟨.same l t, o, .inr m⟩

/-- An order's live count stays, and its counts within its total. -/
def SameCounts (o x : Order) : Prop := x.live = o.live ∧ (o.done + o.live ≤ o.total → x.done + x.live ≤ x.total)

theorem SameCounts.refl {o x : Order} (l : x.live = o.live := by rfl) (d : x.done = o.done := by rfl)
    (t : x.total = o.total := by rfl) : SameCounts o x := ⟨l, by rw [l, d, t]; exact id⟩

theorem slotGet_lt {α : Type} {n k : Nat} {x : α} {t : List (Nat × α)} (w : Slots.wf n t) (h : slotGet k t = some x) :
    k < n := w.2 _ (slotGet_mem h)

theorem State.putOrder_within {s : State} {k : OrderSlot} {o x : Order} (h : (k, o) ∈ s.orders) :
    Within c d s (s.putOrder k x) where
  orders := fun w => Slots.wf_slotPut w (w.2 _ h)

theorem State.order?_putOrder_ne_none {s : State} {k j : OrderSlot} {x : Order} (h : s.order? j ≠ none) :
    (s.putOrder k x).order? j ≠ none := by
  unfold State.order? State.putOrder at *
  by_cases e : k = j
  · subst e; simp
  · rw [slotGet_slotPut_ne _ _ _ _ e]; exact h

theorem State.putOrder_inside_mem {s : State} {k : OrderSlot} {o x : Order} (h : (k, o) ∈ s.orders)
    (e : SameCounts o x := by exact SameCounts.refl) : InsideIf c d s (s.putOrder k x) where
  toWithin := State.putOrder_within h
  counts := fun _ a => by
    refine ⟨fun p m => State.order?_putOrder_ne_none (a.1 p m), fun p m => ?_⟩
    rcases mem_slotPut m with q | q
    · rw [q]
      obtain ⟨l, b⟩ := a.2 _ h
      exact ⟨e.1.trans l, e.2 b⟩
    · exact a.2 p q

theorem State.putOrder_inside {s : State} {k : OrderSlot} {o x : Order} (h : s.order? k = some o)
    (e : SameCounts o x := by exact SameCounts.refl) : InsideIf c d s (s.putOrder k x) :=
  State.putOrder_inside_mem (slotGet_mem h) e

theorem State.modOrder_inside (s : State) (k : OrderSlot) (f : Order → Order)
    (e : ∀ o, SameCounts o (f o) := by exact fun _ => SameCounts.refl) : InsideIf c d s (s.modOrder k f) := by
  unfold State.modOrder
  split
  · exact State.putOrder_inside ‹_› (e _)
  · exact .refl s

theorem State.putTote_within {s : State} {k : ToteSlot} {x y : Tote} (h : (k, x) ∈ s.totes)
    (b : InBounds s.cfg.site.lapLimit x y) : Within c d s (s.putTote k y) where
  totes := fun w => Slots.wf_slotPut w (w.2 _ h)
  records := fun r p m => by
    rcases mem_slotPut m with e | e
    · rw [e]; exact b (r _ h)
    · exact r p e

/-- A record is replaced by one of the same order. -/
theorem State.putTote_counts {s : State} {k : ToteSlot} {x y : Tote} (w : TablesCanonical s) (h : (k, x) ∈ s.totes)
    (e : y.order = x.order) (a : CountsAgree s) : CountsAgree (s.putTote k y) := by
  refine ⟨fun p m => ?_, fun p m => ?_⟩
  · rcases mem_slotPut m with q | q
    · rw [q]
      show s.order? y.order ≠ none
      rw [e]; exact a.1 _ h
    · exact a.1 p q
  · obtain ⟨l, b⟩ := a.2 p m
    refine ⟨l.trans ?_, b⟩
    obtain ⟨u, v, f, g⟩ := slotPut_of_mem w.2 h
    unfold State.totesOf State.putTote
    rw [g y, f]
    simp only [List.filter_append, List.filter_cons, List.length_append, e]
    split <;> simp

theorem beltCount_putTote {s : State} {k : ToteSlot} {x y : Tote} (w : TablesCanonical s) (h : (k, x) ∈ s.totes) :
    (s.putTote k y).beltCount + (if x.location = .returnBelt then 1 else 0) =
      s.beltCount + (if y.location = .returnBelt then 1 else 0) := by
  obtain ⟨u, v, f, g⟩ := slotPut_of_mem w.2 h
  unfold State.beltCount State.putTote
  rw [g y, f]
  simp only [List.filter_append, List.filter_cons, List.length_append, beq_iff_eq]
  split <;> split <;> simp <;> omega

theorem State.modTote_eq {s : State} {k : ToteSlot} {x : Tote} (h : s.tote? k = some x) (f : Tote → Tote) :
    s.modTote k f = s.putTote k (f x) := by
  unfold State.modTote; rw [h]

theorem State.putTote_inside_mem {s : State} {k : ToteSlot} {x y : Tote} (h : (k, x) ∈ s.totes)
    (b : Bounded s.cfg.site.lapLimit x y) : InsideIf c d s (s.putTote k y) where
  toWithin := State.putTote_within h b.1
  counts := fun w a => State.putTote_counts w h b.2.1 a
  places := fun w a => by
    refine ⟨fun i => ⟨(a.1 i).1, fun p m l => ?_⟩, ?_, a.2.2⟩
    · rcases mem_slotPut m with q | q
      · subst q
        rcases b.2.2 with e | e
        · exact (a.1 i).2 (k, x) h (e.symm.trans l)
        · exact absurd l (e.1 i)
      · exact (a.1 i).2 p q l
    · have n := beltCount_putTote (y := y) w h
      have := a.2.1
      rcases b.2.2 with e | e
      · rw [e] at n; omega
      · rw [if_neg e.2] at n; omega

theorem State.putTote_inside {s : State} {k : ToteSlot} {x y : Tote} (h : s.tote? k = some x)
    (b : Bounded s.cfg.site.lapLimit x y) : InsideIf c d s (s.putTote k y) :=
  State.putTote_inside_mem (slotGet_mem h) b

theorem State.modTote_inside {s : State} {k : ToteSlot} {f : Tote → Tote}
    (b : ∀ x, Bounded s.cfg.site.lapLimit x (f x)) : InsideIf c d s (s.modTote k f) := by
  unfold State.modTote
  split
  · exact State.putTote_inside ‹_› (b _)
  · exact .refl s

theorem State.modTote_within {s : State} {k : ToteSlot} {f : Tote → Tote}
    (b : ∀ x, InBounds s.cfg.site.lapLimit x (f x)) : Within c d s (s.modTote k f) := by
  unfold State.modTote
  split
  · rename_i h
    exact State.putTote_within (slotGet_mem h) (b _)
  · exact .refl s

theorem State.modTote_counts {s : State} {k : ToteSlot} {f : Tote → Tote} (e : ∀ x, (f x).order = x.order)
    (w : TablesCanonical s) (a : CountsAgree s) : CountsAgree (s.modTote k f) := by
  unfold State.modTote
  split
  · rename_i h
    exact State.putTote_counts w (slotGet_mem h) (e _) a
  · exact a

theorem State.mapTotes_inside {s : State} {f : Tote → Tote} (b : ∀ x, InBounds s.cfg.site.lapLimit x (f x))
    (o : ∀ x, (f x).order = x.order) (l : ∀ x, (f x).location = x.location) : InsideIf c d s (s.mapTotes f) where
  totes := fun w => Slots.wf_map w
  records := fun r p m => by
    obtain ⟨q, hq, rfl⟩ := List.mem_map.1 m
    exact b _ (r q hq)
  counts := fun _ a => by
    refine ⟨fun p m => ?_, fun p m => ?_⟩
    · obtain ⟨q, hq, rfl⟩ := List.mem_map.1 m
      show s.order? (f q.2).order ≠ none
      rw [o]; exact a.1 q hq
    · obtain ⟨n, t⟩ := a.2 p m
      refine ⟨n.trans ?_, t⟩
      unfold State.totesOf State.mapTotes
      simp [List.filter_map, Function.comp_def, o]
  places := fun _ a => by
    refine ⟨fun i => ⟨(a.1 i).1, fun p m e => ?_⟩, ?_, a.2.2⟩
    · obtain ⟨q, hq, rfl⟩ := List.mem_map.1 m
      exact (a.1 i).2 q hq ((l q.2).symm.trans e)
    · have e : (s.mapTotes f).beltCount = s.beltCount := by
        unfold State.beltCount State.mapTotes
        simp [List.filter_map, Function.comp_def, l]
      rw [e]; exact a.2.1

/-- The places stand where the records, the queues and the configuration do and the will-call count does not rise. -/
theorem PlaceBounds.of {s t : State} (a : PlaceBounds s) (m : t.totes = s.totes := by rfl)
    (q : ∀ i, t.queue i = s.queue i := by exact fun _ => rfl)
    (w : t.willcallCount ≤ s.willcallCount := by exact Nat.le_refl _) (e : t.cfg = s.cfg := by rfl) : PlaceBounds t := by
  unfold PlaceBounds State.beltCount at *
  rw [m, e]
  simp only [q]
  exact ⟨a.1, a.2.1, Nat.le_trans w a.2.2⟩

/-- The records of freed slots are gone, the others as before. -/
theorem State.freeTote_within (s : State) (k : ToteSlot) : Within c d s { s with totes := slotFree k s.totes } where
  totes := Slots.wf_slotFree
  records := fun r p m => r p (List.mem_of_mem_filter m)

theorem State.putQueue_within (s : State) (i : InductIx) (q : List InductItem) : Within c d s (s.putQueue i q) where

/-- An induct queue keeps its entries with a tote and its bound. -/
theorem State.putQueue_inside {s : State} {i : InductIx} {q : List InductItem}
    (b : (s.queue i).length ≤ 4 → q.length ≤ 4)
    (e : ∀ k : ToteSlot, (∃ x ∈ s.queue i, x.tote = some k) → ∃ x ∈ q, x.tote = some k) :
    InsideIf c d s (s.putQueue i q) where
  places := fun _ a => by
    refine ⟨fun j => ?_, a.2⟩
    rw [State.queue_putQueue]
    split
    · rename_i h; subst h
      exact ⟨b (a.1 i).1, fun p m l => e _ ((a.1 i).2 p m l)⟩
    · exact a.1 j

end Sys2Proof.Machine
end

