-- ==== Sys2Proof/Laws/Events.lean ====
section
/-! SUPPORT. What the operations of each block can do inside an event: one lemma for each shared operation. -/

/- one theorem after another: the package as one text then stays within its memory -/
set_option Elab.async false

namespace Sys2Proof.Machine

variable {c d : Prop}

/-! ## Drive -/

theorem State.startDrive_inside {s : State} (h : ¬Still s) : InsideIf c d s s.startDrive where
  ring := ⟨[_], rfl, fun _ w => absurd w h⟩
  drive := fun w => absurd w h

theorem State.driveReport_inside (s : State) : InsideIf c d s s.driveReport := by
  unfold State.driveReport
  split
  · exact .refl s
  · exact .refl s
  · exact .refl s
  · rename_i e
    exact { drive := fun w => by have := w.2; rw [e] at this; simp at this }
  · rename_i e
    exact State.startDrive_inside (fun w => by have := w.2; rw [e] at this; simp at this)

theorem State.restartIdle_inside (s : State) : InsideIf c d s s.restartIdle := by
  unfold State.restartIdle
  split
  · exact {}
  · exact .refl s

/-! ## Records -/

theorem State.placeOnLoop_inside {s : State} {k : ToteSlot} {f : Tote → Tote}
    (b : ∀ x : Tote, Bounded s.cfg.site.lapLimit x (f { x with location := .loop, sighting := some .seen })) :
    InsideIf c d s (s.placeOnLoop k f) := by
  unfold State.placeOnLoop
  have a : InsideIf c d s (s.modTote k (fun x => f { x with location := .loop, sighting := some .seen })) :=
    State.modTote_inside b
  simp only
  split
  · exact a.trans (State.driveReport_inside _)
  · exact a

@[simp] theorem Lane.removeAt_state (x : Lane) (j : Nat) : (x.removeAt j).state = x.state := rfl

theorem Lane.removeAt_load (x : Lane) (j : Nat) : (x.removeAt j).load ≤ x.load := by
  unfold Lane.load Lane.removeAt
  have := List.length_eraseIdx_le x.queue j
  simp only
  omega

@[simp] theorem Lane.removeTote_state (x : Lane) (k : ToteSlot) : (x.removeTote k).state = x.state := by
  unfold Lane.removeTote; split <;> rfl

theorem Lane.removeTote_load (x : Lane) (k : ToteSlot) : (x.removeTote k).load ≤ x.load := by
  unfold Lane.removeTote; split
  · exact x.removeAt_load _
  · exact Nat.le_refl _

@[simp] theorem State.takeOut_totes (s : State) (k : ToteSlot) (loc : Location) : (s.takeOut k loc).totes = s.totes := by
  unfold State.takeOut
  split <;> first | rfl | (split <;> rfl)

@[simp] theorem State.takeOut_orders (s : State) (k : ToteSlot) (loc : Location) : (s.takeOut k loc).orders = s.orders := by
  unfold State.takeOut
  split <;> first | rfl | (split <;> rfl)

@[simp] theorem State.takeOut_cfg (s : State) (k : ToteSlot) (loc : Location) : (s.takeOut k loc).cfg = s.cfg := by
  unfold State.takeOut
  split <;> first | rfl | (split <;> rfl)

theorem State.takeOut_queue (s : State) (k : ToteSlot) (loc : Location) (i : InductIx) :
    (s.takeOut k loc).queue i = s.queue i ∨ (s.takeOut k loc).queue i = (s.queue i).filter (fun e => e.tote != some k) := by
  unfold State.takeOut
  split
  · exact .inl rfl
  · rw [State.queue_putQueue]
    split
    · rename_i e; subst e; exact .inr rfl
    · exact .inl rfl
  · exact .inl rfl
  · exact .inl rfl
  · exact .inl rfl
  · split <;> exact .inl rfl
  · exact .inl rfl
  · exact .inl rfl

theorem State.takeOut_willcallCount (s : State) (k : ToteSlot) (loc : Location) :
    (s.takeOut k loc).willcallCount ≤ s.willcallCount := by
  unfold State.takeOut
  split
  · exact Nat.le_refl _
  · exact Nat.le_refl _
  · exact Nat.le_refl _
  · exact Nat.le_refl _
  · exact Nat.le_refl _
  · split <;> exact Nat.le_refl _
  · exact Nat.add_le_add_left (List.length_filter_le _ _) _
  · exact Nat.add_le_add_right (List.length_filter_le _ _) _

theorem State.takeOut_within (s : State) (k : ToteSlot) (loc : Location) : Within c d s (s.takeOut k loc) := by
  unfold State.takeOut
  split
  · exact .refl s
  · exact s.putQueue_within _ _
  · exact .refl s
  · refine (State.modLane_inside rfl ?_).toWithin
    have := List.length_filter_le (fun e : Incoming => e.tote != k) (s.lane ‹_›).incoming
    unfold Lane.load; simp only; omega
  · exact (State.modLane_inside (Lane.removeTote_state _ _) (Lane.removeTote_load _ _)).toWithin
  · split
    · exact {}
    · exact .refl s
  · exact {}
  · exact {}

/-- R13: the record of a removed tote. -/
theorem State.tote?_removeTote {s : State} {k : ToteSlot} {t : Tote} (h : s.tote? k = some t) :
    (s.removeTote k).tote? k = some { t with location := .unplaced, sighting := none, deadline := none } := by
  unfold State.removeTote
  rw [h]
  exact slotGet_slotPut_same _ _ _

theorem State.removeTote_within (s : State) (k : ToteSlot) : Within c d s (s.removeTote k) := by
  unfold State.removeTote
  split
  · exact .refl s
  · rename_i t h
    refine (s.takeOut_within k t.location).trans (State.putTote_within (x := t) ?_ (.same rfl rfl))
    rw [State.takeOut_totes]
    exact slotGet_mem h

theorem State.removeTote_counts {s : State} {k : ToteSlot} (w : TablesCanonical s) (a : CountsAgree s) :
    CountsAgree (s.removeTote k) := by
  unfold State.removeTote
  split
  · exact a
  · rename_i t h
    have u : TablesCanonical (s.takeOut k t.location) := Within.tables (c := True) (d := True) (s.takeOut_within k _) w
    refine State.putTote_counts (x := t) u ?_ rfl ?_
    · rw [State.takeOut_totes]; exact slotGet_mem h
    · unfold CountsAgree State.totesOf State.order? at *
      simpa only [State.takeOut_totes, State.takeOut_orders] using a

/-- R13: a removed tote leaves no place without its entry, and the return-belt set does not grow. -/
theorem State.removeTote_places {s : State} {k : ToteSlot} (w : TablesCanonical s) (a : PlaceBounds s) :
    PlaceBounds (s.removeTote k) ∧ (s.removeTote k).beltCount ≤ s.beltCount := by
  unfold State.removeTote
  split
  · exact ⟨a, Nat.le_refl _⟩
  · rename_i t h
    have m : (k, t) ∈ (s.takeOut k t.location).totes := by rw [State.takeOut_totes]; exact slotGet_mem h
    have u : TablesCanonical (s.takeOut k t.location) := Within.tables (c := True) (d := True) (s.takeOut_within k _) w
    have belt : ((s.takeOut k t.location).putTote k
        { t with location := .unplaced, sighting := none, deadline := none }).beltCount ≤ s.beltCount := by
      have n := beltCount_putTote (y := { t with location := .unplaced, sighting := none, deadline := none }) u m
      have e : (s.takeOut k t.location).beltCount = s.beltCount := by
        unfold State.beltCount; rw [State.takeOut_totes]
      simp only [reduceCtorEq, if_false] at n
      omega
    refine ⟨⟨fun i => ?_, Nat.le_trans belt a.2.1, ?_⟩, belt⟩
    · refine ⟨?_, fun p q l => ?_⟩
      · refine Nat.le_trans ?_ (a.1 i).1
        rcases s.takeOut_queue k t.location i with e | e
        · exact Nat.le_of_eq (congrArg List.length e)
        · exact Nat.le_trans (Nat.le_of_eq (congrArg List.length e)) (List.length_filter_le _ _)
      · rcases mem_slotPut_of_mem u.2 m q with e | ⟨q, n⟩
        · rw [e] at l; simp at l
        · rw [State.takeOut_totes] at q
          obtain ⟨e, h, g⟩ := (a.1 i).2 p q l
          refine ⟨e, ?_, g⟩
          rcases s.takeOut_queue k t.location i with f | f
          · exact f.symm ▸ h
          · have : e ∈ (s.takeOut k t.location).queue i := by
              rw [f]
              exact List.mem_filter.2 ⟨h, by simpa [g] using n⟩
            exact this
    · refine Nat.le_trans (s.takeOut_willcallCount k t.location) ?_
      show _ ≤ (s.takeOut k t.location).cfg.site.willcallCapacity
      rw [State.takeOut_cfg]
      exact a.2.2

theorem State.removeTote_inside (s : State) (k : ToteSlot) : InsideIf c d s (s.removeTote k) where
  toWithin := s.removeTote_within k
  counts := State.removeTote_counts
  places := fun w a => (State.removeTote_places w a).1

@[simp] theorem State.leaveReady_totes (s : State) (k : OrderSlot) (o : Order) : (s.leaveReady k o).totes = s.totes := by
  unfold State.leaveReady; split <;> rfl

@[simp] theorem State.leaveReady_merge (s : State) (k : OrderSlot) (o : Order) : (s.leaveReady k o).merge = s.merge := by
  unfold State.leaveReady; split <;> rfl

@[simp] theorem State.leaveReady_willcall (s : State) (k : OrderSlot) (o : Order) :
    (s.leaveReady k o).willcall = s.willcall := by
  unfold State.leaveReady; split <;> rfl

@[simp] theorem State.leaveReady_cfg (s : State) (k : OrderSlot) (o : Order) : (s.leaveReady k o).cfg = s.cfg := by
  unfold State.leaveReady; split <;> rfl

@[simp] theorem State.leaveReady_orders (s : State) (k : OrderSlot) (o : Order) :
    (s.leaveReady k o).orders = s.orders := by
  unfold State.leaveReady; split <;> rfl

theorem State.leaveReady_inside (s : State) (k : OrderSlot) (o : Order) : InsideIf c d s (s.leaveReady k o) := by
  unfold State.leaveReady
  split
  · exact State.modLane_inside rfl (Nat.le_refl _)
  all_goals exact .refl s

theorem State.freeOrder_within (s : State) (k : OrderSlot) (o : Order) : Within c d s (s.freeOrder k o) := by
  have e : s.freeOrder k o = { s.leaveReady k o with orders := slotFree k (s.leaveReady k o).orders } := by
    unfold State.freeOrder; rw [State.leaveReady_orders]
  rw [e]
  exact (s.leaveReady_inside k o).toWithin.trans { orders := Slots.wf_slotFree }

theorem State.recount_within (s : State) (k : OrderSlot) (f : Order → Order) : Within c d s (s.recount k f) := by
  unfold State.recount
  split
  · exact .refl s
  · split
    · exact s.freeOrder_within _ _
    · exact State.putOrder_within (slotGet_mem ‹_›)

/-- R7: an order without records is freed. -/
theorem State.freeOrder_inside {s : State} {k : OrderSlot} {o : Order}
    (n : TablesCanonical s → CountsAgree s → s.totesOf k = []) :
    InsideIf c d s (s.freeOrder k o) where
  toWithin := s.freeOrder_within k o
  counts := fun w a => by
    have n := n w a
    have t : (s.freeOrder k o).totes = s.totes := State.leaveReady_totes s k o
    have away : ∀ p ∈ s.totes, p.2.order ≠ k := fun p m e => by
      have : p ∈ s.totesOf k := List.mem_filter.2 ⟨m, by simpa using e⟩
      rw [n] at this; simp at this
    refine ⟨fun p m => ?_, fun p m => ?_⟩
    · rw [t] at m
      show slotGet p.2.order (slotFree k s.orders) ≠ none
      rw [slotGet_slotFree_ne _ _ _ (away p m)]
      exact a.1 p m
    · unfold State.totesOf
      rw [t]
      exact a.2 p (List.mem_of_mem_filter m)
  places := fun _ a => by
    unfold State.freeOrder
    exact a.of (State.leaveReady_totes s k o) (fun i => by unfold State.queue; simp) (by unfold State.willcallCount; simp)
      (by simp)

theorem State.tote?_some {s : State} {p : ToteSlot × Tote} (w : TablesCanonical s) (h : p ∈ s.totes) :
    s.tote? p.1 = some p.2 := slotGet_of_mem w.2 h

theorem State.order?_some {s : State} {p : OrderSlot × Order} (w : TablesCanonical s) (h : p ∈ s.orders) :
    s.order? p.1 = some p.2 := slotGet_of_mem w.1 h

theorem State.recount_places {s : State} {k : OrderSlot} {f : Order → Order} (a : PlaceBounds s) :
    PlaceBounds (s.recount k f) := by
  unfold State.recount
  split
  · exact a
  · split
    · unfold State.freeOrder
      exact a.of (State.leaveReady_totes _ _ _) (fun i => by unfold State.queue; simp)
        (by unfold State.willcallCount; simp) (by simp)
    · exact a.of

/-- R6, R7, R15: the record in slot k is freed and its order's counts fall with it: one live tote less, and live and
done within the total as before. -/
theorem State.closeRecord_inside {s : State} {k : ToteSlot} {x : Tote} {f : Order → Order} (h : s.tote? k = some x)
    (live : ∀ o, (f o).live = o.live - 1)
    (total : ∀ o, 1 ≤ o.live → o.done + o.live ≤ o.total → (f o).done + (f o).live ≤ (f o).total) :
    InsideIf c d s ({ s with totes := slotFree k s.totes }.recount x.order f) where
  toWithin := (State.freeTote_within s k).trans (State.recount_within _ _ _)
  counts := fun w a => by
    obtain ⟨u, v, e, g⟩ := slotFree_of_mem w.2 (slotGet_mem h)
    have m : ∀ p, p ∈ slotFree k s.totes → p ∈ s.totes := fun p q => List.mem_of_mem_filter q
    have less : ∀ j, (s.totesOf j).length =
        (State.totesOf { s with totes := slotFree k s.totes } j).length + if x.order = j then 1 else 0 := fun j => by
      show (s.totes.filter _).length = ((slotFree k s.totes).filter _).length + _
      rw [g, e]
      simp only [List.filter_append, List.filter_cons, List.length_append, beq_iff_eq]
      split
      · simp; omega
      · simp
    obtain ⟨o, ho⟩ := Option.ne_none_iff_exists'.1 (a.1 _ (slotGet_mem h))
    have ho : s.order? x.order = some o := ho
    have l : o.live = (s.totesOf x.order).length := (a.2 _ (slotGet_mem ho)).1
    have b : o.done + o.live ≤ o.total := (a.2 _ (slotGet_mem ho)).2
    have l' := less x.order
    rw [if_pos rfl] at l'
    have t := total o (by omega) b
    have lv := live o
    unfold State.recount
    have ho' : State.order? { s with totes := slotFree k s.totes } x.order = some o := ho
    rw [ho']
    simp only
    split
    · rename_i full
      have z : State.totesOf { s with totes := slotFree k s.totes } x.order = [] :=
        List.length_eq_zero_iff.1 (by omega)
      have q : ∀ p ∈ slotFree k s.totes, p.2.order ≠ x.order := fun p hp i => by
        have : p ∈ State.totesOf { s with totes := slotFree k s.totes } x.order :=
          List.mem_filter.2 ⟨hp, by simpa using i⟩
        rw [z] at this; simp at this
      have tt : (State.freeOrder { s with totes := slotFree k s.totes } x.order o).totes = slotFree k s.totes :=
        State.leaveReady_totes _ _ _
      refine ⟨fun p hp => ?_, fun p hp => ?_⟩
      · rw [tt] at hp
        show slotGet p.2.order (slotFree x.order s.orders) ≠ none
        rw [slotGet_slotFree_ne _ _ _ (q p hp)]
        exact a.1 p (m p hp)
      · have ne : p.1 ≠ x.order := by
          have := (List.mem_filter.1 hp).2
          simpa using this
        obtain ⟨l, b⟩ := a.2 p (List.mem_of_mem_filter hp)
        refine ⟨l.trans ?_, b⟩
        rw [less, if_neg (Ne.symm ne)]
        unfold State.totesOf
        rw [tt]; rfl
    · refine ⟨fun p hp => State.order?_putOrder_ne_none (a.1 p (m p hp)), fun p hp => ?_⟩
      rcases mem_slotPut_of_mem w.1 (slotGet_mem ho) hp with i | ⟨hp, ne⟩
      · subst i
        refine ⟨?_, t⟩
        show (f o).live = (State.totesOf { s with totes := slotFree k s.totes } x.order).length
        omega
      · obtain ⟨l, b⟩ := a.2 p hp
        refine ⟨l.trans ?_, b⟩
        rw [less, if_neg (Ne.symm ne)]
        rfl
  places := fun _ a => by
    have fewer : PlaceBounds { s with totes := slotFree k s.totes } := by
      refine ⟨fun i => ⟨(a.1 i).1, fun p m l => (a.1 i).2 p (List.mem_of_mem_filter m) l⟩, ?_, a.2.2⟩
      refine Nat.le_trans ?_ a.2.1
      exact ((List.filter_sublist (l := s.totes)).filter _).length_le
    exact State.recount_places fewer

theorem State.freeDone_inside (s : State) (k : ToteSlot) : InsideIf c d s (s.freeDone k) := by
  unfold State.freeDone
  split
  · exact .refl s
  · rename_i t h
    exact (s.removeTote_inside k).trans (State.closeRecord_inside
      (x := { t with location := .unplaced, sighting := none, deadline := none }) (State.tote?_removeTote h) (fun _ => rfl)
      (fun o a b => by show o.done + 1 + (o.live - 1) ≤ o.total; omega))

theorem State.clearTrails_inside (s : State) (k : OrderSlot) : InsideIf c d s (s.clearTrails k) :=
  State.mapTotes_inside (fun x h => by split <;> [exact ⟨h.1, by simp⟩; exact h]) (fun x => by split <;> rfl)
    (fun x => by split <;> rfl)

theorem State.enterWillcall_inside (s : State) (k : OrderSlot) (r : Reason) : InsideIf c d s (s.enterWillcall k r) := by
  unfold State.enterWillcall
  split
  · exact .refl s
  · rename_i o h
    refine ((((s.leaveReady_inside k o).trans (State.putOrder_inside (o := o) ?_)).trans
      (State.clearTrails_inside _ _)).trans (State.raise_inside _ _))
    unfold State.order? at h ⊢
    rw [State.leaveReady_orders, h]

theorem State.routeTo_inside (s : State) (k : OrderSlot) (l : LaneIx) : InsideIf c d s (s.routeTo k l) :=
  (s.modOrder_inside k _).trans (State.clearTrails_inside _ _)

theorem State.attempt_inside (s : State) (k : OrderSlot) : InsideIf c d s (s.attempt k) := by
  unfold State.attempt
  split
  · exact .refl s
  · split
    · simp only
      split
      · exact s.enterWillcall_inside _ _
      · split
        · exact s.routeTo_inside _ _
        · exact .refl s
    · exact .refl s

theorem State.firstRelease_inside (s : State) (k : OrderSlot) : InsideIf c d s (s.firstRelease k) := by
  unfold State.firstRelease
  split
  · exact .refl s
  · split
    · exact .refl s
    · exact (State.putOrder_inside ‹_›).trans (State.attempt_inside _ _)

/-! ## Lanes -/

theorem State.takeAttention_inside (s : State) (l : LaneIx) : InsideIf c d s (s.takeAttention l) :=
  (State.modLane_inside rfl (Nat.le_refl _)).trans (State.raise_inside _ _)

theorem State.emptyWindow_inside (s : State) (l : LaneIx) : InsideIf c d s (s.emptyWindow l) :=
  State.modLane_inside rfl (Nat.le_refl _)

theorem State.dropEntry0_inside (s : State) (l : LaneIx) : InsideIf c d s (s.dropEntry0 l) :=
  State.modLane_inside (Lane.removeAt_state _ _) (Lane.removeAt_load _ _)

theorem State.windowTote_inside {s : State} {l : LaneIx} {known : ToteSlot → State} {unknown : State}
    (hk : ∀ k, InsideIf c d s (known k)) (hu : InsideIf c d s unknown) : InsideIf c d s (s.windowTote l known unknown) := by
  unfold State.windowTote
  split
  · split
    · exact hk _
    · exact .refl s
  · exact .refl s
  · exact hk _
  · exact hu
  · exact .refl s

theorem State.takeWindow_inside (s : State) (l : LaneIx) : InsideIf c d s (s.takeWindow l) :=
  (State.windowTote_inside (fun k => s.freeDone_inside k) (s.dropEntry0_inside l)).trans (State.emptyWindow_inside _ _)

/-- R111: a tote joins a return-belt set that has room. -/
theorem State.pushTote_inside {s : State} (k : ToteSlot) (room : s.beltRoom = true) : InsideIf c d s (s.pushTote k) where
  toWithin := (s.removeTote_within k).trans (State.modTote_within (fun _ => .same rfl rfl))
  counts := fun w a => by
    have v : TablesCanonical (s.removeTote k) := Within.tables (c := True) (d := True) (s.removeTote_within k) w
    exact State.modTote_counts (fun _ => rfl) v (State.removeTote_counts w a)
  places := fun w a => by
    have v : TablesCanonical (s.removeTote k) := Within.tables (c := True) (d := True) (s.removeTote_within k) w
    obtain ⟨b, n⟩ := State.removeTote_places (k := k) w a
    unfold State.beltRoom at room
    have room : s.beltCount < 6 := by simpa using room
    unfold State.pushTote State.modTote
    split
    · rename_i x h
      have m := slotGet_mem h
      have e := beltCount_putTote (y := { x with location := .returnBelt }) v m
      simp only [if_true] at e
      refine ⟨fun i => ⟨(b.1 i).1, fun p q l => ?_⟩, ?_, b.2.2⟩
      · rcases mem_slotPut q with f | f
        · rw [f] at l; simp at l
        · exact (b.1 i).2 p f l
      · show ((s.removeTote k).putTote k { x with location := .returnBelt }).beltCount ≤ 6
        omega
    · exact b

theorem State.pushWindow_inside {s : State} (l : LaneIx) (h : s.run.state ≠ .estop) (room : s.beltRoom = true) :
    InsideIf c d s (s.pushWindow l) := by
  have a : InsideIf c d s (s.hand (chuteFrame (s.laneCfg l).station)) := State.hand_inside (fun _ w => absurd w.1 h)
  exact (a.trans (State.windowTote_inside (fun k => State.pushTote_inside k room) (State.dropEntry0_inside _ l))).trans
    (State.emptyWindow_inside _ _)

theorem State.askReturn_inside (s : State) (l : LaneIx) : InsideIf c d s (s.askReturn l) := by
  unfold State.askReturn
  split
  · exact (s.raise_inside _).trans (State.takeAttention_inside _ _)
  · rename_i room
    split
    · exact .refl s
    · rename_i h
      exact State.pushWindow_inside l (by simpa using h) (by simpa using room)

theorem State.clerkButton_inside (s : State) (l : LaneIx) : InsideIf c d s (s.clerkButton l) :=
  State.modLane_inside rfl (Nat.le_refl _)

theorem State.buttonElsewhere_inside (s : State) (l : LaneIx) : InsideIf c d s (s.buttonElsewhere l) := by
  unfold State.buttonElsewhere
  split
  · exact s.emptyWindow_inside l
  all_goals exact .refl s

theorem State.takenAt_inside (s : State) (l : LaneIx) : InsideIf c d s (s.takenAt l) := by
  unfold State.takenAt
  simp only
  split
  · exact (s.clerkButton_inside l).trans (State.takeWindow_inside _ _)
  · exact (s.clerkButton_inside l).trans (State.buttonElsewhere_inside _ _)

theorem State.returnAt_inside (s : State) (l : LaneIx) : InsideIf c d s (s.returnAt l) := by
  unfold State.returnAt
  simp only
  split
  · exact (s.clerkButton_inside l).trans (State.askReturn_inside _ _)
  · exact (s.clerkButton_inside l).trans (State.buttonElsewhere_inside _ _)

theorem State.unattendedAt_inside (s : State) (l : LaneIx) : InsideIf c d s (s.unattendedAt l) := by
  unfold State.unattendedAt
  have a : InsideIf c d s ((s.modLane l (fun x => { x with unattended := .expired })).takeAttention l) :=
    (State.modLane_inside rfl (Nat.le_refl _)).trans (State.takeAttention_inside _ _)
  simp only
  split
  · exact a.trans (State.askReturn_inside _ _)
  · exact a

/-- R86, R87: an eye at an OPEN lane keeps its load within the capacity. -/
theorem State.laneEntry_inside {s : State} {l : LaneIx} (o : d → s.laneOpen l = true) : InsideIf c d s (s.laneEntry l) := by
  unfold State.laneEntry
  split
  · rename_i e rest h
    refine InsideIf.trans (State.modLane_inside rfl ?_) (State.modTote_inside (fun _ => .moved rfl rfl))
    unfold Lane.load
    simp [h]; omega
  · rename_i h
    unfold State.strayEntry
    split
    · rename_i room
      refine InsideIf.trans (State.modLane_inside_open rfl o fun _ _ => ?_) (State.raise_inside _ _)
      unfold Lane.load
      unfold State.occupied at room
      simp [h]; omega
    · exact s.raise_inside _

theorem State.present_inside (s : State) (l : LaneIx) : InsideIf c d s (s.present l) :=
  State.modLane_inside rfl (Nat.le_refl _)

theorem State.holdForeign_inside (s : State) (l : LaneIx) (x : Shown) : InsideIf c d s (s.holdForeign l x) :=
  (State.modLane_inside rfl (Nat.le_refl _)).trans (State.takeAttention_inside _ _)

theorem State.nameEntry_inside (s : State) (l : LaneIx) (j : Nat) (k : ToteSlot) : InsideIf c d s (s.nameEntry l j k) := by
  refine InsideIf.trans (State.modLane_inside rfl ?_) (State.modTote_inside (fun _ => .moved rfl rfl))
  unfold Lane.load Lane.forget
  simp

theorem State.noteEntry0_inside (s : State) (l : LaneIx) (t : Nat) : InsideIf c d s (s.noteEntry0 l t) := by
  refine State.modLane_inside rfl ?_
  unfold Lane.load
  simp

theorem State.foundTote_inside {s : State} {l : LaneIx} (o : d → s.laneOpen l = true) (x : Shown) :
    InsideIf c d s (s.foundTote l x) := by
  unfold State.foundTote
  split
  · rename_i room
    have q : ∀ e : QueueEntry, InsideIf c d s (s.modLane l (fun y => { y with queue := [e] })) := fun e => by
      refine State.modLane_inside_open rfl o fun _ _ => ?_
      unfold Lane.load
      unfold State.occupied State.incoming at room
      simp only [List.length_singleton]; omega
    refine InsideIf.trans (InsideIf.trans ?_ (State.present_inside _ l)) (State.raise_inside _ _)
    split
    · exact q _
    · split
      · exact (q _).trans (State.modTote_inside (fun _ => .moved rfl rfl))
      · exact q _
  · exact s.holdForeign_inside l x

theorem State.reconcile_inside {s : State} {l : LaneIx} (o : d → s.laneOpen l = true) (x : Shown) :
    InsideIf c d s (s.reconcile l x) := by
  unfold State.reconcile
  split
  · exact State.foundTote_inside o _
  · exact s.present_inside l
  · split
    · exact s.present_inside l
    · exact s.holdForeign_inside l _
  · exact s.present_inside l
  · split
    · exact (s.nameEntry_inside l _ _).trans (State.present_inside _ l)
    · exact (s.noteEntry0_inside l _).trans (State.present_inside _ l)

theorem State.scanForeign_inside {s : State} {l : LaneIx} (o : d → s.laneOpen l = true) (f : Foreign) (x : Shown) :
    InsideIf c d s (s.scanForeign l f x) := by
  unfold State.scanForeign
  split
  · exact .refl s
  · split
    · exact s.present_inside l
    · split
      · exact .refl s
      · have a : InsideIf c d s (s.modLane l (fun y => { y with foreign := none })) :=
          State.modLane_inside rfl (Nat.le_refl _)
        exact a.trans (State.reconcile_inside (by rw [a.laneOpen]; exact o) _)

theorem State.relocateToWindow_inside (s : State) (l : LaneIx) (x : Shown) : InsideIf c d s (s.relocateToWindow l x) := by
  unfold State.relocateToWindow
  split
  · exact .refl s
  · split
    · split
      · exact .refl s
      · exact (s.removeTote_inside _).trans (State.raise_inside _ _)
    · exact .refl s

theorem State.wantsReturn_steady {s : State} {l : LaneIx} (h : s.wantsReturn l = true) : s.run.state ≠ .estop := by
  unfold State.wantsReturn at h
  simp only [Bool.and_eq_true, bne_iff_ne] at h
  exact h.2

theorem State.returnTest_inside (s : State) (l : LaneIx) : InsideIf c d s (s.returnTest l) := by
  unfold State.returnTest
  split
  · rename_i h
    rw [Bool.and_eq_true] at h
    exact State.pushWindow_inside l (State.wantsReturn_steady h.1) h.2
  · exact .refl s

theorem State.showAtWindow_inside {s : State} {l : LaneIx} (o : d → s.laneOpen l = true) (x : Shown) :
    InsideIf c d s (s.showAtWindow l x) := by
  unfold State.showAtWindow
  have a : InsideIf c d s ((s.relocateToWindow l x).modLane l (fun y => { y with emptyScans := 0 })) :=
    (s.relocateToWindow_inside l x).trans (State.modLane_inside rfl (Nat.le_refl _))
  have o' : d → ((s.relocateToWindow l x).modLane l (fun y => { y with emptyScans := 0 })).laneOpen l = true := by
    rw [a.laneOpen]; exact o
  simp only
  split
  · exact a.trans (State.scanForeign_inside o' _ _)
  · exact a.trans (State.reconcile_inside o' _)

theorem State.scanShows_inside {s : State} {l : LaneIx} (o : d → s.laneOpen l = true) (x : Shown) :
    InsideIf c d s (s.scanShows l x) := by
  unfold State.scanShows
  simp only
  split
  · exact State.showAtWindow_inside o x
  · exact (State.showAtWindow_inside o x).trans (State.returnTest_inside _ l)

theorem State.scanEmpty_inside (s : State) (l : LaneIx) : InsideIf c d s (s.scanEmpty l) := by
  unfold State.scanEmpty
  split
  · split
    · exact State.modLane_inside rfl (Nat.le_refl _)
    · exact s.takenAt_inside l
  · exact .refl s

/-- A delivered result of the head reader of an OPEN lane. -/
theorem State.headResult_inside {s : State} {l : LaneIx} (o : d → s.laneOpen l = true) (r : ReadResult) :
    InsideIf c d s (s.headResult l r) := by
  unfold State.headResult
  split
  · exact State.scanShows_inside o _
  · exact State.scanShows_inside o _
  · exact s.scanEmpty_inside l
  · exact .refl s

theorem State.unready_inside (s : State) (l : LaneIx) (e : ReadyEntry) : InsideIf c d s (s.unready l e) := by
  unfold State.unready
  split
  · exact .refl s
  · split
    · exact .refl s
    · exact (State.modLane_inside rfl (Nat.le_refl _)).trans (State.putOrder_inside ‹_›)

theorem State.promote_inside (s : State) (l : LaneIx) (k : OrderSlot) : InsideIf c d s (s.promote l k) := by
  unfold State.promote
  split
  · exact .refl s
  · split
    · exact (State.modLane_inside rfl (Nat.le_refl _)).trans (State.putOrder_inside ‹_›)
    · exact .refl s

theorem State.evalReadiness_inside (s : State) (l : LaneIx) : InsideIf c d s (s.evalReadiness l) :=
  (InsideIf.foldl (fun t e => t.unready_inside l e) _ s).trans (InsideIf.foldl (fun t k => t.promote_inside l k) _ _)

theorem State.readiness_inside (s : State) : InsideIf c d s s.readiness := InsideIf.foldl State.evalReadiness_inside _ s

theorem State.advanceLane_inside (s : State) (l : LaneIx) : InsideIf c d s (s.advanceLane l) := by
  unfold State.advanceLane
  split
  · rename_i h
    unfold State.mayAdvance at h
    simp only [Bool.and_eq_true, bne_iff_ne] at h
    exact (State.modLane_inside rfl (Nat.le_refl _)).trans (State.hand_inside (fun _ w => absurd w.1 h.2))
  · exact .refl s

theorem State.unattendedLane_inside (s : State) (l : LaneIx) : InsideIf c d s (s.unattendedLane l) := by
  unfold State.unattendedLane
  split
  · exact State.modLane_inside rfl (Nat.le_refl _)
  · split
    · exact State.modLane_inside rfl (Nat.le_refl _)
    · exact .refl s

theorem Calm.lamp (a : Nat) (l : Lamp) : Calm (lampFrame a l) := .inr (.inl rfl)
theorem Calm.display (a : Nat) (ts : List Nat) : Calm (displayFrame a ts) := .inr (.inl rfl)
theorem Calm.driveHalt (a : Nat) : Calm (driveFrame a false) := .inl ⟨rfl, rfl⟩
theorem Calm.scan (a : Nat) : Calm (scanFrame a) := .inr (.inl rfl)

theorem State.updateCounter_inside (s : State) (l : LaneIx) (forced : Bool) : InsideIf c d s (s.updateCounter l forced) := by
  have lamp : InsideIf c d s (s.updateLamp l forced) := by
    unfold State.updateLamp
    split
    · exact (State.modLane_inside rfl (Nat.le_refl _)).trans (State.hand_inside (fun _ _ => .lamp _ _))
    · exact .refl s
  have display : ∀ t : State, InsideIf c d t (t.updateDisplay l forced) := fun t => by
    unfold State.updateDisplay
    split
    · exact (State.modLane_inside rfl (Nat.le_refl _)).trans (State.hand_inside (fun _ _ => .display _ _))
    · exact .refl t
  exact lamp.trans (display _)

theorem State.resendCounter_inside (s : State) (l : LaneIx) : InsideIf c d s (s.resendCounter l) :=
  (State.hand_inside (fun _ _ => .lamp _ _)).trans (State.hand_inside (fun _ _ => .display _ _))

/-! ## Merge and throttle -/

theorem State.holdMerge_inside (s : State) : InsideIf c d s s.holdMerge where

theorem State.releaseTote_inside (s : State) (k : ToteSlot) (limit : Nat) : InsideIf c d s (s.releaseTote k limit) :=
  State.placeOnLoop_inside (fun _ => ⟨fun h => ⟨Nat.zero_le _, h.2⟩, rfl, .inr (by simp)⟩)

theorem State.firstReleaseOf_inside (s : State) (k : ToteSlot) : InsideIf c d s (s.firstReleaseOf k) := by
  unfold State.firstReleaseOf
  split
  · exact s.firstRelease_inside _
  · exact .refl s

/-- A known head leaves its induct queue, and its record the inducts. -/
theorem State.popKnown_inside {s : State} {i : InductIx} {k : ToteSlot} {f : Tote → Tote} (h : s.knownHead i = some k)
    (b : ∀ x, Bounded s.cfg.site.lapLimit x (f x)) (n : ∀ x j, (f x).location ≠ .induct j) :
    InsideIf c d s ((s.putQueue i (s.queue i).tail).modTote k f) := by
  obtain ⟨e, rest, q, g⟩ : ∃ e rest, s.queue i = e :: rest ∧ e.tote = some k := by
    unfold State.knownHead at h
    split at h
    · rename_i e rest q
      exact ⟨e, rest, q, h⟩
    · simp at h
  rw [q, List.tail_cons]
  have left : ∀ j, ((s.putQueue i rest).queue j).length ≤ (s.queue j).length := fun j => by
    rw [State.queue_putQueue]
    split
    · rename_i e; subst e; rw [q]; simp
    · exact Nat.le_refl _
  have others : ∀ j p, p ≠ k → (∃ x ∈ s.queue j, x.tote = some p) → ∃ x ∈ (s.putQueue i rest).queue j, x.tote = some p :=
    fun j p ne ⟨x, m, t⟩ => by
      refine ⟨x, ?_, t⟩
      rw [State.queue_putQueue]
      split
      · rename_i e'; subst e'
        rw [q] at m
        rcases List.mem_cons.1 m with m | m
        · subst m; rw [g] at t; exact absurd (Option.some.inj t).symm ne
        · exact m
      · exact m
  refine
    { toWithin := (s.putQueue_within i rest).trans (State.modTote_within (fun x => (b x).1))
      counts := fun w a => State.modTote_counts (s := s.putQueue i rest) (fun x => (b x).2.1) w a
      places := fun w a => ?_ }
  unfold State.modTote
  split
  · rename_i x t
    have m : (k, x) ∈ s.totes := slotGet_mem t
    have e := beltCount_putTote (s := s.putQueue i rest) (y := f x) w m
    refine ⟨fun j => ⟨Nat.le_trans (left j) (a.1 j).1, fun p m' l => ?_⟩, ?_, a.2.2⟩
    · rcases mem_slotPut_of_mem w.2 m m' with r | ⟨r, ne⟩
      · rw [r] at l; exact absurd l (n x j)
      · exact others j _ ne ((a.1 j).2 p r l)
    · have z : (s.putQueue i rest).beltCount = s.beltCount := rfl
      have := a.2.1
      rcases (b x).2.2 with r | r
      · rw [r] at e; omega
      · rw [if_neg r.2] at e; omega
  · rename_i t
    refine ⟨fun j => ⟨Nat.le_trans (left j) (a.1 j).1, fun p m l => others j _ (fun r => ?_) ((a.1 j).2 p m l)⟩, a.2⟩
    have u := State.tote?_some w m
    rw [r] at u
    have t : s.tote? k = none := t
    rw [u] at t; simp at t

theorem State.grantInduct_inside {s : State} {i : InductIx} {k : ToteSlot} (h : s.run.state ≠ .estop)
    (head : s.knownHead i = some k) : InsideIf c d s (s.grantInduct i k) := by
  have a : InsideIf c d s (s.hand (stopFrame (s.inductCfg i).station)) := State.hand_inside (fun _ w => absurd w.1 h)
  have p : ∀ limit, InsideIf c d s
      (((s.hand (stopFrame (s.inductCfg i).station)).putQueue i (s.queue i).tail).releaseTote k limit) := fun limit => by
    unfold State.releaseTote State.placeOnLoop
    have q : InsideIf c d s (((s.hand (stopFrame (s.inductCfg i).station)).putQueue i (s.queue i).tail).modTote k
        (fun x => { { x with location := .loop, sighting := some .seen } with
          laps := 0, lastGate := none
          deadline := some
            (((s.hand (stopFrame (s.inductCfg i).station)).putQueue i (s.queue i).tail).deadlineFromMerge limit) })) :=
      a.trans (State.popKnown_inside (s := s.hand (stopFrame (s.inductCfg i).station)) head
        (fun _ => ⟨fun h => ⟨Nat.zero_le _, h.2⟩, rfl, .inr (by simp)⟩) (fun _ _ => by simp))
    simp only
    split
    · exact q.trans (State.driveReport_inside _)
    · exact q
  unfold State.grantInduct
  exact ((((p _).trans (State.holdMerge_inside _)).trans {}).trans (State.firstReleaseOf_inside _ k)).trans
    (State.restartIdle_inside _)

theorem State.grantBelt_inside {s : State} (h : s.run.state ≠ .estop) : InsideIf c d s s.grantBelt := by
  unfold State.grantBelt
  have a : InsideIf c d s (s.hand (stopFrame s.cfg.site.returnStation)) := State.hand_inside (fun _ w => absurd w.1 h)
  simp only
  split
  · exact ((((a.trans {}).trans (State.releaseTote_inside _ _ _)).trans (State.holdMerge_inside _)).trans
      (State.firstReleaseOf_inside _ _)).trans (State.restartIdle_inside _)
  · exact ((a.trans {}).trans (State.holdMerge_inside _)).trans (State.restartIdle_inside _)
  · exact .refl s

theorem State.trackRuns_ne_estop {s : State} (h : s.trackRuns = true) : s.run.state ≠ .estop := by
  unfold State.trackRuns at h
  intro e
  rw [e] at h
  exact absurd h (by decide)

theorem State.grant_inside (s : State) : InsideIf c d s s.grant := by
  unfold State.grant
  split
  · rename_i h
    unfold State.beltReleasable at h
    simp only [Bool.and_eq_true] at h
    exact State.grantBelt_inside (State.trackRuns_ne_estop h.1.1.2)
  · split
    · rename_i i h
      have w := List.mem_filter.1 (List.mem_of_find?_eq_some h)
      have w := w.2
      unfold State.inductReleasable at w
      simp only [Bool.and_eq_true, beq_iff_eq] at w
      split
      · rename_i head
        exact State.grantInduct_inside (by rw [w.1.1.1.2]; simp) head
      · exact .refl s
    · exact .refl s

theorem State.throttleTrigger_inside (s : State) : InsideIf c d s s.throttleTrigger := by
  have start : InsideIf c d s s.throttleStart := by
    unfold State.throttleStart
    simp only
    split <;> exact {}
  unfold State.throttleTrigger
  split
  · exact .refl s
  · exact s.raise_inside _
  all_goals exact start.trans (State.raise_inside _ _)

theorem State.samplingEnds_inside (s : State) : InsideIf c d s s.samplingEnds := by
  unfold State.samplingEnds
  have a : InsideIf c d s { s with throttle := s.throttle.windowEnds } := {}
  have u : InsideIf c d s (if s.throttleTests then ({ s with throttle := s.throttle.windowEnds } : State).throttleTrigger
      else { s with throttle := s.throttle.windowEnds }) := by
    split
    · exact a.trans (State.throttleTrigger_inside _)
    · exact a
  have v : ∀ x : State, InsideIf c d x
      (if x.throttle.throttled && x.throttle.windowsLeft == 0 then { x with throttle := x.throttle.toNormal } else x) :=
    fun x => by split <;> exact {}
  exact (u.trans (v _)).trans {}

theorem State.monitorRestart_inside (s : State) : InsideIf c d s s.monitorRestart where

end Sys2Proof.Machine
end

