-- ==== Sys2Proof/Laws/Forms.lean ====
section
/-! SUPPORT. What the shared operations on lists give: sorting, a put in a table, the first entry that a
RESTORE-LANE fails at; and what one lamp and display update does to a lane. -/

namespace Sys2Proof.Machine

/-! ## Sorting -/

theorem insertBy_perm {α : Type} (key : α → Nat) (x : α) (l : List α) : (insertBy key x l).Perm (x :: l) := by
  induction l with
  | nil => exact .refl _
  | cons y r ih =>
    unfold insertBy
    split
    · exact (ih.cons y).trans (.swap x y r)
    · exact .refl _

theorem insertBy_sorted {α : Type} (key : α → Nat) (x : α) (l : List α) (h : l.Pairwise (fun a b => key a ≤ key b)) :
    (insertBy key x l).Pairwise (fun a b => key a ≤ key b) := by
  induction l with
  | nil => simp [insertBy]
  | cons y r ih =>
    rw [List.pairwise_cons] at h
    unfold insertBy
    split
    · rw [List.pairwise_cons]
      refine ⟨fun b m => ?_, ih h.2⟩
      rcases List.mem_cons.1 ((insertBy_perm key x r).mem_iff.1 m) with e | m
      · subst e; assumption
      · exact h.1 b m
    · rw [List.pairwise_cons, List.pairwise_cons]
      refine ⟨fun b m => ?_, h⟩
      rcases List.mem_cons.1 m with e | m
      · subst e; omega
      · have := h.1 b m; omega

/-- A sorted list has the same entries, in rising order of the key. -/
theorem sortBy_spec {α : Type} (key : α → Nat) (l : List α) :
    (sortBy key l).Perm l ∧ (sortBy key l).Pairwise (fun a b => key a ≤ key b) := by
  have fold : ∀ l acc : List α, acc.Pairwise (fun a b => key a ≤ key b) →
      (l.foldl (fun acc x => insertBy key x acc) acc).Perm (acc ++ l) ∧
      (l.foldl (fun acc x => insertBy key x acc) acc).Pairwise (fun a b => key a ≤ key b) := by
    intro l
    induction l with
    | nil => intro acc h; simpa using h
    | cons x r ih =>
      intro acc h
      obtain ⟨p, q⟩ := ih _ (insertBy_sorted key x acc h)
      exact ⟨p.trans (((insertBy_perm key x acc).append_right r).trans List.perm_middle.symm), q⟩
  simpa [sortBy] using fold l [] .nil

/-! ## Tables -/

theorem slotGet_map {α : Type} (k : Nat) (f : Nat → α → α) (t : List (Nat × α)) :
    slotGet k (t.map (fun p => (p.1, f p.1 p.2))) = (slotGet k t).map (f k) := by
  induction t with
  | nil => rfl
  | cons p r ih => obtain ⟨j, x⟩ := p; simp only [List.map_cons, slotGet]; split <;> simp_all

/-- A put at a key that a canonical table has changes that entry alone. -/
theorem slotPut_eq_map {α : Type} {n k : Nat} {x y : α} {t : List (Nat × α)} (w : Slots.wf n t)
    (h : slotGet k t = some x) : slotPut k y t = t.map (fun q => (q.1, if q.1 = k then y else q.2)) := by
  obtain ⟨w, -⟩ := w
  induction t with
  | nil => simp [slotGet] at h
  | cons p r ih =>
    obtain ⟨j, z⟩ := p
    rw [List.map_cons, List.pairwise_cons] at w
    unfold slotGet at h
    split_ifs at h with c
    · subst c
      cases h
      simp only [slotPut, Nat.lt_irrefl, if_false, if_true, List.map_cons, List.cons.injEq, true_and]
      symm
      rw [List.map_congr_left (g := id), List.map_id]
      intro q m
      have := w.1 q.1 (List.mem_map_of_mem m)
      rw [if_neg (by omega)]
      rfl
    · have lt : j < k := w.1 k (List.mem_map_of_mem (f := (·.1)) (slotGet_mem h))
      simp [slotPut, Nat.not_lt.2 (Nat.le_of_lt lt), Ne.symm c, c, ih h w.2]

/-! ## RESTORE-LANE -/

theorem State.restorable_iff (s : State) (l : LaneIx) (t : Nat) :
    s.restorable l t = true ↔ ∃ k x o, s.findTote t = some (k, x) ∧ x.location = .unplaced ∧
      s.order? x.order = some o ∧ (o.state = .unassigned ∨ o.state = .routed l) := by
  unfold State.restorable
  constructor
  · intro h
    split at h
    · rename_i k x hf
      rw [Bool.and_eq_true] at h
      obtain ⟨h1, h2⟩ := h
      split at h2
      · rename_i o ho
        exact ⟨k, x, o, hf, by simpa using h1, ho, by simpa using h2⟩
      · cases h2
    · cases h
  · rintro ⟨k, x, o, a, b, c, d⟩
    simp [a, b, c]
    simpa using d

/-- R40 check 4 fails at position n of the entries, of which `seen` came before. -/
abbrev RestoreFails (s : State) (l : LaneIx) (seen tags : List Nat) (n : Nat) : Prop :=
  tags.getD n 0 ≠ 0 ∧
    (tags.getD n 0 ∈ seen ∨ tags.getD n 0 ∈ tags.take n ∨ s.restorable l (tags.getD n 0) = false)

theorem State.restoreFault_some (s : State) (l : LaneIx) (tags : List Nat) :
    ∀ (seen : List Nat) (n m : Nat), m < tags.length → RestoreFails s l seen tags m →
      (∀ j < m, ¬RestoreFails s l seen tags j) → s.restoreFault l seen tags n = some (n + m) := by
  induction tags with
  | nil => intro _ _ m h; cases h
  | cons t r ih =>
    intro seen n m lt g first
    unfold State.restoreFault
    cases m with
    | zero =>
      rw [if_pos]
      · rfl
      · obtain ⟨a, b⟩ := g
        simp at a b
        exact ⟨a, by simpa using b⟩
    | succ m =>
      rw [if_neg, ih (t :: seen) (n + 1) m (by simpa using lt)]
      · congr 1; omega
      · obtain ⟨a, b⟩ := g
        refine ⟨by simpa using a, ?_⟩
        simp at b ⊢
        tauto
      · rintro j hj ⟨a, b⟩
        refine first (j + 1) (by omega) ⟨by simpa using a, ?_⟩
        simp at b ⊢
        tauto
      · rintro ⟨a, b⟩
        exact first 0 (by omega) ⟨by simpa using a, by simpa using b⟩

theorem State.restoreFault_none (s : State) (l : LaneIx) (tags : List Nat) :
    ∀ (seen : List Nat) (n : Nat), (∀ j < tags.length, ¬RestoreFails s l seen tags j) →
      s.restoreFault l seen tags n = none := by
  induction tags with
  | nil => intros; rfl
  | cons t r ih =>
    intro seen n first
    unfold State.restoreFault
    rw [if_neg, ih]
    · rintro j hj ⟨a, b⟩
      refine first (j + 1) (by simpa using hj) ⟨by simpa using a, ?_⟩
      simp at b ⊢
      tauto
    · rintro ⟨a, b⟩
      exact first 0 (by simp) ⟨by simpa using a, by simpa using b⟩

/-! ## Lamp and display -/

/-- What is handed over last for a lane does not enter what is derived for any lane. -/
theorem State.derived_putLane (s : State) (m j : LaneIx) (p : Lamp) (d : List Nat) :
    (s.putLane m { s.lane m with lamp := p, display := d }).lampOf j = s.lampOf j ∧
    (s.putLane m { s.lane m with lamp := p, display := d }).displayOf j = s.displayOf j := by
  constructor <;>
  · by_cases c : m = j
    · subst c
      simp [State.lampOf, State.displayOf, State.laneOpen, State.entry0Ready, State.tote?, State.order?, State.ticketOf]
    · simp [State.lampOf, State.displayOf, State.laneOpen, State.entry0Ready, State.tote?, State.order?,
        State.ticketOf, State.lane_putLane, c]

/-- The frames that an update of a lane hands over. -/
def State.counterFrames (s : State) (m : LaneIx) (f : Bool) : List Frame :=
  (if f = true ∨ (s.lane m).lamp ≠ s.lampOf m then [lampFrame (s.laneCfg m).station (s.lampOf m)] else []) ++
  (if f = true ∨ (s.lane m).display ≠ s.displayOf m then [displayFrame (s.laneCfg m).station (s.displayOf m)] else [])

/-- An update of a lane leaves its lamp and display as derived, and hands over the frames of what changed; forced,
both of them. -/
theorem State.updateCounter_spec (s : State) (m : LaneIx) (f : Bool) :
    s.updateCounter m f =
      { s.putLane m { s.lane m with lamp := s.lampOf m, display := s.displayOf m } with
        ring := { s.ring with outbox := s.ring.outbox ++ s.counterFrames m f } } := by
  have lamp : s.updateLamp m f =
      { s.putLane m { s.lane m with lamp := s.lampOf m } with
        ring := { s.ring with outbox := s.ring.outbox ++
          if f = true ∨ (s.lane m).lamp ≠ s.lampOf m then [lampFrame (s.laneCfg m).station (s.lampOf m)] else [] } } := by
    unfold State.updateLamp
    split
    · rename_i h
      simp only [Bool.or_eq_true, bne_iff_ne] at h
      rw [if_pos h]; rfl
    · rename_i h
      simp only [Bool.or_eq_true, bne_iff_ne] at h
      rw [if_neg h]
      simp only [ne_eq, not_or, not_not] at h
      rw [← h.2]
      show s = { s.putLane m (s.lane m) with ring := { s.ring with outbox := s.ring.outbox ++ [] } }
      rw [List.append_nil, State.putLane, State.lane, setRow_row]
  have shown : (s.updateLamp m f).displayOf m = s.displayOf m := by
    rw [lamp]
    exact (s.derived_putLane m m (s.lampOf m) (s.lane m).display).2
  have at_ : (s.updateLamp m f).lane m = { s.lane m with lamp := s.lampOf m } := by
    rw [lamp]
    exact s.lane_putLane_same m _
  unfold State.updateCounter State.updateDisplay State.counterFrames
  rw [shown, at_]
  split
  · rename_i h
    simp only [Bool.or_eq_true, bne_iff_ne] at h
    rw [if_pos h]
    unfold State.modLane
    rw [at_, lamp]
    simp [State.putLane, State.hand, State.laneCfg]
  · rename_i h
    simp only [Bool.or_eq_true, bne_iff_ne] at h
    rw [if_neg h, lamp]
    simp only [ne_eq, not_or, not_not] at h
    rw [← h.2, List.append_nil]

end Sys2Proof.Machine
end

