-- ==== Sys2Proof/Laws/Reception.lean ====
section
/-! SUPPORT. What the reception of a frame comes to: the event of a consumed frame of a station and of a
request, and the event of taking the oldest request. -/

namespace Sys2Proof.Machine

theorem State.endReception_of_quiet {s : State} (h : Quiet s) : s.endReception = s := by
  unfold State.endReception
  rw [← h.2]

@[simp] theorem Header.frame_src (h : Header) (k : Byte) (p : List Byte) : (Header.frame h k p).src = h.src := rfl
@[simp] theorem Header.frame_dest (h : Header) (k : Byte) (p : List Byte) : (Header.frame h k p).dest = h.dest := rfl
@[simp] theorem Header.frame_kind (h : Header) (k : Byte) (p : List Byte) : (Header.frame h k p).kind = k := rfl
@[simp] theorem Header.frame_payload (h : Header) (k : Byte) (p : List Byte) :
    (Header.frame h k p).payload = p := rfl

/-- R158, R159: a frame to the part or to all that passes reception is consumed, and passed on where it was
sent to all. -/
theorem receiveFrame_consumed {s : State} {h : Header} {k : Byte} {p : List Byte} (q : Quiet s)
    (r : s.ring.ready = true) (d : h.dest = 0x01#8 ∨ h.dest = 0x3F#8) (src : h.src ≠ 0x01#8) (len : p.length ≤ 32) :
    receiveFrame (Header.frame h k p) s = closeEvent s (passOn h k p (s.consume (Header.frame h k p))) := by
  have len' : ¬32 < p.length := by omega
  rcases d with d | d <;>
    simp [receiveFrame, r, d, src, len', State.dispose, passOn, State.endReception_of_quiet q]

/-- R160: a frame of a station kind from a named address is acted on by its kind. -/
theorem State.consume_station {s : State} {h : Header} {k : Byte} {p : List Byte} (n : s.named h.src.toNat = true)
    (kr : k ≠ Kind.request) (ke : k ≠ Kind.estop) (len : stationLength k = some p.length) :
    s.consume (Header.frame h k p) = s.stationFrame (Header.frame h k p) := by
  simp [State.consume, State.takesFrom, kr, ke, len, n]

theorem receiveFrame_heard {s : State} {h : Header} {k : Byte} {p : List Byte} (q : Quiet s) (hd : Heard s h)
    (kr : k ≠ Kind.request) (ke : k ≠ Kind.estop) (len : stationLength k = some p.length) (le : p.length ≤ 32) :
    receiveFrame (Header.frame h k p) s = closeEvent s (passOn h k p (s.stationFrame (Header.frame h k p))) := by
  rw [receiveFrame_consumed q hd.1 hd.2.1 hd.2.2.1 le, State.consume_station hd.2.2.2 kr ke len]

/-- R161: an EYE frame goes where its role byte sends it. -/
theorem receive_eye {s : State} {h : Header} {role : Byte} (q : Quiet s) (hd : Heard s h) :
    receiveFrame (Header.frame h Kind.eye [role]) s =
      closeEvent s (passOn h Kind.eye [role] (s.eyeFrame h.src.toNat role.toNat)) := by
  rw [receiveFrame_heard q hd (by decide) (by decide) (by simp [stationLength]; try decide) (by simp)]
  rfl

/-- R161: a BUTTON frame goes where its payload sends it. -/
theorem receive_button {s : State} {h : Header} {b : Byte} (q : Quiet s) (hd : Heard s h) :
    receiveFrame (Header.frame h Kind.button [b]) s =
      closeEvent s (passOn h Kind.button [b] (s.buttonFrame h.src.toNat b.toNat)) := by
  rw [receiveFrame_heard q hd (by decide) (by decide) (by simp [stationLength]; try decide) (by simp)]
  rfl

theorem receive_stationUp {s : State} {h : Header} (q : Quiet s) (hd : Heard s h) :
    receiveFrame (Header.frame h Kind.stationUp []) s =
      closeEvent s (passOn h Kind.stationUp [] (s.stationIsUp h.src.toNat)) := by
  rw [receiveFrame_heard q hd (by decide) (by decide) rfl (by decide)]
  rfl

/-- R161, R46: a result frame goes to the Reader Unit. -/
theorem exec_result {s : State} {h : Header} {c : Instr} {res : ReadResult} {k : Byte} {p : List Byte}
    (q : Quiet s) (hd : Heard s h) (row : ResultRow h c res k p) :
    exec c s = .next (closeEvent s (passOn h k p (s.resultFrame h.src.toNat res))) := by
  rcases row with ⟨v, rfl, rfl, rfl, rfl⟩ | ⟨rfl, rfl, rfl, rfl⟩ | ⟨rfl, rfl, rfl, rfl⟩
  · show Host.Outcome.next _ = _
    rw [receiveFrame_heard q hd (by decide) (by decide) (by simp [stationLength, bytes16]; decide) (by simp [bytes16])]
    have : wordAt (bytes16 v) 0 = v.toNat := by
      have := v.isLt
      simp [wordAt, byteAt, bytes16]
      omega
    simp [State.stationFrame, this, Kind.tag, Kind.eye]
  · show Host.Outcome.next _ = _
    rw [receiveFrame_heard q hd (by decide) (by decide) rfl (by decide)]
    rfl
  · show Host.Outcome.next _ = _
    rw [receiveFrame_heard q hd (by decide) (by decide) rfl (by decide)]
    rfl

/-- The four EYE rows that reach triggered readers. -/
theorem exec_trigger {s : State} {h : Header} {c : Instr} {rs : List ReaderIx} {role : Byte}
    (q : Quiet s) (hd : Heard s h) (row : TriggerRow h c rs role) :
    exec c s = .next (closeEvent s (passOn h Kind.eye [role] (s.eye rs h.src.toNat))) := by
  rcases row with ⟨rfl, rfl, rfl⟩ | ⟨rfl, rfl, rfl⟩ | ⟨rfl, rfl, rfl⟩ | ⟨rfl, rfl, rfl⟩ <;>
  · show Host.Outcome.next _ = _
    rw [receive_eye q hd]
    rfl

/-- R168 to R170: the event of a request that is taken. -/
theorem takeRequest_taken {s : State} {c : Instr} {f : Request → State → Reply} {r : Request} {rest : List Request}
    (h : Asked s c r rest) :
    takeRequest c f s = closeEvent s (respond r (carryOut f r (s.popRequest rest))) := by
  obtain ⟨b, room, row⟩ := h
  simp [takeRequest, b, State.takes, room, row]

theorem takeRequest_well {s : State} {c : Instr} {f : Request → State → Reply} {r : Request} {rest : List Request}
    (h : AskedWell s c r rest) :
    takeRequest c f s = closeEvent s (respond r (f r (s.popRequest rest))) := by
  rw [takeRequest_taken h.1]
  simp [carryOut, h.2]

end Sys2Proof.Machine
end

