-- ==== Sys2Proof/Laws/Ring.lean ====
section
/-! SUPPORT. The Ring Port's transmit side: everything that placing a frame, choosing one and beginning its
transmission can do (Placed), and what the end of an event does. -/

namespace Sys2Proof.Machine

/-- The flags that the Ring Port raises by itself when frames are placed. -/
def portFlags : BitVec 20 := Flag.forwardDrop.only ||| Flag.txOverrun.only

/-- A head reader that waits for its SCAN, and the reader after its SCAN begins transmission. -/
def scanOpens (now : Time) (x y : Reader) : Prop :=
  x.cycle = .wait ∧ x.scanPending = true ∧
    y = { x with cycle := .opened, scanPending := false, window := some (now + milliseconds 250) }

/-- The sizes of the Ring Port's queues (R159, R162, R164). -/
def PortBounds (p : RingPort) : Prop :=
  p.urgent.length ≤ 16 ∧ p.routine.length ≤ 32 ∧ p.forward.length ≤ 4 ∧ p.waitCount ≤ 8

/-- Everything that the placing of frames and the ring-output arbiter can do to the state. -/
structure Placed (s t : State) : Prop where
  rest : { t with ring := s.ring, readers := s.readers, req := s.req } = s
  outbox : t.ring.outbox = s.ring.outbox
  ready : t.ring.ready = s.ring.ready
  readyBy : t.ring.readyBy = s.ring.readyBy
  reception : t.ring.reception = s.ring.reception
  gap : t.ring.gap = s.ring.gap
  req : ∃ m, t.req = { s.req with flags := s.req.flags ||| m } ∧ m &&& ~~~portFlags = 0
  readers : ∀ r, t.reader r = s.reader r ∨ scanOpens s.now (s.reader r) (t.reader r)
  bounds : PortBounds s.ring → PortBounds t.ring

namespace Placed

theorem now {s t : State} (h : Placed s t) : t.now = s.now := by
  have e := congrArg State.now h.rest
  exact e

theorem refl (s : State) : Placed s s where
  rest := rfl
  outbox := rfl
  ready := rfl
  readyBy := rfl
  reception := rfl
  gap := rfl
  req := ⟨0, by simp, by simp⟩
  readers := fun _ => .inl rfl
  bounds := id

theorem trans {s t u : State} (a : Placed s t) (b : Placed t u) : Placed s u where
  rest := by
    have h := b.rest
    have h' := a.rest
    rw [← h] at h'
    exact h'
  outbox := b.outbox.trans a.outbox
  ready := b.ready.trans a.ready
  readyBy := b.readyBy.trans a.readyBy
  reception := b.reception.trans a.reception
  gap := b.gap.trans a.gap
  req := by
    obtain ⟨m, hm, hz⟩ := a.req
    obtain ⟨n, hn, hy⟩ := b.req
    refine ⟨m ||| n, ?_, ?_⟩
    · rw [hn, hm]; simp [BitVec.or_assoc]
    · have : (m ||| n) &&& ~~~portFlags = (m &&& ~~~portFlags) ||| (n &&& ~~~portFlags) := by
        ext i; simp; cases m[i] <;> simp
      rw [this, hz, hy]; rfl
  readers := fun r => by
    rcases a.readers r with h | h <;> rcases b.readers r with k | k
    · exact .inl (k.trans h)
    · rw [h, a.now] at k; exact .inr k
    · rw [← k] at h; exact .inr h
    · obtain ⟨-, -, e⟩ := h
      obtain ⟨c, -, -⟩ := k
      rw [e] at c; simp at c
  bounds := fun h => b.bounds (a.bounds h)

theorem pending {s t : State} (h : Placed s t) : t.pending = s.pending := by
  have e := congrArg State.pending h.rest
  exact e
theorem choices {s t : State} (h : Placed s t) : t.choices = s.choices := by
  have e := congrArg State.choices h.rest
  exact e
theorem cfg {s t : State} (h : Placed s t) : t.cfg = s.cfg := by
  have e := congrArg State.cfg h.rest
  exact e
theorem orders {s t : State} (h : Placed s t) : t.orders = s.orders := by
  have e := congrArg State.orders h.rest
  exact e
theorem totes {s t : State} (h : Placed s t) : t.totes = s.totes := by
  have e := congrArg State.totes h.rest
  exact e
theorem lanes {s t : State} (h : Placed s t) : t.lanes = s.lanes := by
  have e := congrArg State.lanes h.rest
  exact e
theorem willcall {s t : State} (h : Placed s t) : t.willcall = s.willcall := by
  have e := congrArg State.willcall h.rest
  exact e
theorem merge {s t : State} (h : Placed s t) : t.merge = s.merge := by
  have e := congrArg State.merge h.rest
  exact e
theorem throttle {s t : State} (h : Placed s t) : t.throttle = s.throttle := by
  have e := congrArg State.throttle h.rest
  exact e
theorem drive {s t : State} (h : Placed s t) : t.drive = s.drive := by
  have e := congrArg State.drive h.rest
  exact e
theorem run {s t : State} (h : Placed s t) : t.run = s.run := by
  have e := congrArg State.run h.rest
  exact e

theorem lock {s t : State} (h : Placed s t) : t.req.lock = s.req.lock := by
  obtain ⟨m, e, -⟩ := h.req; rw [e]
theorem service {s t : State} (h : Placed s t) : t.req.service = s.req.service := by
  obtain ⟨m, e, -⟩ := h.req; rw [e]
theorem mask {s t : State} (h : Placed s t) : t.req.mask = s.req.mask := by
  obtain ⟨m, e, -⟩ := h.req; rw [e]
theorem buffer {s t : State} (h : Placed s t) : t.req.buffer = s.req.buffer := by
  obtain ⟨m, e, -⟩ := h.req; rw [e]

/-- A change of the ring alone that keeps what is no queue, buffer, count or transmission. -/
theorem ofRing {s : State} {p : RingPort} (o : p.outbox = s.ring.outbox) (r : p.ready = s.ring.ready)
    (b : p.readyBy = s.ring.readyBy) (c : p.reception = s.ring.reception)
    (g : p.gap = s.ring.gap) (w : PortBounds s.ring → PortBounds p) : Placed s { s with ring := p } where
  rest := rfl
  outbox := o
  ready := r
  readyBy := b
  reception := c
  gap := g
  req := ⟨0, by simp, by simp⟩
  readers := fun _ => .inl rfl
  bounds := w

/-- A raise of one of the port's own flags. -/
theorem ofRaise (s : State) (f : Flag) (h : f.only &&& ~~~portFlags = 0) : Placed s (s.raise f) where
  rest := rfl
  outbox := rfl
  ready := rfl
  readyBy := rfl
  reception := rfl
  gap := rfl
  req := ⟨f.only, rfl, h⟩
  readers := fun _ => .inl rfl
  bounds := id

end Placed

theorem State.scanReport_placed (s : State) (a : Nat) : Placed s (s.scanReport a) := by
  unfold State.scanReport
  split
  · rename_i l h
    have w := List.find?_some h
    simp only [Bool.and_eq_true, beq_iff_eq] at w
    refine ⟨rfl, rfl, rfl, rfl, rfl, rfl, ⟨0, by simp, by simp⟩, fun r => ?_, id⟩
    rw [State.reader_putReader]
    split
    · rename_i e; subst e
      exact .inr ⟨w.1.2, w.2, rfl⟩
    · exact .inl rfl
  · exact .refl s

theorem State.begin_placed (s : State) (f : Frame) : Placed s (s.begin f) := by
  have a : Placed s { s with ring := { s.ring with transmission := some ⟨f, s.now + Frame.span f⟩ } } :=
    .ofRing rfl rfl rfl rfl rfl id
  unfold State.begin
  simp only
  split
  · exact a.trans (State.scanReport_placed _ _)
  · exact a

theorem State.countWait_placed (s : State) : Placed s s.countWait := by
  unfold State.countWait
  split
  · exact .refl s
  · exact .ofRing rfl rfl rfl rfl rfl (fun h => ⟨h.1, h.2.1, h.2.2.1, Nat.min_le_left _ _⟩)

theorem State.choose_placed (s : State) : Placed s s.choose := by
  have routine : ∀ f rest, s.ring.routine = f :: rest → Placed s (s.sendRoutine f rest) := fun f rest h =>
    (Placed.ofRing (p := { s.ring with routine := rest, waitCount := 0 }) rfl rfl rfl rfl rfl (fun w => ⟨w.1, by
      have b := w.2.1; rw [h, List.length_cons] at b; exact Nat.le_of_succ_le b, w.2.2.1, Nat.zero_le _⟩)).trans (State.begin_placed _ _)
  have urgent : ∀ f rest, s.ring.urgent = f :: rest → Placed s (s.sendUrgent f rest) := fun f rest h =>
    ((Placed.ofRing (p := { s.ring with urgent := rest }) rfl rfl rfl rfl rfl (fun w => ⟨by
      have b := w.1; rw [h, List.length_cons] at b; exact Nat.le_of_succ_le b, w.2⟩)).trans (State.countWait_placed _)).trans (State.begin_placed _ _)
  have forward : ∀ f rest, s.ring.forward = f :: rest → Placed s (s.sendForward f rest) := fun f rest h =>
    ((Placed.ofRing (p := { s.ring with forward := rest }) rfl rfl rfl rfl rfl (fun w => ⟨w.1, w.2.1, by
      have b := w.2.2.1; rw [h, List.length_cons] at b; exact Nat.le_of_succ_le b, w.2.2.2⟩)).trans (State.countWait_placed _)).trans (State.begin_placed _ _)
  unfold State.choose
  split
  · exact .refl s
  · exact routine _ _ ‹_›
  · exact forward _ _ ‹_›
  · split
    · exact routine _ _ ‹_›
    · exact forward _ _ ‹_›
  · exact urgent _ _ ‹_›
  · split
    · exact routine _ _ ‹_›
    · exact urgent _ _ ‹_›

theorem State.arbitrate_placed (s : State) : Placed s s.arbitrate := by
  unfold State.arbitrate
  split
  · exact .refl s
  · exact State.choose_placed s

@[simp] theorem replaceIn_length (f : Frame) (q : List Frame) : (replaceIn f q).length = q.length := by
  induction q with
  | nil => rfl
  | cons g r ih =>
    unfold replaceIn
    split <;> simp [ih]

theorem State.placeUrgent_placed (s : State) (f : Frame) : Placed s (s.placeUrgent f) := by
  unfold State.placeUrgent
  split
  · exact .ofRing rfl rfl rfl rfl rfl (fun w => ⟨by simp; omega, w.2⟩)
  · exact .ofRaise s _ (by decide)

theorem State.placeRoutine_placed (s : State) (f : Frame) : Placed s (s.placeRoutine f) := by
  unfold State.placeRoutine
  split
  · exact .ofRing rfl rfl rfl rfl rfl (fun w => ⟨w.1, by simpa using w.2.1, w.2.2⟩)
  · split
    · exact .ofRing rfl rfl rfl rfl rfl (fun w => ⟨w.1, by simp; omega, w.2.2⟩)
    · exact .ofRaise s _ (by decide)

theorem State.placeForward_placed (s : State) (f : Frame) : Placed s (s.placeForward f) := by
  unfold State.placeForward
  split
  · exact .ofRing rfl rfl rfl rfl rfl (fun w => ⟨w.1, w.2.1, by simp; omega, w.2.2.2⟩)
  · exact .ofRaise s _ (by decide)

theorem State.place_placed (s : State) (f : Frame) : Placed s (s.place f) := by
  unfold State.place
  refine Placed.trans ?_ (State.arbitrate_placed _)
  split
  · exact State.placeForward_placed s f
  · split
    · exact State.placeUrgent_placed s f
    · exact State.placeRoutine_placed s f

theorem foldl_placed (fs : List Frame) (s : State) : Placed s (fs.foldl State.place s) := by
  induction fs generalizing s with
  | nil => exact .refl s
  | cons f r ih => exact (State.place_placed s f).trans (ih _)

/-- The frames of the event are placed: a placement from the state with the outbox emptied. -/
theorem State.placeAll_placed (s : State) : Placed { s with ring := { s.ring with outbox := [] } } s.placeAll :=
  foldl_placed _ _

theorem State.notify_placed (s : State) (b : BitVec 20) : Placed s (s.notify b) := by
  unfold State.notify
  split
  · exact .refl s
  · exact State.place_placed s _

/-- The end of an event: a placement from the state with the outbox emptied. -/
theorem closeEvent_placed (before s : State) :
    Placed { s with ring := { s.ring with outbox := [] } } (closeEvent before s) :=
  (State.placeAll_placed s).trans (State.notify_placed _ _)

/-! ## The beginning of a transmission, and the arbiter's turn -/

/-- The lowest lane of which a test holds. -/
theorem find_lowestLane (p : LaneIx → Bool) (l : LaneIx) (h : p l = true) (low : ∀ m < l, p m = false) :
    allLanes.find? p = some l := by
  have e : allLanes = List.finRange 12 := by decide
  rw [e, List.find?_eq_some_iff_getElem]
  refine ⟨h, l.val, by simp, by simp, fun j hj => ?_⟩
  simpa using low ⟨j, by omega⟩ hj

/-- The test of scanReport is AwaitsScan. -/
theorem awaitsScan_iff (s : State) (a : Nat) (l : LaneIx) :
    (s.lanePresent l && (s.laneCfg l).station == a && (s.reader (headReader l)).cycle == .wait &&
      (s.reader (headReader l)).scanPending) = true ↔ AwaitsScan s a l := by
  simp [State.lanePresent, LaneEntry.present, and_assoc]

/-- R53: a report that no head reader waits for is ignored. -/
theorem State.scanReport_ignored {s : State} {a : Nat} (h : ∀ l, ¬AwaitsScan s a l) : s.scanReport a = s := by
  unfold State.scanReport
  rw [List.find?_eq_none.2 (fun l _ c => h l ((awaitsScan_iff s a l).1 c))]

/-- R53: the lowest head reader that waits for its SCAN opens its window. -/
theorem State.scanReport_opens {s : State} {a : Nat} {l : LaneIx} (w : AwaitsScan s a l)
    (low : ∀ m < l, ¬AwaitsScan s a m) :
    s.scanReport a = s.putReader (headReader l) { s.reader (headReader l) with
      cycle := .opened, scanPending := false, window := some (s.now + milliseconds 250) } := by
  unfold State.scanReport
  rw [find_lowestLane _ l ((awaitsScan_iff s a l).2 w) (fun m lt => by
    by_contra c
    exact low m lt ((awaitsScan_iff s a m).1 (Bool.eq_true_of_not_eq_false c)))]

/-- R164, R165, R53: the beginning of a transmission. -/
theorem State.begin_begins (v : State) (f : Frame) : Begins v f (v.begin f) := by
  have span : v.now + Frame.span f = v.now + 7 + f.payload.length + 2 :=
    (by omega : ∀ a b : Nat, a + (7 + b + 2) = a + 7 + b + 2) _ _
  unfold State.begin
  simp only [span]
  refine ⟨fun h => ?_, fun l k w low => ?_⟩
  · by_cases k : f.kind = Kind.scan
    · rw [if_pos (by simp [k])]
      exact State.scanReport_ignored (h.resolve_left (fun c => c k))
    · rw [if_neg (by simpa using k)]
  · rw [if_pos (by simp [k])]
    exact State.scanReport_opens w low

/-- R164: while RING OUT is in use, or a gap is owed, the arbiter leaves the state alone. -/
theorem State.arbitrate_busy {s : State} (h : s.ring.transmission ≠ none ∨ s.ring.gap ≠ none) : s.arbitrate = s := by
  unfold State.arbitrate
  rw [if_pos]
  rcases h with h | h <;> simp [Option.isSome_iff_ne_none, h]

/-- R164: while RING OUT is free the arbiter chooses. -/
theorem State.arbitrate_free {s : State} (h : ¬(s.ring.transmission ≠ none ∨ s.ring.gap ≠ none)) :
    s.arbitrate = s.choose := by
  unfold State.arbitrate
  rw [if_neg]
  push Not at h
  simp [h.1, h.2]

theorem RingPort.ends_eq (p : RingPort) : p.ends = (p.transmission.map (·.ends)).or p.gap := by
  unfold RingPort.ends; cases p.transmission <;> rfl

/-! ## Where urgent frames come from -/

@[simp] theorem State.scanReport_ring (s : State) (a : Nat) : (s.scanReport a).ring = s.ring := by
  unfold State.scanReport; split <;> rfl

@[simp] theorem State.begin_urgent (s : State) (f : Frame) : (s.begin f).ring.urgent = s.ring.urgent := by
  unfold State.begin
  simp only
  split
  · rw [State.scanReport_ring]
  · rfl

@[simp] theorem State.countWait_urgent (s : State) : s.countWait.ring.urgent = s.ring.urgent := by
  unfold State.countWait; split <;> rfl

/-- The arbiter takes urgent frames away and adds none. -/
theorem State.choose_urgent (s : State) {f : Frame} (h : f ∈ s.choose.ring.urgent) : f ∈ s.ring.urgent := by
  have routine : ∀ g rest, (s.sendRoutine g rest).ring.urgent = s.ring.urgent := fun _ _ =>
    State.begin_urgent _ _
  have urgent : ∀ g rest, (s.sendUrgent g rest).ring.urgent = rest := fun _ _ => by
    unfold State.sendUrgent; simp
  have forward : ∀ g rest, (s.sendForward g rest).ring.urgent = s.ring.urgent := fun _ _ => by
    unfold State.sendForward; simp
  unfold State.choose at h
  split at h
  · exact h
  · rwa [routine] at h
  · rwa [forward] at h
  · split at h
    · rwa [routine] at h
    · rwa [forward] at h
  · rename_i e _
    rw [urgent] at h; rw [e]; exact List.mem_cons_of_mem _ h
  · rename_i e _
    split at h
    · rwa [routine] at h
    · rw [urgent] at h; rw [e]; exact List.mem_cons_of_mem _ h

/-- The frame that is placed joins the urgent queue only as one of the part's own and of the urgent class. -/
theorem State.place_urgent (s : State) {f g : Frame} (h : f ∈ (s.place g).ring.urgent) :
    f ∈ s.ring.urgent ∨ (f = g ∧ g.src = byte Config.ringAddress ∧ isUrgent g.kind = true) := by
  unfold State.place at h
  have a : ∀ t : State, f ∈ t.arbitrate.ring.urgent → f ∈ t.ring.urgent := fun t m => by
    unfold State.arbitrate at m
    split at m
    · exact m
    · exact t.choose_urgent m
  have m := a _ h
  split at m
  · unfold State.placeForward at m
    split at m <;> exact .inl m
  · rename_i src
    split at m
    · rename_i u
      unfold State.placeUrgent at m
      split at m
      · rcases List.mem_append.1 m with m | m
        · exact .inl m
        · exact .inr ⟨List.mem_singleton.1 m, by simpa using src, u⟩
      · exact .inl m
    · unfold State.placeRoutine at m
      split at m
      · exact .inl m
      · split at m <;> exact .inl m

theorem foldl_urgent (fs : List Frame) (s : State) {f : Frame} (h : f ∈ (fs.foldl State.place s).ring.urgent) :
    f ∈ s.ring.urgent ∨ (f ∈ fs ∧ f.src = byte Config.ringAddress ∧ isUrgent f.kind = true) := by
  induction fs generalizing s with
  | nil => exact .inl h
  | cons g r ih =>
    rcases ih (s.place g) h with m | ⟨m, w⟩
    · rcases s.place_urgent m with m | ⟨e, w⟩
      · exact .inl m
      · subst e; exact .inr ⟨List.mem_cons_self .., w⟩
    · exact .inr ⟨List.mem_cons_of_mem _ m, w⟩

/-- The urgent frames after an event: those from before, and urgent frames of the part that were handed over. -/
theorem closeEvent_urgent (before s : State) {f : Frame} (h : f ∈ (closeEvent before s).ring.urgent) :
    f ∈ s.ring.urgent ∨ (f ∈ s.ring.outbox ∧ f.src = byte Config.ringAddress ∧ isUrgent f.kind = true) := by
  have m : f ∈ s.placeAll.ring.urgent := by
    unfold closeEvent State.notify at h
    split at h
    · exact h
    · rcases State.place_urgent _ h with m | ⟨-, -, w⟩
      · exact m
      · exact absurd w (show ¬isUrgent Kind.notice = true by decide)
  exact foldl_urgent s.ring.outbox { s with ring := { s.ring with outbox := [] } } m

end Sys2Proof.Machine
end

