-- ==== Sys2Proof/Laws/Settle.lean ====
section
/-! SUPPORT. What the settling of an event and the decisions of the owners of readers can do. -/

namespace Sys2Proof.Machine

variable {c d : Prop}

/-! ## The end of HALTING, and settling -/

theorem State.reader_idleGates (s : State) (r : ReaderIx) :
    s.idleGates.reader r = if r.val < 16 then (s.reader r).toIdle else s.reader r := by
  unfold State.idleGates State.reader row
  simp

theorem State.driveOff_inside (s : State) (always : Bool) : InsideIf c d s (s.driveOff always) := by
  unfold State.driveOff
  have a : InsideIf c d s { s with drive := .reset } := { drive := fun _ => rfl }
  simp only
  split
  · exact a.trans (State.hand_inside (fun _ _ => .driveHalt _))
  · exact a

theorem State.enterStopped_inside {s : State} (h : s.run.state = .halting) : InsideIf c d s s.enterStopped := by
  have a : InsideIf c d s { s with run := { s.run with state := .stopped, haltTimer := none }, throttle := .reset } :=
    { steady := fun n => absurd h n, state := .inr ⟨h, rfl⟩, drive := fun w => by have := w.1; rw [h] at this; simp at this
      ring := ⟨[], RingPort.same rfl, by simp⟩ }
  have b : ∀ t : State, t.run.state = .stopped → InsideIf c d s t → InsideIf c d s t.idleGates := fun t _ i =>
    { pending := i.pending, now := i.now, cfg := i.cfg, ring := i.ring, req := i.req
      steady := fun n => absurd h n, state := i.state, holders := i.holders
      readers := fun r => by
        rw [State.reader_idleGates]
        split
        · rcases i.readers r with e | e
          · exact .inr (by rw [e])
          · exact .inr (by rw [e]; rfl)
        · exact i.readers r
      drive := i.drive, orders := i.orders, totes := i.totes, records := i.records, opened := i.opened, room := i.room
      counts := i.counts, places := i.places }
  have c : InsideIf c d s ({ s with run := { s.run with state := .stopped, haltTimer := none }, throttle := .reset } : State).clearDeadlines :=
    a.trans (State.mapTotes_inside (fun _ => .same rfl rfl) (fun _ => rfl) (fun _ => rfl))
  exact (b _ rfl c).trans (State.driveOff_inside _ _)

theorem State.laneStep_inside (s : State) : InsideIf c d s s.laneStep :=
  (InsideIf.foldl (fun t l => (t.advanceLane_inside l).trans (State.unattendedLane_inside _ l)) _ _).trans
    (State.readiness_inside _)

theorem State.haltTest_inside (s : State) : InsideIf c d s s.haltTest := by
  unfold State.haltTest
  split
  · rename_i h
    simp only [Bool.and_eq_true, beq_iff_eq] at h
    exact State.enterStopped_inside h.1.1
  · exact .refl s

theorem finishTrack_inside (forced : List LaneIx) (before s : State) : InsideIf c d s (finishTrack forced before s) := by
  have report : ∀ t : State, InsideIf c d t (State.reportClaimant before t) := fun t => by
    unfold State.reportClaimant
    split
    · exact t.driveReport_inside
    · exact .refl t
  exact ((s.raiseIf_inside _ _).trans (report _)).trans (InsideIf.foldl (fun t l => t.updateCounter_inside l _) _ _)

theorem settleLanesWith_inside (forced : List LaneIx) (before s : State) : InsideIf c d s (settleLanesWith forced before s) :=
  s.laneStep_inside.trans (finishTrack_inside forced before _)

theorem settleLanes_inside (before s : State) : InsideIf c d s (settleLanes before s) := settleLanesWith_inside [] before s

theorem settle_inside (before s : State) : InsideIf c d s (settle before s) :=
  ((s.grant_inside.trans (State.laneStep_inside _)).trans (State.haltTest_inside _)).trans (finishTrack_inside [] before _)

/-! ## Gates -/

theorem State.loopUpdate_inside (s : State) (g : GateIx) (k : ToteSlot) : InsideIf c d s (s.loopUpdate g k) :=
  State.modTote_inside (fun _ => .same rfl rfl)

theorem State.relocateToLoop_inside (s : State) (k : ToteSlot) (loc : Location) : InsideIf c d s (s.relocateToLoop k loc) := by
  unfold State.relocateToLoop
  split
  · exact .refl s
  · exact (((s.removeTote_inside k).trans (State.raise_inside _ _)).trans
      (State.placeOnLoop_inside (fun _ => .moved rfl rfl))).trans (State.readiness_inside _)

theorem State.countLap_inside (s : State) (k : ToteSlot) : InsideIf c d s (s.countLap k) :=
  State.modTote_inside (fun _ => .stays (fun h => ⟨Nat.min_le_left _ _, h.2⟩))

theorem State.lapLimit_inside (s : State) (k : ToteSlot) (o : OrderSlot) : InsideIf c d s (s.lapLimit k o) := by
  unfold State.lapLimit
  split
  · split
    · exact s.enterWillcall_inside _ _
    · exact .refl s
  · exact .refl s

theorem State.lapGate_inside (s : State) (k : ToteSlot) : InsideIf c d s (s.lapGate k) := by
  unfold State.lapGate
  simp only
  split
  · split
    · exact ((s.countLap_inside k).trans (State.attempt_inside _ _)).trans (State.lapLimit_inside _ _ _)
    · exact s.countLap_inside k
  · exact s.countLap_inside k

theorem pushTrail_length (e : TrailEntry) (trail : List TrailEntry) : (pushTrail e trail).length ≤ 4 := by
  unfold pushTrail
  simp only [List.length_drop]
  omega

theorem State.push_inside (s : State) (k : ToteSlot) (g : GateIx) (o : Outcome) : InsideIf c d s (s.push k g o) :=
  State.modTote_inside (fun _ => .stays (fun h => ⟨h.1, pushTrail_length _ _⟩))

/-- A divert into an OPEN lane that is not full. -/
theorem State.divert_inside {s : State} {l : LaneIx} (g : GateIx) (k : ToteSlot) (h : c → s.run.state ≠ .estop)
    (o : s.laneOpen l = true) (room : s.occupied l + s.incoming l ≠ (s.laneCfg l).capacity) :
    InsideIf c d s (s.divert g l k) := by
  have a : InsideIf c d s (s.hand (bladeFrame (s.gateCfg g).station)) := State.hand_inside (fun i w => absurd w.1 (h i))
  unfold State.divert
  refine InsideIf.trans (InsideIf.trans (a.trans (State.modLane_inside_open rfl (fun _ => o) fun _ c => ?_))
    (State.modTote_inside ?_)) (State.push_inside _ _ _ _)
  rotate_left
  · exact fun _ => .moved rfl rfl
  have c' : (s.lane l).load ≤ (s.laneCfg l).capacity := c
  have r' : (s.lane l).load ≠ (s.laneCfg l).capacity := room
  show (s.lane l).queue.length + ((s.lane l).incoming ++ [_]).length ≤ (s.laneCfg l).capacity
  unfold Lane.load at c' r'
  simp only [List.length_append, List.length_singleton]
  omega

theorem State.refuse_inside (s : State) (k : ToteSlot) (g : GateIx) (o : OrderSlot) (why : Outcome) :
    InsideIf c d s (s.refuse k g o why) := by
  unfold State.refuse
  simp only
  split
  · split
    · exact (s.push_inside k g why).trans (State.enterWillcall_inside _ _ _)
    · exact s.push_inside k g why
  · exact s.push_inside k g why

theorem State.takeOff_inside (s : State) (g : GateIx) (l : LaneIx) (k : ToteSlot) (o : OrderSlot) (r : Order) :
    InsideIf c d s (s.takeOff g l k o r) := by
  unfold State.takeOff
  split
  · exact (s.routeTo_inside _ _).trans (State.push_inside _ _ _ _)
  · exact s.refuse_inside _ _ _ _

/-- R35: what an admission says of the lane. -/
theorem State.admission_granted {s : State} {l : LaneIx} (h : s.admission l = .granted) :
    s.laneOpen l = true ∧ s.occupied l + s.incoming l ≠ (s.laneCfg l).capacity := by
  unfold State.admission at h
  split at h
  · simp at h
  · rename_i o
    split at h
    · simp at h
    · split at h
      · simp at h
      · rename_i f
        simp only [Bool.or_eq_true, Bool.not_eq_true', not_or, Bool.not_eq_false] at o
        exact ⟨o.1, f⟩

theorem State.laneGate_inside {s : State} (g : GateIx) (l : LaneIx) (k : ToteSlot) (h : c → s.run.state ≠ .estop) :
    InsideIf c d s (s.laneGate g l k) := by
  unfold State.laneGate
  split
  · split
    · split
      · rename_i a
        obtain ⟨o, r⟩ := State.admission_granted a
        exact State.divert_inside g k h o r
      · exact s.takeOff_inside _ _ _ _ _
      · exact s.refuse_inside _ _ _ _
      · exact s.refuse_inside _ _ _ _
    · exact .refl s
  · exact .refl s

theorem State.willcallGate_inside {s : State} (g : GateIx) (k : ToteSlot) (h : c → s.run.state ≠ .estop) :
    InsideIf c d s (s.willcallGate g k) := by
  unfold State.willcallGate
  split
  · split
    · split
      · rename_i room
        unfold State.willcallRoom at room
        have room : s.willcallCount < s.cfg.site.willcallCapacity := by simpa using room
        have join : ∀ e, InsideIf c d s { s with willcall := { s.willcall with incoming := s.willcall.incoming ++ [e] } } :=
          fun e => { places := fun _ a => ⟨a.1, a.2.1, by
            unfold State.willcallCount at room ⊢
            simp only [List.length_append, List.length_singleton]
            omega⟩ }
        exact ((join _).trans (State.hand_inside (fun i w => absurd w.1 (h i)))).trans
          (State.modTote_inside (fun _ => .moved rfl rfl))
      · exact s.raise_inside _
    all_goals exact .refl s
  · exact .refl s

theorem State.decide_inside {s : State} (g : GateIx) (k : ToteSlot) (h : c → s.run.state ≠ .estop) : InsideIf c d s (s.decide g k) := by
  unfold State.decide
  split
  · exact s.lapGate_inside k
  · exact State.laneGate_inside g _ k h
  · exact State.willcallGate_inside g k h
  · exact .refl s

/-- A delivered result at a gate, outside ESTOP. -/
theorem State.gateResult_inside {s : State} (g : GateIx) (r : ReadResult) (h : c → s.run.state ≠ .estop) :
    InsideIf c d s (s.gateResult g r) := by
  unfold State.gateResult
  split
  · split
    · rename_i k x _
      have a : InsideIf c d s ((s.relocateToLoop k x.location).loopUpdate g k) :=
        (s.relocateToLoop_inside k x.location).trans (State.loopUpdate_inside _ g k)
      exact a.trans (State.decide_inside g _ (by rw [Ne, a.estop_iff]; exact h))
    · exact s.raise_inside _
  all_goals exact .refl s

/-! ## Inducts, return head, spur -/

/-- R126: a known entry joins an induct queue that has room, or the queue its tote stood in. -/
theorem State.appendKnown_inside {s : State} {i : InductIx} {k : ToteSlot} {x : Tote} (tag : Nat) (h : (k, x) ∈ s.totes)
    (room : x.location = .induct i ∨ (s.queue i).length ≠ 4) : InsideIf c d s (s.appendKnown i k tag) where
  toWithin := ((s.removeTote_within k).trans (State.putQueue_within _ _ _)).trans
    (State.modTote_within (fun _ => .same rfl rfl))
  counts := fun w a => by
    have v : TablesCanonical (s.removeTote k) := Within.tables (c := True) (d := True) (s.removeTote_within k) w
    exact State.modTote_counts (s := (s.removeTote k).appendInduct i ⟨some tag, some k⟩) (fun _ => rfl) v
      (State.removeTote_counts w a)
  places := fun w a => by
    have v : TablesCanonical (s.removeTote k) := Within.tables (c := True) (d := True) (s.removeTote_within k) w
    obtain ⟨b, -⟩ := State.removeTote_places (k := k) w a
    have t : s.tote? k = some x := State.tote?_some w h
    have len : ((s.removeTote k).queue i).length < 4 := by
      have full := (a.1 i).1
      rcases room with e | n
      · obtain ⟨q, m, g⟩ := (a.1 i).2 _ h e
        have f : (s.removeTote k).queue i = (s.queue i).filter (fun e => e.tote != some k) := by
          unfold State.removeTote
          rw [t]
          show (s.takeOut k x.location).queue i = _
          rw [e]
          show (s.putQueue i _).queue i = _
          rw [State.queue_putQueue, if_pos rfl]
        rw [f]
        have : ((s.queue i).filter (fun e => e.tote != some k)).length < (s.queue i).length :=
          List.length_filter_lt_length_iff_exists.2 ⟨q, m, by simpa using g⟩
        omega
      · have : ((s.removeTote k).queue i).length ≤ (s.queue i).length := by
          unfold State.removeTote
          rw [t]
          rcases s.takeOut_queue k x.location i with f | f
          · exact Nat.le_of_eq (congrArg List.length f)
          · exact Nat.le_trans (Nat.le_of_eq (congrArg List.length f)) (List.length_filter_le _ _)
        omega
    have r : ((s.removeTote k).appendInduct i ⟨some tag, some k⟩).tote? k =
        some { x with location := .unplaced, sighting := none, deadline := none } := State.tote?_removeTote t
    have queue : ∀ j, (((s.removeTote k).appendInduct i ⟨some tag, some k⟩).queue j) =
        if i = j then (s.removeTote k).queue i ++ [⟨some tag, some k⟩] else (s.removeTote k).queue j := fun j =>
      State.queue_putQueue _ _ _ _
    have belt := beltCount_putTote (s := (s.removeTote k).appendInduct i ⟨some tag, some k⟩)
      (y := { x with location := .induct i, sighting := none, deadline := none }) v (slotGet_mem r)
    simp only [reduceCtorEq, if_false] at belt
    unfold State.appendKnown
    rw [State.modTote_eq r]
    refine ⟨fun j => ?_, ?_, b.2.2⟩
    · show (((s.removeTote k).appendInduct i _).queue j).length ≤ 4 ∧
        ∀ p ∈ ((s.removeTote k).appendInduct i _ |>.putTote k _).totes, p.2.location = .induct j →
          ∃ e ∈ ((s.removeTote k).appendInduct i _).queue j, e.tote = some p.1
      rw [queue]
      split
      · rename_i e; subst e
        refine ⟨by simp only [List.length_append, List.length_singleton]; omega, fun p m l => ?_⟩
        rcases mem_slotPut m with f | f
        · rw [f]; exact ⟨_, List.mem_append_right _ (List.mem_singleton_self _), rfl⟩
        · obtain ⟨e, m, g⟩ := (b.1 i).2 p f l
          exact ⟨e, List.mem_append_left _ m, g⟩
      · rename_i ne
        refine ⟨(b.1 j).1, fun p m l => ?_⟩
        rcases mem_slotPut m with f | f
        · rw [f] at l; exact absurd (Location.induct.inj l) ne
        · exact (b.1 j).2 p f l
    · have z : ((s.removeTote k).appendInduct i ⟨some tag, some k⟩).beltCount = (s.removeTote k).beltCount := rfl
      have := b.2.1
      exact Nat.le_trans (Nat.le_of_eq belt) (by omega)

theorem State.inductResult_inside (s : State) (i : InductIx) (r : ReadResult) : InsideIf c d s (s.inductResult i r) := by
  have stray : ∀ tag, InsideIf c d s (s.inductStray i tag) := fun tag => by
    unfold State.inductStray
    split
    · refine InsideIf.trans (State.putQueue_inside (fun _ => ?_) (fun k ⟨x, m, e⟩ => ?_)) (State.raise_inside _ _)
      · simp only [List.length_append, List.length_singleton]; omega
      · exact ⟨x, List.mem_append_left _ m, e⟩
    · exact s.raise_inside _
  unfold State.inductResult
  split
  · split
    · rename_i k x h
      have m : (k, x) ∈ s.totes := List.mem_of_find?_eq_some h
      unfold State.inductKnown
      split
      · rename_i e
        exact (State.appendKnown_inside _ m (.inl e)).trans (State.raise_inside _ _)
      · split
        · exact s.raise_inside _
        · rename_i n
          split
          · exact State.appendKnown_inside _ m (.inr n)
          · exact (State.appendKnown_inside _ m (.inr n)).trans (State.raise_inside _ _)
    · exact stray _
  all_goals exact stray _

theorem State.setHead_inside (s : State) (h : BeltHead) : InsideIf c d s (s.setHead h) where

theorem State.returnHeadResult_inside (s : State) (r : ReadResult) : InsideIf c d s (s.returnHeadResult r) := by
  unfold State.returnHeadResult
  split
  · split
    · unfold State.headKnown
      split
      · exact s.setHead_inside _
      · split
        · exact ((State.pushTote_inside _ ‹_›).trans (State.setHead_inside _ _)).trans (State.raise_inside _ _)
        · exact (s.setHead_inside _).trans (State.raise_inside _ _)
    · exact (s.setHead_inside _).trans (State.raise_inside _ _)
  all_goals exact s.setHead_inside _

theorem State.willcallEntry_inside (s : State) : InsideIf c d s s.willcallEntry := by
  unfold State.willcallEntry
  split
  · rename_i e rest h
    have a : InsideIf c d s { s with willcall := WillCall.mk rest (s.willcall.list ++ [Stay.mk e.tote s.now]) } :=
      { places := fun _ a => ⟨a.1, a.2.1, by
          have := a.2.2
          unfold State.willcallCount at this ⊢
          rw [h] at this
          simp only [List.length_append, List.length_nil, List.length_cons] at this ⊢
          omega⟩ }
    exact a.trans (State.modTote_inside (fun _ => .moved rfl rfl))
  · exact s.raise_inside _

theorem State.exitResult_inside (s : State) (r : ReadResult) : InsideIf c d s (s.exitResult r) := by
  unfold State.exitResult
  split
  · split
    · split
      · exact s.freeDone_inside _
      · exact (s.raise_inside _).trans (State.freeDone_inside _ _)
    · exact s.raise_inside _
  · split
    · exact s.freeDone_inside _
    · exact .refl s
  all_goals exact .refl s

/-! ## Readers -/

/-- R55: the owner of a reader acts on a delivered result. A gate decides outside ESTOP, and a lane's window is
seen while the lane is OPEN. -/
theorem State.deliver_inside {s : State} {r : ReaderIx} (res : ReadResult)
    (g : c → ∀ g, roleOf r = .gate g → s.run.state ≠ .estop) (h : d → ∀ l, roleOf r = .head l → s.laneOpen l = true) :
    InsideIf c d s (s.deliver r res) := by
  unfold State.deliver
  split
  · rename_i e
    exact State.gateResult_inside _ _ (fun i => g i _ e)
  · exact s.inductResult_inside _ _
  · rename_i e
    exact State.headResult_inside (fun i => h i _ e) _
  · exact s.returnHeadResult_inside _
  · exact s.exitResult_inside _

/-- A button, an eye of the lanes or the spur, or a request's own act on records that ends in a settling. -/
theorem InsideIf.settled {before s t : State} (h : InsideIf c d s t) : InsideIf c d s (settle before t) :=
  h.trans (settle_inside before t)

theorem InsideIf.settledLanes {before s t : State} (h : InsideIf c d s t) : InsideIf c d s (settleLanes before t) :=
  h.trans (settleLanes_inside before t)

end Sys2Proof.Machine
end

