-- ==== Sys2Proof/Laws/Keeps.lean ====
section
/-! SUPPORT. What every operation of an event keeps, the changes of run state, readers, requests and
configuration among them: the relation Keeps, and one lemma for each operation. -/

namespace Sys2Proof.Machine

/-- EstopQuiet within an event: the frames handed over so far are calm too. -/
def EstopCalm (s : State) : Prop :=
  s.run.state = .estop →
    s.drive.state = .off ∧ (∀ r : ReaderIx, (s.reader r).cycle = .idle) ∧ (∀ f ∈ s.ring.urgent, isDriveHalt f) ∧
      ∀ f ∈ s.ring.outbox, Calm f

theorem EstopCalm.still {s : State} (c : EstopCalm s) (e : s.run.state = .estop) : Still s := ⟨e, (c e).1⟩

/-- The request buffer keeps its size (R168). -/
def BufferBound (s : State) : Prop := s.req.buffer.length ≤ 4

/-- What every operation of an event keeps. -/
structure Keeps (s t : State) : Prop extends Books s t where
  pending : t.pending = s.pending := by rfl
  lock : s.req.lock = true → t.req.lock = true ∧ t.req.mask = s.req.mask ∧ SameLockedConfig s.cfg t.cfg := by
    exact fun h => ⟨h, rfl, rfl, rfl, rfl, rfl, rfl, rfl, rfl, fun _ => rfl⟩
  buffer : BufferBound s → BufferBound t := by exact fun h => h
  port : PortBounds s.ring → PortBounds t.ring := by exact fun h => h
  reception : t.ring.reception = s.ring.reception := by rfl
  tables : TablesCanonical s → TablesCanonical t := by exact fun h => h
  records : RecordBounds s → RecordBounds t := by exact fun h => h
  lanes : LaneBounds s → LaneBounds t := by exact fun h => h
  estop : EstopCalm s → EstopCalm t := by exact fun h => h

theorem LaneBounds.room {s : State} (h : LaneBounds s) : LaneRoom s := fun l =>
  ⟨(h l).1, fun c => Lane.load_eq_zero.2 ⟨((h l).2 c).1, ((h l).2 c).2.1⟩⟩

theorem LaneBounds.ofRoom {s : State} (h : LaneRoom s)
    (r : ∀ l, s.laneOpen l = false → (s.reader (headReader l)).cycle = .idle) : LaneBounds s := fun l =>
  ⟨(h l).1, fun c => ⟨(Lane.load_eq_zero.1 ((h l).2 c)).1, (Lane.load_eq_zero.1 ((h l).2 c)).2, r l c⟩⟩

theorem SameLockedConfig.refl (a : Tables) : SameLockedConfig a a :=
  ⟨rfl, rfl, rfl, rfl, rfl, rfl, rfl, fun _ => rfl⟩

theorem SameLockedConfig.trans {a b c : Tables} (h : SameLockedConfig a b) (k : SameLockedConfig b c) :
    SameLockedConfig a c := by
  obtain ⟨h1, h2, h3, h4, h5, h6, h7, h8⟩ := h
  obtain ⟨k1, k2, k3, k4, k5, k6, k7, k8⟩ := k
  refine ⟨k1.trans h1, k2.trans h2, k3.trans h3, k4.trans h4, k5.trans h5, k6.trans h6, k7.trans h7, fun l => ?_⟩
  have e := h8 l
  have f := k8 l
  unfold sameButTakeGive at e f ⊢
  rw [← f] at e
  exact e

namespace Keeps

theorem refl (s : State) : Keeps s s where

theorem trans {s t u : State} (a : Keeps s t) (b : Keeps t u) : Keeps s u where
  pending := b.pending.trans a.pending
  lock := fun h => by
    obtain ⟨l, m, c⟩ := a.lock h
    obtain ⟨l', m', c'⟩ := b.lock l
    exact ⟨l', m'.trans m, c.trans c'⟩
  buffer := fun h => b.buffer (a.buffer h)
  port := fun h => b.port (a.port h)
  reception := b.reception.trans a.reception
  tables := fun h => b.tables (a.tables h)
  records := fun h => b.records (a.records h)
  lanes := fun h => b.lanes (a.lanes h)
  estop := fun h => b.estop (a.estop h)
  counts := fun w h => b.counts (a.tables w) (a.counts w h)
  places := fun w h => b.places (a.tables w) (a.places w h)

theorem foldl {α : Type} {f : State → α → State} (h : ∀ s x, Keeps s (f s x)) (xs : List α) (s : State) :
    Keeps s (xs.foldl f s) := by
  induction xs generalizing s with
  | nil => exact refl s
  | cons x r ih => exact (h s x).trans (ih _)

end Keeps

namespace InsideIf

variable {c d : Prop}

theorem keepsLock {s t : State} (h : InsideIf c d s t) (l : s.req.lock = true) :
    t.req.lock = true ∧ t.req.mask = s.req.mask ∧ SameLockedConfig s.cfg t.cfg := by
  obtain ⟨m, e⟩ := h.req
  rw [e, h.cfg]
  exact ⟨l, rfl, .refl _⟩

theorem keepsBuffer {s t : State} (h : InsideIf c d s t) (b : BufferBound s) : BufferBound t := by
  obtain ⟨m, e⟩ := h.req
  unfold BufferBound
  rw [e]; exact b

theorem keepsPort {s t : State} (h : InsideIf c d s t) (b : PortBounds s.ring) : PortBounds t.ring := by
  obtain ⟨fs, e, -⟩ := h.ring
  rw [e]; exact b

theorem keepsReception {s t : State} (h : InsideIf c d s t) : t.ring.reception = s.ring.reception := by
  obtain ⟨fs, e, -⟩ := h.ring
  rw [e]

theorem keepsLanes {s t : State} (h : InsideIf c True s t) (b : LaneBounds s) : LaneBounds t :=
  LaneBounds.ofRoom (h.room trivial b.room) fun l w => by
    have i := ((b l).2 (by rw [← h.laneOpen l]; exact w)).2.2
    rcases h.readers (headReader l) with e | e
    · rw [e]; exact i
    · rw [e]; rfl

theorem keepsEstop {s t : State} (h : InsideIf True d s t) (b : EstopCalm s) : EstopCalm t := fun e => by
  have e' := h.estop_iff.1 e
  obtain ⟨x, r, u, o⟩ := b e'
  have w : Still s := ⟨e', x⟩
  obtain ⟨fs, f, cf⟩ := h.ring
  obtain ⟨rs, -⟩ := h.steady (by rw [e']; simp)
  refine ⟨h.drive w, fun q => ?_, by rw [f]; exact u, fun g m => ?_⟩
  · unfold State.reader; rw [rs]; exact r q
  · rw [f] at m
    rcases List.mem_append.1 m with m | m
    · exact o g m
    · exact cf trivial w g m

end InsideIf

/-- What the blocks do inside an event keeps everything. -/
theorem Inside.keeps {s t : State} (h : Inside s t) : Keeps s t where
  pending := h.pending
  lock := h.keepsLock
  buffer := h.keepsBuffer
  port := h.keepsPort
  reception := h.keepsReception
  tables := fun w => ⟨h.orders w.1, h.totes w.2⟩
  records := h.records
  lanes := h.keepsLanes
  estop := h.keepsEstop
  counts := h.counts
  places := h.places

/-! ## Readers -/

theorem headReader_inj {l m : LaneIx} (h : headReader l = headReader m) : l = m := by
  have := congrArg Fin.val h
  unfold headReader at this
  simp only at this
  exact Fin.ext (by omega)

theorem roleOf_headReader (l : LaneIx) : roleOf (headReader l) = .head l := by
  revert l; decide

theorem roleOf_gateReader (g : GateIx) : roleOf (gateReader g) = .gate g := by
  revert g; decide

theorem roleOf_inductReader (i : InductIx) : roleOf (inductReader i) = .induct i := by
  revert i; decide

/-- The reader of a lane is the head reader whose role names it. -/
theorem headReader_of_roleOf {r : ReaderIx} {l : LaneIx} (h : roleOf r = .head l) : r = headReader l := by
  revert l; revert r; decide

/-- A reader is changed: IDLE stays IDLE, or the reader may leave IDLE and, if it is a head reader, its lane is
OPEN. -/
theorem State.putReader_keeps {s : State} {r : ReaderIx} {x : Reader}
    (e : (s.reader r).cycle = .idle → s.run.state = .estop → x.cycle = .idle)
    (h : ∀ l, roleOf r = .head l → s.laneOpen l = false → (s.reader r).cycle = .idle → x.cycle = .idle) :
    Keeps s (s.putReader r x) where
  lanes := fun b l => by
    refine ⟨(b l).1, fun c => ?_⟩
    obtain ⟨q, i, d⟩ := (b l).2 c
    refine ⟨q, i, ?_⟩
    rw [State.reader_putReader]
    split
    · rename_i eq; subst eq
      exact h l (roleOf_headReader l) c d
    · exact d
  estop := fun c w => by
    obtain ⟨d, rs, u, o⟩ := c w
    refine ⟨d, fun q => ?_, u, o⟩
    rw [State.reader_putReader]
    split
    · exact e (rs r) w
    · exact rs q

/-- A change of a reader that keeps its cycle, or leaves it IDLE. -/
theorem State.putReader_keeps_idle {s : State} {r : ReaderIx} {x : Reader}
    (h : x.cycle = (s.reader r).cycle ∨ x.cycle = .idle) : Keeps s (s.putReader r x) := by
  refine State.putReader_keeps (fun i _ => ?_) (fun _ _ _ i => ?_) <;>
  · rcases h with h | h
    · rw [h, i]
    · exact h

/-- The readers that eyes trigger have no lane. -/
def Triggered (rs : List ReaderIx) : Prop :=
  ∀ r ∈ rs, ∀ l, roleOf r ≠ .head l

theorem gateReaders_triggered : Triggered gateReaders := by unfold Triggered; decide
theorem inductReaders_triggered : Triggered inductReaders := by unfold Triggered; decide
theorem returnHeadReader_triggered : Triggered [returnHeadReader] := by unfold Triggered; decide
theorem exitReader_triggered : Triggered [exitReader] := by unfold Triggered; decide

/-- No reader is in service in ESTOP (R44). -/
theorem State.inService_ne_estop {s : State} {r : ReaderIx} (h : s.inService r = true) : s.run.state ≠ .estop := by
  unfold State.inService at h
  split at h
  · exact State.trackRuns_ne_estop h
  · simpa using h
  · simp only [Bool.and_eq_true, bne_iff_ne] at h; exact h.2
  · simpa using h
  · simpa using h

theorem State.eye_keeps {rs : List ReaderIx} (t : Triggered rs) (s : State) (a : Nat) : Keeps s (s.eye rs a) := by
  unfold State.eye
  split
  · rename_i r h
    have nh := t r (List.mem_of_find?_eq_some h)
    unfold State.eyeAt
    split
    · rename_i serv
      split
      · exact State.putReader_keeps (fun _ e => absurd e (State.inService_ne_estop serv))
          (fun l e _ _ => absurd e (nh l))
      · unfold State.crowd
        exact Keeps.trans (t := s.putReader r { s.reader r with crowded := true }) (State.putReader_keeps_idle (.inl rfl))
          (Inside.keeps (State.raise_inside _ _))
      · exact .refl s
    · exact .refl s
  · exact .refl s

@[simp] theorem State.restartIdle_run (s : State) : s.restartIdle.run = s.run := by
  unfold State.restartIdle; split <;> rfl

theorem State.finishCycle_run (s : State) (r : ReaderIx) (res : ReadResult) : (s.finishCycle r res).run = s.run := by
  unfold State.finishCycle
  simp only
  split
  · rfl
  · rw [State.restartIdle_run]; rfl
  all_goals rfl

theorem State.finishCycle_lanes (s : State) (r : ReaderIx) (res : ReadResult) :
    (s.finishCycle r res).lanes = s.lanes := by
  unfold State.finishCycle State.restartIdle
  simp only
  split
  · rfl
  · split <;> rfl
  all_goals rfl

/-- The completion of a cycle under way, and what its owner does. -/
theorem State.complete_keeps {s : State} {r : ReaderIx} (res : ReadResult) (h : (s.reader r).cycle ≠ .idle) :
    Keeps s (s.complete r res) := by
  have k : Keeps s (s.finishCycle r res) := by
    unfold State.finishCycle
    simp only
    split
    · exact State.putReader_keeps (fun i _ => absurd i h) (fun _ _ _ i => absurd i h)
    · exact (State.putReader_keeps_idle (.inr rfl)).trans (Inside.keeps (State.restartIdle_inside _))
    all_goals exact State.putReader_keeps_idle (.inr rfl)
  have i : ∀ {c d : Prop}, (c → s.run.state ≠ .estop) → (d → ∀ l, roleOf r = .head l → s.laneOpen l = true) →
      InsideIf c d (s.finishCycle r res) (s.complete r res) := fun hc hd =>
    (State.deliver_inside _ (fun w _ _ => by rw [State.finishCycle_run]; exact hc w) (fun w l e => by
      unfold State.laneOpen State.lane
      rw [State.finishCycle_lanes]
      exact hd w l e)).trans (settle_inside s _)
  have f : InsideIf False False (s.finishCycle r res) (s.complete r res) := i False.elim False.elim
  exact
    { pending := f.pending.trans k.pending
      lock := fun l => by
        obtain ⟨a, b, e⟩ := k.lock l
        obtain ⟨a', b', e'⟩ := f.keepsLock a
        exact ⟨a', b'.trans b, e.trans e'⟩
      buffer := fun b => f.keepsBuffer (k.buffer b)
      port := fun b => f.keepsPort (k.port b)
      reception := f.keepsReception.trans k.reception
      tables := fun w => ⟨f.orders (k.tables w).1, f.totes (k.tables w).2⟩
      records := fun b => f.records (k.records b)
      counts := fun w a => f.counts (k.tables w) (k.counts w a)
      places := fun w a => f.places (k.tables w) (k.places w a)
      lanes := fun b => by
        refine (i (c := False) (d := True) False.elim (fun _ l e => ?_)).keepsLanes (k.lanes b)
        by_contra o
        have := headReader_of_roleOf e
        subst this
        exact h (((b l).2 (by simpa using o)).2.2)
      estop := fun c => by
        by_cases e : s.run.state = .estop
        · exact absurd ((c e).2.1 r) h
        · exact (i (c := True) (d := False) (fun _ => e) False.elim).keepsEstop (k.estop c) }

/-- A result frame. -/
theorem State.resultFrame_keeps (s : State) (a : Nat) (res : ReadResult) : Keeps s (s.resultFrame a res) := by
  unfold State.resultFrame
  split
  · rename_i r h
    refine State.complete_keeps res ?_
    have w := List.find?_some h
    simp only [Bool.and_eq_true, beq_iff_eq] at w
    rw [w.2]; simp
  · exact .refl s

/-! ## Time, scans, and the frames of the stations -/

theorem State.advanceTo_keeps (s : State) (t : Time) : Keeps s (s.advanceTo t) where

theorem State.hand_keeps {s : State} {f : Frame} (h : Still s → Calm f) : Keeps s (s.hand f) :=
  Inside.keeps (State.hand_inside (fun _ => h))

theorem State.scanDue_keeps (s : State) (l : LaneIx) : Keeps s (s.scanDue l) := by
  unfold State.scanDue
  refine Keeps.trans (State.putReader_keeps_idle (.inl ?_)) (State.hand_keeps (fun _ => .scan _))
  split <;> rfl

/-! ## Frames of the stations -/

theorem State.laneEye_keeps (s : State) (a : Nat) : Keeps s (s.laneEye a) := by
  unfold State.laneEye
  split
  · split
    · rename_i o
      exact Inside.keeps (State.laneEntry_inside (fun _ => o)).settledLanes
    · exact .refl s
  · exact .refl s

theorem State.clerkAt_keeps {act : State → LaneIx → State} (h : ∀ s l, Inside s (act s l)) (s : State) (a : Nat) :
    Keeps s (s.clerkAt a act) := by
  unfold State.clerkAt
  split
  · split
    · exact Inside.keeps (h _ _).settled
    · exact .refl s
  · exact .refl s

theorem State.dropHead_inside {s : State} {i : InductIx} {e : InductItem} {rest : List InductItem}
    (q : s.queue i = e :: rest) : Inside s (s.dropHead i e rest) := by
  unfold State.dropHead
  simp only
  split
  · rename_i k h
    have head : s.knownHead i = some k := by
      unfold State.knownHead
      rw [q]; exact h
    have := State.popKnown_inside (c := True) (d := True) (f := fun x => { x with location := .unplaced }) head
      (fun _ => .moved rfl rfl) (fun _ _ => by simp)
    rwa [q, List.tail_cons] at this
  · rename_i h
    refine State.putQueue_inside (fun b => ?_) (fun k ⟨x, m, t⟩ => ?_)
    · rw [q, List.length_cons] at b; omega
    · rw [q] at m
      rcases List.mem_cons.1 m with m | m
      · subst m; rw [h] at t; simp at t
      · exact ⟨x, m, t⟩

theorem State.removedAt_keeps (s : State) (a : Nat) : Keeps s (s.removedAt a) := by
  unfold State.removedAt
  split
  · split
    · rename_i q
      exact Inside.keeps (State.dropHead_inside q).settled
    · exact .refl s
  · exact .refl s

theorem State.approach_keeps (s : State) (a : Nat) : Keeps s (s.approach a) := by
  unfold State.approach
  split
  · exact Inside.keeps s.holdMerge_inside
  · exact .refl s

theorem State.spurEye_keeps (s : State) (a : Nat) : Keeps s (s.spurEye a) := by
  unfold State.spurEye
  split
  · exact Inside.keeps s.willcallEntry_inside
  · exact .refl s

theorem State.lane_mapLanes (s : State) (f : Lane → Lane) (l : LaneIx) :
    State.lane { s with lanes := s.lanes.map f } l = f (s.lane l) := row_map _ _ _

/-- The entry effects of ESTOP (R150). -/
theorem State.enterEstop_keeps (s : State) : Keeps s s.enterEstop where
  counts := (State.mapTotes_inside (c := True) (d := True) (s := s) (f := fun t => { t with deadline := none })
    (fun _ => .same rfl rfl) (fun _ => rfl) (fun _ => rfl)).counts
  places := fun w a => by
    have b := (State.mapTotes_inside (c := True) (d := True) (s := s) (f := fun t => { t with deadline := none })
      (fun _ => .same rfl rfl) (fun _ => rfl) (fun _ => rfl)).places w a
    refine b.of rfl (fun _ => rfl) (Nat.le_of_eq ?_) rfl
    show s.willcall.list.length + (s.willcall.incoming.map _).length = _
    rw [List.length_map]; rfl
  port := fun b => ⟨by show 0 ≤ 16; omega, b.2.1, b.2.2.1, b.2.2.2⟩
  tables := fun w => ⟨w.1, Slots.wf_map (f := fun t : Tote => { t with deadline := none }) w.2⟩
  records := fun r p m => by
    obtain ⟨q, hq, rfl⟩ := List.mem_map.1 m
    exact r q hq
  lanes := fun b l => by
    have e : s.enterEstop.lane l = (s.lane l).estop := row_map _ _ _
    have er : s.enterEstop.reader (headReader l) = (s.reader (headReader l)).toIdle := row_map _ _ _
    refine ⟨?_, fun c => ?_⟩
    · unfold State.occupied State.incoming
      rw [e]
      have := (b l).1
      unfold State.occupied State.incoming at this
      have e' : s.enterEstop.laneCfg l = s.laneCfg l := rfl
      rw [e']
      simpa [Lane.estop] using this
    · unfold State.laneOpen at c
      rw [e] at c ⊢
      obtain ⟨q, i, -⟩ := (b l).2 c
      exact ⟨q, by simp [Lane.estop, i], by rw [er]; rfl⟩
  estop := fun c _ => by
    refine ⟨rfl, fun r => ?_, ?_, ?_⟩
    · have : s.enterEstop.reader r = (s.reader r).toIdle := row_map _ _ _
      rw [this]; rfl
    · intro f m; exact absurd m (by show f ∉ ([] : List Frame); simp)
    · intro f m
      have m' : f ∈ s.ring.flush.outbox ++ [driveFrame s.cfg.drive.station false] := m
      rcases List.mem_append.1 m' with m | m
      · have := (List.mem_filter.1 m).2
        simp only [Bool.not_eq_true', Bool.and_eq_false_iff] at this
        rcases this with h | h
        · exact .inr (.inr (by simpa using h))
        · exact .inr (.inl h)
      · rw [List.mem_singleton.1 m]; exact .driveHalt _

theorem State.orderEstop_keeps (s : State) : Keeps s s.orderEstop := by
  unfold State.orderEstop
  refine Keeps.trans ?_ (Inside.keeps (State.raise_inside _ _))
  split
  · exact .refl s
  · exact s.enterEstop_keeps

theorem State.pressed_keeps (s : State) (a : Nat) : Keeps s (s.pressed a) :=
  Keeps.trans (t := { s with run := { s.run with holders := s.run.holders ||| holder a } }) {} (State.orderEstop_keeps _)

theorem State.released_keeps (s : State) (a : Nat) : Keeps s (s.released a) where

theorem foldl_drive {α : Type} {f : State → α → State} (h : ∀ s x, (f s x).drive = s.drive) (xs : List α) (s : State) :
    (xs.foldl f s).drive = s.drive := by
  induction xs generalizing s with
  | nil => rfl
  | cons x r ih => exact (ih _).trans (h s x)

theorem State.stationIsUp_keeps (s : State) (a : Nat) : Keeps s (s.stationIsUp a) := by
  have i : Inside s (allLanes.foldl
      (fun t l => if s.lanePresent l && (s.laneCfg l).station == a then t.resendCounter l else t) s) :=
    InsideIf.foldl (fun t l => by
      split
      · exact t.resendCounter_inside l
      · exact .refl t) _ _
  unfold State.stationIsUp
  simp only
  split
  · refine Inside.keeps (i.trans (State.hand_inside (fun _ w => ?_)))
    have e : s.drive.state = .off := by
      rw [← w.2, foldl_drive]
      exact fun t l => by split <;> rfl
    have h : s.driveCommand = false := by
      unfold State.driveCommand; rw [e]; rfl
    rw [h]; exact .driveHalt _
  · exact i.keeps

theorem State.bufferRequest_keeps (s : State) (tag : Byte) (p : List Byte) : Keeps s (s.bufferRequest tag p) := by
  unfold State.bufferRequest
  split
  · exact { buffer := fun _ => by unfold BufferBound; simp; omega }
  · exact .refl s

theorem State.consume_keeps (s : State) (f : Frame) : Keeps s (s.consume f) := by
  unfold State.consume
  split
  · split
    · exact s.bufferRequest_keeps _ _
    · exact .refl s
  · split
    · unfold State.stationFrame
      simp only
      split
      · unfold State.eyeFrame
        split
        · exact State.eye_keeps gateReaders_triggered s _
        · exact State.eye_keeps inductReaders_triggered s _
        · exact s.laneEye_keeps _
        · exact State.eye_keeps returnHeadReader_triggered s _
        · exact s.spurEye_keeps _
        · exact State.eye_keeps exitReader_triggered s _
        · exact s.approach_keeps _
        · exact .refl s
      · split
        · exact s.resultFrame_keeps _ _
        · split
          · exact s.resultFrame_keeps _ _
          · split
            · exact s.resultFrame_keeps _ _
            · split
              · unfold State.buttonFrame
                split
                · exact State.clerkAt_keeps (fun t l => t.takenAt_inside l) s _
                · exact State.clerkAt_keeps (fun t l => t.returnAt_inside l) s _
                · exact s.removedAt_keeps _
                · exact .refl s
              · split
                · unfold State.estopFrame
                  split
                  · exact s.pressed_keeps _
                  · exact s.released_keeps _
                  · exact .refl s
                · exact s.stationIsUp_keeps _
    · exact .refl s

theorem State.dispose_keeps (s : State) (f : Frame) : Keeps s (s.dispose f) := by
  unfold State.dispose
  split
  · exact .refl s
  · rename_i n
    have calm : Calm f := .inr (.inr n)
    split
    · exact s.consume_keeps f
    · split
      · exact (s.consume_keeps f).trans (State.hand_keeps (fun _ => calm))
      · exact State.hand_keeps (fun _ => calm)

end Sys2Proof.Machine
end

