-- ==== Sys2Proof/Laws/Replies.lean ====
section
/-! SUPPORT. What carrying out each request keeps, one lemma for each reply, and what each expiry can do. -/

/- one theorem after another: the package as one text then stays within its memory -/
set_option Elab.async false

namespace Sys2Proof.Machine

/-! ## Taking a request -/

theorem State.popRequest_keeps {s : State} {r : Request} {rest : List Request} (h : s.req.buffer = r :: rest) :
    Keeps s (s.popRequest rest) where
  buffer := fun b => by
    unfold BufferBound at b ⊢
    rw [h, List.length_cons] at b
    exact Nat.le_of_succ_le b

theorem respond_keeps (r : Request) (a : Reply) : Keeps a.state (respond r a) where
  estop := fun c w => by
    obtain ⟨d, rs, u, o⟩ := c w
    refine ⟨d, rs, u, fun f m => ?_⟩
    rcases List.mem_cons.1 m with m | m
    · exact .inr (.inl (by rw [m]; rfl))
    · exact o f m

theorem carryOut_keeps {handler : Request → State → Reply} (h : ∀ r s, Keeps s (handler r s).state) (r : Request)
    (s : State) : Keeps s (carryOut handler r s).state := by
  unfold carryOut
  split
  · exact .refl s
  · exact h r s

@[simp] theorem done_state (s : State) (data : List Byte) : (done s data).state = s := rfl

/-! ## Record requests -/

/-- A new order without totes joins the table. -/
theorem State.putOrder_counts_free {s : State} {k : OrderSlot} {o : Order} (free : s.order? k = none) (live : o.live = 0)
    (total : o.done + 0 ≤ o.total) (a : CountsAgree s) : CountsAgree (s.putOrder k o) := by
  refine ⟨fun p m => State.order?_putOrder_ne_none (a.1 p m), fun p m => ?_⟩
  rcases mem_slotPut m with e | e
  · rw [e]
    refine ⟨?_, by rw [live]; exact total⟩
    have none : s.totesOf k = [] := List.filter_eq_nil_iff.2 (fun p m => by
      have := a.1 p m
      intro e
      rw [beq_iff_eq] at e
      rw [e] at this
      exact this free)
    show o.live = (s.totesOf k).length
    rw [none, live]; rfl
  · exact a.2 p e

theorem replyBindOrder_keeps (r : Request) (s : State) : Keeps s (replyBindOrder r s).state := by
  unfold replyBindOrder
  simp only
  split
  · exact .refl s
  · split
    · exact .refl s
    · split
      · exact .refl s
      · refine Keeps.trans (t := s.putOrder (lowestFree s.orders) _) ?_ (Inside.keeps (State.raiseIf_inside _ _ _))
        exact
          { tables := fun w => ⟨Slots.wf_slotPut w.1 (lowestFree_lt w.1 (by omega)), w.2⟩
            counts := fun w a => State.putOrder_counts_free (slotGet_lowestFree w.1) rfl (Nat.zero_le _) a }

/-- R17: the stray entry that is found. -/
theorem State.findStray_some {s : State} {tag : Nat} {i : InductIx} {j : Nat} (h : s.findStray tag = some (i, j)) :
    ∃ e, (s.queue i)[j]? = some e ∧ e.tote = none := by
  unfold State.findStray at h
  split at h
  · rename_i i' f
    cases h
    have any : ∃ x ∈ s.queue i, InductItem.isStrayOf tag x = true := by
      simpa only [List.any_eq_true] using List.find?_some f
    have lt := List.findIdx_lt_length_of_exists any
    refine ⟨_, List.getElem?_eq_getElem lt, ?_⟩
    have := List.findIdx_getElem (w := lt)
    unfold InductItem.isStrayOf at this
    simp only [Bool.and_eq_true, Option.isNone_iff_eq_none] at this
    exact this.1
  · simp at h

/-- R17: a record is attached to a stray entry, where there is one. -/
theorem State.attach_inside (s : State) (k : ToteSlot) (tag : Nat) : Inside s (s.attach k tag) := by
  unfold State.attach
  split
  · rename_i i j h
    obtain ⟨e, g, stray⟩ := State.findStray_some h
    have lt : j < (s.queue i).length := (List.getElem?_eq_some_iff.1 g).1
    have q : Inside s (s.putQueue i ((s.queue i).set j ⟨some tag, some k⟩)) := by
      refine State.putQueue_inside (fun b => by rw [List.length_set]; exact b) (fun p ⟨x, m, t⟩ => ⟨x, ?_, t⟩)
      obtain ⟨n, f⟩ := List.getElem?_of_mem m
      have ne : j ≠ n := fun e' => by
        rw [← e', g] at f
        cases f
        rw [stray] at t; simp at t
      exact List.mem_of_getElem? (i := n) (by rw [List.getElem?_set_ne ne]; exact f)
    refine
      { toWithin := q.toWithin.trans (State.modTote_within (fun _ => .same rfl rfl))
        counts := fun w a => State.modTote_counts (fun _ => rfl) (q.tables w) (q.counts w a)
        places := fun w a => ?_ }
    have b := q.places w a
    unfold State.modTote
    split
    · rename_i x r
      have belt := beltCount_putTote (y := { x with location := .induct i }) (q.tables w) (slotGet_mem r)
      simp only [reduceCtorEq, if_false] at belt
      refine ⟨fun l => ⟨(b.1 l).1, fun p m e => ?_⟩, ?_, b.2.2⟩
      · rcases mem_slotPut m with f | f
        · rw [f] at e ⊢
          cases Location.induct.inj e
          refine ⟨⟨some tag, some k⟩, ?_, rfl⟩
          show _ ∈ (s.putQueue i ((s.queue i).set j ⟨some tag, some k⟩)).queue i
          rw [State.queue_putQueue, if_pos rfl]
          exact List.mem_of_getElem? (i := j) (List.getElem?_set_self lt)
        · exact (b.1 l).2 p f e
      · have := b.2.1
        exact Nat.le_trans (Nat.le_add_right _ _) (Nat.le_trans (Nat.le_of_eq belt) this)
    · exact b
  · exact .refl s

/-- A new record joins a free slot, outside the counted places. -/
theorem State.putTote_places_free {s : State} {k : ToteSlot} {y : Tote} (free : s.tote? k = none)
    (i : ∀ i, y.location ≠ .induct i) (r : y.location ≠ .returnBelt) (a : PlaceBounds s) : PlaceBounds (s.putTote k y) := by
  obtain ⟨u, v, e, g⟩ := slotPut_of_free free
  refine ⟨fun j => ⟨(a.1 j).1, fun p m l => ?_⟩, ?_, a.2.2⟩
  · rcases mem_slotPut m with f | f
    · rw [f] at l; exact absurd l (i j)
    · exact (a.1 j).2 p f l
  · have n : (s.putTote k y).beltCount = s.beltCount := by
      unfold State.beltCount State.putTote
      rw [g, e]
      simp [r]
    rw [n]; exact a.2.1

/-- R17: a record joins the table and its order's live count rises with it. -/
theorem State.putNew_keeps {s : State} {o : OrderSlot} {x : Order} (tag part : Nat) (h : s.totes.length < 256)
    (m : (o, x) ∈ s.orders) (room : x.unadded ≠ 0) :
    Keeps s ((s.putTote (lowestFree s.totes) (newTote tag part o)).modOrder o (fun x => { x with live := x.live + 1 })) := by
  have totes : Slots.wf 256 s.totes → Slots.wf 256 (slotPut (lowestFree s.totes) (newTote tag part o) s.totes) := fun w =>
    Slots.wf_slotPut w (lowestFree_lt w h)
  have records : RecordBounds s → RecordBounds (s.putTote (lowestFree s.totes) (newTote tag part o)) := fun b p m => by
    rcases mem_slotPut m with e | e
    · rw [e]; exact ⟨Nat.zero_le _, Nat.zero_le _⟩
    · exact b p e
  have places : TablesCanonical s → PlaceBounds s → PlaceBounds (s.putTote (lowestFree s.totes) (newTote tag part o)) :=
    fun w => State.putTote_places_free (slotGet_lowestFree w.2) (fun _ => by simp [newTote]) (by simp [newTote])
  unfold State.modOrder
  split
  · rename_i y g
    have g : s.order? o = some y := g
    exact
      { tables := fun w => ⟨Slots.wf_slotPut w.1 (slotGet_lt w.1 g), totes w.2⟩
        records := records
        places := fun w a => (places w a).of
        counts := fun w a => by
          cases (State.order?_some w m).symm.trans g
          obtain ⟨u, v, e, f⟩ := slotPut_of_free (slotGet_lowestFree w.2)
          have more : ∀ j, (State.totesOf ((s.putTote (lowestFree s.totes) (newTote tag part o)).putOrder o
              { x with live := x.live + 1 }) j).length = (s.totesOf j).length + if o = j then 1 else 0 := fun j => by
            show ((slotPut _ _ s.totes).filter _).length = (s.totes.filter _).length + _
            rw [f]
            generalize s.totes = t at e
            subst e
            simp only [List.filter_append, List.filter_cons, List.length_append, beq_iff_eq, newTote]
            split
            · simp; omega
            · simp
          refine ⟨fun p q => ?_, fun p q => ?_⟩
          · refine State.order?_putOrder_ne_none (s := s.putTote (lowestFree s.totes) (newTote tag part o)) ?_
            rcases mem_slotPut q with i | i
            · rw [i]
              show s.order? o ≠ none
              rw [g]; simp
            · exact a.1 p i
          · rw [more]
            rcases mem_slotPut_of_mem w.1 m q with i | ⟨i, ne⟩
            · rw [i, if_pos rfl]
              have l : x.live = (s.totesOf o).length := (a.2 _ m).1
              have b : x.done + x.live ≤ x.total := (a.2 _ m).2
              refine ⟨by show x.live + 1 = (s.totesOf o).length + 1; omega, ?_⟩
              show x.done + (x.live + 1) ≤ x.total
              unfold Order.unadded Order.remaining at room
              omega
            · rw [if_neg (Ne.symm ne)]; exact a.2 p i }
  · rename_i g
    exact
      { tables := fun w => ⟨w.1, totes w.2⟩
        records := records
        places := places
        counts := fun w _ => by
          have g : s.order? o = none := g
          rw [State.order?_some w m] at g
          simp at g }

theorem State.createTote_keeps {s : State} {o : OrderSlot} {x : Order} (tag part : Nat) (h : s.totes.length < 256)
    (m : (o, x) ∈ s.orders) (room : x.unadded ≠ 0) : Keeps s (s.createTote (lowestFree s.totes) tag part o) :=
  (State.putNew_keeps tag part h m room).trans (Inside.keeps (State.attach_inside _ _ _))

theorem State.findOrder_mem {s : State} {ticket : Nat} {p : OrderSlot × Order} (h : s.findOrder ticket = some p) :
    p ∈ s.orders := List.mem_of_find?_eq_some h

theorem State.findTote_mem {s : State} {tag : Nat} {p : ToteSlot × Tote} (h : s.findTote tag = some p) :
    p ∈ s.totes := List.mem_of_find?_eq_some h

theorem replyAddTote_keeps (r : Request) (s : State) : Keeps s (replyAddTote r s).state := by
  unfold replyAddTote
  simp only
  split
  · exact .refl s
  · split
    · exact .refl s
    · split
      · exact .refl s
      · split
        · exact .refl s
        · split
          · exact .refl s
          · rename_i f _ n _
            split
            · exact .refl s
            · rw [done_state]
              exact (State.createTote_keeps _ _ (by omega) (State.findOrder_mem f) (fun z => n (.inr z))).trans
                (Inside.keeps (settle_inside s _))

theorem State.cancel_inside {s : State} {k : OrderSlot} {o : Order} (h : (k, o) ∈ s.orders) :
    Inside s (s.cancel k o) := by
  unfold State.cancel
  simp only
  split
  · rename_i z
    exact State.freeOrder_inside (fun _ a => List.length_eq_zero_iff.1 ((a.2 _ h).1.symm.trans z))
  · have counts : ∀ y : OrderState, SameCounts o { { o with total := o.done + o.live } with state := y } := fun _ =>
      ⟨rfl, fun _ => Nat.le_refl _⟩
    split
    · exact (State.putOrder_inside_mem h (counts _)).trans (State.raise_inside _ _)
    all_goals exact (State.putOrder_inside_mem h (counts _)).trans (State.enterWillcall_inside _ _ _)

theorem replyCancelOrder_keeps (r : Request) (s : State) : Keeps s (replyCancelOrder r s).state := by
  unfold replyCancelOrder
  simp only
  split
  · exact .refl s
  · split
    · exact .refl s
    · rename_i h
      rw [done_state]
      exact Inside.keeps ((State.cancel_inside (State.findOrder_mem h)).trans (settleLanes_inside s _))

theorem State.dropFrom_within (s : State) (k : ToteSlot) (loc : Location) : Within True True s (s.dropFrom k loc) := by
  unfold State.dropFrom
  split
  · exact s.putQueue_within _ _
  · split
    · exact {}
    · exact .refl s
  all_goals exact .refl s

theorem State.dropFrom_rest (s : State) (k : ToteSlot) (loc : Location) :
    (s.dropFrom k loc).orders = s.orders ∧ (s.dropFrom k loc).totes = s.totes ∧
      (s.dropFrom k loc).willcall = s.willcall ∧ (s.dropFrom k loc).cfg = s.cfg := by
  unfold State.dropFrom
  split
  · exact ⟨rfl, rfl, rfl, rfl⟩
  · split <;> exact ⟨rfl, rfl, rfl, rfl⟩
  all_goals exact ⟨rfl, rfl, rfl, rfl⟩

/-- R19: the queues keep their lengths and the entries of other totes. -/
theorem State.dropFrom_queue (s : State) (k : ToteSlot) (loc : Location) (i : InductIx) :
    ((s.dropFrom k loc).queue i).length = (s.queue i).length ∧
      ∀ e ∈ s.queue i, e.tote ≠ some k → e ∈ (s.dropFrom k loc).queue i := by
  unfold State.dropFrom
  split
  · rw [State.queue_putQueue]
    split
    · rename_i e; subst e
      exact ⟨List.length_map _, fun e m n => List.mem_map.2 ⟨e, m, if_neg n⟩⟩
    · exact ⟨rfl, fun _ m _ => m⟩
  · split <;> exact ⟨rfl, fun _ m _ => m⟩
  all_goals exact ⟨rfl, fun _ m _ => m⟩

theorem State.drop_inside {s : State} {k : ToteSlot} {t : Tote} (h : (k, t) ∈ s.totes) : Inside s (s.drop k t) where
  toWithin := ((s.dropFrom_within k _).trans (State.freeTote_within _ k)).trans (State.recount_within _ _ _)
  counts := fun w a => by
    obtain ⟨o, e, -, -⟩ := s.dropFrom_rest k t.location
    have u := (s.dropFrom_within k t.location).tables w
    have g : (s.dropFrom k t.location).tote? k = some t := by
      unfold State.tote?; rw [e]; exact slotGet_of_mem w.2 h
    refine (State.closeRecord_inside (c := True) (d := True) g (fun _ => rfl) (fun o a b => ?_)).counts u ?_
    · show o.done + (o.live - 1) ≤ o.total - 1; omega
    · unfold CountsAgree State.totesOf State.order? at *
      rw [o, e]; exact a
  places := fun w a => by
    obtain ⟨-, e, c, f⟩ := s.dropFrom_rest k t.location
    refine State.recount_places ⟨fun i => ?_, ?_, ?_⟩
    · obtain ⟨l, q⟩ := s.dropFrom_queue k t.location i
      refine ⟨by show ((s.dropFrom k t.location).queue i).length ≤ 4; rw [l]; exact (a.1 i).1, fun p m g => ?_⟩
      have m : p ∈ slotFree k (s.dropFrom k t.location).totes := m
      rw [e] at m
      obtain ⟨m, n⟩ := List.mem_filter.1 m
      obtain ⟨x, y, z⟩ := (a.1 i).2 p m g
      exact ⟨x, q x y (by rw [z]; simpa using n), z⟩
    · refine Nat.le_trans ?_ a.2.1
      show ((slotFree k (s.dropFrom k t.location).totes).filter _).length ≤ _
      rw [e]
      exact ((List.filter_sublist (l := s.totes)).filter _).length_le
    · show (s.dropFrom k t.location).willcall.list.length + (s.dropFrom k t.location).willcall.incoming.length ≤
        (s.dropFrom k t.location).cfg.site.willcallCapacity
      rw [c, f]; exact a.2.2

theorem replyDropTote_keeps (r : Request) (s : State) : Keeps s (replyDropTote r s).state := by
  unfold replyDropTote
  simp only
  split
  · exact .refl s
  · split
    · exact .refl s
    · rename_i f
      split
      · exact .refl s
      · rw [done_state]
        exact Inside.keeps ((State.drop_inside (State.findTote_mem f)).trans (settle_inside s _))

theorem replyWriteOrder_keeps (r : Request) (s : State) : Keeps s (replyWriteOrder r s).state := by
  unfold replyWriteOrder
  simp only
  split
  · exact .refl s
  · split
    · exact .refl s
    · rename_i h
      split <;> exact Inside.keeps (State.putOrder_inside_mem (State.findOrder_mem h))

theorem replyReadOrder_keeps (r : Request) (s : State) : Keeps s (replyReadOrder r s).state := by
  unfold replyReadOrder; simp only; split
  · exact .refl s
  · split <;> exact .refl s

theorem replyReadTote_keeps (r : Request) (s : State) : Keeps s (replyReadTote r s).state := by
  unfold replyReadTote; simp only; split
  · exact .refl s
  · split <;> exact .refl s

theorem replyReadLane_keeps (r : Request) (s : State) : Keeps s (replyReadLane r s).state := by
  unfold replyReadLane; simp only; split <;> exact .refl s

theorem replyReadWillcall_keeps (r : Request) (s : State) : Keeps s (replyReadWillcall r s).state := by
  unfold replyReadWillcall; simp only; split <;> exact .refl s

theorem replyReadEntry_keeps (r : Request) (s : State) : Keeps s (replyReadEntry r s).state := by
  unfold replyReadEntry; simp only; split <;> exact .refl s

theorem replyReadReader_keeps (r : Request) (s : State) : Keeps s (replyReadReader r s).state := by
  unfold replyReadReader; simp only; split
  · exact State.putReader_keeps_idle (.inl rfl)
  · exact .refl s

/-! ## Configuration -/

theorem refuseLocked_keeps (s : State) : Keeps s (refuseLocked s).state := Inside.keeps (State.raise_inside _ _)

/-- A write is carried out only where the lock does not refuse it. -/
theorem entryChecks_keeps {s : State} {b : Bool} {checks : List Bool} {locked : Bool} {own : Reply}
    (h : locked = false → Keeps s own.state) : Keeps s (entryChecks s b checks locked own).state := by
  unfold entryChecks
  split
  · exact .refl s
  · split
    · exact .refl s
    · split
      · exact refuseLocked_keeps s
      · rename_i n
        exact h (by simpa using n)

/-- A change of the configuration while the lock is clear. -/
theorem unlocked {s t : State} (h : s.req.lock = false) (w : s.req.lock = true) :
    t.req.lock = true ∧ t.req.mask = s.req.mask ∧ SameLockedConfig s.cfg t.cfg := by
  rw [h] at w; simp at w

theorem State.abandon_keeps (s : State) (r : ReaderIx) : Keeps s (s.abandon r) := State.putReader_keeps_idle (.inr rfl)
theorem State.freshen_keeps (s : State) (r : ReaderIx) : Keeps s (s.freshen r) := State.putReader_keeps_idle (.inl rfl)

theorem State.writtenTriggered_keeps (s : State) (r : ReaderIx) (was is : Bool) :
    Keeps s (s.writtenTriggered r was is) := by
  unfold State.writtenTriggered
  simp only
  split
  · exact (s.abandon_keeps r).trans (State.freshen_keeps _ r)
  · exact s.abandon_keeps r

theorem replyWriteGate_keeps (r : Request) (s : State) : Keeps s (replyWriteGate r s).state := by
  unfold replyWriteGate
  refine entryChecks_keeps (fun u => ?_)
  split
  · exact .refl s
  · refine Keeps.trans (t := { s with cfg := _ }) ?_ (State.writtenTriggered_keeps _ _ _ _)
    exact { lock := unlocked u }

theorem replyWriteInduct_keeps (r : Request) (s : State) : Keeps s (replyWriteInduct r s).state := by
  unfold replyWriteInduct
  refine entryChecks_keeps (fun u => ?_)
  split
  · exact .refl s
  · split
    · exact .refl s
    · refine Keeps.trans (t := { s with cfg := _ }) ?_ (State.writtenTriggered_keeps _ _ _ _)
      exact { lock := unlocked u }

theorem replyWriteBand_keeps (r : Request) (s : State) : Keeps s (replyWriteBand r s).state := by
  unfold replyWriteBand
  exact entryChecks_keeps (fun u => { lock := unlocked u })

theorem State.lowerLostLimit_inside (s : State) (old new : Nat) : Inside s (s.lowerLostLimit old new) := by
  unfold State.lowerLostLimit
  split
  · refine (State.mapTotes_inside (fun x => ?_) (fun x => ?_) (fun x => ?_)).trans (State.raiseIf_inside _ _ _)
    · unfold Tote.lose
      split <;> exact .same rfl rfl
    all_goals unfold Tote.lose; split <;> rfl
  · exact .refl s

theorem State.writeSite_keeps {s : State} {e : SiteRecord} (u : s.req.lock = false)
    (room : s.willcallCount ≤ e.willcallCapacity) : Keeps s (s.writeSite e) := by
  have b : Inside { s with cfg := { s.cfg with site := e } } (State.mapTotes { s with cfg := { s.cfg with site := e } }
      (fun x => { x with laps := min e.lapLimit x.laps })) :=
    State.mapTotes_inside (fun _ h => ⟨Nat.min_le_left _ _, h.2⟩) (fun _ => rfl) (fun _ => rfl)
  have a : Keeps s (State.mapTotes { s with cfg := { s.cfg with site := e } }
      (fun x => { x with laps := min e.lapLimit x.laps })) :=
    { lock := unlocked u
      tables := fun w => ⟨w.1, Slots.wf_map (f := fun x : Tote => { x with laps := min e.lapLimit x.laps }) w.2⟩
      records := fun b p m => by
        obtain ⟨q, hq, rfl⟩ := List.mem_map.1 m
        exact ⟨Nat.min_le_left _ _, (b q hq).2⟩
      counts := b.counts
      places := fun w a => b.places w ⟨a.1, a.2.1, room⟩ }
  exact ((a.trans (Inside.keeps (State.lowerLostLimit_inside _ _ _))).trans (State.abandon_keeps _ _)).trans
    (State.abandon_keeps _ _)

theorem replyWriteSite_keeps (r : Request) (s : State) : Keeps s (replyWriteSite r s).state := by
  unfold replyWriteSite
  refine entryChecks_keeps (fun u => ?_)
  split
  · exact .refl s
  · split
    · exact .refl s
    · exact State.writeSite_keeps u (by omega)

theorem replyWriteDrive_keeps (r : Request) (s : State) : Keeps s (replyWriteDrive r s).state := by
  unfold replyWriteDrive
  refine entryChecks_keeps (fun u => ?_)
  split
  · exact .refl s
  · exact { lock := unlocked u }

theorem replyWriteThrottle_keeps (r : Request) (s : State) : Keeps s (replyWriteThrottle r s).state := by
  unfold replyWriteThrottle
  refine entryChecks_keeps (fun u => ?_)
  rw [done_state]
  have k : ∀ e, Keeps s (s.writeThrottle e) := fun e => ?_
  · exact (k _).trans (Inside.keeps (settle_inside s _))
  unfold State.writeThrottle
  simp only
  split
  · split <;> exact { lock := unlocked u }
  · exact { lock := unlocked u }

theorem replyWriteReadOnly_keeps (r : Request) (s : State) : Keeps s (replyWriteReadOnly r s).state := by
  unfold replyWriteReadOnly
  split
  · split <;> exact .refl s
  · split <;> exact .refl s

theorem State.reband_inside (s : State) (k : OrderSlot) : Inside s (s.reband k) := by
  unfold State.reband
  split
  · exact .refl s
  · rename_i h
    split
    · simp only
      split
      · exact (State.putOrder_inside h).trans (State.enterWillcall_inside _ _ _)
      · exact State.putOrder_inside h
    · exact .refl s

theorem replyCommitBands_keeps (r : Request) (s : State) : Keeps s (replyCommitBands r s).state := by
  unfold replyCommitBands
  split
  · exact refuseLocked_keeps s
  · rename_i u
    split
    · exact .refl s
    · refine Keeps.trans (t := { s with cfg := { s.cfg with bandActive := s.cfg.bandStaging } }) ?_
        (Inside.keeps (InsideIf.foldl (fun t (p : OrderSlot × Order) => t.reband_inside p.1) _ _))
      exact { lock := unlocked (by simpa using u) }

/-! ## Lanes -/

/-- The head reader of an OPEN lane comes into service outside ESTOP. -/
theorem State.startScan_keeps {s : State} {l : LaneIx} (o : s.laneOpen l = true) (h : s.run.state ≠ .estop) :
    Keeps s (s.startScan l) :=
  State.putReader_keeps (fun _ w => absurd w h) (fun m e c _ => by
    rw [roleOf_headReader] at e
    cases e
    rw [o] at c; simp at c)

theorem State.writtenHead_keeps (s : State) (l : LaneIx) : Keeps s (s.writtenHead l) := by
  unfold State.writtenHead
  simp only
  split
  · rename_i h
    have n : (s.reader (headReader l)).cycle ≠ .idle := by
      rcases h with h | h
      · rw [h]; simp
      · rw [h.1]; simp
    exact State.putReader_keeps (fun i _ => absurd i n) (fun _ _ _ i => absurd i n)
  · exact .refl s

/-- A lane is emptied and its head reader made IDLE. -/
theorem State.vacate_keeps (s : State) {l : LaneIx} {f : Lane → Lane} (q : (f (s.lane l)).queue = [])
    (i : (f (s.lane l)).incoming = []) : Keeps s ((s.modLane l f).abandon (headReader l)) := by
  have rd : ∀ r, ((s.modLane l f).abandon (headReader l)).reader r =
      if headReader l = r then (s.reader (headReader l)).toIdle else s.reader r := fun r =>
    State.reader_putReader _ _ _ _
  have ln : ∀ m, ((s.modLane l f).abandon (headReader l)).lane m = if l = m then f (s.lane l) else s.lane m := fun m =>
    State.lane_modLane _ _ _ _
  exact
    { lanes := fun b m => by
        unfold State.occupied State.incoming State.laneOpen
        rw [ln, rd]
        by_cases e : l = m
        · subst e
          simp only [if_true, q, i]
          exact ⟨Nat.zero_le _, fun _ => ⟨trivial, trivial, rfl⟩⟩
        · have e' : headReader l ≠ headReader m := fun h => e (headReader_inj h)
          simp only [e, e', if_false]
          exact b m
      estop := fun c w => by
        obtain ⟨d, rs, u, o⟩ := c w
        refine ⟨d, fun r => ?_, u, o⟩
        rw [rd]
        split
        · rfl
        · exact rs r }

theorem State.writeLane_keeps {s : State} {l : LaneIx} {e : LaneEntry}
    (u : s.req.lock = true → (s.laneCfg l).onlyTakeGive e = true)
    (z : e.capacity = (s.laneCfg l).capacity ∨ s.mayResize l = true) : Keeps s (s.writeLane l e) := by
  have cfg : ∀ m, row (setRow s.cfg.lanes l e) m = if l = m then e else row s.cfg.lanes m := fun m =>
    row_setRow _ _ _ _
  have empty : LaneBounds s → e.capacity ≠ (s.laneCfg l).capacity → (s.lane l).queue = [] ∧ (s.lane l).incoming = [] :=
    fun b n => by
      have z := z.resolve_left n
      unfold State.mayResize at z
      by_cases o : s.laneOpen l = true
      · simp [o] at z
        exact ⟨z.1.1, z.1.2⟩
      · have := (b l).2 (by simpa using o)
        exact ⟨this.1, this.2.1⟩
  have a : Keeps s { s with cfg := { s.cfg with lanes := setRow s.cfg.lanes l e } } :=
    { lock := fun w => ⟨w, rfl, rfl, rfl, rfl, rfl, rfl, rfl, rfl, fun m => by
        simp only [cfg]
        split
        · rename_i h; subst h
          have := u w
          unfold LaneEntry.onlyTakeGive at this
          exact eq_of_beq this
        · rfl⟩
      lanes := fun b m => by
        refine ⟨?_, (b m).2⟩
        unfold State.laneCfg
        simp only [cfg]
        by_cases h : l = m
        · subst h
          by_cases n : e.capacity = (s.laneCfg l).capacity
          · rw [if_pos rfl, n]; exact (b l).1
          · obtain ⟨q, i⟩ := empty b n
            show (s.lane l).queue.length + (s.lane l).incoming.length ≤ _
            rw [q, i]; exact Nat.zero_le _
        · rw [if_neg h]; exact (b m).1 }
  unfold State.writeLane State.resizeLane
  simp only
  split
  · exact a.trans (State.vacate_keeps _ rfl rfl)
  · split
    · exact (a.trans (State.vacate_keeps _ rfl rfl)).trans (State.freshen_keeps _ _)
    · exact a.trans (State.writtenHead_keeps _ _)

theorem replyWriteLane_keeps (r : Request) (s : State) : Keeps s (replyWriteLane r s).state := by
  unfold replyWriteLane
  refine entryChecks_keeps (fun u => ?_)
  split
  · exact .refl s
  · rename_i z
    rw [done_state]
    refine Keeps.trans (t := s.writeLane _ _) (State.writeLane_keeps (fun w => ?_) ?_) (Inside.keeps (settleLanes_inside s _))
    · simpa [w] using u
    · simp only [Bool.and_eq_true, bne_iff_ne, ne_eq, Bool.not_eq_true', not_and, Bool.not_eq_false] at z
      by_cases n : (laneOfImage r.image).capacity = (s.laneCfg (laneIx r.index)).capacity
      · exact .inl n
      · exact .inr (z n)

/-- An absent queue of a lane that is not OPEN is filled within the capacity, and the lane becomes OPEN. -/
theorem State.openLane_keeps {s : State} {l : LaneIx} {queue : List QueueEntry} (w : Window)
    (c : s.laneOpen l = false) (n : queue.length ≤ (s.laneCfg l).capacity) : Keeps s (s.openLane l queue w) := by
  have a : Keeps s (s.modLane l (fun x => { x with state := .opened, queue := queue, window := w })) :=
    { lanes := fun b m => by
        have ln := State.lane_modLane s l m (fun x => { x with state := .opened, queue := queue, window := w })
        unfold State.occupied State.incoming State.laneOpen
        rw [ln]
        by_cases e : l = m
        · subst e
          simp only [if_true]
          refine ⟨?_, by simp⟩
          rw [((b l).2 c).2.1]
          exact n
        · simp only [e, if_false]
          exact b m }
  unfold State.openLane
  simp only
  split
  · exact a
  · rename_i h
    exact a.trans (State.startScan_keeps (by unfold State.laneOpen; rw [State.lane_modLane_same]; rfl) h)

theorem State.restoreTote_inside (s : State) (l : LaneIx) (tag : Nat) : Inside s (s.restoreTote l tag) := by
  unfold State.restoreTote
  split
  · rename_i h
    have a := State.putTote_inside_mem (c := True) (d := True) (y := { ‹Tote› with location := .lane l })
      (State.findTote_mem h) (.moved rfl rfl)
    simp only
    split
    · split
      · exact a.trans (State.routeTo_inside _ _ _)
      · exact a
    · exact a
  · exact .refl s

theorem replyRestoreLane_keeps (r : Request) (s : State) : Keeps s (replyRestoreLane r s).state := by
  unfold replyRestoreLane
  simp only
  split
  · exact .refl s
  · split
    · exact .refl s
    · rename_i c
      split
      · exact .refl s
      · rename_i n
        split
        · exact .refl s
        · have c' : s.laneOpen (laneIx (byteAt r.args 0)) = false := by
            simp only [Bool.or_eq_true, not_or] at c
            simpa using c.2
          rw [done_state]
          exact ((State.openLane_keeps .held c' (by simpa using n)).trans
            (Inside.keeps (InsideIf.foldl (fun t n => t.restoreTote_inside _ n) _ _))).trans
            (Inside.keeps (settleLanesWith_inside _ s _))

theorem replyClearLane_keeps (r : Request) (s : State) : Keeps s (replyClearLane r s).state := by
  unfold replyClearLane
  simp only
  split
  · exact .refl s
  · split
    · exact .refl s
    · rename_i c
      have c' : s.laneOpen (laneIx (byteAt r.args 0)) = false := by
        simp only [Bool.or_eq_true, not_or] at c
        simpa using c.2
      rw [done_state]
      exact (State.openLane_keeps .empty c' (Nat.zero_le _)).trans (Inside.keeps (settleLanesWith_inside _ s _))

theorem editChecks_keeps {s : State} {lane tag pos : Nat} {b : Bool} {own : LaneIx → Reply}
    (h : ∀ l, Keeps s (own l).state) : Keeps s (editChecks s lane tag pos b own).state := by
  unfold editChecks
  simp only
  split
  · exact .refl s
  · split
    · exact .refl s
    · split
      · exact .refl s
      · split
        · exact .refl s
        · exact h _

theorem State.editRemove_inside (s : State) (l : LaneIx) (pos : Nat) : Inside s (s.editRemove l pos) := by
  unfold State.editRemove
  split
  · exact s.freeDone_inside _
  · exact State.modLane_inside rfl (Lane.removeAt_load _ _)
  · exact .refl s

theorem replyLaneEditRemove_keeps (r : Request) (s : State) : Keeps s (replyLaneEditRemove r s).state := by
  unfold replyLaneEditRemove
  refine editChecks_keeps (fun l => ?_)
  rw [done_state]
  exact (Inside.keeps ((s.editRemove_inside l _).trans (settle_inside s _)))

theorem State.identify_inside (s : State) (l : LaneIx) (pos : Nat) (k : ToteSlot) (t : Tote) :
    Inside s (s.identify l pos k t) := by
  have a : Inside s (s.giveEntry l pos k t) := by
    unfold State.giveEntry
    split
    · exact State.nameEntry_inside _ _ _ _
    · exact (s.removeTote_inside _).trans (State.nameEntry_inside _ _ _ _)
  unfold State.identify
  split
  · exact a.trans (State.returnTest_inside _ l)
  · exact a

theorem replyLaneEditIdentify_keeps (r : Request) (s : State) : Keeps s (replyLaneEditIdentify r s).state := by
  unfold replyLaneEditIdentify
  refine editChecks_keeps (fun l => ?_)
  split
  · split
    · rw [done_state]
      exact Inside.keeps ((s.identify_inside l _ _ _).trans (settle_inside s _))
    · exact .refl s
  · exact .refl s

/-! ## CONTROL -/

/-- A change outside ESTOP that no record, lane, reader or queue sees. -/
theorem State.armConfirms_keeps (s : State) : Keeps s s.armConfirms where
  places := fun _ a => a.of rfl (fun _ => rfl) (Nat.le_of_eq (by
    unfold State.willcallCount State.armConfirms
    simp)) rfl
  lanes := fun b l => by
    have e : s.armConfirms.lane l = { s.lane l with incoming := (s.lane l).incoming.map (fun e =>
        { e with confirm := some (s.now + milliseconds (s.laneCfg (laneIx l.val)).confirmLimit) }) } := by
      show row (Vector.mapIdx _ _) l = _
      unfold row State.lane row
      simp
    unfold State.occupied State.incoming State.laneOpen
    rw [e]
    obtain ⟨x, y⟩ := b l
    refine ⟨by simpa using (show (s.lane l).queue.length + (s.lane l).incoming.length ≤ (s.armConfirms.laneCfg l).capacity from x), fun c => ?_⟩
    obtain ⟨q, i, d⟩ := y c
    exact ⟨q, by simp [i], d⟩

theorem State.startTrack_keeps (s : State) : Keeps s s.startTrack := by
  have a : Keeps s (s.setRun .running) := { estop := fun _ w => by simp [State.setRun] at w }
  have b : Keeps (s.setRun .running) (s.setRun .running).armDeadlines :=
    Inside.keeps (State.mapTotes_inside (fun x => by split <;> exact .same rfl rfl) (fun x => by split <;> rfl)
      (fun x => by split <;> rfl))
  have c : ∀ t : State, Keeps t t.startSampling := fun t => {}
  refine (((a.trans b).trans (State.armConfirms_keeps _)).trans (c _)).trans
    (Inside.keeps (State.startDrive_inside (fun w => ?_)))
  have := w.1
  simp [State.startSampling, State.armConfirms, State.armDeadlines, State.mapTotes, State.setRun] at this

@[simp] theorem doneControl_state (s : State) : (doneControl s).state = s := rfl

theorem startWith_keeps {s t : State} (h : Keeps s t) : Keeps s (startWith s t).state := by
  unfold startWith
  split
  · exact .refl s
  · rw [doneControl_state]
    exact h.trans (Inside.keeps (settle_inside s _))

theorem replyStart_keeps (r : Request) (s : State) : Keeps s (replyStart r s).state := by
  unfold replyStart
  split
  · exact startWith_keeps s.startTrack_keeps
  · exact startWith_keeps { estop := fun _ w => by simp [State.resumeTrack] at w }
  all_goals exact .refl s

theorem replyHalt_keeps (r : Request) (s : State) : Keeps s (replyHalt r s).state := by
  unfold replyHalt
  split
  · rw [doneControl_state]
    refine Keeps.trans (t := s.haltTrack) { estop := fun _ w => by simp [State.haltTrack] at w } ?_
    exact Inside.keeps (settle_inside s _)
  · exact .refl s

theorem replyEstop_keeps (r : Request) (s : State) : Keeps s (replyEstop r s).state := s.orderEstop_keeps

theorem State.startScans_keeps {s : State} (h : s.run.state ≠ .estop) : Keeps s s.startScans := by
  have a : ∀ (ls : List LaneIx) (t : State), t.run = s.run → t.lanes = s.lanes →
      Keeps t (ls.foldl (fun t l => if s.laneOpen l then t.startScan l else t) t) := by
    intro ls
    induction ls with
    | nil => exact fun t _ _ => .refl t
    | cons l r ih =>
      intro t e w
      rw [List.foldl_cons]
      split
      · rename_i o
        have o' : t.laneOpen l = true := by
          unfold State.laneOpen State.lane at o ⊢
          rw [w]; exact o
        exact (State.startScan_keeps o' (by rw [e]; exact h)).trans (ih _ e w)
      · exact ih t e w
  exact a allLanes s rfl rfl

theorem State.returnTests_inside (s : State) : Inside s s.returnTests := by
  unfold State.returnTests
  split
  · exact InsideIf.foldl State.returnTest_inside _ _
  · exact InsideIf.trans (t := { s with choices := s.choices + 12 }) {} (InsideIf.foldl State.returnTest_inside _ _)

theorem State.leaveEstop_keeps (s : State) : Keeps s s.leaveEstop := by
  have a : Keeps s ((s.setRun .stopped).mapReaders (fun x => { x with fresh := true })) :=
    { lanes := fun b l => by
        have e : ∀ r, State.reader ((s.setRun .stopped).mapReaders (fun x => { x with fresh := true })) r =
            { s.reader r with fresh := true } := fun r => row_map _ _ _
        refine ⟨(b l).1, fun c => ?_⟩
        obtain ⟨q, i, d⟩ := (b l).2 c
        exact ⟨q, i, by rw [e]; exact d⟩
      estop := fun _ w => by simp [State.setRun, State.mapReaders] at w }
  exact (a.trans (State.startScans_keeps (by simp [State.setRun, State.mapReaders]))).trans
    (Inside.keeps (State.returnTests_inside _))

theorem replyClearEstop_keeps (r : Request) (s : State) : Keeps s (replyClearEstop r s).state := by
  unfold replyClearEstop
  split
  · split
    · rw [doneControl_state]
      exact s.leaveEstop_keeps.trans (Inside.keeps (settleLanes_inside s _))
    · exact .refl s
  · exact .refl s

theorem replyThrottleNow_keeps (r : Request) (s : State) : Keeps s (replyThrottleNow r s).state := by
  unfold replyThrottleNow
  split
  · split
    · exact .refl s
    · exact Inside.keeps s.throttleTrigger_inside
  · exact .refl s

theorem replyLock_keeps (r : Request) (s : State) : Keeps s (replyLock r s).state := by
  unfold replyLock
  split
  · exact .refl s
  · rename_i h
    exact { lock := unlocked (by simpa using h) }

theorem replyServiceOpen_keeps (r : Request) (s : State) : Keeps s (replyServiceOpen r s).state := by
  unfold replyServiceOpen
  split
  · exact .refl s
  · split
    · exact .refl s
    · exact {}

theorem replyServiceClose_keeps (r : Request) (s : State) : Keeps s (replyServiceClose r s).state := by
  unfold replyServiceClose
  split
  · exact {}
  · exact .refl s

theorem replyReadFlags_keeps (r : Request) (s : State) : Keeps s (replyReadFlags r s).state := by
  unfold replyReadFlags
  simp only
  split
  · exact .refl s
  · exact {}

theorem replyClearFlags_keeps (r : Request) (s : State) : Keeps s (replyClearFlags r s).state := by
  unfold replyClearFlags
  simp only
  split
  · exact .refl s
  · exact {}

theorem replySetNoticeMask_keeps (r : Request) (s : State) : Keeps s (replySetNoticeMask r s).state := by
  unfold replySetNoticeMask
  simp only
  split
  · exact .refl s
  · split
    · exact Inside.keeps (State.raise_inside _ _)
    · rename_i h
      exact { lock := unlocked (by simpa using h) }

/-! ## Expiries -/

theorem State.bladeMiss_inside (s : State) (k : ToteSlot) : Inside s (s.bladeMiss k) :=
  ((s.removeTote_inside k).trans (State.placeOnLoop_inside (fun _ => .moved rfl rfl))).trans (State.raise_inside _ _)

theorem State.advanceEnds_inside (s : State) (l : LaneIx) : Inside s (s.advanceEnds l) :=
  (State.modLane_inside rfl (Nat.le_refl _)).trans (State.takeAttention_inside _ _)

theorem State.miss_keeps {s : State} {k : ToteSlot} {t : Tote} (d : Deadline) (h : (k, t) ∈ s.totes) : Keeps s (s.miss k t d) := by
  have a : ∀ y : Tote, Bounded s.cfg.site.lapLimit t y → Keeps s (s.putTote k y) := fun y b =>
    Inside.keeps (State.putTote_inside_mem h b)
  unfold State.miss
  simp only
  split
  · exact a _ (.same rfl rfl)
  · refine Keeps.trans (a _ ?_) (Inside.keeps (State.raise_inside _ _))
    exact .same rfl rfl

theorem State.haltTimeout_inside {s : State} (h : s.run.state = .halting) : Inside s s.haltTimeout :=
  (State.enterStopped_inside h).trans (State.raise_inside _ _)

theorem State.driveUp_inside {s : State} (h : s.drive.state ≠ .off) : Inside s s.driveUp where
  drive := fun w => absurd w.2 h

theorem State.stopDrive_inside {s : State} (h : s.drive.state ≠ .off) : Inside s s.stopDrive where
  drive := fun w => absurd w.2 h
  ring := ⟨[_], rfl, fun _ w => absurd w.2 h⟩

theorem State.idleTest_inside {s : State} (h : s.drive.state ≠ .off) : Inside s s.idleTest := by
  unfold State.idleTest
  split
  · exact State.stopDrive_inside h
  · exact s.restartIdle_inside

theorem State.driveRests_inside {s : State} (h : s.drive.state ≠ .off) : Inside s s.driveRests := by
  unfold State.driveRests
  split
  · exact State.startDrive_inside (fun w => h w.2)
  · exact { drive := fun w => absurd w.2 h }
end Sys2Proof.Machine
end

