-- ==== Sys2Proof/Laws/Kept.lean ====
section
/-! SUPPORT. What a whole event keeps, from its first operation to the placing of its frames: the relation
Kept, for each of the shapes an event has. -/

namespace Sys2Proof.Machine

/-- What every event keeps. -/
structure Kept (s t : State) : Prop extends Books s t where
  pending : t.pending = s.pending
  lock : s.req.lock = true → t.req.lock = true ∧ t.req.mask = s.req.mask ∧ SameLockedConfig s.cfg t.cfg
  ring : RingBounds s → RingBounds t
  tables : TablesCanonical s → TablesCanonical t
  records : RecordBounds s → RecordBounds t
  lanes : LaneBounds s → LaneBounds t
  estop : Quiet s → EstopQuiet s → EstopQuiet t

theorem Kept.refl (s : State) : Kept s s := ⟨{}, rfl, fun h => ⟨h, rfl, .refl _⟩, id, id, id, id, fun _ => id⟩

/-- The placing of frames leaves records and places alone. -/
theorem Placed.books {s t : State} (h : Placed s t) : Books s t where
  counts := fun _ a => by
    unfold CountsAgree State.order? State.totesOf at *
    rw [h.orders, h.totes]; exact a
  places := fun _ a => a.of h.totes (fun i => by unfold State.queue; rw [h.merge])
    (by unfold State.willcallCount; rw [h.willcall]) h.cfg

theorem Placed.keepsLanes {s t : State} (h : Placed s t) (b : LaneBounds s) : LaneBounds t := fun l => by
  have b := b l
  unfold State.occupied State.incoming State.laneOpen State.lane State.laneCfg at b ⊢
  rw [h.lanes, h.cfg]
  refine ⟨b.1, fun c => ?_⟩
  obtain ⟨q, i, d⟩ := b.2 c
  refine ⟨q, i, ?_⟩
  rcases h.readers (headReader l) with e | ⟨w, -⟩
  · rw [e]; exact d
  · rw [d] at w; simp at w

/-- The end of an event. -/
theorem closeEvent_kept {b s t : State} (h : Keeps s t) : Kept s (closeEvent b t) := by
  have p := closeEvent_placed b t
  have outbox : (closeEvent b t).ring.outbox = [] := p.outbox
  have recep : (closeEvent b t).ring.reception = t.ring.reception := p.reception
  exact
    { counts := fun w a => p.books.counts (h.tables w) (h.counts w a)
      places := fun w a => p.books.places (h.tables w) (h.places w a)
      pending := p.pending.trans h.pending
      lock := fun w => by
        obtain ⟨a, m, c⟩ := h.lock w
        rw [p.lock, p.mask, p.cfg]
        exact ⟨a, m, c⟩
      ring := fun w => by
        have k := h.port ⟨w.2.1, w.2.2.1, w.2.2.2.1, w.2.2.2.2.1⟩
        have k' := p.bounds k
        refine ⟨⟨outbox, ?_⟩, k'.1, k'.2.1, k'.2.2.1, k'.2.2.2, ?_⟩
        · rw [recep, h.reception]; exact w.1.2
        · rw [p.buffer]; exact h.buffer w.2.2.2.2.2
      tables := fun w => by
        have := h.tables w
        unfold TablesCanonical
        rw [p.orders, p.totes]; exact this
      records := fun w => by
        have := h.records w
        unfold RecordBounds
        rw [p.totes, p.cfg]; exact this
      lanes := fun w => p.keepsLanes (h.lanes w)
      estop := fun q w e => by
        have e' : t.run.state = .estop := by have := p.run; rw [this] at e; exact e
        obtain ⟨d, rs, u, o⟩ := h.estop (fun x => by
          obtain ⟨d, rs, u⟩ := w x
          exact ⟨d, rs, u, fun f m => by rw [q.1] at m; simp at m⟩) e'
        refine ⟨by rw [p.drive]; exact d, fun r => ?_, fun f m => ?_⟩
        · rcases p.readers r with k | ⟨k, -⟩
          · rw [k]; exact rs r
          · have := rs r
            have k : (t.reader r).cycle = .wait := k
            rw [this] at k; simp at k
        · rcases closeEvent_urgent b t m with m | ⟨m, src, un⟩
          · exact u f m
          · rcases o f m with c | c | c
            · exact c
            · rw [un] at c; simp at c
            · exact absurd src c }

theorem Kept.ofEndReception {s t : State} (h : Kept s.endReception t) : Kept s t where
  counts := h.counts
  places := h.places
  pending := h.pending
  lock := h.lock
  ring := fun w => h.ring (by rw [State.endReception_of_quiet w.1]; exact w)
  tables := h.tables
  records := h.records
  lanes := h.lanes
  estop := fun q w => h.estop (by rw [State.endReception_of_quiet q]; exact q) w

theorem receiveFrame_kept (f : Frame) (s : State) : Kept s (receiveFrame f s) := by
  unfold receiveFrame
  refine Kept.ofEndReception ?_
  split
  · split
    · exact closeEvent_kept (Inside.keeps (State.raise_inside _ _))
    · exact closeEvent_kept (State.dispose_keeps _ _)
  · exact .refl _

theorem receiveBytes_kept (bs : List Byte) (s : State) : Kept s (receiveBytes bs s) := by
  unfold receiveBytes
  split
  · exact receiveFrame_kept _ s
  · refine Kept.ofEndReception ?_
    split
    · exact closeEvent_kept (Inside.keeps (State.raise_inside _ _))
    · exact .refl _

theorem takeRequest_kept {c : Instr} {handler : Request → State → Reply} (h : ∀ r s, Keeps s (handler r s).state)
    (s : State) : Kept s (takeRequest c handler s) := by
  unfold takeRequest
  split
  · exact .refl s
  · rename_i e
    split
    · exact closeEvent_kept (((State.popRequest_keeps e).trans (carryOut_keeps h _ _)).trans (respond_keeps _ _))
    · exact .refl s

theorem atExpiry_kept {timer : Option Time} {s : State} {act : State → State}
    (h : ∀ e, timer = some e → Keeps s (act (s.advanceTo e))) : Kept s (atExpiry timer s act) := by
  unfold atExpiry
  split
  · exact closeEvent_kept (h _ rfl)
  · exact .refl s

/-- A lane's own test of auto-return. -/
theorem State.laneReturn_kept (s : State) (l : LaneIx) : Kept s (s.laneReturn l) :=
  closeEvent_kept (Inside.keeps ((State.returnTest_inside s l).trans (settle_inside s _)))

theorem Keeps.expiry {s t : State} {e : Time} (h : Inside (s.advanceTo e) t) : Keeps s t :=
  (s.advanceTo_keeps e).trans h.keeps

theorem placeAll_eq (t : State) : t.placeAll = closeEvent { t with req := { t.req with flags := BitVec.allOnes 20 } } t := by
  unfold closeEvent State.notify
  rw [if_pos]
  unfold enabledRises
  simp

theorem warmBase_keeps (s : State) (f : Flag) : Keeps s.endReception (s.warmBase f) := by
  have ln : ∀ l, (s.warmBase f).lane l = .reset := fun l => row_replicate _ _
  have rd : ∀ l, (s.warmBase f).reader l = .reset := fun l => row_replicate _ _
  exact
    { buffer := fun _ => Nat.zero_le _
      port := fun _ => ⟨Nat.zero_le _, Nat.zero_le _, Nat.zero_le _, Nat.zero_le _⟩
      tables := fun _ => ⟨⟨List.Pairwise.nil, fun _ h => absurd h List.not_mem_nil⟩, ⟨List.Pairwise.nil, fun _ h => absurd h List.not_mem_nil⟩⟩
      records := fun _ _ h => absurd h List.not_mem_nil
      counts := fun _ _ => ⟨fun _ h => absurd h List.not_mem_nil, fun _ h => absurd h List.not_mem_nil⟩
      places := fun _ _ => ⟨fun i => ⟨by
        have : (s.warmBase f).queue i = [] := row_replicate _ _
        rw [this]; exact Nat.zero_le _, fun _ h => absurd h List.not_mem_nil⟩, Nat.zero_le _, Nat.zero_le _⟩
      lanes := fun _ l => by
        unfold State.occupied State.incoming
        rw [ln, rd]
        exact ⟨Nat.zero_le _, fun _ => ⟨rfl, rfl, rfl⟩⟩
      estop := fun _ w => by simp [State.warmBase, RunControl.reset] at w }

theorem warmStart_kept (s : State) (f : Flag) : Kept s (s.warmStart f) := by
  refine Kept.ofEndReception ?_
  unfold State.warmStart
  simp only
  rw [placeAll_eq]
  refine closeEvent_kept ?_
  refine (warmBase_keeps s f).trans ((State.hand_keeps (f := driveFrame s.cfg.drive.station false) (fun _ => .driveHalt _)).trans ?_)
  refine Keeps.trans (t := State.startNotice ((s.warmBase f).hand (driveFrame s.cfg.drive.station false)) f) ?_ (Keeps.foldl (fun t l => ?_) _ _)
  · unfold State.startNotice
    split
    · exact State.hand_keeps (fun _ => .inr (.inl rfl))
    · exact .refl _
  · unfold State.resetCounter
    split
    · exact (State.hand_keeps (fun _ => .lamp _ _)).trans (State.hand_keeps (fun _ => .display _ _))
    · exact .refl _

theorem choose_keeps (s : State) : Keeps s s.choose := by
  have p := s.choose_placed
  exact
    { counts := p.books.counts
      places := p.books.places
      pending := p.pending
      lock := fun w => by rw [p.lock, p.mask, p.cfg]; exact ⟨w, rfl, .refl _⟩
      buffer := fun b => by unfold BufferBound; rw [p.buffer]; exact b
      port := p.bounds
      reception := p.reception
      tables := fun w => by unfold TablesCanonical; rw [p.orders, p.totes]; exact w
      records := fun w => by unfold RecordBounds; rw [p.totes, p.cfg]; exact w
      lanes := p.keepsLanes
      estop := fun c e => by
        rw [p.run] at e
        obtain ⟨d, rs, u, o⟩ := c e
        refine ⟨by rw [p.drive]; exact d, fun r => ?_, fun f m => u f (s.choose_urgent m), by rw [p.outbox]; exact o⟩
        rcases p.readers r with k | ⟨k, -⟩
        · rw [k]; exact rs r
        · rw [rs r] at k; simp at k }

end Sys2Proof.Machine
end

