-- ==== Sys2Proof/Laws/PerInstr.lean ====
section
/-! SUPPORT. Which commands the Request Unit takes from its buffer, said for every command: the rows that
some buffered request is, and no others. -/

namespace Sys2Proof.Laws.Commands

open Sys2Proof Sys2Proof.Machine

/-- The request rows of the table. -/
def isRequest (c : Instr) : Bool :=
  match c with
  | .unknownRequest | .bindOrder | .addTote | .cancelOrder | .dropTote | .writeOrder | .readOrder |
    .readTote | .readLane | .readWillcall | .readEntry | .readEntryReaderStatus | .writeEntryGate |
    .writeEntryLane | .writeEntryBandStaging | .writeEntryInduct | .writeEntrySite | .writeEntryDrive |
    .writeEntryThrottle | .writeEntryReadOnlyTable | .commitBands | .controlStart | .controlHalt |
    .controlEstop | .controlClearEstop | .controlThrottleNow | .controlLock | .controlServiceOpen |
    .controlServiceClose | .controlRestart | .restoreLane | .clearLane | .laneEditRemove | .laneEditIdentify |
    .readFlags | .clearFlags | .setNoticeMask | .readIdentity | .controlUndefinedOperation |
    .writeEntryUndefinedTable => true
  | _ => false

/-- A command is a request row exactly where isRequest says so. -/
def Statement (c : Instr) : Prop := isRequest c = true ↔ IsRequestRow c

theorem isRequest_writeEntryCommand (n : Nat) : isRequest (writeEntryCommand n) = true := by
  unfold writeEntryCommand; split <;> rfl

theorem isRequest_controlCommand (n : Nat) : isRequest (controlCommand n) = true := by
  unfold controlCommand; split <;> rfl

theorem isRequest_requestCommand (r : Request) : isRequest (requestCommand r) = true := by
  unfold requestCommand
  split <;> first
    | rfl
    | exact isRequest_writeEntryCommand _
    | exact isRequest_controlCommand _
    | (split <;> rfl)

theorem Statement.ofRequest {c : Instr} (payload : List Byte) (h : requestCommand ⟨0, payload, false⟩ = c) :
    Statement c := by
  have w : IsRequestRow c := ⟨_, h⟩
  exact ⟨fun _ => w, fun _ => h ▸ isRequest_requestCommand _⟩

theorem Statement.ofOther {c : Instr} (h : isRequest c = false) : Statement c :=
  ⟨fun w => absurd (h.symm.trans w) (by decide), fun ⟨r, e⟩ => e ▸ isRequest_requestCommand r⟩

theorem powerOn : Statement .powerOn := .ofOther rfl
theorem resetLinePulse : Statement .resetLinePulse := .ofOther rfl
theorem partReady : Statement .partReady := .ofOther rfl
theorem receptionFailure (bytes : List Byte) : Statement (.receptionFailure bytes) := .ofOther rfl
theorem ownFrameStrip (frame : Frame) : Statement (.ownFrameStrip frame) := .ofOther rfl
theorem forwardedFrame (frame : Frame) : Statement (.forwardedFrame frame) := .ofOther rfl
theorem unreceivedKindFrame (frame : Frame) : Statement (.unreceivedKindFrame frame) := .ofOther rfl
theorem gateEye (header : Header) : Statement (.gateEye header) := .ofOther rfl
theorem inductEntryEye (header : Header) : Statement (.inductEntryEye header) := .ofOther rfl
theorem returnHeadEye (header : Header) : Statement (.returnHeadEye header) := .ofOther rfl
theorem willcallExitEye (header : Header) : Statement (.willcallExitEye header) := .ofOther rfl
theorem laneEntryEye (header : Header) : Statement (.laneEntryEye header) := .ofOther rfl
theorem willcallEntryEye (header : Header) : Statement (.willcallEntryEye header) := .ofOther rfl
theorem mergeApproachEye (header : Header) : Statement (.mergeApproachEye header) := .ofOther rfl
theorem tag (header : Header) (value : BitVec 16) : Statement (.tag header value) := .ofOther rfl
theorem noread (header : Header) : Statement (.noread header) := .ofOther rfl
theorem empty (header : Header) : Statement (.empty header) := .ofOther rfl
theorem taken (header : Header) : Statement (.taken header) := .ofOther rfl
theorem returnButton (header : Header) : Statement (.returnButton header) := .ofOther rfl
theorem removed (header : Header) : Statement (.removed header) := .ofOther rfl
theorem estopPressed (header : Header) : Statement (.estopPressed header) := .ofOther rfl
theorem estopReleased (header : Header) : Statement (.estopReleased header) := .ofOther rfl
theorem stationUp (header : Header) : Statement (.stationUp header) := .ofOther rfl
theorem requestFrame (header : Header) (payload : List Byte) : Statement (.requestFrame header payload) := .ofOther rfl
theorem unknownRequest : Statement .unknownRequest := .ofRequest [0x00#8] rfl
theorem bindOrder : Statement .bindOrder := .ofRequest [0x01#8] rfl
theorem addTote : Statement .addTote := .ofRequest [0x02#8] rfl
theorem cancelOrder : Statement .cancelOrder := .ofRequest [0x03#8] rfl
theorem dropTote : Statement .dropTote := .ofRequest [0x04#8] rfl
theorem writeOrder : Statement .writeOrder := .ofRequest [0x05#8] rfl
theorem readOrder : Statement .readOrder := .ofRequest [0x06#8] rfl
theorem readTote : Statement .readTote := .ofRequest [0x07#8] rfl
theorem readLane : Statement .readLane := .ofRequest [0x08#8] rfl
theorem readWillcall : Statement .readWillcall := .ofRequest [0x09#8] rfl
theorem readEntry : Statement .readEntry := .ofRequest [0x0A#8] rfl
theorem readEntryReaderStatus : Statement .readEntryReaderStatus := .ofRequest [0x0A#8, 0x09#8] rfl
theorem writeEntryGate : Statement .writeEntryGate := .ofRequest [0x0B#8, 0x01#8] rfl
theorem writeEntryLane : Statement .writeEntryLane := .ofRequest [0x0B#8, 0x02#8] rfl
theorem writeEntryBandStaging : Statement .writeEntryBandStaging := .ofRequest [0x0B#8, 0x04#8] rfl
theorem writeEntryInduct : Statement .writeEntryInduct := .ofRequest [0x0B#8, 0x05#8] rfl
theorem writeEntrySite : Statement .writeEntrySite := .ofRequest [0x0B#8, 0x06#8] rfl
theorem writeEntryDrive : Statement .writeEntryDrive := .ofRequest [0x0B#8, 0x07#8] rfl
theorem writeEntryThrottle : Statement .writeEntryThrottle := .ofRequest [0x0B#8, 0x08#8] rfl
theorem writeEntryReadOnlyTable : Statement .writeEntryReadOnlyTable := .ofRequest [0x0B#8, 0x03#8] rfl
theorem commitBands : Statement .commitBands := .ofRequest [0x0C#8] rfl
theorem controlStart : Statement .controlStart := .ofRequest [0x0D#8, 0x01#8] rfl
theorem controlHalt : Statement .controlHalt := .ofRequest [0x0D#8, 0x02#8] rfl
theorem controlEstop : Statement .controlEstop := .ofRequest [0x0D#8, 0x03#8] rfl
theorem controlClearEstop : Statement .controlClearEstop := .ofRequest [0x0D#8, 0x04#8] rfl
theorem controlThrottleNow : Statement .controlThrottleNow := .ofRequest [0x0D#8, 0x05#8] rfl
theorem controlLock : Statement .controlLock := .ofRequest [0x0D#8, 0x06#8] rfl
theorem controlServiceOpen : Statement .controlServiceOpen := .ofRequest [0x0D#8, 0x07#8] rfl
theorem controlServiceClose : Statement .controlServiceClose := .ofRequest [0x0D#8, 0x08#8] rfl
theorem controlRestart : Statement .controlRestart := .ofRequest [0x0D#8, 0x09#8] rfl
theorem restoreLane : Statement .restoreLane := .ofRequest [0x0E#8] rfl
theorem clearLane : Statement .clearLane := .ofRequest [0x0F#8] rfl
theorem laneEditRemove : Statement .laneEditRemove := .ofRequest [0x10#8, 0x00#8, 0x00#8, 0x01#8] rfl
theorem laneEditIdentify : Statement .laneEditIdentify := .ofRequest [0x10#8, 0x00#8, 0x00#8, 0x02#8] rfl
theorem readFlags : Statement .readFlags := .ofRequest [0x11#8] rfl
theorem clearFlags : Statement .clearFlags := .ofRequest [0x12#8] rfl
theorem setNoticeMask : Statement .setNoticeMask := .ofRequest [0x13#8] rfl
theorem readIdentity : Statement .readIdentity := .ofRequest [0x14#8] rfl
theorem transmissionEnd : Statement .transmissionEnd := .ofOther rfl
theorem readWindowExpiry (reader : Fin 34) : Statement (.readWindowExpiry reader) := .ofOther rfl
theorem scanIntervalExpiry (lane : Fin 12) : Statement (.scanIntervalExpiry lane) := .ofOther rfl
theorem confirmExpiry (lane : Fin 12) (tote : Nat) : Statement (.confirmExpiry lane tote) := .ofOther rfl
theorem willcallConfirmExpiry (tote : Nat) : Statement (.willcallConfirmExpiry tote) := .ofOther rfl
theorem advanceLimitExpiry (lane : Fin 12) : Statement (.advanceLimitExpiry lane) := .ofOther rfl
theorem unattendedExpiry (lane : Fin 12) : Statement (.unattendedExpiry lane) := .ofOther rfl
theorem collectExpiry (ticket : Nat) : Statement (.collectExpiry ticket) := .ofOther rfl
theorem deadlineExpiry (tote : Nat) : Statement (.deadlineExpiry tote) := .ofOther rfl
theorem mergeHoldExpiry : Statement .mergeHoldExpiry := .ofOther rfl
theorem samplingWindowExpiry : Statement .samplingWindowExpiry := .ofOther rfl
theorem monitorWindowExpiry : Statement .monitorWindowExpiry := .ofOther rfl
theorem haltTimerExpiry : Statement .haltTimerExpiry := .ofOther rfl
theorem startDelayExpiry : Statement .startDelayExpiry := .ofOther rfl
theorem idleExpiry : Statement .idleExpiry := .ofOther rfl
theorem stopDelayExpiry : Statement .stopDelayExpiry := .ofOther rfl
theorem controlUndefinedOperation : Statement .controlUndefinedOperation := .ofRequest [0x0D#8] rfl
theorem writeEntryUndefinedTable : Statement .writeEntryUndefinedTable := .ofRequest [0x0B#8] rfl

end Sys2Proof.Laws.Commands
end

