-- ==== Sys2Proof/Laws/Settled.lean ====
section
/-! SUPPORT. What the parts of the settling of an event do, each said once: lamps and displays, advances and
unattended timers, what readiness reads and changes, the claimant report, the end of HALTING; and the auto-return
test. -/

/- one theorem after another: the package as one text then stays within its memory -/
set_option Elab.async false

namespace Sys2Proof.Machine

theorem allLanes_nodup : allLanes.Nodup := by decide
theorem allLanes_mem (l : LaneIx) : l ∈ allLanes := by revert l; decide

/-! ## Lamps and displays -/

theorem State.updateCounter_derived (s : State) (m j : LaneIx) (f : Bool) :
    (s.updateCounter m f).lampOf j = s.lampOf j ∧ (s.updateCounter m f).displayOf j = s.displayOf j := by
  rw [State.updateCounter_spec]; exact s.derived_putLane m j _ _

theorem State.updateCounter_other (s : State) (m j : LaneIx) (f : Bool) (h : j ≠ m) :
    (s.updateCounter m f).lane j = s.lane j := by
  rw [State.updateCounter_spec]
  show (s.putLane m _).lane j = _
  rw [State.lane_putLane, if_neg (Ne.symm h)]

theorem State.updateCounter_same (s : State) (m : LaneIx) (f : Bool) :
    (s.updateCounter m f).lane m = { s.lane m with lamp := s.lampOf m, display := s.displayOf m } := by
  rw [State.updateCounter_spec]; exact s.lane_putLane_same m _

/-- The updates of several lanes, one after the other. -/
theorem updateCounters_spec (F : LaneIx → Bool) (ls : List LaneIx) (nd : ls.Nodup) (s : State) :
    let t := ls.foldl (fun t l => t.updateCounter l (F l)) s
    t.ring = { s.ring with outbox := s.ring.outbox ++ ls.flatMap (fun l => s.counterFrames l (F l)) } ∧
    (∀ l, t.lane l = if l ∈ ls then { s.lane l with lamp := s.lampOf l, display := s.displayOf l } else s.lane l) ∧
    { t with ring := s.ring, lanes := s.lanes } = s ∧ ∀ l, t.lampOf l = s.lampOf l ∧ t.displayOf l = s.displayOf l := by
  induction ls generalizing s with
  | nil => simp
  | cons m r ih =>
    rw [List.nodup_cons] at nd
    obtain ⟨a, b, c, d⟩ := ih nd.2 (s.updateCounter m (F m))
    have other := fun l => s.updateCounter_other m l (F m)
    have derived := fun l => s.updateCounter_derived m l (F m)
    refine ⟨?_, fun l => ?_, ?_, fun l => ⟨(d l).1.trans (derived l).1, (d l).2.trans (derived l).2⟩⟩
    · have e : ∀ l ∈ r, (s.updateCounter m (F m)).counterFrames l (F l) = s.counterFrames l (F l) := fun l hl => by
        unfold State.counterFrames
        rw [other l (fun e => nd.1 (e ▸ hl)), (derived l).1, (derived l).2, State.updateCounter_spec]
        rfl
      refine a.trans ?_
      have e2 : r.flatMap (fun l => (s.updateCounter m (F m)).counterFrames l (F l)) =
          r.flatMap (fun l => s.counterFrames l (F l)) := List.flatMap_congr e
      rw [List.flatMap_cons, e2, State.updateCounter_spec]
      simp
    · refine (b l).trans ?_
      by_cases h : l = m
      · subst h; rw [if_neg nd.1, State.updateCounter_same]; simp
      · rw [other l h, (derived l).1, (derived l).2]; simp [h]
    · have step : s.updateCounter m (F m) =
          { s with ring := (s.updateCounter m (F m)).ring, lanes := (s.updateCounter m (F m)).lanes } := by
        rw [State.updateCounter_spec]; rfl
      refine (congrArg (fun u : State => ({ u with ring := s.ring, lanes := s.lanes } : State)) c).trans ?_
      rw [step]

/-! ## Advances and unattended timers -/

/-- A lane after its advance and its unattended timer have been seen to. -/
abbrev State.laneRun (s : State) (l : LaneIx) : Lane :=
  { s.lane l with
    window := (if Advances s l then .advancing else (s.lane l).window)
    advance := (if Advances s l then some (s.now + (s.laneCfg l).advanceLimit * 100) else (s.lane l).advance)
    unattended :=
        (if (s.lane l).queue = [] ∨ s.run.state = .estop ∨ s.laneOpen l = false then .stopped
         else if (s.lane l).unattended = .stopped then .running (s.now + (s.laneCfg l).unattendedInterval * 100000)
         else (s.lane l).unattended) }

theorem State.mayAdvance_iff (s : State) (l) : s.mayAdvance l = true ↔ Advances s l := by
  unfold State.mayAdvance Advances; simp; tauto

theorem State.advanceLane_spec (s : State) (l : LaneIx) : s.advanceLane l =
    { s.putLane l { s.lane l with
        window := (if Advances s l then .advancing else (s.lane l).window)
        advance := (if Advances s l then some (s.now + (s.laneCfg l).advanceLimit * 100) else (s.lane l).advance) } with
      ring := { s.ring with outbox := (s.ring.outbox ++
        if Advances s l then [stopFrame (s.laneCfg l).station] else []) } } := by
  unfold State.advanceLane
  by_cases h : Advances s l
  · rw [if_pos ((State.mayAdvance_iff s l).2 h)]; simp only [if_pos h]; rfl
  · rw [if_neg (fun x => h ((State.mayAdvance_iff s l).1 x))]; simp only [if_neg h]
    rw [List.append_nil]
    show s = { s.putLane l (s.lane l) with ring := s.ring }
    rw [State.putLane, State.lane, setRow_row]

theorem State.unattendedLane_spec (s : State) (l : LaneIx) : s.unattendedLane l =
    s.putLane l { s.lane l with
      unattended := (if (s.lane l).queue = [] ∨ s.run.state = .estop ∨ s.laneOpen l = false then .stopped
         else if (s.lane l).unattended = .stopped then .running (s.now + (s.laneCfg l).unattendedInterval * 100000)
         else (s.lane l).unattended) } := by
  unfold State.unattendedLane
  have e : ((s.lane l).queue.isEmpty || s.run.state == .estop || !s.laneOpen l) = true ↔
    ((s.lane l).queue = [] ∨ s.run.state = .estop ∨ s.laneOpen l = false) := by simp; tauto
  split
  · rename_i h; rw [if_pos (e.1 h)]; rfl
  · rename_i h; rw [if_neg (fun x => h (e.2 x))]
    split
    · rename_i h2; rw [if_pos (by simpa using h2)]; rfl
    · rename_i h2; rw [if_neg (by simpa using h2)]
      show s = { s with lanes := setRow s.lanes l (row s.lanes l) }
      rw [setRow_row]

theorem State.runLane_spec (s : State) (l : LaneIx) : s.runLane l =
    { s.putLane l (State.laneRun s l) with
      ring := { s.ring with outbox := (s.ring.outbox ++
        if Advances s l then [stopFrame (s.laneCfg l).station] else []) } } := by
  unfold State.runLane
  rw [State.unattendedLane_spec, State.advanceLane_spec]
  simp [State.putLane, State.laneOpen, State.laneCfg, State.lane, State.laneRun]
  congr

/-- The advances and timers of several lanes, one after the other. -/
theorem runLanes_spec (ls : List LaneIx) (nd : ls.Nodup) (s : State) :
    let t := ls.foldl State.runLane s
    t.ring = { s.ring with outbox := (s.ring.outbox ++
      (ls.filter (fun l => Advances s l)).map (fun l => stopFrame (s.laneCfg l).station)) } ∧
    (∀ l, t.lane l = if l ∈ ls then State.laneRun s l else s.lane l) ∧
    { t with ring := s.ring, lanes := s.lanes } = s := by
  induction ls generalizing s with
  | nil => simp
  | cons m r ih =>
    rw [List.nodup_cons] at nd
    obtain ⟨a, b, c⟩ := ih nd.2 (s.runLane m)
    have fr : s.runLane m = { s with ring := (s.runLane m).ring, lanes := (s.runLane m).lanes } := by
      rw [State.runLane_spec]; rfl
    have o : ∀ l, l ≠ m → (s.runLane m).lane l = s.lane l := fun l h => by
      rw [State.runLane_spec]; show (s.putLane m _).lane l = _; rw [State.lane_putLane, if_neg (Ne.symm h)]
    have sm : (s.runLane m).lane m = s.laneRun m := by rw [State.runLane_spec]; exact s.lane_putLane_same m _
    have cf : ∀ l, (s.runLane m).laneCfg l = s.laneCfg l := fun l => by rw [State.runLane_spec]; rfl
    have nw : (s.runLane m).now = s.now := by rw [State.runLane_spec]; rfl
    have rs : (s.runLane m).run = s.run := by rw [State.runLane_spec]; rfl
    have av : ∀ l, l ≠ m → (Advances (s.runLane m) l ↔ Advances s l) := fun l h => by
      unfold Advances State.laneOpen; rw [o l h, cf, rs]
    refine ⟨?_, fun l => ?_, ?_⟩
    · refine a.trans ?_
      have e1 : r.filter (fun l => Advances (s.runLane m) l) = r.filter (fun l => Advances s l) := by
        refine List.filter_congr (fun l hl => ?_)
        have := av l (fun e => nd.1 (e ▸ hl))
        simp only [decide_eq_decide]; exact this
      rw [e1, funext (fun l => congrArg (fun x => stopFrame x.station) (cf l)), State.runLane_spec]
      simp only [List.filter_cons, decide_eq_true_eq]
      split <;> simp
    · refine (b l).trans ?_
      by_cases h : l = m
      · subst h; rw [if_neg nd.1, sm]; simp
      · have lo : (s.runLane m).laneOpen l = s.laneOpen l := by unfold State.laneOpen; rw [o l h]
        have av' := av l h
        unfold State.laneRun
        simp only [av', lo, o l h, cf, nw, rs]; simp [h]
    · have c' := congrArg (fun u : State => ({ u with ring := s.ring, lanes := s.lanes } : State)) c
      refine Eq.trans c' ?_
      rw [fr]

/-! ## Readiness -/

/-- Two states that agree in all that readiness reads. -/
structure SameReadiness (s t : State) : Prop where
  orders : t.orders = s.orders
  totes : t.totes = s.totes
  cfg : t.cfg = s.cfg
  now : t.now = s.now
  lane : ∀ l, (t.lane l).queue = (s.lane l).queue ∧ (t.lane l).ready = (s.lane l).ready

theorem SameReadiness.readyNow {s t : State} (h : SameReadiness s t) (k o l) : t.readyNow k o l = s.readyNow k o l := by
  unfold State.readyNow State.totesOf; rw [h.totes]

/-- A change of a lane's ready list and of an order's record. -/
abbrev State.putReady (s : State) (l : LaneIx) (f : List ReadyEntry → List ReadyEntry) (k : OrderSlot) (o : Order) : State :=
  (s.modLane l (fun x => { x with ready := f x.ready })).putOrder k o

theorem SameReadiness.put {s t : State} (h : SameReadiness s t) (l : LaneIx) (f : List ReadyEntry → List ReadyEntry)
    (k : OrderSlot) (o : Order) : SameReadiness (s.putReady l f k o) (t.putReady l f k o) where
  orders := by show slotPut k o t.orders = slotPut k o s.orders; rw [h.orders]
  totes := h.totes
  cfg := h.cfg
  now := h.now
  lane := fun m => by
    show ((t.putLane l _).lane m).queue = ((s.putLane l _).lane m).queue ∧
      ((t.putLane l _).lane m).ready = ((s.putLane l _).lane m).ready
    rw [State.lane_putLane, State.lane_putLane]
    have := h.lane l
    split
    · simp [this.1, this.2]
    · exact h.lane m

theorem SameReadiness.unready {s t : State} (h : SameReadiness s t) (l e) : SameReadiness (s.unready l e) (t.unready l e) := by
  unfold State.unready State.order?
  rw [h.orders]
  split
  · exact h
  · rw [h.readyNow]
    split
    · exact h
    · exact h.put l _ _ _

theorem SameReadiness.promote {s t : State} (h : SameReadiness s t) (l e) : SameReadiness (s.promote l e) (t.promote l e) := by
  unfold State.promote State.order?
  rw [h.orders]
  split
  · exact h
  · rename_i o _
    rw [h.readyNow]
    have : t.collectExpiry o = s.collectExpiry o := by unfold State.collectExpiry; rw [h.cfg, h.now]
    rw [this]
    split
    · exact h.put l (fun r => r ++ [⟨e, s.collectExpiry o⟩]) _ _
    · exact h

theorem SameReadiness.foldl {α : Type} {f : State → α → State}
    (hf : ∀ s t x, SameReadiness s t → SameReadiness (f s x) (f t x)) (xs : List α) {s t : State}
    (h : SameReadiness s t) : SameReadiness (xs.foldl f s) (xs.foldl f t) := by
  induction xs generalizing s t with
  | nil => exact h
  | cons x r ih => exact ih (hf _ _ _ h)

theorem SameReadiness.readiness {s t : State} (h : SameReadiness s t) : SameReadiness s.readiness t.readiness := by
  unfold State.readiness
  refine SameReadiness.foldl (fun s t l h => ?_) _ h
  unfold State.evalReadiness
  simp only
  rw [(h.lane l).2]
  have a : SameReadiness ((s.lane l).ready.foldl (fun t e => t.unready l e) s)
      ((s.lane l).ready.foldl (fun t e => t.unready l e) t) := SameReadiness.foldl (fun _ _ x h => h.unready l x) _ h
  have q : ∀ {s t : State}, SameReadiness s t → t.queueOrders l = s.queueOrders l := fun h => by
    unfold State.queueOrders State.tote?; rw [(h.lane l).1, h.totes]
  rw [q a]
  exact SameReadiness.foldl (fun _ _ x h => h.promote l x) _ a

/-- A step of readiness: only ready lists and order records differ. -/
structure OnlyReadiness (s t : State) : Prop where
  rest : { t with orders := s.orders, lanes := s.lanes } = s
  lane : ∀ l, t.lane l = { s.lane l with ready := (t.lane l).ready }

theorem OnlyReadiness.refl (s : State) : OnlyReadiness s s := ⟨rfl, fun _ => rfl⟩
theorem OnlyReadiness.trans {s t u : State} (a : OnlyReadiness s t) (b : OnlyReadiness t u) : OnlyReadiness s u where
  rest := by
    have c := congrArg (fun v : State => ({ v with orders := s.orders, lanes := s.lanes } : State)) b.rest
    exact c.trans a.rest
  lane := fun l => by rw [b.lane l, a.lane l]

theorem OnlyReadiness.foldl {α : Type} {f : State → α → State} (hf : ∀ s x, OnlyReadiness s (f s x)) (xs : List α)
    (s : State) : OnlyReadiness s (xs.foldl f s) := by
  induction xs generalizing s with
  | nil => exact .refl s
  | cons x r ih => exact (hf _ _).trans (ih _)

theorem OnlyReadiness.put (s : State) (l : LaneIx) (f : List ReadyEntry → List ReadyEntry) (k : OrderSlot) (o : Order) :
    OnlyReadiness s (s.putReady l f k o) where
  rest := rfl
  lane := fun m => by
    let x := { s.lane l with ready := f (s.lane l).ready }
    show (s.putLane l x).lane m = { s.lane m with ready := ((s.putLane l x).lane m).ready }
    rw [State.lane_putLane]
    split
    · rename_i h; subst h; rfl
    · rfl

theorem OnlyReadiness.readiness (s : State) : OnlyReadiness s s.readiness := by
  refine OnlyReadiness.foldl (fun t l => ?_) _ s
  unfold State.evalReadiness
  refine OnlyReadiness.trans (OnlyReadiness.foldl (fun t e => ?_) _ t) (OnlyReadiness.foldl (fun t k => ?_) _ _)
  · unfold State.unready
    split
    · exact .refl t
    · split
      · exact .refl t
      · exact .put t l _ _ _
  · unfold State.promote
    split
    · exact .refl t
    · split
      · exact .put t l (fun r => r ++ [_]) _ _
      · exact .refl t

/-! ## The lanes' step -/

/-- All but ring, lanes and orders stands. -/
structure SameRest (s t : State) : Prop where
  pending : t.pending = s.pending
  now : t.now = s.now
  choices : t.choices = s.choices
  cfg : t.cfg = s.cfg
  req : t.req = s.req
  totes : t.totes = s.totes
  readers : t.readers = s.readers
  willcall : t.willcall = s.willcall
  merge : t.merge = s.merge
  throttle : t.throttle = s.throttle
  drive : t.drive = s.drive
  run : t.run = s.run

theorem SameRest.of_eq {s t : State} (c : { t with ring := s.ring, lanes := s.lanes, orders := s.orders } = s) :
    SameRest s t :=
  ⟨congrArg (·.pending) c, congrArg (·.now) c, congrArg (·.choices) c, congrArg (·.cfg) c, congrArg (·.req) c,
    congrArg (·.totes) c, congrArg (·.readers) c, congrArg (·.willcall) c, congrArg (·.merge) c,
    congrArg (·.throttle) c, congrArg (·.drive) c, congrArg (·.run) c⟩

theorem SameRest.of_ring_lanes {s t : State} (c : { t with ring := s.ring, lanes := s.lanes } = s) :
    SameRest s t ∧ t.orders = s.orders :=
  ⟨.of_eq (congrArg (fun u : State => ({ u with orders := s.orders } : State)) c), congrArg (·.orders) c⟩

theorem SameRest.of_orders_lanes {s t : State} (c : { t with orders := s.orders, lanes := s.lanes } = s) :
    SameRest s t ∧ t.ring = s.ring :=
  ⟨.of_eq (congrArg (fun u : State => ({ u with ring := s.ring } : State)) c), congrArg (·.ring) c⟩

theorem SameRest.trans {s t u : State} (a : SameRest s t) (b : SameRest t u) : SameRest s u :=
  ⟨b.1.trans a.1, b.2.trans a.2, b.3.trans a.3, b.4.trans a.4, b.5.trans a.5, b.6.trans a.6, b.7.trans a.7,
    b.8.trans a.8, b.9.trans a.9, b.10.trans a.10, b.11.trans a.11, b.12.trans a.12⟩

/-- The lanes' step: advances and timers as of the state it starts in, and readiness as of that state too. -/
theorem State.laneStep_spec (s : State) :
    s.laneStep.ring = { s.ring with outbox := (s.ring.outbox ++
      (allLanes.filter (fun l => Advances s l)).map (fun l => stopFrame (s.laneCfg l).station)) } ∧
    (∀ l, s.laneStep.lane l = { s.laneRun l with ready := (s.readiness.lane l).ready }) ∧
    s.laneStep.orders = s.readiness.orders ∧ SameRest s s.laneStep := by
  obtain ⟨a, b, c⟩ := runLanes_spec allLanes allLanes_nodup s
  obtain ⟨r, ro⟩ := SameRest.of_ring_lanes c
  have sr : SameReadiness s (allLanes.foldl State.runLane s) := ⟨ro, r.totes, r.cfg, r.now, fun l => by
    have := b l; rw [if_pos (allLanes_mem l)] at this; rw [this]; exact ⟨rfl, rfl⟩⟩
  have rf := OnlyReadiness.readiness (allLanes.foldl State.runLane s)
  have sr' := sr.readiness
  obtain ⟨r3, rr⟩ := SameRest.of_orders_lanes rf.rest
  unfold State.laneStep
  refine ⟨rr.trans a, fun l => ?_, sr'.orders, r.trans r3⟩
  rw [rf.lane l, (sr'.lane l).2]
  have := b l; rw [if_pos (allLanes_mem l)] at this; rw [this]

/-! ## The drive and the end of HALTING -/

theorem State.reportClaimant_spec (before b : State) :
    let rises := b.claimant = true ∧ before.claimant = false
    State.reportClaimant before b =
      { b with
        ring := { b.ring with outbox := (b.ring.outbox ++
          if rises ∧ b.drive.state = .resting then [driveFrame b.cfg.drive.station true] else []) }
        drive :=
          (if rises ∧ b.drive.state = .resting then
             ⟨.starting, none, some (b.now + b.cfg.drive.startDelay * 100), false⟩
           else if rises ∧ b.drive.state = .stopping then { b.drive with wakePending := true }
           else b.drive) } := by
  simp only
  unfold State.reportClaimant
  by_cases h : (b.claimant && !before.claimant) = true
  · have h' : b.claimant = true ∧ before.claimant = false := by simpa using h
    rw [if_pos h]
    unfold State.driveReport State.startDrive
    cases e : b.drive.state <;> simp [h', e, State.hand, milliseconds]
  · have h' : ¬(b.claimant = true ∧ before.claimant = false) := by simpa using h
    rw [if_neg h]
    simp [h']

theorem State.enterStopped_spec (v : State) :
    let t := v.enterStopped
    t.ring = { v.ring with outbox := (v.ring.outbox ++
      if v.drive.state ≠ .off then [driveFrame v.cfg.drive.station false] else []) } ∧
    t.lanes = v.lanes ∧ t.orders = v.orders ∧ t.req = v.req ∧ t.drive = ⟨.off, none, none, false⟩ ∧
    t.run = { v.run with state := .stopped, haltTimer := none } ∧ t.throttle = ⟨false, 0, none, 0, none, 0⟩ ∧
    t.totes = v.totes.map (fun q => (q.1, { q.2 with deadline := none })) ∧
    (∀ r : ReaderIx, t.reader r = if r.val < 16 then
        { v.reader r with cycle := .idle, window := none, scanPending := false, scanTimer := none } else v.reader r) ∧
    t.willcall = v.willcall ∧ t.merge = v.merge ∧ t.cfg = v.cfg ∧ t.now = v.now ∧ t.pending = v.pending ∧
    t.choices = v.choices := by
  have d : ∀ v : State, v.driveOff false =
      { v with
        drive := .reset
        ring := { v.ring with outbox := (v.ring.outbox ++
          if v.drive.state ≠ .off then [driveFrame v.cfg.drive.station false] else []) } } := by
    intro v
    unfold State.driveOff
    by_cases e : v.drive.state = .off
    · simp [e]
    · simp [e, State.hand]
  simp only
  unfold State.enterStopped
  rw [d]
  refine ⟨rfl, rfl, rfl, rfl, rfl, rfl, rfl, rfl, fun r => ?_, rfl, rfl, rfl, rfl, rfl, rfl⟩
  simp only [State.reader, State.idleGates, row, Reader.toIdle]
  show (Vector.mapIdx _ v.readers)[r.val] = _
  rw [Vector.getElem_mapIdx]
  rfl

/-! ## The auto-return test -/

theorem State.wantsReturn_iff (s : State) (l : LaneIx) : s.wantsReturn l = true ↔ ReturnsTote s l := by
  unfold State.wantsReturn ReturnsTote State.entry0Elsewhere
  simp only [Bool.and_eq_true, beq_iff_eq, bne_iff_ne, Option.isNone_iff_eq_none]
  constructor
  · rintro ⟨⟨⟨a, b⟩, c⟩, d⟩
    refine ⟨a, b, d, ?_⟩
    split at c
    · rename_i k rest hq
      split at c
      · rename_i t ht
        split at c
        · rename_i o ho
          refine ⟨k, rest, t, o, hq, ht, ho, ?_, ?_⟩ <;> intro e <;> simp [Order.assignedTo, e] at c
        · simp at c
      · simp at c
    · simp at c
  · rintro ⟨a, b, d, k, rest, t, o, hq, ht, ho, h1, h2⟩
    refine ⟨⟨⟨a, b⟩, ?_⟩, d⟩
    rw [hq]; simp only [ht, ho]
    cases e : o.state <;> simp [Order.assignedTo, e]
    · intro x; subst x; exact h1 e
    · intro x; subst x; exact h2 e

theorem State.beltRoom_iff (s : State) : s.beltRoom = true ↔ s.beltCount < 6 := by unfold State.beltRoom; simp

theorem State.pushWindow_known {s : State} {l : LaneIx} {k : ToteSlot} {rest : List QueueEntry}
    (h : (s.lane l).foreign = none) (q : (s.lane l).queue = .known k :: rest) : s.pushWindow l = Pushed s l k := by
  unfold State.pushWindow State.windowTote
  simp only
  have e1 : ((s.hand (chuteFrame (s.laneCfg l).station)).lane l) = s.lane l := rfl
  rw [e1, h, q]
  rfl

theorem State.returnTest_spec (s : State) (l : LaneIx) :
     (∀ k rest, ReturnsTote s l → s.beltCount < 6 → (s.lane l).queue = .known k :: rest →
       s.returnTest l = Pushed s l k) ∧
     (¬(ReturnsTote s l ∧ s.beltCount < 6) → s.returnTest l = s) := by
  unfold State.returnTest
  constructor
  · intro k rest h r q
    rw [if_pos (by rw [Bool.and_eq_true]; exact ⟨(State.wantsReturn_iff s l).2 h, (State.beltRoom_iff s).2 r⟩)]
    exact State.pushWindow_known h.2.1 q
  · intro h
    rw [if_neg]
    intro x
    rw [Bool.and_eq_true, State.wantsReturn_iff, State.beltRoom_iff] at x
    exact h x

end Sys2Proof.Machine
end

