-- ==== Sys2Proof/WellFormed.lean ====
section
/-! DEFINITION. What makes a command one that its row of the table stands for. The machine has a meaning
for every term; these checks say which terms the outside sends under the row's name. -/

namespace Sys2Proof

/-- A consumed frame of a station: to the part or to all, from a station address (9.1). -/
def Header.fromStation (h : Header) : Bool :=
  (h.dest == 1 || h.dest == 63) && 3 ≤ h.src.toNat && h.src.toNat ≤ 62

/-- R158: a frame that passes reception has a DEST other than 0 and at most 32 payload bytes. -/
def Frame.received (f : Frame) : Bool :=
  f.dest != 0 && f.dest.toNat ≤ 63 && f.src.toNat ≤ 63 && f.payload.length ≤ 32

/-- A tag is a decimal number 1 to 4095 (00_scope.md). -/
def isTag (t : Nat) : Bool := 1 ≤ t && t ≤ 4095

/-- A command that fits its row of the table. -/
def Instr.wellFormed (c : Instr) : Bool :=
  match c with
  | .receptionFailure bytes => (frameOfBytes bytes).isNone
  | .ownFrameStrip f => f.received && f.src == 1
  | .forwardedFrame f => f.received && f.src != 1 && f.dest != 1 && f.dest != 63
  | .unreceivedKindFrame f => f.received && f.src != 1 && (f.dest == 1 || f.dest == 63)
  | .gateEye h | .inductEntryEye h | .returnHeadEye h | .willcallExitEye h | .laneEntryEye h
  | .willcallEntryEye h | .mergeApproachEye h | .tag h _ | .noread h | .empty h | .taken h
  | .returnButton h | .removed h | .estopPressed h | .estopReleased h | .stationUp h => h.fromStation
  | .requestFrame h payload => h.dest == 1 && h.src == 2 && 1 ≤ payload.length && payload.length ≤ 32
  | .confirmExpiry _ t | .willcallConfirmExpiry t | .deadlineExpiry t => isTag t
  | .collectExpiry t => t ≤ 9999
  | .powerOn | .resetLinePulse | .partReady | .unknownRequest | .bindOrder | .addTote | .cancelOrder
  | .dropTote | .writeOrder | .readOrder | .readTote | .readLane | .readWillcall | .readEntry
  | .readEntryReaderStatus | .writeEntryGate | .writeEntryLane | .writeEntryBandStaging
  | .writeEntryInduct | .writeEntrySite | .writeEntryDrive | .writeEntryThrottle
  | .writeEntryReadOnlyTable | .commitBands | .controlStart | .controlHalt | .controlEstop
  | .controlClearEstop | .controlThrottleNow | .controlLock | .controlServiceOpen
  | .controlServiceClose | .controlRestart | .restoreLane | .clearLane | .laneEditRemove
  | .laneEditIdentify | .readFlags | .clearFlags | .setNoticeMask | .readIdentity | .transmissionEnd
  | .readWindowExpiry _ | .scanIntervalExpiry _ | .advanceLimitExpiry _ | .unattendedExpiry _
  | .mergeHoldExpiry | .samplingWindowExpiry | .monitorWindowExpiry | .haltTimerExpiry
  | .startDelayExpiry | .idleExpiry | .stopDelayExpiry | .controlUndefinedOperation
  | .writeEntryUndefinedTable => true

end Sys2Proof
end

