-- ==== Sys2Proof/Tests/Slice0.lean ====
section
/-! SUPPORT. Small tests of one event each, ill-formed terms that the check refuses, and for every statement
with hypotheses states and operands that meet them. -/

namespace Sys2Proof.Tests

/- one theorem after another: each evaluation then has the whole of the thread memory -/
set_option Elab.async false

open Sys2Proof Sys2Proof.Machine

/-! ## States to test on -/

/-- A small track: lap gate G0 (3), lane gates G1 of L0 (4) and G3 of L1 (6), will-call gate G2 (5); lanes L0
(10, alternate L1) and L1 (11); induct I0 (20); will-call spur 30, return head 31, merge 32, drive 33. -/
def plant : Tables :=
  { Tables.powerOn with
    gates := setRow (setRow (setRow (setRow Tables.powerOn.gates
      0 ⟨true, .lap, 0, 3, 100, 80, false⟩) 1 ⟨true, .lane, 0, 4, 100, 80, false⟩)
      2 ⟨true, .willcall, 0, 5, 100, 80, false⟩) 3 ⟨true, .lane, 1, 6, 100, 80, false⟩
    lanes := setRow (setRow Tables.powerOn.lanes
      0 ⟨2, true, true, some 1, 10, 1500, 1000, 3000, 120, .autoReturn, false⟩)
      1 ⟨4, true, true, none, 11, 1500, 1000, 3000, 120, .lamp, false⟩
    bandActive := setRow Tables.powerOn.bandActive 0 ⟨9999, 3, .fixed, 20⟩
    inducts := setRow Tables.powerOn.inducts 0 ⟨true, 20, 50, false⟩
    site := { SiteRecord.powerOn with willcallStation := 30, returnStation := 31, mergeStation := 32 }
    drive := { DriveRecord.powerOn with station := 33 } }

/-- The part between events, configured, STOPPED, RING IN read and RING OUT idle. -/
def stopped : State :=
  { State.reset with
    cfg := plant
    ring := { State.reset.ring with ready := true, transmission := none }
    req := ⟨[], false, false, 0, 0xFFFFF#20⟩ }

/-- The same, RUNNING with the drive RUNNING and lane L0 OPEN and empty. -/
def running : State :=
  { stopped with
    now := 1000
    run := ⟨.running, none, 0⟩
    drive := ⟨.running, some 5000, none, false⟩
    lanes := setRow stopped.lanes 0 { Lane.reset with state := .opened, window := .empty } }

/-- Order 1234 of one tote, tag 77, in a state and at a place. -/
def holding (x : OrderState) (loc : Location) (s : State) : State :=
  { s with
    orders := [(0, ⟨1234, 1, 1, some 0, x, true, 0, 1⟩)]
    totes := [(0, ⟨77, 0, 1, loc, if loc = .loop then some .seen else none, none, none, 0, []⟩)] }

/-- Lane L0 changed. -/
def lane0 (f : Lane → Lane) (s : State) : State := s.modLane 0 f

/-- A request of these bytes is the oldest in the buffer. -/
def asked (payload : List Byte) (s : State) : State :=
  { s with req := { s.req with buffer := [⟨0x55#8, payload, !requestFits payload⟩] } }

/-- The request of these bytes. -/
def ask (payload : List Byte) : Request := ⟨0x55#8, payload, !requestFits payload⟩

/-- The header of a frame from a station to the part. -/
def from_ (a : Byte) : Header := ⟨0x01#8, a, 0x00#8⟩

/-- What a step leaves, the state itself where it stopped. -/
def after (s : State) (o : Host.Outcome State Fault Refusal) : State :=
  match o with
  | .next t => t
  | _ => s

/-- The state after a command. -/
def run (c : Instr) (s : State) : State := after s (exec c s)

/-- The Ring Port changed. -/
def ring (f : RingPort → RingPort) (s : State) : State := { s with ring := f s.ring }

/-- A frame of the class that is forwarded. -/
def passing : Frame := ⟨0x0A#8, 0x14#8, 0x01#8, 0x00#8, [0x01#8]⟩

/-- RING OUT is in use, with these queues and this wait count. -/
def busy (u fw r : List Frame) (n : Nat) : State :=
  ring (fun p => { p with urgent := u, forward := fw, routine := r, waitCount := n, transmission := some ⟨passing, 2000⟩ })
    running

/-- RING OUT stands in the gap that a warm start left, to this time. -/
def gapped (e : Time) : State := ring (fun p => { p with gap := some e }) running

/-! ## Ill-formed terms, one for each check of WellFormed.lean -/

theorem test_illformed_receptionFailure :
    Instr.wellFormed (.receptionFailure (Frame.bytes passing)) = false := by decide +kernel
theorem test_illformed_ownFrameStrip_source : Instr.wellFormed (.ownFrameStrip passing) = false := by decide
theorem test_illformed_received_dest :
    Instr.wellFormed (.ownFrameStrip ⟨0x00#8, 0x01#8, 0x10#8, 0x00#8, []⟩) = false := by decide
theorem test_illformed_received_destAbove :
    Instr.wellFormed (.ownFrameStrip ⟨0x40#8, 0x01#8, 0x10#8, 0x00#8, []⟩) = false := by decide
theorem test_illformed_received_srcAbove :
    Instr.wellFormed (.forwardedFrame ⟨0x0A#8, 0x40#8, 0x10#8, 0x00#8, []⟩) = false := by decide
theorem test_illformed_received_length :
    Instr.wellFormed (.ownFrameStrip ⟨0x03#8, 0x01#8, 0x10#8, 0x00#8, List.replicate 33 0⟩) = false := by decide
theorem test_illformed_forwarded_source :
    Instr.wellFormed (.forwardedFrame { passing with src := 0x01#8 }) = false := by decide
theorem test_illformed_forwarded_toPart :
    Instr.wellFormed (.forwardedFrame { passing with dest := 0x01#8 }) = false := by decide
theorem test_illformed_forwarded_toAll :
    Instr.wellFormed (.forwardedFrame { passing with dest := 0x3F#8 }) = false := by decide
theorem test_illformed_unreceivedKind_dest : Instr.wellFormed (.unreceivedKindFrame passing) = false := by decide
theorem test_illformed_unreceivedKind_source :
    Instr.wellFormed (.unreceivedKindFrame { passing with dest := 0x01#8, src := 0x01#8 }) = false := by decide
theorem test_illformed_station_low : Instr.wellFormed (.gateEye (from_ 0x02#8)) = false := by decide
theorem test_illformed_station_high : Instr.wellFormed (.tag (from_ 0x3F#8) 0x0001#16) = false := by decide
theorem test_illformed_station_dest : Instr.wellFormed (.taken ⟨0x02#8, 0x0A#8, 0x00#8⟩) = false := by decide
theorem test_illformed_request_dest :
    Instr.wellFormed (.requestFrame ⟨0x3F#8, 0x02#8, 0x00#8⟩ [0x14#8]) = false := by decide
theorem test_illformed_request_source : Instr.wellFormed (.requestFrame (from_ 0x03#8) [0x14#8]) = false := by decide
theorem test_illformed_request_empty : Instr.wellFormed (.requestFrame (from_ 0x02#8) []) = false := by decide
theorem test_illformed_request_long :
    Instr.wellFormed (.requestFrame (from_ 0x02#8) (List.replicate 33 0)) = false := by decide
theorem test_illformed_tag_low : Instr.wellFormed (.confirmExpiry 0 0) = false := by decide
theorem test_illformed_tag_high : Instr.wellFormed (.deadlineExpiry 4096) = false := by decide
theorem test_illformed_ticket : Instr.wellFormed (.collectExpiry 10000) = false := by decide
theorem test_wellformed_station : Instr.wellFormed (.gateEye (from_ 0x03#8)) = true := by decide

/-! ## One event each -/

theorem test_reset_step : after State.reset (step State.reset) = { State.reset with now := 1 } := by decide +kernel
theorem test_powerOn : exec .powerOn running = .next State.reset := rfl
theorem test_partReady : (run .partReady State.reset).ring.ready = true := by decide +kernel
theorem test_resetLine : (run .resetLinePulse running).req.flags = 0x00002#20 ∧
    (run .resetLinePulse running).cfg = plant := by decide +kernel

/-- A warm start during a transmission: DRIVE HALT waits for the end of the gap, and goes then. -/
theorem test_resetLine_midFrame :
    let s := run .resetLinePulse (busy [] [] [] 0)
    s.ring.transmission = none ∧ s.ring.gap = some 1002 ∧ s.ring.urgent = [driveFrame 33 false] ∧
    s.dueCommands = [] ∧ ({ s with now := 1002 } : State).dueCommands = [.transmissionEnd] ∧
    (run .transmissionEnd { s with now := 1002 }).ring.transmission = some ⟨driveFrame 33 false, 1012⟩ := by
  decide +kernel

/-- The read at the lane gate of a ROUTED order diverts its tote: BLADE is sent and the tote is incoming. -/
theorem test_tag_diverts :
    let s := run (.gateEye (from_ 0x04#8)) (holding (.routed 0) .loop running)
    let t := run (.tag (from_ 0x04#8) 77#16) s
    (t.tote? 0).map (·.location) = some (.incoming 0) ∧ (t.lane 0).incoming = [⟨0, some 151000⟩] ∧
      t.ring.transmission.map (·.frame) = some (bladeFrame 4) := by decide +kernel

/-- A NOREAD at an induct leaves an unread stray entry. -/
theorem test_noread_induct :
    (run (.noread (from_ 0x14#8)) (run (.inductEntryEye (from_ 0x14#8)) stopped)).queue 0 = [⟨none, none⟩] := by
  decide +kernel
theorem test_empty_late : run (.empty (from_ 0x0A#8)) stopped = stopped := by decide +kernel

/-- TAKEN of the last tote of an order frees the tote and the order. -/
theorem test_taken :
    let s := lane0 (fun x => { x with queue := [.known 0], window := .presented }) (holding (.ready 0) (.lane 0) running)
    (run (.taken (from_ 0x0A#8)) s).totes = [] ∧ (run (.taken (from_ 0x0A#8)) s).orders = [] := by decide +kernel
theorem test_returnButton :
    let s := lane0 (fun x => { x with queue := [.known 0], window := .presented }) (holding (.routed 0) (.lane 0) running)
    ((run (.returnButton (from_ 0x0A#8)) s).tote? 0).map (·.location) = some .returnBelt := by decide +kernel
theorem test_removed :
    ((run (.removed (from_ 0x14#8)) ((holding .unassigned (.induct 0) stopped).putQueue 0 [⟨some 77, some 0⟩])).tote?
      0).map (·.location) = some .unplaced := by decide +kernel
theorem test_estopPressed :
    (run (.estopPressed (from_ 0x0A#8)) running).run = ⟨.estop, none, 0x400#64⟩ := by decide +kernel
theorem test_estopReleased :
    (run (.estopReleased (from_ 0x0A#8)) (run (.estopPressed (from_ 0x0A#8)) running)).run.holders = 0 := by
  decide +kernel
theorem test_stationUp :
    (run (.stationUp (from_ 0x21#8)) running).ring.transmission.map (·.frame) = some (driveFrame 33 true) := by
  decide +kernel
theorem test_requestFrame :
    (run (.requestFrame (from_ 0x02#8) [0x14#8]) stopped).req.buffer = [⟨0x00#8, [0x14#8], false⟩] := by
  decide +kernel

/-- The RESPONSE of a request that was taken: its status and data. -/
def response (s : State) (payload : List Byte) (c : Instr) : Option (List Byte) :=
  (run c (asked payload s)).ring.transmission.map (·.frame.payload)

theorem test_unknown : response stopped [0x40#8] .unknownRequest = some [0x40#8, 0x05#8] := by decide +kernel
theorem test_malformed : response stopped [0x0C#8, 0x00#8] .commitBands = some [0x0C#8, 0x04#8] := by decide +kernel
theorem test_bindOrder :
    response stopped [0x01#8, 0x04#8, 0xD2#8, 0x02#8, 0x01#8] .bindOrder = some [0x01#8, 0x00#8, 0x00#8, 0x00#8] := by
  decide +kernel
theorem test_addTote :
    response { stopped with orders := [(0, ⟨1234, 1, 1, some 0, .unassigned, false, 0, 0⟩)] }
      [0x02#8, 0x04#8, 0xD2#8, 0x00#8, 0x4D#8, 0x01#8] .addTote = some [0x02#8, 0x00#8, 0x00#8] := by decide +kernel
theorem test_cancelOrder :
    response (holding .unassigned .unplaced stopped) [0x03#8, 0x04#8, 0xD2#8] .cancelOrder =
      some [0x03#8, 0x00#8, 0x01#8] := by decide +kernel
theorem test_dropTote :
    response (holding .unassigned .unplaced stopped) [0x04#8, 0x00#8, 0x4D#8] .dropTote =
      some [0x04#8, 0x00#8, 0x00#8] := by decide +kernel
theorem test_readOrder :
    response (holding (.routed 0) .loop running) [0x06#8, 0x04#8, 0xD2#8] .readOrder =
      some [0x06#8, 0x00#8, 0x04#8, 0xD2#8, 0x01#8, 0x01#8, 0x00#8, 0x10#8, 0x00#8, 0x01#8, 0x01#8, 0x10#8,
        0x10#8, 0x4D#8, 0x20#8] := by decide +kernel
theorem test_readTote :
    response (holding (.routed 0) .loop running) [0x07#8, 0x00#8, 0x4D#8] .readTote =
      some [0x07#8, 0x00#8, 0x00#8, 0x4D#8, 0x04#8, 0xD2#8, 0x01#8, 0x20#8, 0x01#8, 0xFF#8, 0xFF#8, 0xFF#8,
        0x00#8, 0x00#8, 0x00#8, 0x00#8, 0x00#8, 0x00#8, 0x00#8, 0x00#8, 0x00#8, 0x00#8] := by decide +kernel
theorem test_readEntry_gate :
    response stopped [0x0A#8, 0x01#8, 0x01#8] .readEntry =
      some [0x0A#8, 0x00#8, 0x01#8, 0x01#8, 0x01#8, 0x01#8, 0x00#8, 0x04#8, 0x00#8, 0x64#8, 0x00#8, 0x50#8,
        0x00#8] := by decide +kernel
theorem test_readerStatus :
    response stopped [0x0A#8, 0x09#8, 0x22#8] .readEntryReaderStatus = some [0x0A#8, 0x03#8] := by decide +kernel
theorem test_writeGate_range :
    response stopped [0x0B#8, 0x01#8, 0x01#8, 0x01#8, 0x00#8, 0x00#8, 0x04#8, 0x00#8, 0x64#8, 0x00#8, 0x50#8, 0x00#8]
      .writeEntryGate = some [0x0B#8, 0x03#8, 0x02#8] := by decide +kernel
theorem test_commitBands_invalid :
    response stopped [0x0C#8] .commitBands = some [0x0C#8, 0x0D#8, 0x02#8, 0x00#8] := by decide +kernel
theorem test_start :
    response stopped [0x0D#8, 0x01#8] .controlStart =
      some ([0x0D#8, 0x00#8, 0x01#8, 0x01#8] ++ List.replicate 8 0x00#8) := by decide +kernel
theorem test_start_invalid :
    response { stopped with cfg := .powerOn } [0x0D#8, 0x01#8] .controlStart = some [0x0D#8, 0x0D#8, 0x11#8, 0x00#8] := by
  decide +kernel
theorem test_halt_empty_track :
    (run .controlHalt (asked [0x0D#8, 0x02#8] running)).run.state = .stopped := by decide +kernel
theorem test_clearEstop_held :
    (response { running with run := ⟨.estop, none, 0x400#64⟩ } [0x0D#8, 0x04#8] .controlClearEstop) =
      some [0x0D#8, 0x0F#8, 0x00#8, 0x00#8, 0x00#8, 0x00#8, 0x00#8, 0x00#8, 0x04#8, 0x00#8] := by decide +kernel
theorem test_restart : (run .controlRestart (asked [0x0D#8, 0x09#8] running)).req.flags = 0x00004#20 := by
  decide +kernel
theorem test_clearLane : (run .clearLane (asked [0x0F#8, 0x01#8] running)).laneOpen 1 = true := by decide +kernel
theorem test_restoreLane :
    ((run .restoreLane (asked [0x0E#8, 0x01#8, 0x00#8, 0x4D#8] (holding .unassigned .unplaced running))).lane 1).ready =
      [⟨0, 120001000⟩] := by decide +kernel
theorem test_readIdentity :
    response stopped [0x14#8] .readIdentity =
      some [0x14#8, 0x00#8, 0xD9#8, 0x10#8, 0x18#8, 0x02#8, 0x01#8, 0x00#8, 0x00#8] := by decide +kernel
theorem test_windowExpiry :
    ((run (.readWindowExpiry 0) (run (.gateEye (from_ 0x03#8)) running)).reader 0).last =
      some ⟨.none, false⟩ := by decide +kernel
theorem test_deadlineExpiry :
    let s := { running with
      orders := (holding .unassigned .loop running).orders
      totes := [(0, ⟨77, 0, 1, .loop, some (.unseen 1), none, some ⟨2000, 0⟩, 0, []⟩)] }
    (run (.deadlineExpiry 77) s).req.flags = 0x00100#20 := by decide +kernel
theorem test_idle : (run .idleExpiry running).drive.state = .stopping := by decide +kernel

/-! ## Hypotheses that are met, clause by clause -/

/-- Lane L0 with a queue, a window and a foreign tote. -/
def shown (q : List QueueEntry) (w : Window) (f : Option Foreign) (s : State) : State :=
  lane0 (fun x => { x with queue := q, window := w, foreign := f }) s

/-- A number of totes in the return-belt set, from slot 1 on. -/
def belt (n : Nat) (s : State) : State :=
  { s with totes := s.totes ++ (List.range n).map (fun i => (i + 1, ⟨100 + i, 0, 1, .returnBelt, none, none, none, 0, []⟩)) }

theorem test_meets_FrontCommandRuns : ({ stopped with pending := [.powerOn] } : State).pending = .powerOn :: [] := rfl

theorem test_meets_EmptyQueueStep :
    stopped.pending = [] ∧ stopped.dueCommands = [] ∧ (asked [0x14#8] stopped).dueCommands = [.readIdentity] ∧
    2 ≤ ({ asked [0x14#8] stopped with merge := { stopped.merge with hold := some 0 } } : State).dueCommands.length := by
  decide +kernel

/-- A request row, the reset time, a timer and a confirm timer: due at their time, and not before it. -/
theorem test_meets_EmptyQueueStep_due :
    let waits := lane0 (fun x => { x with incoming := [⟨0, some 1000⟩] }) (holding (.routed 0) (.incoming 0) running)
    Due (asked [0x14#8] stopped) .readIdentity ∧ ¬Due stopped .readIdentity ∧
    Due { State.reset with now := 5000 } .partReady ∧ ¬Due { State.reset with now := 4999 } .partReady ∧
    Due { running with now := 5000 } .idleExpiry ∧ ¬Due { running with now := 4999 } .idleExpiry ∧
    Due waits (.confirmExpiry 0 77) ∧ ¬Due waits (.confirmExpiry 0 78) := by
  unfold Due RunsOut
  refine ⟨⟨ask [0x14#8], [], rfl, rfl, by decide⟩, ?_, by decide, by decide, ⟨by decide, 5000, rfl, by decide⟩, ?_,
    ⟨⟨0, some 1000⟩, by decide +kernel, by decide +kernel, 1000, rfl, by decide⟩, ?_⟩
  · rintro ⟨_, _, h, -⟩; cases h
  · rintro ⟨-, e, h, l⟩; cases h; exact absurd l (by decide)
  · rintro ⟨e, m, h, -⟩
    have m : e = ⟨0, some 1000⟩ := List.mem_singleton.1 m
    subst m; exact absurd h (by decide +kernel)

/-- Lane L0 whose window tote, entry 0, belongs to an order that left the lane's book. -/
def lapsed : State := shown [.known 0] .presented none (holding (.willcall .cancelled) (.lane 0) running)

theorem test_meets_EmptyQueueStep_lane :
    ReturnsTote lapsed 0 :=
  ⟨by decide +kernel, by decide +kernel, by decide +kernel, 0, [], _, _, rfl, rfl, rfl, by decide +kernel, by decide +kernel⟩

/-- A lane whose own test of auto-return holds: with room on the belt its event is due, with a full belt it waits. -/
theorem test_laneReturn :
    lapsed.beltCount < 6 ∧ (lapsed.lane 0).queue = .known 0 :: [] ∧
    lapsed.dueEvents = [.laneReturn 0] ∧ (belt 6 lapsed).dueEvents = [] ∧
    ((lapsed.laneReturn 0).tote? 0).map (·.location) = some .returnBelt ∧
    ((lapsed.laneReturn 0).lane 0).window = .empty ∧
    (lapsed.laneReturn 0).ring.transmission.map (·.frame) = some (chuteFrame 10) := by
  decide +kernel

/-- R7, R18: a TAKEN after the cancel, or after the collect timer's expiry, takes the PRESENTED tote as done. -/
theorem test_taken_after_leaving :
    let ready := lane0 (fun x => { x with ready := [⟨0, 5000⟩] })
      (shown [.known 0] .presented none (holding (.ready 0) (.lane 0) running))
    let cancelled := run .cancelOrder (asked [0x03#8, 0x04#8, 0xD2#8] ready)
    let expired := run (.collectExpiry 1234) ready
    (cancelled.lane 0).window = .presented ∧ (expired.lane 0).window = .presented ∧
    (cancelled.order? 0).map (·.state) = some (.willcall .cancelled) ∧
    (expired.order? 0).map (·.state) = some (.willcall .expired) ∧
    (run (.taken (from_ 0x0A#8)) cancelled).orders = [] ∧ (run (.taken (from_ 0x0A#8)) cancelled).totes = [] ∧
    (run (.taken (from_ 0x0A#8)) expired).orders = [] := by decide +kernel

theorem test_meets_PowerOnAndResetTime : Quiet State.reset ∧ State.reset.ring.ready = false := by decide +kernel

theorem test_meets_WarmStartLeaves :
    AskedWell (asked [0x0D#8, 0x09#8] stopped) .controlRestart (ask [0x0D#8, 0x09#8]) [] ∧
    Flag.startLine.isIn stopped.req.mask = true ∧ stopped.lanePresent 0 = true ∧
    (stopped.ring.transmission.map (·.ends)).or stopped.ring.gap = none ∧
    (((busy [] [] [] 0).ring.transmission.map (·.ends)).or (busy [] [] [] 0).ring.gap = some 2000 ∧
      (busy [] [] [] 0).now < 2000) ∧
    ((gapped 1002).ring.transmission.map (·.ends)).or (gapped 1002).ring.gap = some 1002 ∧ (gapped 900).now = 1000 := by
  decide +kernel

theorem test_meets_FramesNotForThePart :
    Quiet stopped ∧ stopped.ring.ready = true ∧ frameOfBytes [0x01#8] = none ∧
    (let f : Frame := ⟨0x03#8, 0x01#8, 0x10#8, 0x00#8, List.replicate 32 0⟩
     f.dest ≠ 0x00#8 ∧ f.payload.length ≤ 32 ∧ f.src = 0x01#8) ∧
    (passing.src ≠ 0x01#8 ∧ passing.dest ≠ 0x00#8 ∧ passing.dest ≠ 0x01#8 ∧ passing.dest ≠ 0x3F#8 ∧
      passing.payload.length ≤ 32) ∧
    (busy [] (List.replicate 3 passing) [] 0).ring.transmission ≠ none ∧
    (busy [] (List.replicate 3 passing) [] 0).ring.forward.length < 4 ∧
    4 ≤ (busy [] (List.replicate 4 passing) [] 0).ring.forward.length ∧ (gapped 1002).ring.gap ≠ none ∧
    (stopped.ring.transmission = none ∧ stopped.ring.gap = none ∧ stopped.ring.forward = [] ∧
      stopped.ring.urgent = [] ∧ stopped.ring.routine = []) := by decide +kernel

/-- Frames that are consumed and ignored: of no kind the part receives, of a wrong length, of a sender that is no
named address, and an ESTOP of an address outside 3 to 62. -/
theorem test_meets_FramesNotForThePart_ignored :
    let odd : Frame := ⟨0x3F#8, 0x14#8, 0x40#8, 0x00#8, []⟩
    let long : Frame := ⟨0x01#8, 0x14#8, Kind.eye, 0x00#8, [0x02#8, 0x00#8]⟩
    let stranger : Frame := ⟨0x01#8, 0x3D#8, Kind.eye, 0x00#8, [0x02#8]⟩
    let adapter : Frame := ⟨0x01#8, 0x02#8, Kind.estop, 0x00#8, [0x01#8]⟩
    stationLength odd.kind ≠ some odd.payload.length ∧ stationLength long.kind ≠ some long.payload.length ∧
    (stationLength stranger.kind = some stranger.payload.length ∧ stopped.named 61 = false) ∧
    (stationLength adapter.kind = some adapter.payload.length ∧ adapter.src.toNat < 3 ∧ 62 < (63#8).toNat) ∧
    (∀ f ∈ [odd, long, stranger, adapter], f.src ≠ 0x01#8 ∧ (f.dest = 0x01#8 ∨ f.dest = 0x3F#8) ∧
      f.kind ≠ Kind.request ∧ run (.unreceivedKindFrame f) stopped =
        closeEvent stopped (if f.dest = 0x3F#8 then stopped.hand f else stopped)) := by decide +kernel

/-- Frames whose payload byte names no role, button or state, and a REQUEST of LEN 0. -/
theorem test_meets_FramesNotForThePart_undefined :
    let f := fun (k b : Byte) => (⟨0x01#8, 0x0A#8, k, 0x00#8, [b]⟩ : Frame)
    (∀ g ∈ [f Kind.eye 0x00#8, f Kind.eye 0x08#8, f Kind.button 0x00#8, f Kind.button 0x04#8, f Kind.estop 0x00#8,
        f Kind.estop 0x03#8], g.src ≠ 0x01#8 ∧ g.dest = 0x01#8 ∧ run (.unreceivedKindFrame g) running = running) ∧
    ((from_ 0x02#8).src ≠ 0x01#8 ∧ (from_ 0x02#8).dest = 0x01#8 ∧ run (.requestFrame (from_ 0x02#8) []) running = running) := by
  decide +kernel

theorem test_meets_TransmissionEndChooses :
    let d := driveFrame 33 false
    let l := lampFrame 10 .off
    Quiet (busy [d] [passing] [l] 8) ∧
    ((busy [d] [passing] [l] 8).ring.transmission.map (·.ends)).or (busy [d] [passing] [l] 8).ring.gap = some 2000 ∧
    ((gapped 1002).ring.transmission.map (·.ends)).or (gapped 1002).ring.gap = some 1002 ∧
    ((busy [d] [passing] [l] 8).ring.routine = l :: [] ∧ (busy [d] [passing] [l] 8).ring.waitCount = 8) ∧
    ((busy [] [] [l] 0).ring.urgent = [] ∧ (busy [] [] [l] 0).ring.forward = []) ∧
    ((busy [d] [] [l] 7).ring.urgent = d :: [] ∧ (busy [d] [] [l] 7).ring.waitCount ≠ 8) ∧
    ((busy [d] [] [] 8).ring.urgent = d :: [] ∧ (busy [d] [] [] 8).ring.routine = []) ∧
    ((busy [] [passing] [l] 7).ring.urgent = [] ∧ (busy [] [passing] [l] 7).ring.forward = passing :: [] ∧
      (busy [] [passing] [l] 7).ring.waitCount ≠ 8) ∧
    ((busy [] [] [] 0).ring.urgent = [] ∧ (busy [] [] [] 0).ring.forward = [] ∧ (busy [] [] [] 0).ring.routine = []) ∧
    (running.ring.transmission = none ∧ running.ring.gap = none) := by
  decide +kernel

/-- A SCAN that begins transmission opens the window of the head reader that waits for it; one for a station with
no such reader opens none. -/
theorem test_meets_Begins :
    let s := (run (.scanIntervalExpiry 0) ((busy [] [] [] 0).startScan 0))
    let t := run .transmissionEnd s
    AwaitsScan s 10 0 ∧ (∀ l, ¬AwaitsScan running 10 l) ∧ t.ring.transmission.map (·.frame) = some (scanFrame 10) ∧
    (t.reader (headReader 0)).cycle = .opened ∧ (t.reader (headReader 0)).window = some (101000 + 25000) := by
  decide +kernel

/-- The four rows of trigger eyes, and the readers they reach. -/
theorem test_meets_TriggerEyes_rows (h : Header) :
    TriggerRow h (.gateEye h) gateReaders 0x01#8 ∧ TriggerRow h (.inductEntryEye h) inductReaders 0x02#8 ∧
    TriggerRow h (.returnHeadEye h) [returnHeadReader] 0x04#8 ∧ TriggerRow h (.willcallExitEye h) [exitReader] 0x06#8 :=
  ⟨.inl ⟨rfl, rfl, rfl⟩, .inr (.inl ⟨rfl, rfl, rfl⟩), .inr (.inr (.inl ⟨rfl, rfl, rfl⟩)),
    .inr (.inr (.inr ⟨rfl, rfl, rfl⟩))⟩

theorem test_meets_TriggerEyes :
    Quiet running ∧
    (Heard running (from_ 0x03#8) ∧ ReachedBy running gateReaders 3 0 ∧ running.inService 0 = true ∧
      (running.reader 0).cycle = .idle) ∧
    (Heard running (from_ 0x14#8) ∧ ReachedBy running inductReaders 20 16) ∧
    (Heard running (from_ 0x1F#8) ∧ ReachedBy running [returnHeadReader] 31 32) ∧
    (Heard running (from_ 0x1E#8) ∧ ReachedBy running [exitReader] 30 33) := by decide +kernel

theorem test_meets_TriggerEyes_others :
    ((run (.gateEye (from_ 0x03#8)) running).reader 0).cycle = .opened ∧
    ReachedBy (run (.gateEye (from_ 0x03#8)) running) gateReaders 3 0 ∧
    (ReachedBy stopped gateReaders 3 0 ∧ stopped.inService 0 = false) ∧
    (∀ r ∈ gateReaders, running.enabled r = true → running.stationOf r ≠ 10) := by decide +kernel

theorem test_meets_LaneEntryEye :
    Heard running (from_ 0x0A#8) ∧ running.laneAt 10 = some 0 ∧ running.laneOpen 0 = true ∧
    ((lane0 (fun x => { x with incoming := [⟨0, some 2000⟩] }) running).lane 0).incoming = ⟨0, some 2000⟩ :: [] ∧
    ((running.lane 0).incoming = [] ∧ ((shown [.unknown none] .empty none running).lane 0).queue.length <
      (running.laneCfg 0).capacity) ∧
    (running.laneCfg 0).capacity ≤ ((shown [.unknown none, .unknown none] .empty none running).lane 0).queue.length ∧
    (Heard running (from_ 0x0B#8) ∧ ∀ l, running.laneAt 11 = some l → running.laneOpen l = false) := by decide +kernel

/-- Addresses that name a lane or an induct, and one that names neither: 30, the will-call spur. -/
theorem test_meets_namedBlocks :
    (running.laneAt 11 = some 1 ∧ (running.laneCfg 1).capacity ≠ 0 ∧ (running.laneCfg 1).station = 11) ∧
    (running.inductAt 20 = some 0 ∧ (running.inductCfg 0).present = true ∧ (running.inductCfg 0).station = 20) ∧
    running.laneAt 30 = none ∧ running.inductAt 30 = none ∧
    (Heard running (from_ 0x1E#8) ∧ (∀ l, (running.laneCfg l).capacity = 0 ∨ (running.laneCfg l).station ≠ 30) ∧
      run (.taken (from_ 0x1E#8)) running = running ∧ run (.returnButton (from_ 0x1E#8)) running = running) := by
  decide +kernel

theorem test_meets_SpurAndApproachEyes :
    Heard running (from_ 0x1E#8) ∧ (from_ 0x1E#8).src.toNat = running.cfg.site.willcallStation ∧
    ({ running with willcall := ⟨[⟨0, some 2000⟩], []⟩ } : State).willcall.incoming = ⟨0, some 2000⟩ :: [] ∧
    running.willcall.incoming = [] ∧
    (Heard running (from_ 0x20#8) ∧ (from_ 0x20#8).src.toNat = running.cfg.site.mergeStation ∧
      (from_ 0x20#8).src.toNat ≠ running.cfg.site.willcallStation) ∧
    (from_ 0x1E#8).src.toNat ≠ running.cfg.site.mergeStation := by decide +kernel

theorem test_meets_resultRows (h : Header) :
    ResultRow h (.tag h 77#16) (.tag 77) Kind.tag (bytes16 77#16) ∧ ResultRow h (.noread h) .noread Kind.noread [] ∧
    ResultRow h (.empty h) .empty Kind.empty [] :=
  ⟨.inl ⟨_, rfl, rfl, rfl, rfl⟩, .inr (.inl ⟨rfl, rfl, rfl, rfl⟩), .inr (.inr ⟨rfl, rfl, rfl, rfl⟩)⟩

theorem test_meets_ResultCompletesCycle :
    let s := run (.gateEye (from_ 0x03#8)) running
    Quiet s ∧ Heard s (from_ 0x03#8) ∧ s.enabled 0 = true ∧ s.stationOf 0 = 3 ∧ (s.reader 0).cycle = .opened ∧
    (∀ q < (0 : ReaderIx), s.enabled q = true → s.stationOf q = 3 → (s.reader q).cycle ≠ .opened) ∧
    running.drive.state = .running ∧ stopped.drive.state ≠ .running := by decide +kernel

theorem test_meets_LateResultChangesNothing :
    Quiet running ∧ Heard running (from_ 0x03#8) ∧
    (∀ r, running.enabled r = true → running.stationOf r = 3 →
      (running.reader r).cycle = .idle ∨ (running.reader r).cycle = .wait) := by decide +kernel

theorem test_meets_GateDelivery :
    let s := holding (.routed 0) .loop running
    let u := holding (.routed 0) .unplaced running
    s.findTote 78 = none ∧
    ((s.findTote 77).map (·.1) = some 0 ∧ (s.tote? 0).map (·.location) = some .loop) ∧
    ((u.findTote 77).map (·.1) = some 0 ∧ (u.tote? 0).map (·.location) ≠ some .loop) ∧
    ((s.gateCfg 1).present = true ∧ (0 : GateIx) < 1) ∧ (∀ h, (s.gateCfg h).present = true → h ≤ 3) := by decide +kernel

/-- A tote placed on an empty loop in each drive state, and on one that another tote is on. -/
theorem test_meets_GateDelivery_loop :
    let s := fun d : DriveState => { holding .unassigned .unplaced running with drive := ⟨d, none, none, false⟩ }
    let two : State :=
      { s .resting with
        totes := (s .resting).totes ++ [((1 : Nat), (⟨78, 0, 2, .loop, some .seen, none, none, 0, []⟩ : Tote))] }
    (∀ q ∈ (s .resting).totes, q.2.location ≠ .loop) ∧
    (((s .resting).placeOnLoop 0 id).drive = ⟨.starting, none, some 201000, false⟩ ∧
      ((s .resting).placeOnLoop 0 id).ring.outbox = [driveFrame 33 true]) ∧
    ((s .stopping).placeOnLoop 0 id).drive = ⟨.stopping, none, none, true⟩ ∧
    ((s .running).placeOnLoop 0 id).drive = (s .running).drive ∧
    (two.totes.any (fun q => q.2.location == .loop) = true ∧ (two.placeOnLoop 0 id).drive = two.drive) := by decide +kernel

theorem test_meets_LaneGateDecides :
    let s := holding (.routed 0) .loop running
    let off := { s with cfg := { plant with lanes := setRow plant.lanes 0 { row plant.lanes 0 with take := false } } }
    let open1 := { off with lanes := setRow off.lanes 1 { Lane.reset with state := .opened, window := .empty } }
    let full := { shown [.unknown none, .unknown none] .empty none s with
      orders := [(0, ⟨1234, 0, 1, some 0, .routed 0, true, 0, 0⟩)] }
    ((s.gateCfg 1).kind = .lane ∧ (s.gateCfg 1).lane = 0 ∧ (s.tote? 0).isSome = true ∧ (s.order? 0).isSome = true) ∧
    ((holding .unassigned .loop running).order? 0).map (·.state) = some .unassigned ∧
    (holding (.routed 0) .loop stopped).laneOpen 0 = false ∧
    (shown [.unknown none, .unknown none] .empty none s).overbooked 0 = true ∧
    (s.laneOpen 0 = true ∧ s.overbooked 0 = false) ∧
    ((off.laneCfg 0).take = false ∧ (off.laneCfg 0).alternate = some 1 ∧ off.laneOpen 1 = false) ∧
    ((∀ q ∈ open1.totes, q.2.location ≠ .lane 0 ∧ q.2.location ≠ .incoming 0) ∧
      (open1.order? 0).map (fun o => (o.band, o.total - o.done)) = some (some 0, 1) ∧
      (row open1.cfg.bandActive 0).laneSet.getLsbD 1 = true ∧ (open1.laneCfg 1).capacity ≠ 0 ∧
      open1.laneOpen 1 = true ∧ (open1.laneCfg 1).take = true ∧ open1.overbooked 1 = false ∧ (1 : Int) ≤ open1.free 1) ∧
    ((open1.decide 1 0).order? 0).map (·.state) = some (.routed 1) ∧
    (full.overbooked 0 = false ∧ full.occupied 0 + full.incoming 0 = (full.laneCfg 0).capacity) ∧
    s.occupied 0 + s.incoming 0 ≠ (s.laneCfg 0).capacity := by decide +kernel

theorem test_meets_LapAndWillcallGates :
    let s := holding .unassigned .loop running
    let w := holding (.willcall .lapped) .loop running
    let spur := fun n : Nat => { w with willcall := ⟨[], List.replicate n ⟨9, 0⟩⟩ }
    (s.gateCfg 4).kind = .track ∧
    ((s.gateCfg 0).kind = .lap ∧ (s.tote? 0).isSome = true ∧ (s.order? 0).map (·.state) = some .unassigned) ∧
    (((s.countLap 0).attempt 0).order? 0).map (·.state) = some (.routed 0) ∧
    ((w.gateCfg 2).kind = .willcall ∧ (w.order? 0).map (·.state) = some (.willcall .lapped)) ∧
    ((spur 23).willcall.list.length + (spur 23).willcall.incoming.length < (spur 23).cfg.site.willcallCapacity) ∧
    ((spur 24).cfg.site.willcallCapacity ≤ (spur 24).willcall.list.length + (spur 24).willcall.incoming.length) := by
  decide +kernel

theorem test_meets_OrderEndings :
    let s := shown [.known 0] .presented none (holding (.ready 0) (.lane 0) running)
    let two := { s with orders := [(0, ⟨1234, 2, 1, some 0, .routed 0, true, 0, 1⟩)] }
    TablesCanonical s ∧ (s.tote? 0).isSome = true ∧ (s.order? 0).map (·.state) = some (.ready 0) ∧
    (s.order? 0).map (fun o => (o.done + 1, o.total)) = some (1, 1) ∧
    (two.order? 0).map (fun o => (o.done + 1, o.total)) = some (1, 2) ∧
    (s.tote? 0).map (·.location) = some (.lane 0) ∧ (s.lane 0).positionOf 0 = some 0 ∧ (s.lane 0).window = .presented ∧
    ((shown [.unknown none, .known 0] .presented none s).lane 0).positionOf 0 = some 1 ∧
    ((shown [] .empty none s).lane 0).positionOf 0 = none ∧
    (∀ loc ∈ [Location.unplaced, .loop, .induct 0, .incoming 0, .returnBelt, .willcallIncoming, .willcall],
      ((holding (.routed 0) loc running).tote? 0).map (·.location) = some loc) := by decide +kernel

/-- A READY order that ends with its last tote leaves the ready list. -/
theorem test_meets_OrderEndings_ready :
    let s := lane0 (fun x => { x with ready := [⟨0, 5000⟩, ⟨1, 6000⟩] })
      (shown [.known 0] .presented none (holding (.ready 0) (.lane 0) running))
    (s.freeDone 0).order? 0 = none ∧ ((s.freeDone 0).lane 0).ready = [⟨1, 6000⟩] := by decide +kernel

theorem test_meets_AssignmentChoice :
    let s := holding .unassigned .loop running
    let bare := { s with cfg := Tables.powerOn }
    let spread := { s with cfg := { plant with bandActive := setRow plant.bandActive 0 ⟨9999, 3, .spread, 20⟩ } }
    let cand := fun (t : State) (l : LaneIx) =>
      (row t.cfg.bandActive 0).laneSet.getLsbD l.val = true ∧ (t.laneCfg l).capacity ≠ 0 ∧ t.laneOpen l = true ∧
        (t.laneCfg l).take = true ∧ t.overbooked l = false ∧ (1 : Int) ≤ t.free l
    (s.order? 0).map (fun o => (o.state, o.band, o.total - o.done)) = some (.unassigned, some 0, 1) ∧
    (∀ l : LaneIx, ¬((row bare.cfg.bandActive 0).laneSet.getLsbD l.val = true ∧ (bare.laneCfg l).capacity ≠ 0 ∧
      1 ≤ (bare.laneCfg l).capacity)) ∧
    ((row s.cfg.bandActive 0).laneSet.getLsbD 0 = true ∧ (s.laneCfg 0).capacity ≠ 0 ∧ 1 ≤ (s.laneCfg 0).capacity) ∧
    (∀ l, ¬cand (holding .unassigned .loop stopped) l) ∧
    ((row s.cfg.bandActive 0).method = .fixed ∧ cand s 0 ∧ ∀ m, cand s m → 0 ≤ m) ∧
    ((row spread.cfg.bandActive 0).method = .spread ∧ cand spread 0 ∧
      ∀ m, cand spread m → spread.free m < spread.free 0 ∨ (spread.free m = spread.free 0 ∧ 0 ≤ m)) := by decide +kernel

theorem test_meets_MergeGrants :
    let s := (holding .unassigned (.induct 0) running).putQueue 0 [⟨some 77, some 0⟩]
    let b := (holding (.routed 0) .returnBelt running).setHead (.known 0)
    (s.setHead .unnamed).beltReleasable = true ∧ s.beltReleasable = false ∧
    (s.inductReleasable 0 = true ∧ s.knownHead 0 = some 0 ∧
      ∀ j, s.inductReleasable j = true → s.headPriority j < s.headPriority 0 ∨
        (s.headPriority j = s.headPriority 0 ∧ (0 - s.merge.pointer - 1).val ≤ (j - s.merge.pointer - 1).val)) ∧
    (∀ i, running.inductReleasable i = false) ∧
    ((s.tote? 0).isSome = true ∧ (s.order? 0).map (·.released) = some true ∧ s.drive.state = .running) ∧
    (({ s with orders := [(0, ⟨1234, 1, 1, some 0, .unassigned, false, 0, 1⟩)] } : State).order? 0).map (·.released) =
      some false ∧
    (b.merge.head = .known 0 ∧ (b.tote? 0).isSome = true ∧ (b.order? 0).map (·.released) = some true ∧
      b.drive.state = .running ∧ (s.setHead .unnamed).merge.head = .unnamed) ∧
    s.claimant = true ∧ b.claimant = true ∧ running.claimant = false := by decide +kernel

/-- Settings of the first read and tags at their bounds. -/
theorem test_meets_ResultCompletesCycle_tables :
    plant.gates.toList.length = 16 ∧ running.discardFirst 0 = false ∧ stopped.discardFirst 31 = true ∧
    running.discardFirst 33 = true ∧ tagResult 0 = .noread ∧ tagResult 1 = .tag 1 ∧ tagResult 4095 = .tag 4095 ∧
    tagResult 4096 = .noread ∧ (15 : ReaderIx).val < 16 ∧ (19 : ReaderIx).val = 16 + (3 : InductIx).val ∧
    (31 : ReaderIx).val = 20 + (11 : LaneIx).val := by decide +kernel

theorem test_meets_OtherReaderDeliveries :
    let at_ := fun loc => holding (.routed 0) loc running
    let four := (at_ .loop).putQueue 0 (List.replicate 4 ⟨none, none⟩)
    (at_ .loop).findTote 78 = none ∧ ((at_ .loop).findTote 77).map (·.1) = some 0 ∧
    ((at_ (.induct 0)).tote? 0).map (·.location) = some (.induct 0) ∧ (four.queue 0).length = 4 ∧
    ((at_ .unplaced).tote? 0).map (·.location) = some .unplaced ∧ ((at_ .unplaced).queue 0).length ≠ 4 ∧
    ((at_ .returnBelt).tote? 0).map (·.location) = some .returnBelt ∧
    (belt 5 (at_ .loop)).beltCount < 6 ∧ 6 ≤ (belt 6 (at_ .loop)).beltCount ∧
    running.willcall.list = [] ∧
    ({ at_ .willcall with willcall := ⟨[], [⟨0, 900⟩]⟩ } : State).willcall.list = ⟨0, 900⟩ :: [] := by decide +kernel

theorem test_meets_WindowScan :
    let s := shown [.known 0] .advancing none (holding (.ready 0) (.lane 0) running)
    ((s.lane 0).window ≠ .held ∧ (s.lane 0).queue = .known 0 :: [] ∧ (s.findTote 77).map (·.1) = some 0 ∧
      (s.tote? 0).map (fun x => (x.location, x.tag)) = some (.lane 0, 77)) ∧
    (s.findTote 78 = none ∧ s.tagOf 0 ≠ 78) ∧
    ((shown [.unknown none] .held none running).lane 0).queue = .unknown none :: [] ∧
    ((shown [.unknown none] .held none running).lane 0).foreign = none ∧
    (((lane0 (fun x => { x with incoming := [⟨0, none⟩] }) running).lane 0).incoming.length < (running.laneCfg 0).capacity ∧
      (running.lane 0).queue = []) ∧
    (running.laneCfg 0).capacity ≤
      ((lane0 (fun x => { x with incoming := [⟨0, none⟩, ⟨1, none⟩] }) running).lane 0).incoming.length ∧
    (((shown [] .held (some .unread) running).lane 0).window = .held ∧
      ((shown [] .held (some .unread) running).lane 0).foreign = some .unread) ∧
    (running.lane 0).toteAtWindow = false ∧
    (((shown [.known 0] .presented none s).lane 0).toteAtWindow = true ∧ (s.lane 0).emptyScans = 0) ∧
    ((lane0 (fun x => { x with emptyScans := 1 }) (shown [.known 0] .presented none s)).lane 0).emptyScans ≠ 0 := by
  decide +kernel

/-- Tags scanned at the window: no record, or one that stands elsewhere; entry 0 known by another tag, unknown, or
absent; a foreign tote of that tag or of another. -/
theorem test_meets_WindowScan_tags :
    let two := fun s : State =>
      ({ s with totes := s.totes ++ [(1, ⟨78, 0, 2, .loop, none, none, none, 0, []⟩)] } : State)
    let s := two (shown [.known 0] .held (some (.tag 78)) (holding (.ready 0) (.lane 0) running))
    let other := two (shown [.known 0] .held (some (.tag 79)) (holding (.ready 0) (.lane 0) running))
    let back := two (shown [.unknown none, .known 0] .advancing none (holding (.routed 0) (.lane 0) running))
    ((s.findTote 78).map (fun p => (p.1, p.2.location)) = some (1, .loop) ∧ (s.tote? 1).map (·.tag) = some 78 ∧
      (s.lane 0).window = .held ∧ (s.lane 0).foreign = some (.tag 78) ∧ s.tagOf 0 ≠ 78) ∧
    (other.lane 0).foreign ≠ some (.tag 78) ∧ (other.findTote 80 = none) ∧
    ((back.lane 0).queue = .unknown none :: [.known 0] ∧ (back.findTote 77).map (·.1) = some 0) ∧
    ((back.deliver (headReader 0) (.tag 77)).lane 0).queue = [.known 0, .unknown none] ∧
    ((back.deliver (headReader 0) (.tag 78)).tote? 1).map (·.location) = some (.lane 0) := by decide +kernel

/-- The window states that the TAKEN and RETURN buttons meet. -/
theorem test_meets_buttons :
    let s := holding (.ready 0) (.lane 0) running
    Quiet s ∧ Heard s (from_ 0x0A#8) ∧ s.laneAt 10 = some 0 ∧ s.laneOpen 0 = true ∧
    (Heard s (from_ 0x0B#8) ∧ s.laneAt 11 = some 1 ∧ s.laneOpen 1 = false) ∧
    (((shown [.known 0] .presented none s).lane 0).window = .presented ∧
      ((shown [.known 0] .presented none s).lane 0).toteAtWindow = true) ∧
    ((shown [.unknown none] .presented none s).lane 0).toteAtWindow = true ∧
    (((shown [] .held (some (.tag 77)) s).lane 0).toteAtWindow = true ∧ (s.findTote 77).map (·.1) = some 0 ∧
      s.findTote 78 = none) ∧
    ((shown [] .held (some .unread) s).lane 0).toteAtWindow = true ∧
    (((shown [] .held none s).lane 0).window = .held ∧ ((shown [] .held none s).lane 0).foreign = none) ∧
    ((shown [] .advancing none s).lane 0).window = .advancing ∧ (s.lane 0).window = .empty ∧
    ((belt 5 s).beltCount < 6 ∧ 6 ≤ (belt 6 s).beltCount ∧ s.run.state ≠ .estop ∧
      ({ s with run := ⟨.estop, none, 0⟩ } : State).run.state = .estop) := by decide +kernel

theorem test_meets_RemovedButton :
    let q := fun e => running.putQueue 0 [e]
    Quiet running ∧ Heard running (from_ 0x14#8) ∧ running.inductAt 20 = some 0 ∧
    (q ⟨some 77, some 0⟩).queue 0 = ⟨some 77, some 0⟩ :: [] ∧ (q ⟨none, none⟩).queue 0 = ⟨none, none⟩ :: [] ∧
    (∀ i, running.inductAt 20 = some i → running.queue i = []) := by decide +kernel

theorem test_meets_EstopButtons :
    Quiet running ∧ running.ring.ready = true ∧ (from_ 0x03#8).dest = 0x01#8 ∧ 3 ≤ (from_ 0x03#8).src.toNat ∧
    (from_ 0x3E#8).src.toNat ≤ 62 ∧ running.run.state ≠ .estop ∧
    ({ running with run := ⟨.estop, none, 0⟩ } : State).run.state = .estop := by decide +kernel

theorem test_meets_StationUpResends :
    (Heard running (from_ 0x0A#8) ∧ (running.laneCfg 0).capacity ≠ 0 ∧ (running.laneCfg 0).station = 10) ∧
    (Heard running (from_ 0x21#8) ∧ running.cfg.drive.station = 33) ∧ Heard running (from_ 0x03#8) := by
  decide +kernel

theorem test_meets_RequestIsBuffered :
    let held := fun n : Nat => { stopped with req := { stopped.req with buffer := List.replicate n (ask [0x14#8]) } }
    Quiet stopped ∧ stopped.ring.ready = true ∧ 1 ≤ [0x14#8].length ∧ (List.replicate 32 0x14#8).length ≤ 32 ∧
    (from_ 0x02#8).dest = 0x01#8 ∧ (from_ 0x02#8).src = 0x02#8 ∧ (held 3).req.buffer.length < 4 ∧
    4 ≤ (held 4).req.buffer.length ∧ (from_ 0x03#8).src ≠ 0x02#8 ∧ (from_ 0x02#8).src ≠ 0x01#8 := by decide +kernel

/-- The LEN of request codes at the bounds of the table: of one length, of a range, and codes that name nothing. -/
theorem test_meets_requestFits :
    requestFits [0x14#8] = true ∧ requestFits [0x14#8, 0x00#8] = false ∧ requestFits [0x0B#8, 0x09#8, 0x00#8] = true ∧
    requestFits [0x0B#8, 0x09#8] = false ∧ requestFits [0x40#8] = true := by decide +kernel

theorem test_meets_RefusedRequests :
    (Asked (asked [0x0C#8, 0x00#8] stopped) .commitBands (ask [0x0C#8, 0x00#8]) [] ∧
      (ask [0x0C#8, 0x00#8]).malformed = true) ∧
    (RefusingRow .unknownRequest .unknown ∧ AskedWell (asked [0x40#8] stopped) .unknownRequest (ask [0x40#8]) []) ∧
    (RefusingRow .controlUndefinedOperation .range ∧
      AskedWell (asked [0x0D#8, 0x0A#8] stopped) .controlUndefinedOperation (ask [0x0D#8, 0x0A#8]) []) ∧
    (RefusingRow .writeEntryUndefinedTable .range ∧
      AskedWell (asked [0x0B#8, 0x0A#8, 0x00#8] stopped) .writeEntryUndefinedTable (ask [0x0B#8, 0x0A#8, 0x00#8]) []) ∧
    (ask [0x0D#8, 0x0A#8]).payload = 0x0D#8 :: [0x0A#8] ∧
    stopped.req.buffer = [] ∧ 32 ≤ (busy [] [] (List.replicate 32 passing) 0).ring.routine.length := by decide +kernel

theorem test_meets_RefusedRequests_row :
    IsRequestRow .commitBands ∧ (asked [0x14#8] stopped).req.buffer = ask [0x14#8] :: [] ∧
      requestCommand (ask [0x14#8]) ≠ .commitBands :=
  ⟨⟨ask [0x0C#8], rfl⟩, rfl, by decide⟩

/-- A request of these bytes stands as this command, in full length. -/
abbrev wellAsked (s : State) (payload : List Byte) (c : Instr) : Prop := AskedWell (asked payload s) c (ask payload) []

theorem test_meets_recordRequests :
    let s := holding (.routed 0) .loop stopped
    wellAsked s [0x01#8, 0x04#8, 0xD3#8, 0x06#8, 0x02#8] .bindOrder ∧
    (wellAsked s [0x02#8, 0x04#8, 0xD2#8, 0x0F#8, 0xFF#8, 0x01#8] .addTote ∧ (s.findOrder 1234).isSome = true ∧
      s.findOrder 1235 = none) ∧
    (wellAsked s [0x03#8, 0x04#8, 0xD2#8] .cancelOrder ∧ wellAsked s [0x03#8, 0x27#8, 0x10#8] .cancelOrder) ∧
    (wellAsked s [0x04#8, 0x00#8, 0x4D#8] .dropTote ∧ wellAsked s [0x04#8, 0x10#8, 0x00#8] .dropTote ∧
      s.findTote 4095 = none) ∧
    wellAsked s ([0x05#8, 0x04#8, 0xD2#8] ++ List.replicate 10 0x00#8) .writeOrder := by decide +kernel

/-- The lowest free slot below, between and above the held ones; the first stray entry of a tag. -/
theorem test_meets_BindOrder_AddTote :
    let o : Order := ⟨1234, 1, 1, some 0, .unassigned, false, 0, 0⟩
    let at_ := fun ks : List Nat => ({ stopped with orders := ks.map (fun k => (k, o)) } : State)
    let q := (stopped.putQueue 1 [⟨none, none⟩, ⟨some 77, none⟩, ⟨some 77, none⟩]).putQueue 2 [⟨some 77, none⟩]
    (∀ ks ∈ [[], [1], [0, 2], [0, 1]], TablesCanonical (at_ ks) ∧ (at_ ks).orders.length < 128) ∧
    [[], [1], [0, 2], [0, 1]].map (fun ks => lowestFree (at_ ks).orders) = [0, 0, 1, 2] ∧
    q.findStray 77 = some (1, 1) ∧ q.findStray 78 = none ∧
    (TablesCanonical (belt 5 stopped) ∧ lowestFree (belt 5 stopped).totes = 0) := by decide +kernel

/-- The orders and totes that CANCEL-ORDER and DROP-TOTE meet: counts and states, and every place. -/
theorem test_meets_CancelAndDrop :
    let s := holding (.routed 0) .loop stopped
    let count := fun (x : OrderState) (total live : Nat) =>
      (({ s with orders := [(0, ⟨1234, total, 1, some 0, x, true, 0, live⟩)] } : State).findOrder 1234).map
        (fun p => (p.2.live, p.2.state == x, p.2.done == p.2.total - 1))
    (count (.routed 0) 1 1 = some (1, true, true) ∧ count (.routed 0) 2 1 = some (1, true, false) ∧
      count (.ready 0) 1 0 = some (0, true, true) ∧ count (.willcall .lapped) 1 0 = some (0, true, true) ∧
      count (.willcall .lapped) 1 1 = some (1, true, true)) ∧
    (∀ loc ∈ [Location.loop, .unplaced, .induct 0, .returnBelt, .incoming 0, .lane 0, .willcallIncoming, .willcall],
      ((holding (.routed 0) loc stopped).findTote 77).map (fun p => (p.1, p.2.location)) = some (0, loc)) := by decide +kernel

theorem test_meets_ReadRequests :
    let s := holding (.willcall .lapped) .willcall stopped
    wellAsked stopped [0x06#8, 0x04#8, 0xD2#8] .readOrder ∧ wellAsked stopped [0x07#8, 0x00#8, 0x4D#8] .readTote ∧
    wellAsked stopped [0x08#8, 0x0B#8, 0x04#8] .readLane ∧ wellAsked stopped [0x09#8, 0x2F#8, 0x04#8] .readWillcall ∧
    wellAsked stopped [0x0A#8, 0x01#8, 0x0F#8] .readEntry ∧
    (wellAsked stopped [0x0A#8, 0x09#8, 0x21#8] .readEntryReaderStatus ∧
      byteAt (ask [0x0A#8, 0x09#8, 0x21#8]).args 1 = (33 : ReaderIx).val) ∧
    34 ≤ byteAt (ask [0x0A#8, 0x09#8, 0x22#8]).args 1 ∧
    ((s.tote? 0).map (·.order) = some 0 ∧ (s.order? 0).map (·.state) = some (.willcall .lapped)) ∧
    stopped.entryImage 1 16 = none ∧ ((5000 - stopped.now) % 100 = 0) ∧ wellAsked stopped [0x14#8] .readIdentity := by
  decide +kernel

theorem test_meets_BandOfTicket :
    ∀ i j : BandIx, i ≤ j → (row Tables.powerOn.bandActive i).upper ≤ (row Tables.powerOn.bandActive j).upper := by
  decide +kernel

/-- Writes of gate G1: the stored entry, another station, and a window length of 19 ms. -/
def gateWrite (station window : Byte) : List Byte :=
  [0x0B#8, 0x01#8, 0x01#8, 0x01#8, 0x01#8, 0x00#8, station, 0x00#8, window, 0x00#8, 0x50#8, 0x00#8]

/-- Writes of induct I0, present or not. -/
def inductWrite (present station : Byte) : List Byte :=
  [0x0B#8, 0x05#8, 0x00#8, present, station, 0x00#8, 0x32#8, 0x00#8]

theorem test_meets_GateAndInductWrites :
    (wellAsked stopped (gateWrite 0x04#8 0x64#8) .writeEntryGate ∧ (ask (gateWrite 0x04#8 0x64#8)).index = (1 : GateIx).val ∧
      firstBad 1 (gateChecks 1 (ask (gateWrite 0x04#8 0x13#8)).image) = some 5 ∧
      firstBad 1 (gateChecks 1 (ask (gateWrite 0x04#8 0x14#8)).image) = none ∧
      running.trackRuns = true ∧ stopped.trackRuns = false ∧ stopped.req.lock = false ∧
      (stopped.gateCfg 1).station ≠ (gateOfImage (ask (gateWrite 0x07#8 0x64#8)).image).station) ∧
    (wellAsked stopped (inductWrite 0x00#8 0x14#8) .writeEntryInduct ∧
      (ask (inductWrite 0x00#8 0x14#8)).index = (0 : InductIx).val ∧
      firstBad 1 (inductChecks (ask (inductWrite 0x01#8 0x02#8)).image) = some 2 ∧
      firstBad 1 (inductChecks (ask (inductWrite 0x00#8 0x14#8)).image) = none ∧
      (inductOfImage (ask (inductWrite 0x00#8 0x14#8)).image).present = false ∧
      (stopped.putQueue 0 [⟨none, none⟩]).queue 0 ≠ [] ∧ stopped.queue 0 = []) ∧
    (let g := [0x0B#8, 0x01#8, 0x10#8] ++ (gateWrite 0x04#8 0x64#8).drop 3
     let i := [0x0B#8, 0x05#8, 0x04#8] ++ (inductWrite 0x01#8 0x14#8).drop 3
     (wellAsked stopped g .writeEntryGate ∧ 16 ≤ (ask g).index) ∧ wellAsked stopped i .writeEntryInduct ∧
       4 ≤ (ask i).index) := by decide +kernel

/-- Writes of lane L0: its capacity, TAKE and station. -/
def laneWrite (lane capacity take station : Byte) : List Byte :=
  [0x0B#8, 0x02#8, lane, capacity, take, 0x01#8, 0x01#8, station, 0x05#8, 0xDC#8, 0x03#8, 0xE8#8, 0x0B#8, 0xB8#8,
    0x00#8, 0x78#8, 0x01#8, 0x00#8]

theorem test_meets_LaneWrite :
    let e := fun (c t st : Byte) => laneOfImage (ask (laneWrite 0x00#8 c t st)).image
    let d := running.laneCfg 0
    (wellAsked running (laneWrite 0x00#8 0x02#8 0x01#8 0x0A#8) .writeEntryLane ∧
      (ask (laneWrite 0x00#8 0x02#8 0x01#8 0x0A#8)).index = (0 : LaneIx).val) ∧
    firstBad 1 (laneChecks 0 (ask (laneWrite 0x00#8 0x01#8 0x01#8 0x0A#8)).image) = some 1 ∧
    firstBad 1 (laneChecks 0 (ask (laneWrite 0x00#8 0x00#8 0x01#8 0x0A#8)).image) = none ∧
    ({ e 0x02#8 0x00#8 0x0A#8 with take := d.take, give := d.give } = d) ∧
    ({ e 0x02#8 0x01#8 0x0C#8 with take := d.take, give := d.give } ≠ d) ∧
    ((e 0x08#8 0x01#8 0x0A#8).capacity ≠ d.capacity ∧ running.laneOpen 0 = true ∧
      ((shown [.unknown none] .empty none running).lane 0).queue ≠ []) ∧
    ((running.lane 0).queue = [] ∧ (running.lane 0).incoming = [] ∧ running.book 0 = []) ∧
    (d.capacity ≠ 0 ∧ (e 0x08#8 0x01#8 0x0A#8).capacity ≠ 0 ∧ (e 0x00#8 0x01#8 0x0A#8).capacity = 0) ∧
    (running.laneCfg 2).capacity = 0 ∧
    (wellAsked running (laneWrite 0x0C#8 0x02#8 0x01#8 0x0A#8) .writeEntryLane ∧
      12 ≤ (ask (laneWrite 0x0C#8 0x02#8 0x01#8 0x0A#8)).index) := by decide +kernel

/-- Head readers that an accepted lane write starts again, and ones that it leaves. -/
theorem test_meets_writtenHead :
    let w := run (.scanIntervalExpiry 0) (running.startScan 0)
    let p := run (.scanIntervalExpiry 0) ((busy [] [] [] 0).startScan 0)
    let start := fun s : State => some (s.now + 100000)
    (w.reader (headReader 0)).cycle = .opened ∧ ((w.writtenHead 0).reader (headReader 0)).scanTimer = start w ∧
    ((p.reader (headReader 0)).cycle = .wait ∧ (p.reader (headReader 0)).scanPending = true ∧
      ((p.writtenHead 0).reader (headReader 0)).scanTimer = start p) ∧
    ((running.startScan 0).reader (headReader 0)).scanPending = false ∧ (running.startScan 0).writtenHead 0 = running.startScan 0 ∧
    running.writtenHead 0 = running := by decide +kernel

def bandWrite (band lanes : Byte) : List Byte :=
  [0x0B#8, 0x04#8, band, 0x27#8, 0x0F#8, lanes, 0x03#8, 0x00#8, 0x14#8]

def driveWrite (i : Byte) : List Byte :=
  [0x0B#8, 0x07#8, i, 0x21#8, 0x02#8, 0x58#8, 0x07#8, 0xD0#8, 0x05#8, 0xDC#8]

theorem test_meets_BandDriveAndReadOnlyWrites :
    (wellAsked stopped (bandWrite 0x07#8 0x00#8) .writeEntryBandStaging ∧ (ask (bandWrite 0x07#8 0x00#8)).index = (7 : BandIx).val ∧
      8 ≤ (ask (bandWrite 0x08#8 0x00#8)).index) ∧
    wellAsked stopped (driveWrite 0x00#8) .writeEntryDrive ∧
    wellAsked stopped [0x0B#8, 0x09#8, 0x21#8] .writeEntryReadOnlyTable ∧
    wellAsked stopped [0x0B#8, 0x03#8, 0x07#8, 0x00#8, 0x00#8, 0x00#8, 0x00#8, 0x00#8, 0x00#8] .writeEntryReadOnlyTable := by
  decide +kernel

/-- Writes of the site record: the index, the will-call capacity and the lost limit. -/
def siteWrite (i capacity lost : Byte) : List Byte :=
  [0x0B#8, 0x06#8, i, capacity, 0x1E#8, 0x1F#8, 0x00#8, 0x32#8, 0x20#8, 0x03#8, 0x20#8, 0x06#8, 0x03#8, lost, 0x01#8,
    0x2C#8, 0x05#8, 0xDC#8, 0x01#8]

/-- Writes of the throttle profile: the index and the mode. -/
def throttleWrite (i mode : Byte) : List Byte :=
  [0x0B#8, 0x08#8, i, mode, 0x3C#8, 0x00#8, 0x78#8, 0x02#8, 0x32#8, 0x04#8, 0x28#8]

theorem test_meets_SiteAndThrottleWrites :
    let unseen := { running with totes := [(0, ⟨77, 0, 1, .loop, some (.unseen 1), none, none, 0, []⟩)] }
    let spur := { running with willcall := ⟨[], List.replicate 9 ⟨9, 0⟩⟩ }
    (wellAsked unseen (siteWrite 0x00#8 0x08#8 0x01#8) .writeEntrySite ∧ (ask (siteWrite 0x00#8 0x08#8 0x01#8)).index = 0 ∧
      (ask (siteWrite 0x01#8 0x08#8 0x01#8)).index ≠ 0 ∧
      firstBad 1 (siteChecks (ask (siteWrite 0x00#8 0x07#8 0x01#8)).image) = some 1 ∧
      firstBad 1 (siteChecks (ask (siteWrite 0x00#8 0x08#8 0x01#8)).image) = none) ∧
    ((siteOfImage (ask (siteWrite 0x00#8 0x08#8 0x01#8)).image).willcallCapacity <
        spur.willcall.list.length + spur.willcall.incoming.length ∧
      unseen.willcall.list.length + unseen.willcall.incoming.length ≤
        (siteOfImage (ask (siteWrite 0x00#8 0x08#8 0x01#8)).image).willcallCapacity) ∧
    ((siteOfImage (ask (siteWrite 0x00#8 0x08#8 0x01#8)).image).lostLimit < unseen.cfg.site.lostLimit ∧
      unseen.totes.map (fun q => q.2.sighting) = [some (.unseen 1)]) ∧
    (wellAsked running (throttleWrite 0x00#8 0x02#8) .writeEntryThrottle ∧ (ask (throttleWrite 0x01#8 0x02#8)).index ≠ 0 ∧
      firstBad 1 (throttleChecks (ask (throttleWrite 0x00#8 0x05#8)).image) = some 1 ∧
      firstBad 1 (throttleChecks (ask (throttleWrite 0x00#8 0x04#8)).image) = none ∧
      (throttleOfImage (ask (throttleWrite 0x00#8 0x01#8)).image).mode = .monitor ∧
      (throttleOfImage (ask (throttleWrite 0x00#8 0x02#8)).image).mode = .count ∧ running.throttle.throttled = false) := by
  decide +kernel

theorem test_meets_CommitBands :
    let staged := fun (v : Vector BandEntry 8) => { stopped with cfg := { plant with bandStaging := v } }
    let v0 := plant.bandActive
    let fall := setRow v0 1 ⟨9998, 3, .fixed, 20⟩
    wellAsked (staged v0) [0x0C#8] .commitBands ∧
    ((row fall 1).upper < (row fall (1 - 1)).upper ∧ ∀ a < (1 : BandIx), ¬(a ≠ 0 ∧ (row fall a).upper < (row fall (a - 1)).upper)) ∧
    (∀ a : BandIx, ¬(a ≠ 0 ∧ (row v0 a).upper < (row v0 (a - 1)).upper)) ∧
    (row stopped.cfg.bandStaging 0).laneSet = 0 ∧
    (∀ a : BandIx, ¬((a = 0 ∨ (row v0 (a - 1)).upper < (row v0 a).upper) ∧ (row v0 a).laneSet = 0)) ∧
    ((holding .unassigned .loop stopped).order? 0).map (·.state) = some .unassigned ∧
    ((holding .unassigned .loop stopped).order? 0).map (fun o => bandOf v0 o.ticket) = some (some 0) ∧
    ((holding .unassigned .loop stopped).order? 0).map
      (fun o => bandOf (v0.map (fun b => { b with upper := 1233 })) o.ticket) = some none := by decide +kernel

/-- COMMIT-BANDS with an order that the new copy leaves unbanded: it enters WILLCALL and its totes lose their trails. -/
theorem test_meets_CommitBands_unbanded :
    let trailed := { holding .unassigned .loop stopped with
      totes := [(0, ⟨77, 0, 1, .loop, some .seen, none, none, 0, [⟨1, .refusedFull⟩]⟩)] }
    let s := { trailed with
      cfg := { plant with bandStaging := plant.bandActive.map (fun b => { b with upper := 1233, laneSet := 3 }) } }
    let u := run .commitBands (asked [0x0C#8] s)
    wellAsked s [0x0C#8] .commitBands ∧ TablesCanonical s ∧
    u.cfg.bandActive = s.cfg.bandStaging ∧ (u.order? 0).map (fun o => (o.state, o.band)) = some (.willcall .unbanded, none) ∧
    (u.tote? 0).map (·.trail) = some [] ∧ u.req.flags = Flag.orderToWillcall.only := by decide +kernel

/-- Configurations that fail each check of START, in their order, and one that passes them all. -/
theorem test_meets_startFaults :
    let gates := fun (i : GateIx) (e : GateEntry) => { stopped with cfg := { plant with gates := setRow plant.gates i e } }
    let none_ : GateEntry := ⟨false, .track, 0, 3, 100, 80, false⟩
    State.reset.startFault = some (0x11#8, 0) ∧ (gates 2 none_).startFault = some (0x12#8, 255) ∧
    (gates 4 ⟨true, .willcall, 0, 7, 100, 80, false⟩).startFault = some (0x12#8, 4) ∧
    (gates 3 none_).startFault = some (0x13#8, 1) ∧
    (gates 4 ⟨true, .lane, 5, 7, 100, 80, false⟩).startFault = some (0x14#8, 4) ∧
    ({ stopped with cfg := { plant with inducts := Tables.powerOn.inducts } } : State).startFault = some (0x15#8, 255) ∧
    (gates 4 ⟨true, .track, 0, 10, 100, 80, false⟩).startFault = some (0x16#8, 10) ∧
    stopped.startFault = none := by decide +kernel

/-- Deadlines at START: from a present last gate, from one no longer present, and from none. -/
theorem test_meets_startDeadline :
    let t := fun g => (⟨77, 0, 1, .loop, some .seen, g, none, 0, []⟩ : Tote)
    (stopped.gateCfg 3).present = true ∧ stopped.startDeadline (t (some 3)) = ⟨800000, 0⟩ ∧
    stopped.startDeadline (t (some 0)) = ⟨800000, 1⟩ ∧ (stopped.gateCfg 9).present = false ∧
    stopped.startDeadline (t (some 9)) = ⟨stopped.cfg.site.returnTransitLimit * 10000, 0⟩ ∧
    stopped.startDeadline (t none) = ⟨stopped.cfg.site.returnTransitLimit * 10000, 0⟩ := by decide +kernel

/-- Lanes that ask when ESTOP is left: one with room on the belt, and one more than the belt has places. -/
theorem test_meets_EstopRequests_tests :
    allLanes.filter lapsed.wantsReturn = [0] ∧ 1 ≤ 6 - lapsed.beltCount ∧ 6 - (belt 6 lapsed).beltCount < 1 ∧
    ((lapsed.returnTests).tote? 0).map (·.location) = some .returnBelt := by decide +kernel

theorem test_meets_controlRequests :
    let halting := { running with run := ⟨.halting, some 9000, 0⟩ }
    let estop := fun h : BitVec 64 => { running with run := ⟨.estop, none, h⟩ }
    (wellAsked stopped [0x0D#8, 0x01#8] .controlStart ∧ stopped.run.state = .stopped ∧ stopped.startFault = none ∧
      State.reset.startFault = some (0x11#8, 0)) ∧
    (wellAsked halting [0x0D#8, 0x01#8] .controlStart ∧ halting.startFault = none) ∧
    (wellAsked running [0x0D#8, 0x02#8] .controlHalt ∧ running.run.state = .running) ∧
    (wellAsked running [0x0D#8, 0x03#8] .controlEstop ∧ running.run.state ≠ .estop) ∧
    (wellAsked (estop 0) [0x0D#8, 0x04#8] .controlClearEstop ∧ (estop 0).run.holders = 0 ∧ (estop 8).run.holders ≠ 0 ∧
      (estop 0).laneOpen 0 = true) ∧
    (wellAsked running [0x0D#8, 0x05#8] .controlThrottleNow ∧ running.trackRuns = true ∧ stopped.trackRuns = false ∧
      running.cfg.throttle.mode = .none ∧ running.throttle.throttled = false) ∧
    (wellAsked stopped [0x0D#8, 0x06#8] .controlLock ∧ stopped.req.lock = false) ∧
    (wellAsked stopped [0x0D#8, 0x07#8] .controlServiceOpen ∧ stopped.req.service = false) ∧
    wellAsked stopped [0x0D#8, 0x08#8] .controlServiceClose := by decide +kernel

theorem test_meets_LaneOpening :
    let s := holding .unassigned .unplaced stopped
    let two : List Byte := [0x0E#8, 0x00#8, 0x00#8, 0x4D#8, 0x00#8, 0x00#8]
    let same : List Byte := [0x0E#8, 0x00#8, 0x00#8, 0x4D#8, 0x00#8, 0x4D#8]
    let fails := fun (u : State) (p : List Byte) => response u p .restoreLane
    (wellAsked s [0x0F#8, 0x0B#8] .clearLane ∧ 11 < byteAt (ask [0x0F#8, 0x0C#8]).args 0 ∧
      byteAt (ask [0x0F#8, 0x0B#8]).args 0 ≤ 11 ∧ (s.laneCfg 11).capacity = 0 ∧ running.laneOpen 0 = true ∧
      (s.laneCfg 0).capacity ≠ 0 ∧ s.laneOpen 0 = false) ∧
    (wellAsked s two .restoreLane ∧ restoreEntries (ask two).args = [77, 0] ∧
      (restoreEntries (ask two).args).length ≤ (s.laneCfg 0).capacity ∧ TablesCanonical s ∧
      (s.findTote 77).map (fun p => (p.1, p.2.location)) = some (0, .unplaced) ∧
      (s.order? 0).map (·.state) = some .unassigned) ∧
    (fails s two = some [0x0E#8, 0x00#8] ∧ fails s same = some [0x0E#8, 0x0E#8, 0x01#8] ∧
      fails stopped two = some [0x0E#8, 0x0E#8, 0x00#8] ∧
      fails (holding .unassigned .loop stopped) two = some [0x0E#8, 0x0E#8, 0x00#8] ∧
      fails (holding (.ready 0) .unplaced stopped) two = some [0x0E#8, 0x0E#8, 0x00#8]) ∧
    (s.laneCfg 0).capacity < [77, 0, 0].length ∧
    ((running.lane 0).queue = [] ∧ (running.lane 0).foreign = none ∧ (running.lane 0).ready = [] ∧
      (running.lane 0).window = .empty) := by decide +kernel

theorem test_meets_LaneEdits :
    let s := { shown [.known 0, .unknown none] .held none (holding (.routed 0) (.lane 0) running) with
      req := { running.req with service := true } }
    let edit := fun (pos op tag : Byte) => [0x10#8, 0x00#8, pos, op, 0x00#8, tag]
    wellAsked s (edit 0x00#8 0x01#8 0x00#8) .laneEditRemove ∧ wellAsked s (edit 0x01#8 0x02#8 0x4D#8) .laneEditIdentify ∧
    s.req.service = true ∧ running.req.service = false ∧ s.laneOpen 0 = true ∧ stopped.laneOpen 0 = false ∧
    byteAt (ask (edit 0x00#8 0x03#8 0x00#8)).args 2 ≠ 1 ∧
    requestCommand (ask (edit 0x00#8 0x03#8 0x00#8)) = .laneEditRemove ∧
    (s.lane 0).queue[0]? = some (.known 0) ∧ (s.lane 0).queue[1]? = some (.unknown none) ∧ (s.lane 0).queue.length ≤ 2 ∧
    s.findTote 78 = none ∧ (s.findTote 77).isSome = true := by decide +kernel

/-- IDENTIFY of an unknown entry 0: a tote that stands deeper in the queue leaves that place. REMOVE of a PRESENTED
entry 0 leaves the window EMPTY. -/
theorem test_meets_LaneEdits_queue :
    let s := shown [.unknown none, .known 0] .held none (holding (.routed 0) (.lane 0) running)
    let x := { s.lane 0 with window := .presented, unattended := .running 3000 }
    (s.tote? 0).map (·.location) = some (.lane 0) ∧
    (((s.tote? 0).map (s.identify 0 0 0)).map (fun v => (v.lane 0).queue)) = some [.known 0, .unknown none] ∧
    (x.removeAt 0).window = .empty ∧ (x.removeAt 0).unattended = .running 3000 ∧ (x.removeAt 1).window = .presented ∧
    ({ x with queue := [.unknown none] }.removeAt 0).unattended = .stopped := by decide +kernel

theorem test_meets_FlagRequests :
    wellAsked stopped [0x11#8, 0x0F#8, 0xFF#8, 0xFF#8] .readFlags ∧
    wellAsked stopped [0x12#8, 0x0F#8, 0xFF#8, 0xFF#8] .clearFlags ∧
    wellAsked stopped [0x13#8, 0x0F#8, 0xFF#8, 0xFF#8] .setNoticeMask ∧
    (maskAt (ask [0x11#8, 0x0F#8, 0xFF#8, 0xFF#8]).args 0).toNat < 0x100000 ∧
    0x100000 ≤ (maskAt (ask [0x11#8, 0x10#8, 0x00#8, 0x00#8]).args 0).toNat := by decide +kernel

theorem test_meets_ReaderAndLaneTimers :
    let s := run (.gateEye (from_ 0x03#8)) running
    let waits := running.startScan 0
    let ready := lane0 (fun x => { x with ready := [⟨0, 5000⟩] }) (holding (.ready 0) (.lane 0) running)
    ((s.reader 0).cycle = .opened ∧ (s.reader 0).window = some 11000) ∧
    ((waits.reader (headReader 0)).cycle = .wait ∧ (waits.reader (headReader 0)).scanPending = false ∧
      (waits.reader (headReader 0)).scanTimer = some 101000 ∧ waits.ring.routine.length < 32 ∧
      32 ≤ (busy [] [] (List.replicate 32 passing) 0).ring.routine.length) ∧
    (((lane0 (fun x => { x with window := .advancing, advance := some 2000 }) running).lane 0).window = .advancing ∧
      ((lane0 (fun x => { x with window := .advancing, advance := some 2000 }) running).lane 0).advance = some 2000) ∧
    ((lane0 (fun x => { x with unattended := .running 3000 }) running).lane 0).unattended = .running 3000 ∧
    ((ready.findOrder 1234).map (fun p => p.2.state) = some (.ready 0) ∧
      ((ready.lane 0).ready.find? (fun x => x.order == 0)).map (·.collect) = some 5000) := by decide +kernel

theorem test_meets_ToteTimers :
    let s := lane0 (fun x => { x with incoming := [⟨0, some 2000⟩] }) (holding (.routed 0) (.incoming 0) running)
    let w := { holding (.willcall .lapped) .willcallIncoming running with willcall := ⟨[⟨0, some 2000⟩], []⟩ }
    let seen := fun x => ({ running with totes := [(0, ⟨77, 0, 1, .loop, some x, some 0, some ⟨2000, 1⟩, 0, []⟩)] } : State)
    (TablesCanonical s ∧ (s.findTote 77).map (fun p => (p.1, p.2.location)) = some (0, .incoming 0) ∧
      confirmOf 0 (s.lane 0).incoming = some 2000) ∧
    (TablesCanonical w ∧ (w.findTote 77).map (fun p => (p.1, p.2.location)) = some (0, .willcallIncoming) ∧
      confirmOf 0 w.willcall.incoming = some 2000) ∧
    (((seen .seen).findTote 77).map (fun p => (p.2.sighting, p.2.deadline)) = some (some .seen, some ⟨2000, 1⟩) ∧
      1 < (seen .seen).cfg.site.lostLimit) ∧
    (((seen (.unseen 1)).findTote 77).map (fun p => p.2.sighting) = some (some (.unseen 1)) ∧
      running.cfg.site.lostLimit ≤ 1 + 1) ∧
    ((seen .lost).findTote 77).map (fun p => p.2.sighting) = some (some .lost) := by decide +kernel

theorem test_meets_TrackAndDriveTimers :
    let t := fun (x : Throttle) => ({ running with throttle := x } : State)
    let counts := { running with
      cfg := { plant with throttle := ⟨.countLoad, 60, 120, 2, 50, 4, 40⟩ }, throttle := ⟨false, 0, none, 0, some 2000, 121⟩ }
    let d := fun (x : Drive) => ({ running with drive := x } : State)
    ({ running with merge := { running.merge with hold := some 2000 } } : State).merge.hold = some 2000 ∧
    ((t ⟨true, 2, some 2000, 4, some 3000, 0⟩).throttle.throttled = true ∧
      (t ⟨true, 2, some 2000, 4, some 3000, 0⟩).throttle.monitorTimer = some 2000 ∧
      2 ≤ (t ⟨true, 2, some 2000, 4, some 3000, 0⟩).throttle.windowsLeft ∧
      (t ⟨true, 1, some 2000, 4, some 3000, 0⟩).throttle.windowsLeft ≤ 1) ∧
    (counts.throttle.samplingTimer = some 2000 ∧ counts.cfg.throttle.threshold < counts.throttle.samplingCount ∧
      counts.cfg.throttle.mode ≠ .monitor ∧ 1 ≤ counts.cfg.throttle.duration) ∧
    (({ running with run := ⟨.halting, some 2000, 0⟩ } : State).run.haltTimer = some 2000) ∧
    ((d ⟨.starting, none, some 2000, false⟩).drive.delay = some 2000) ∧
    (running.drive.idle = some 5000 ∧ (∀ q ∈ running.totes, q.2.location ≠ .loop) ∧ running.beltEmpty = true ∧
      running.claimant = false) ∧
    ((holding .unassigned .loop running).totes.any (fun q => q.2.location == .loop)) = true ∧
    ((d ⟨.stopping, none, some 2000, true⟩).drive.wakePending = true ∧
      (d ⟨.stopping, none, some 2000, false⟩).drive.wakePending = false) := by decide +kernel

/-- A settled event that starts an advance and the unattended timer and makes an order READY; one that ends
HALTING; one in which a lane becomes OVERBOOKED, and one in which a claimant wakes a RESTING drive. -/
theorem test_meets_SettleFrame :
    let s := shown [.known 0] .empty none (holding (.routed 0) (.lane 0) running)
    let t := settleLanes s s
    let halting := { running with run := ⟨.halting, some 9000, 0⟩ }
    let k : OrderSlot := 0
    let two := { s with orders := [(0, ⟨1234, 6, 1, some 0, .routed 0, true, 0, 1⟩)] }
    let waits := (holding .unassigned (.induct 0) running).putQueue 0 [⟨some 77, some 0⟩]
    let rests := { waits with drive := ⟨.resting, none, none, false⟩ }
    (Advances s 0 ∧ (t.lane 0).window = .advancing ∧ (t.lane 0).advance = some 301000 ∧
      (t.lane 0).unattended = .running 12001000 ∧ (t.lane 0).ready.map (·.order) = [k] ∧
      (t.order? 0).map (·.state) = some (.ready 0)) ∧
    ((∀ o, s.order? 0 = some o → ReadyIn s 0 0 o) ∧ (∀ o, two.order? 0 = some o → ¬ReadyIn two 0 0 o)) ∧
    (halting.grant.run.state = .halting ∧ (∀ q ∈ halting.grant.totes, q.2.location ≠ .loop ∧ q.2.location ≠ .returnBelt) ∧
      halting.grant.merge.head = .absent ∧ (settle halting halting).run.state = .stopped) ∧
    ((settleLanes two two).overbooked 0 = true ∧ running.overbooked 0 = false ∧
      (settleLanes running two).req.flags = Flag.overbooked.only) ∧
    (rests.claimant = true ∧ running.claimant = false ∧ (settleLanes running rests).drive.state = .starting) := by
  decide +kernel

/-- Frames of each class placed where RING OUT is in use, below their limit and at it; one that takes the place of
a queued one; and one placed where RING OUT is free. -/
theorem test_meets_CloseEventFrame :
    let d := driveFrame 33 false
    let l := lampFrame 10 .off
    let other := lampFrame 11 .off
    let raised := { running with req := { running.req with flags := Flag.estop.only } }
    (running.req.flags &&& ~~~running.req.flags &&& running.req.mask = 0 ∧
      raised.req.flags &&& ~~~running.req.flags &&& raised.req.mask ≠ 0) ∧
    (passing.src ≠ 0x01#8 ∧ (busy [] (List.replicate 3 passing) [] 0).ring.forward.length < 4 ∧
      4 ≤ (busy [] (List.replicate 4 passing) [] 0).ring.forward.length) ∧
    (d.src = 0x01#8 ∧ d.kind = Kind.drive ∧ (busy (List.replicate 15 d) [] [] 0).ring.urgent.length < 16 ∧
      16 ≤ (busy (List.replicate 16 d) [] [] 0).ring.urgent.length) ∧
    (l.src = 0x01#8 ∧ l.kind = Kind.lamp ∧ (busy [] [] [other, l] 0).ring.routine = [other] ++ l :: [] ∧
      other.kind = l.kind ∧ other.dest ≠ l.dest ∧
      (busy [] [] (List.replicate 31 other) 0).ring.routine.length < 32 ∧
      32 ≤ (busy [] [] (List.replicate 32 other) 0).ring.routine.length) ∧
    (running.ring.transmission = none ∧ running.ring.gap = none ∧ running.ring.forward = [] ∧
      running.ring.urgent = [] ∧ running.ring.routine = []) := by decide +kernel

/-- The invariants hold of a state with a lane in use, and a step from it answers. -/
theorem test_meets_invariants :
    let s := shown [.known 0] .presented none (holding (.ready 0) (.lane 0) running)
    let e := run (.estopPressed (from_ 0x0A#8)) s
    RingBounds s ∧ LaneBounds s ∧ RecordBounds s ∧ TablesCanonical s ∧ EstopQuiet s ∧
    (e.run.state = .estop ∧ Quiet e ∧ EstopQuiet e ∧ LaneBounds e) ∧ ∃ t, step { e with pending := [.partReady] } = .next t :=
  ⟨by decide +kernel, by decide +kernel, by decide +kernel, by decide +kernel, by decide +kernel, by decide +kernel,
    _, rfl⟩

/-- The places and the counts stand in a state with a tote in an induct queue that is full and a spur that is full, and
after the grant of that tote. -/
theorem test_meets_invariants_places :
    let s := { (holding .unassigned (.induct 0) running).putQueue 0 (⟨some 77, some 0⟩ :: List.replicate 3 ⟨none, none⟩) with
      willcall := ⟨[], List.replicate 24 ⟨9, 0⟩⟩, pending := [.mergeHoldExpiry] }
    let held := { s with merge := { s.merge with hold := some 2000 } }
    let t := after held (step held)
    TablesCanonical held ∧ PlaceBounds held ∧ CountsAgree held ∧ (t.tote? 0).map (·.location) = some .loop ∧
    (t.queue 0).length = 3 ∧ PlaceBounds t ∧ CountsAgree t := by decide +kernel

/-- A RETURN of a foreign tote that the records have as the KNOWN head of the return belt (log entry 47). -/
theorem test_returnButton_knownHead :
    let s := (shown [] .held (some (.tag 77)) (holding (.routed 0) .returnBelt running)).setHead (.known 0)
    let t := run (.returnButton (from_ 0x0A#8)) s
    t.merge.head = .absent ∧ (t.tote? 0).map (·.location) = some .returnBelt ∧ (t.lane 0).window = .empty := by decide +kernel

theorem test_meets_ConfigurationLock :
    let s := { stopped with req := { stopped.req with lock := true } }
    s.req.lock = true ∧ (run .controlLock (asked [0x0D#8, 0x06#8] s)).req.lock = true ∧ Instr.controlLock ≠ .powerOn := by
  decide +kernel

end Sys2Proof.Tests
end

section
/-! PROOFS. Every step, said once: each command answers with a next state that keeps all invariants of an
event, or is a power-on; and what follows for the records, their places and the tables. -/

namespace Sys2Proof.Machine

/-! ## The expiries -/

theorem Reader.openWindow_some {x : Reader} {e : Time} (h : x.openWindow = some e) : x.cycle ≠ .idle := by
  rw [(Option.ite_none_right_eq_some.1 h).1]; simp

theorem RunControl.halting_some {x : RunControl} {e : Time} (h : x.halting = some e) : x.state = .halting :=
  (Option.ite_none_right_eq_some.1 h).1

theorem Drive.starting_some {x : Drive} {e : Time} (h : x.starting = some e) : x.state ≠ .off := by
  rw [(Option.ite_none_right_eq_some.1 h).1]; simp

theorem Drive.idling_some {x : Drive} {e : Time} (h : x.idling = some e) : x.state ≠ .off := by
  rw [(Option.ite_none_right_eq_some.1 h).1]; simp

theorem Drive.stopping_some {x : Drive} {e : Time} (h : x.stopping = some e) : x.state ≠ .off := by
  rw [(Option.ite_none_right_eq_some.1 h).1]; simp

theorem State.transmissionEnds_keeps (s : State) : Keeps s s.transmissionEnds :=
  Keeps.trans (t := { s with ring := { s.ring with transmission := none, gap := none } }) {} (choose_keeps _)

theorem State.confirmEnds_kept (s : State) (l : LaneIx) (tag : Nat) : Kept s (s.confirmEnds l tag) := by
  unfold State.confirmEnds
  split
  · exact atExpiry_kept (fun _ _ => Keeps.expiry (State.bladeMiss_inside _ _).settledLanes)
  · exact .refl s

theorem State.willcallConfirmEnds_kept (s : State) (tag : Nat) : Kept s (s.willcallConfirmEnds tag) := by
  unfold State.willcallConfirmEnds
  split
  · exact atExpiry_kept (fun _ _ => Keeps.expiry (State.bladeMiss_inside _ _).settledLanes)
  · exact .refl s

theorem State.collectEnds_kept (s : State) (ticket : Nat) : Kept s (s.collectEnds ticket) := by
  unfold State.collectEnds
  split
  · exact atExpiry_kept (fun _ _ => Keeps.expiry (State.enterWillcall_inside _ _ _).settledLanes)
  · exact .refl s

theorem State.deadlineEnds_kept (s : State) (tag : Nat) : Kept s (s.deadlineEnds tag) := by
  unfold State.deadlineEnds
  split
  · rename_i f
    split
    · rename_i d _
      exact atExpiry_kept (fun _ _ => (s.advanceTo_keeps _).trans (State.miss_keeps d (State.findTote_mem f)))
    · exact .refl s
  · exact .refl s

/-! ## The rows -/

/-- A row answers with a next state, and its event keeps everything. -/
def RowKeeps (c : Instr) (s : State) : Prop := ∃ t, exec c s = .next t ∧ Kept s t

namespace RowKeeps

theorem kept {c : Instr} {s t : State} (h : RowKeeps c s) (e : exec c s = .next t) : Kept s t := by
  obtain ⟨u, f, k⟩ := h
  rw [f] at e
  cases e
  exact k

theorem ofFrame {c : Instr} {s : State} {f : Frame} (e : exec c s = .next (receiveFrame f s)) : RowKeeps c s :=
  ⟨_, e, receiveFrame_kept f s⟩

theorem ofRequest {c : Instr} {s : State} {handler : Request → State → Reply}
    (e : exec c s = .next (takeRequest c handler s)) (h : ∀ r s, Keeps s (handler r s).state) :
    RowKeeps c s := ⟨_, e, takeRequest_kept h s⟩

theorem ofExpiry {c : Instr} {s : State} {timer : Option Time} {act : State → State}
    (e : exec c s = .next (atExpiry timer s act)) (h : ∀ e, timer = some e → Keeps s (act (s.advanceTo e))) :
    RowKeeps c s := ⟨_, e, atExpiry_kept h⟩

/-- An expiry whose rule is the blocks' own, whatever the clock. -/
theorem ofInside {c : Instr} {s : State} {timer : Option Time} {act : State → State}
    (e : exec c s = .next (atExpiry timer s act)) (h : ∀ u, Inside u (act u)) : RowKeeps c s :=
  ofExpiry e (fun _ _ => Keeps.expiry (h _))

theorem partReady (s : State) : RowKeeps .partReady s :=
  ⟨_, rfl, ⟨{}, rfl, fun h => ⟨h, rfl, .refl _⟩, id, id, id, id, fun _ => id⟩⟩

theorem controlRestart (s : State) : RowKeeps .controlRestart s := by
  show ∃ t, execControlRestart s = .next t ∧ Kept s t
  unfold execControlRestart
  split
  · exact ⟨_, rfl, .refl s⟩
  · rename_i b
    split
    · split
      · exact ⟨_, rfl, closeEvent_kept ((State.popRequest_keeps b).trans (respond_keeps _ (refuse _ .malformed)))⟩
      · exact ⟨_, rfl, warmStart_kept s _⟩
    · exact ⟨_, rfl, .refl s⟩

end RowKeeps

/-- Every row but power-on. -/
theorem exec_rowKeeps {c : Instr} (n : c ≠ .powerOn) (s : State) : RowKeeps c s := by
  cases c with
  | powerOn => exact absurd rfl n
  | resetLinePulse => exact ⟨_, rfl, warmStart_kept s _⟩
  | partReady => exact .partReady s
  | receptionFailure bytes => exact ⟨_, rfl, receiveBytes_kept bytes s⟩
  | ownFrameStrip f => exact .ofFrame rfl
  | forwardedFrame f => exact .ofFrame rfl
  | unreceivedKindFrame f => exact .ofFrame rfl
  | gateEye h => exact .ofFrame rfl
  | inductEntryEye h => exact .ofFrame rfl
  | returnHeadEye h => exact .ofFrame rfl
  | willcallExitEye h => exact .ofFrame rfl
  | laneEntryEye h => exact .ofFrame rfl
  | willcallEntryEye h => exact .ofFrame rfl
  | mergeApproachEye h => exact .ofFrame rfl
  | tag h v => exact .ofFrame rfl
  | noread h => exact .ofFrame rfl
  | empty h => exact .ofFrame rfl
  | taken h => exact .ofFrame rfl
  | returnButton h => exact .ofFrame rfl
  | removed h => exact .ofFrame rfl
  | estopPressed h => exact .ofFrame rfl
  | estopReleased h => exact .ofFrame rfl
  | stationUp h => exact .ofFrame rfl
  | requestFrame h p => exact .ofFrame rfl
  | unknownRequest => exact .ofRequest rfl (fun _ s => .refl s)
  | bindOrder => exact .ofRequest rfl replyBindOrder_keeps
  | addTote => exact .ofRequest rfl replyAddTote_keeps
  | cancelOrder => exact .ofRequest rfl replyCancelOrder_keeps
  | dropTote => exact .ofRequest rfl replyDropTote_keeps
  | writeOrder => exact .ofRequest rfl replyWriteOrder_keeps
  | readOrder => exact .ofRequest rfl replyReadOrder_keeps
  | readTote => exact .ofRequest rfl replyReadTote_keeps
  | readLane => exact .ofRequest rfl replyReadLane_keeps
  | readWillcall => exact .ofRequest rfl replyReadWillcall_keeps
  | readEntry => exact .ofRequest rfl replyReadEntry_keeps
  | readEntryReaderStatus => exact .ofRequest rfl replyReadReader_keeps
  | writeEntryGate => exact .ofRequest rfl replyWriteGate_keeps
  | writeEntryLane => exact .ofRequest rfl replyWriteLane_keeps
  | writeEntryBandStaging => exact .ofRequest rfl replyWriteBand_keeps
  | writeEntryInduct => exact .ofRequest rfl replyWriteInduct_keeps
  | writeEntrySite => exact .ofRequest rfl replyWriteSite_keeps
  | writeEntryDrive => exact .ofRequest rfl replyWriteDrive_keeps
  | writeEntryThrottle => exact .ofRequest rfl replyWriteThrottle_keeps
  | writeEntryReadOnlyTable => exact .ofRequest rfl replyWriteReadOnly_keeps
  | commitBands => exact .ofRequest rfl replyCommitBands_keeps
  | controlStart => exact .ofRequest rfl replyStart_keeps
  | controlHalt => exact .ofRequest rfl replyHalt_keeps
  | controlEstop => exact .ofRequest rfl replyEstop_keeps
  | controlClearEstop => exact .ofRequest rfl replyClearEstop_keeps
  | controlThrottleNow => exact .ofRequest rfl replyThrottleNow_keeps
  | controlLock => exact .ofRequest rfl replyLock_keeps
  | controlServiceOpen => exact .ofRequest rfl replyServiceOpen_keeps
  | controlServiceClose => exact .ofRequest rfl replyServiceClose_keeps
  | controlRestart => exact .controlRestart s
  | restoreLane => exact .ofRequest rfl replyRestoreLane_keeps
  | clearLane => exact .ofRequest rfl replyClearLane_keeps
  | laneEditRemove => exact .ofRequest rfl replyLaneEditRemove_keeps
  | laneEditIdentify => exact .ofRequest rfl replyLaneEditIdentify_keeps
  | readFlags => exact .ofRequest rfl replyReadFlags_keeps
  | clearFlags => exact .ofRequest rfl replyClearFlags_keeps
  | setNoticeMask => exact .ofRequest rfl replySetNoticeMask_keeps
  | readIdentity => exact .ofRequest rfl (fun _ s => .refl s)
  | transmissionEnd => exact .ofExpiry rfl (fun _ _ => (s.advanceTo_keeps _).trans (State.transmissionEnds_keeps _))
  | readWindowExpiry r =>
    exact .ofExpiry rfl (fun _ h => (s.advanceTo_keeps _).trans (State.complete_keeps .none (Reader.openWindow_some h)))
  | scanIntervalExpiry l => exact .ofExpiry rfl (fun _ _ => (s.advanceTo_keeps _).trans (State.scanDue_keeps _ l))
  | confirmExpiry l t => exact ⟨_, rfl, s.confirmEnds_kept l t⟩
  | willcallConfirmExpiry t => exact ⟨_, rfl, s.willcallConfirmEnds_kept t⟩
  | advanceLimitExpiry l => exact .ofInside rfl (fun u => (u.advanceEnds_inside l).settledLanes)
  | unattendedExpiry l => exact .ofInside rfl (fun u => (u.unattendedAt_inside l).settled)
  | collectExpiry k => exact ⟨_, rfl, s.collectEnds_kept k⟩
  | deadlineExpiry t => exact ⟨_, rfl, s.deadlineEnds_kept t⟩
  | mergeHoldExpiry => exact .ofInside rfl (fun u => InsideIf.settled (t := u.freeMerge) {})
  | samplingWindowExpiry => exact .ofInside rfl (fun u => u.samplingEnds_inside.settled)
  | monitorWindowExpiry => exact .ofInside rfl (fun u => u.monitorRestart_inside.settled)
  | haltTimerExpiry =>
    exact .ofExpiry rfl (fun _ h => Keeps.expiry (State.haltTimeout_inside (RunControl.halting_some h)))
  | startDelayExpiry =>
    exact .ofExpiry rfl (fun e h =>
      Keeps.expiry (State.driveUp_inside (s := s.advanceTo e) (Drive.starting_some h)).settled)
  | idleExpiry => exact .ofExpiry rfl (fun _ h => Keeps.expiry (State.idleTest_inside (Drive.idling_some h)))
  | stopDelayExpiry => exact .ofExpiry rfl (fun _ h => Keeps.expiry (State.driveRests_inside (Drive.stopping_some h)))
  | controlUndefinedOperation => exact .ofRequest rfl (fun _ s => .refl s)
  | writeEntryUndefinedTable => exact .ofRequest rfl (fun _ s => .refl s)

/-- Every command but power-on keeps what an event keeps. -/
theorem exec_kept {c : Instr} {s t : State} (n : c ≠ .powerOn) (h : exec c s = .next t) : Kept s t :=
  RowKeeps.kept (exec_rowKeeps n s) h

/-! ## The step -/

/-- The state after power-on, but for the model's own queue and counter. -/
def State.poweredOn (pending : List Instr) (choices : Nat) : State :=
  { State.reset with pending := pending, choices := choices }

/-- What a command can do: an event, or a power-on. -/
theorem exec_cases {c : Instr} {s t : State} (h : exec c s = .next t) :
    Kept s t ∨ t = State.poweredOn s.pending s.choices := by
  by_cases n : c = .powerOn
  · subst n; cases h; exact .inr rfl
  · exact .inl (exec_kept n h)

theorem OwnEvent.run_cases {e : OwnEvent} {s t : State} (h : e.run s = .next t) :
    Kept s t ∨ t = State.poweredOn s.pending s.choices := by
  cases e with
  | command c => exact exec_cases h
  | laneReturn l => cases h; exact .inl (s.laneReturn_kept l)

/-- The state a step starts its event from: the queue, the clock and the counter of free choices can differ. -/
def State.restart (s : State) (pending : List Instr) (now : Time) (choices : Nat) : State :=
  { s with pending := pending, now := now, choices := choices }

/-- What a step can do: an event from the state but for its queue, clock and counter, or a power-on. -/
theorem step_cases {s t : State} (h : step s = .next t) :
    (∃ p n c, Kept (s.restart p n c) t) ∨ ∃ p c, t = State.poweredOn p c := by
  unfold step at h
  split at h
  · rename_i c rest _
    exact (exec_cases h).imp (fun k => ⟨rest, s.now, s.choices, k⟩) (fun e => ⟨_, _, e⟩)
  · unfold State.ownEvent at h
    split at h
    · cases h
      exact .inl ⟨s.pending, s.now + 1, s.choices, .refl _⟩
    · exact (OwnEvent.run_cases h).imp (fun k => ⟨s.pending, s.now, s.choices, k⟩) (fun e => ⟨_, _, e⟩)
    · exact (OwnEvent.run_cases h).imp (fun k => ⟨s.pending, s.now, s.choices + 1, k⟩) (fun e => ⟨_, _, e⟩)

/-! ## After power-on -/

theorem poweredOn_recordBounds (p : List Instr) (c : Nat) : RecordBounds (State.poweredOn p c) :=
  fun _ h => absurd h List.not_mem_nil

theorem poweredOn_queue (p : List Instr) (c : Nat) (i : InductIx) : (State.poweredOn p c).queue i = [] :=
  row_replicate _ _

theorem poweredOn_placeBounds (p : List Instr) (c : Nat) : PlaceBounds (State.poweredOn p c) := by
  refine ⟨fun i => ⟨?_, fun _ h => absurd h List.not_mem_nil⟩, Nat.zero_le _, Nat.zero_le _⟩
  rw [poweredOn_queue]
  exact Nat.zero_le _

theorem poweredOn_tablesCanonical (p : List Instr) (c : Nat) : TablesCanonical (State.poweredOn p c) :=
  ⟨⟨.nil, fun _ h => absurd h List.not_mem_nil⟩, ⟨.nil, fun _ h => absurd h List.not_mem_nil⟩⟩

theorem poweredOn_countsAgree (p : List Instr) (c : Nat) : CountsAgree (State.poweredOn p c) :=
  ⟨fun _ h => absurd h List.not_mem_nil, fun _ h => absurd h List.not_mem_nil⟩

theorem poweredOn_ringBounds (p : List Instr) (c : Nat) : RingBounds (State.poweredOn p c) :=
  ⟨⟨rfl, rfl⟩, Nat.zero_le _, Nat.zero_le _, Nat.zero_le _, Nat.zero_le _, Nat.zero_le _⟩

theorem poweredOn_estopQuiet (p : List Instr) (c : Nat) : EstopQuiet (State.poweredOn p c) :=
  fun e => by cases e

theorem poweredOn_laneBounds (p : List Instr) (c : Nat) : LaneBounds (State.poweredOn p c) := fun l => by
  have lane : (State.poweredOn p c).lane l = .reset := row_replicate _ _
  have reader : (State.poweredOn p c).reader (headReader l) = .reset := row_replicate _ _
  unfold State.occupied State.incoming
  rw [lane, reader]
  exact ⟨Nat.zero_le _, fun _ => ⟨rfl, rfl, rfl⟩⟩

/-! ## The obligations -/

/-- Settles O60: the state after power-on with an empty queue and no free choice drawn. -/
theorem invariantsAtReset : Obligations.InvariantsAtReset :=
  ⟨poweredOn_ringBounds [] 0, poweredOn_recordBounds [] 0, poweredOn_placeBounds [] 0, poweredOn_tablesCanonical [] 0,
    poweredOn_countsAgree [] 0, poweredOn_estopQuiet [] 0, poweredOn_laneBounds [] 0⟩

/-- Settles O56, from what every event keeps and what a power-on leaves. -/
theorem recordBoundsKept : Obligations.RecordBoundsKept := by
  intro s t h
  obtain ⟨p, n, c, k⟩ | ⟨p, c, rfl⟩ := step_cases h
  · exact ⟨k.records, k.places⟩
  · exact ⟨fun _ => poweredOn_recordBounds p c, fun _ _ => poweredOn_placeBounds p c⟩

/-- Settles O57, from what every event keeps and what a power-on leaves. -/
theorem tablesStayCanonical : Obligations.TablesStayCanonical := by
  intro s t w h
  obtain ⟨p, n, c, k⟩ | ⟨p, c, rfl⟩ := step_cases h
  · exact ⟨k.tables w, k.counts w⟩
  · exact ⟨poweredOn_tablesCanonical p c, fun _ => poweredOn_countsAgree p c⟩

end Sys2Proof.Machine
end

section
/-! PROOFS. How orders and totes end (sections 1.2, 1.3, 1.7, 1.8, 5.3): what each shared operation of the tables
leaves, field by field, and the obligation about endings. -/

namespace Sys2Proof.Machine

/-! ## Leaving a ready list, and the book -/

/-- R5, R7: the lanes when an order has left the ready list of lane l. -/
abbrev State.lanesWithout (s : State) (k : OrderSlot) (l : LaneIx) : Vector Lane 12 :=
  setRow s.lanes l { s.lane l with ready := (s.lane l).ready.filter (fun e => e.order != k) }

theorem State.lanesWithout_congr {s t : State} (h : t.lanes = s.lanes) (k : OrderSlot) (l : LaneIx) :
    t.lanesWithout k l = s.lanesWithout k l := by
  unfold State.lanesWithout State.lane
  rw [h]

theorem State.leaveReady_ready {o : Order} {l : LaneIx} (h : o.state = .ready l) (s : State) (k : OrderSlot) :
    s.leaveReady k o = { s with lanes := s.lanesWithout k l } := by
  unfold State.leaveReady
  rw [h]
  rfl

theorem State.leaveReady_other {o : Order} (h : ∀ l, o.state ≠ .ready l) (s : State) (k : OrderSlot) :
    s.leaveReady k o = s := by
  unfold State.leaveReady
  split
  · exact absurd ‹_› (h _)
  all_goals rfl

theorem State.leaveReady_eq (s : State) (k : OrderSlot) (o : Order) :
    s.leaveReady k o = { s with lanes := (s.leaveReady k o).lanes } := by
  unfold State.leaveReady
  split <;> rfl

theorem State.lane_leaveReady (s : State) (k : OrderSlot) (o : Order) (l : LaneIx) :
    (s.leaveReady k o).lane l =
      if o.state = .ready l then { s.lane l with ready := (s.lane l).ready.filter (fun e => e.order != k) }
      else s.lane l := by
  unfold State.leaveReady
  split
  · rename_i m h
    rw [h, State.lane_modLane]
    by_cases e : m = l
    · subst e; simp
    · simp [e]
  all_goals rename_i h; simp [h]

theorem State.freeOrder_ready {o : Order} {l : LaneIx} (h : o.state = .ready l) (s : State) (k : OrderSlot) :
    s.freeOrder k o = { s with orders := slotFree k s.orders, lanes := s.lanesWithout k l } := by
  unfold State.freeOrder
  rw [State.leaveReady_ready h]

theorem State.freeOrder_other {o : Order} (h : ∀ l, o.state ≠ .ready l) (s : State) (k : OrderSlot) :
    s.freeOrder k o = { s with orders := slotFree k s.orders } := by
  unfold State.freeOrder
  rw [State.leaveReady_other h]

/-- R5: everything that entry into WILLCALL leaves. -/
theorem State.enterWillcall_eq {s : State} {k : OrderSlot} {o : Order} (h : s.order? k = some o) (why : Reason) :
    s.enterWillcall k why =
      { s with
        orders := slotPut k { o with state := .willcall why } s.orders
        totes := s.totes.map (fun p => (p.1, if p.2.order = k then { p.2 with trail := [] } else p.2))
        req := { s.req with flags := s.req.flags ||| Flag.orderToWillcall.only }
        lanes := (s.leaveReady k o).lanes } := by
  unfold State.enterWillcall
  rw [h]
  dsimp only
  rw [State.leaveReady_eq]
  rfl

/-! ## Counts -/

theorem State.recount_frees {s : State} {k : OrderSlot} {o : Order} {f : Order → Order} (h : s.order? k = some o)
    (full : (f o).done = (f o).total) : s.recount k f = s.freeOrder k o := by
  unfold State.recount
  rw [h]
  exact if_pos full

theorem State.recount_counts {s : State} {k : OrderSlot} {o : Order} {f : Order → Order} (h : s.order? k = some o)
    (n : (f o).done ≠ (f o).total) : s.recount k f = s.putOrder k (f o) := by
  unfold State.recount
  rw [h]
  exact if_neg n

/-! ## Removal from a place -/

/-- R13: the record of a tote that has been removed from its place. -/
abbrev Tote.removed (x : Tote) : Tote := { x with location := .unplaced, sighting := none, deadline := none }

theorem State.takeOut_eq (s : State) (k : ToteSlot) (loc : Location) :
    s.takeOut k loc =
      { s with
        merge := (s.takeOut k loc).merge, lanes := (s.takeOut k loc).lanes, willcall := (s.takeOut k loc).willcall } := by
  cases loc with
  | returnBelt => unfold State.takeOut; dsimp only; split <;> rfl
  | _ => rfl

theorem State.removeTote_eq {s : State} {k : ToteSlot} {x : Tote} (h : s.tote? k = some x) :
    s.removeTote k = (s.takeOut k x.location).putTote k x.removed := by
  unfold State.removeTote
  rw [h]

/-- R13: a removal changes the record, and the collections of its place alone. -/
theorem State.removeTote_fields {s : State} {k : ToteSlot} {x : Tote} (h : s.tote? k = some x) :
    s.removeTote k =
      { s with
        totes := slotPut k x.removed s.totes
        merge := (s.takeOut k x.location).merge
        lanes := (s.takeOut k x.location).lanes
        willcall := (s.takeOut k x.location).willcall } := by
  rw [State.removeTote_eq h, State.takeOut_eq]
  rfl

theorem State.lane_takeOut (s : State) (k : ToteSlot) (loc : Location) (l : LaneIx) :
    (s.takeOut k loc).lane l =
      if loc = .lane l then (s.lane l).removeTote k
      else if loc = .incoming l then { s.lane l with incoming := (s.lane l).incoming.filter (fun e => e.tote != k) }
      else s.lane l := by
  cases loc with
  | incoming m =>
    show (s.modLane m _).lane l = _
    rw [State.lane_modLane]
    by_cases e : m = l
    · subst e; simp
    · simp [e]
  | lane m =>
    show (s.modLane m _).lane l = _
    rw [State.lane_modLane]
    by_cases e : m = l
    · subst e; simp
    · simp [e]
  | returnBelt => unfold State.takeOut; dsimp only; split <;> rfl
  | _ => rfl

theorem State.willcallList_takeOut (s : State) (k : ToteSlot) (loc : Location) :
    (s.takeOut k loc).willcall.list =
      if loc = .willcall then s.willcall.list.filter (fun e => e.tote != k) else s.willcall.list := by
  cases loc with
  | returnBelt => unfold State.takeOut; dsimp only; split <;> rfl
  | _ => rfl

@[simp] theorem Lane.removeTote_ready (x : Lane) (k : ToteSlot) : (x.removeTote k).ready = x.ready := by
  unfold Lane.removeTote; split <;> rfl

theorem State.ready_takeOut (s : State) (k : ToteSlot) (loc : Location) (l : LaneIx) :
    ((s.takeOut k loc).lane l).ready = (s.lane l).ready := by
  rw [State.lane_takeOut]
  split_ifs
  · exact Lane.removeTote_ready _ _
  · rfl
  · rfl

theorem Lane.removeTote_none {x : Lane} {k : ToteSlot} (h : x.positionOf k = none) : x.removeTote k = x := by
  unfold Lane.removeTote; rw [h]

theorem Lane.removeTote_some {x : Lane} {k : ToteSlot} {j : Nat} (h : x.positionOf k = some j) :
    x.removeTote k = x.removeAt j := by
  unfold Lane.removeTote; rw [h]

/-- R90: the removal of a PRESENTED tote empties the window. -/
theorem Lane.removeAt_gone {x : Lane} {j : Nat} (h : j = 0 ∧ x.window = .presented) :
    x.removeAt j =
      { x with
        queue := x.queue.eraseIdx j, window := .empty, emptyScans := 0
        unattended := if x.queue.eraseIdx j = [] then .stopped else x.unattended } := by
  obtain ⟨rfl, w⟩ := h
  simp [Lane.removeAt, w]

theorem Lane.removeAt_kept {x : Lane} {j : Nat} (h : ¬(j = 0 ∧ x.window = .presented)) :
    x.removeAt j =
      { x with
        queue := x.queue.eraseIdx j
        unattended := if x.queue.eraseIdx j = [] then .stopped else x.unattended } := by
  have g : (j == 0 && x.window == .presented) = false := by simpa using h
  simp [Lane.removeAt, g]

theorem Lane.removeAt_window (x : Lane) (j : Nat) :
    (x.removeAt j).window = if j = 0 ∧ x.window = .presented then .empty else x.window := by
  simp [Lane.removeAt]

/-! ## Freeing a record as done -/

/-- R15: the order's counts after one more tote is done. -/
abbrev Order.oneDone (o : Order) : Order := { o with done := o.done + 1, live := o.live - 1 }

/-- R15: the state in which a tote has left its place and its record is gone, before its order is counted. -/
def State.withoutRecord (s : State) (k : ToteSlot) (x : Tote) : State :=
  { s with
    totes := slotFree k (slotPut k x.removed s.totes)
    merge := (s.takeOut k x.location).merge
    lanes := (s.takeOut k x.location).lanes
    willcall := (s.takeOut k x.location).willcall }

theorem State.lane_withoutRecord (s : State) (k : ToteSlot) (x : Tote) (l : LaneIx) :
    (s.withoutRecord k x).lane l = (s.takeOut k x.location).lane l := rfl

theorem State.freeDone_eq {s : State} {k : ToteSlot} {x : Tote} (h : s.tote? k = some x) :
    s.freeDone k = (s.withoutRecord k x).recount x.order Order.oneDone := by
  unfold State.freeDone
  rw [h]
  dsimp only
  rw [State.removeTote_fields h]
  rfl

/-- R15: the order goes on. -/
theorem State.freeDone_counts {s : State} {k : ToteSlot} {x : Tote} {o : Order} (h : s.tote? k = some x)
    (g : s.order? x.order = some o) (n : o.done + 1 ≠ o.total) :
    s.freeDone k = (s.withoutRecord k x).putOrder x.order o.oneDone := by
  rw [State.freeDone_eq h]
  exact State.recount_counts (o := o) g n

/-- R15, R7: the order ends with its last tote. -/
theorem State.freeDone_frees {s : State} {k : ToteSlot} {x : Tote} {o : Order} (h : s.tote? k = some x)
    (g : s.order? x.order = some o) (full : o.done + 1 = o.total) :
    s.freeDone k = (s.withoutRecord k x).freeOrder x.order o := by
  rw [State.freeDone_eq h]
  exact State.recount_frees (o := o) (f := Order.oneDone) g full

/-- R15: in both cases all but the orders and the lanes is as the record's removal leaves it. -/
theorem State.freeDone_fields {s : State} {k : ToteSlot} {x : Tote} {o : Order} (h : s.tote? k = some x)
    (g : s.order? x.order = some o) :
    s.freeDone k =
      { s.withoutRecord k x with lanes := (s.freeDone k).lanes, orders := (s.freeDone k).orders } := by
  by_cases full : o.done + 1 = o.total
  · rw [State.freeDone_frees h g full]
    unfold State.freeOrder
    rw [State.leaveReady_eq]
  · rw [State.freeDone_counts h g full]
    rfl

theorem State.freeDone_lane {s : State} {k : ToteSlot} {x : Tote} {o : Order} (h : s.tote? k = some x)
    (g : s.order? x.order = some o) (l : LaneIx) :
    (s.freeDone k).lane l =
      if o.done + 1 = o.total ∧ o.state = .ready l then
        { (s.takeOut k x.location).lane l with ready := (s.lane l).ready.filter (fun e => e.order != x.order) }
      else (s.takeOut k x.location).lane l := by
  by_cases full : o.done + 1 = o.total
  · rw [State.freeDone_frees h g full]
    show ((s.withoutRecord k x).leaveReady x.order o).lane l = _
    rw [State.lane_leaveReady]
    rw [State.lane_withoutRecord, State.ready_takeOut]
    simp [full]
  · rw [State.freeDone_counts h g full, if_neg (fun e => full e.1)]
    rfl

/-- The records that a freeing as done leaves. -/
theorem State.freeDone_tote? {s : State} {k : ToteSlot} {x : Tote} {o : Order} (h : s.tote? k = some x)
    (g : s.order? x.order = some o) (j : ToteSlot) :
    (s.freeDone k).tote? j = if j = k then none else s.tote? j := by
  have e : (s.freeDone k).totes = slotFree k (slotPut k x.removed s.totes) := by
    rw [State.freeDone_fields h g]; rfl
  unfold State.tote?
  rw [e]
  split_ifs with c
  · subst c; exact slotGet_slotFree_same _ _
  · rw [slotGet_slotFree_ne _ _ _ c, slotGet_slotPut_ne _ _ _ _ (Ne.symm c)]

/-! ## The obligation -/

/-- R5: entry into WILLCALL, field by field. -/
theorem enterWillcall_leaves (s : State) (k : OrderSlot) (o : Order) (why : Reason) (h : s.order? k = some o) :
    let t := s.enterWillcall k why
    t.order? k = some { o with state := .willcall why } ∧
    (∀ j, j ≠ k → t.order? j = s.order? j) ∧
    t.totes = s.totes.map (fun p => (p.1, if p.2.order = k then { p.2 with trail := [] } else p.2)) ∧
    t.req = { s.req with flags := s.req.flags ||| Flag.orderToWillcall.only } ∧
    (∀ l, o.state = .ready l → t.lanes = s.lanesWithout k l) ∧
    ((∀ l, o.state ≠ .ready l) → t.lanes = s.lanes) ∧
    t.cfg = s.cfg ∧ t.ring = s.ring ∧ t.readers = s.readers ∧ t.willcall = s.willcall ∧ t.merge = s.merge ∧
    t.throttle = s.throttle ∧ t.drive = s.drive ∧ t.run = s.run ∧ t.now = s.now ∧ t.pending = s.pending := by
  intro t
  have e : t = _ := State.enterWillcall_eq h why
  clear_value t
  subst e
  refine ⟨slotGet_slotPut_same _ _ _, fun j n => slotGet_slotPut_ne _ _ _ _ (Ne.symm n), rfl, rfl, fun l r => ?_,
    fun r => ?_, rfl, rfl, rfl, rfl, rfl, rfl, rfl, rfl, rfl, rfl⟩
  · show (s.leaveReady k o).lanes = _
    rw [State.leaveReady_ready r]
  · show (s.leaveReady k o).lanes = _
    rw [State.leaveReady_other r]

/-- R13, R90: removal from a lane queue, by the tote's position in it. -/
theorem removeTote_lane {s : State} {k : ToteSlot} {x : Tote} (h : s.tote? k = some x) {l : LaneIx}
    (m : x.location = .lane l) :
    s.removeTote k =
      { s with totes := slotPut k x.removed s.totes, lanes := setRow s.lanes l ((s.lane l).removeTote k) } := by
  rw [State.removeTote_eq h, m]
  rfl

theorem removeTote_returnBelt {s : State} {k : ToteSlot} {x : Tote} (h : s.tote? k = some x)
    (m : x.location = .returnBelt) :
    s.removeTote k =
      { s with
        totes := slotPut k x.removed s.totes
        merge := { s.merge with head := if s.merge.head = .known k then .absent else s.merge.head } } := by
  rw [State.removeTote_eq h, m]
  unfold State.takeOut
  simp only [beq_iff_eq]
  split_ifs <;> rfl

/-- Settles O19: entry into WILLCALL, the freeing of a record as done, and the removal from each place. -/
theorem orderEndings : Obligations.OrderEndings := by
  refine ⟨enterWillcall_leaves, fun s k x o _ h g => ?_, fun s k x h => ?_⟩
  · have tote := State.freeDone_tote? h g
    have lane := State.freeDone_lane h g
    have queue : ∀ l, ((s.freeDone k).lane l).queue = ((s.takeOut k x.location).lane l).queue := fun l => by
      rw [lane]; split_ifs <;> rfl
    have window : ∀ l, ((s.freeDone k).lane l).window = ((s.takeOut k x.location).lane l).window := fun l => by
      rw [lane]; split_ifs <;> rfl
    have fields := State.freeDone_fields h g
    refine ⟨by rw [tote, if_pos rfl], fun j n => by rw [tote, if_neg n], fun n => ?_, fun full => ?_, fun j n => ?_,
      fun l => ?_, fun l j m p => ?_, fun l m => ?_, ?_, ?_⟩
    · rw [State.freeDone_counts h g n]
      exact slotGet_slotPut_same _ _ _
    · rw [State.freeDone_frees h g full]
      exact slotGet_slotFree_same _ _
    · by_cases full : o.done + 1 = o.total
      · rw [State.freeDone_frees h g full]
        exact slotGet_slotFree_ne _ _ _ n
      · rw [State.freeDone_counts h g full]
        exact slotGet_slotPut_ne _ _ _ _ (Ne.symm n)
    · rw [lane]
      split_ifs
      · rfl
      · exact State.ready_takeOut s k _ l
    · rw [queue, window, State.lane_takeOut, if_pos m, Lane.removeTote_some p]
      exact ⟨rfl, Lane.removeAt_window _ _⟩
    · rw [queue, window, State.lane_takeOut, if_neg m]
      split_ifs <;> exact ⟨rfl, rfl⟩
    · rw [fields]
      exact State.willcallList_takeOut s k x.location
    · rw [fields]
      exact ⟨rfl, rfl, rfl, rfl, rfl, rfl, rfl, rfl, rfl⟩
  · refine ⟨fun m => ?_, fun i m => ?_, fun l m => ?_, fun l m => ⟨fun p => ?_, fun j p => ⟨fun gone => ?_, fun kept => ?_⟩⟩,
      removeTote_returnBelt h, fun m => ?_, fun m => ?_⟩
    · rw [State.removeTote_eq h]
      rcases m with m | m <;> rw [m] <;> rfl
    · rw [State.removeTote_eq h, m]; rfl
    · rw [State.removeTote_eq h, m]; rfl
    · rw [removeTote_lane h m, Lane.removeTote_none p]
      simp [State.lane]
    · rw [removeTote_lane h m, Lane.removeTote_some p, Lane.removeAt_gone gone]
    · rw [removeTote_lane h m, Lane.removeTote_some p, Lane.removeAt_kept kept]
    · rw [State.removeTote_eq h, m]; rfl
    · rw [State.removeTote_eq h, m]; rfl

end Sys2Proof.Machine
end

section
/-! PROOFS. The record requests (section 1.9): what each reply is in each of its cases, and the obligations about
BIND-ORDER, ADD-TOTE, CANCEL-ORDER, DROP-TOTE and WRITE-ORDER. -/

namespace Sys2Proof.Machine

/-! ## A request that is carried out -/

/-- The event of a request whose reply is known. -/
theorem exec_replied {c : Instr} {handler : Request → State → Reply} {s u : State} {r : Request}
    {rest : List Request} {x : Status} {data : List Byte} (e : exec c s = .next (takeRequest c handler s))
    (h : AskedWell s c r rest) (a : handler r (s.popRequest rest) = ⟨u, x, data⟩) :
    exec c s = answered s r u x data := by
  rw [e, takeRequest_well h, a]
  rfl

theorem isTicket_iff (n : Nat) : isTicket n = true ↔ n ≤ 9999 := by simp [isTicket]

theorem isTagNumber_iff (n : Nat) : isTagNumber n = true ↔ 1 ≤ n ∧ n ≤ 4095 := by simp [isTagNumber]

theorem inRange_iff (lo hi n : Nat) : inRange lo hi n = true ↔ lo ≤ n ∧ n ≤ hi := by simp [inRange]

theorem State.findOrder_isSome (s : State) (ticket : Nat) :
    (s.findOrder ticket).isSome = true ↔ ∃ q ∈ s.orders, q.2.ticket = ticket := by
  simp [State.findOrder]

theorem State.findTote_isSome (s : State) (tag : Nat) :
    (s.findTote tag).isSome = true ↔ ∃ q ∈ s.totes, q.2.tag = tag := by
  simp [State.findTote]

/-! ## The lowest free slot -/

/-- Every slot below the lowest free one is held. -/
theorem slotGet_of_lt_lowestFreeFrom {α : Type} {n k : Nat} {t : List (Nat × α)} (le : n ≤ k)
    (lt : k < lowestFreeFrom n t) : slotGet k t ≠ none := by
  induction t generalizing n with
  | nil => unfold lowestFreeFrom at lt; omega
  | cons p r ih =>
    obtain ⟨j, x⟩ := p
    unfold lowestFreeFrom at lt
    unfold slotGet
    by_cases e : j = k
    · simp [e]
    · rw [if_neg e]
      split_ifs at lt
      · exact ih (by omega) lt
      · omega

theorem slotGet_of_lt_lowestFree {α : Type} {k : Nat} {t : List (Nat × α)} (lt : k < lowestFree t) :
    slotGet k t ≠ none := slotGet_of_lt_lowestFreeFrom (Nat.zero_le k) lt

/-! ## BIND-ORDER -/

/-- R16: the ranges of a BIND-ORDER. -/
abbrev BindRanges (r : Request) : Prop :=
  wordAt r.args 0 ≤ 9999 ∧ 1 ≤ byteAt r.args 2 ∧ byteAt r.args 2 ≤ 6 ∧ byteAt r.args 3 ≤ 2

theorem bindRanges_iff (r : Request) :
    (isTicket (wordAt r.args 0) && inRange 1 6 (byteAt r.args 2) && byteAt r.args 3 ≤ 2) = true ↔ BindRanges r := by
  simp [isTicket_iff, inRange_iff, BindRanges, and_assoc]

theorem replyBindOrder_range {r : Request} (s : State) (h : ¬BindRanges r) : replyBindOrder r s = ⟨s, .range, []⟩ := by
  rw [← bindRanges_iff, Bool.not_eq_true] at h
  simp only [replyBindOrder, h, Bool.not_false, if_true]
  rfl

theorem replyBindOrder_duplicate {r : Request} {s : State} (h : BindRanges r)
    (d : ∃ q ∈ s.orders, q.2.ticket = wordAt r.args 0) : replyBindOrder r s = ⟨s, .duplicate, []⟩ := by
  rw [← bindRanges_iff] at h
  rw [← State.findOrder_isSome] at d
  simp only [replyBindOrder, h, d, Bool.not_true, Bool.false_eq_true, if_false, if_true]
  rfl

theorem replyBindOrder_full {r : Request} {s : State} (h : BindRanges r)
    (d : ¬∃ q ∈ s.orders, q.2.ticket = wordAt r.args 0) (f : 128 ≤ s.orders.length) :
    replyBindOrder r s = ⟨s, .full, []⟩ := by
  rw [← bindRanges_iff] at h
  rw [← State.findOrder_isSome] at d
  simp only [replyBindOrder, h, d, f, Bool.not_true, Bool.false_eq_true, if_false, if_true]
  rfl

theorem replyBindOrder_created {r : Request} {s : State} (h : BindRanges r)
    (d : ¬∃ q ∈ s.orders, q.2.ticket = wordAt r.args 0) (f : ¬128 ≤ s.orders.length) :
    replyBindOrder r s =
      let o := newOrder (wordAt r.args 0) (byteAt r.args 2) (byteAt r.args 3) (bandOf s.cfg.bandActive (wordAt r.args 0))
      ⟨(s.putOrder (lowestFree s.orders) o).raiseIf o.band.isNone .orderToWillcall, .ok,
        [o.state.code, indexByte o.band]⟩ := by
  rw [← bindRanges_iff] at h
  rw [← State.findOrder_isSome] at d
  simp only [replyBindOrder, h, d, f, Bool.not_true, Bool.false_eq_true, if_false]
  rfl

/-- Settles O31: one reply lemma for each branch, and the band that decides the new order's state. -/
theorem bindOrder : Obligations.BindOrder := by
  refine ⟨fun s w n => ⟨lowestFree_lt w.1 n, slotGet_lowestFree w.1, fun _ => slotGet_of_lt_lowestFree⟩,
    fun s r rest h => ?_⟩
  dsimp only
  by_cases range : BindRanges r
  case neg => rw [if_pos range]; exact exec_replied rfl h (replyBindOrder_range _ range)
  rw [if_neg (not_not.2 range)]
  split_ifs with duplicate full
  · exact exec_replied rfl h (replyBindOrder_duplicate range duplicate)
  · exact exec_replied rfl h (replyBindOrder_full range duplicate full)
  · have created := replyBindOrder_created (s := s.popRequest rest) range duplicate full
    rw [State.popRequest_cfg] at created
    cases band : bandOf s.cfg.bandActive (wordAt r.args 0) with
    | some b => rw [band] at created; exact exec_replied rfl h created
    | none => rw [band] at created; exact exec_replied rfl h created

/-! ## ADD-TOTE -/

/-- R17: the entry at place j of induct queue i is a stray entry of the tag. -/
def State.strayAt (s : State) (tag : Nat) (i : InductIx) (j : Nat) : Prop := (s.queue i)[j]? = some ⟨some tag, none⟩

theorem InductItem.isStrayOf_iff (tag : Nat) (e : InductItem) : e.isStrayOf tag = true ↔ e = ⟨some tag, none⟩ := by
  obtain ⟨t, k⟩ := e
  simp [InductItem.isStrayOf, and_comm]

theorem State.any_stray_iff (s : State) (tag : Nat) (i : InductIx) :
    (s.queue i).any (InductItem.isStrayOf tag) = true ↔ ∃ j, s.strayAt tag i j := by
  simp only [List.any_eq_true, InductItem.isStrayOf_iff, exists_eq_right]
  exact List.mem_iff_getElem?

/-- The place of the first stray entry of a queue that has one. -/
theorem State.findIdx_stray_iff (s : State) (tag : Nat) (i : InductIx) (j : Nat) (has : ∃ m, s.strayAt tag i m) :
    (s.queue i).findIdx (InductItem.isStrayOf tag) = j ↔ s.strayAt tag i j ∧ ∀ m < j, ¬s.strayAt tag i m := by
  have lt : (s.queue i).findIdx (InductItem.isStrayOf tag) < (s.queue i).length := by
    rw [List.findIdx_lt_length]
    simpa using (s.any_stray_iff tag i).2 has
  have at_ : ∀ m (b : m < (s.queue i).length), ((s.queue i)[m].isStrayOf tag = true ↔ s.strayAt tag i m) := fun m b => by
    rw [InductItem.isStrayOf_iff, State.strayAt, List.getElem?_eq_getElem b, Option.some_inj]
  constructor
  · rintro rfl
    refine ⟨(at_ _ lt).1 List.findIdx_getElem, fun m b => ?_⟩
    rw [← at_ m (b.trans lt)]
    simpa using List.not_of_lt_findIdx b
  · rintro ⟨a, before⟩
    have b : j < (s.queue i).length := (List.getElem?_eq_some_iff.1 a).1
    rw [List.findIdx_eq b]
    refine ⟨(at_ j b).2 a, fun m c => ?_⟩
    rw [← Bool.not_eq_true, at_ m (c.trans b)]
    exact before m c

theorem allInducts_mem (i : InductIx) : i ∈ allInducts := by revert i; decide

/-- The lowest induct of which a test holds. -/
theorem find_lowestInduct_iff (p : InductIx → Bool) (i : InductIx) :
    allInducts.find? p = some i ↔ p i = true ∧ ∀ h < i, p h = false := by
  have e : allInducts = List.finRange 4 := by decide
  rw [e, List.find?_eq_some_iff_getElem]
  constructor
  · rintro ⟨h, j, lt, g, low⟩
    rw [List.getElem_finRange] at g
    subst g
    exact ⟨h, fun m c => by simpa using low m.val c⟩
  · rintro ⟨h, low⟩
    exact ⟨h, i.val, by simp, by simp, fun j c => by simpa using low ⟨j, by omega⟩ c⟩

/-- R17: the first stray entry, from I0 to I3 and each queue from head to tail. -/
theorem State.findStray_eq_some_iff (s : State) (tag : Nat) (i : InductIx) (j : Nat) :
    s.findStray tag = some (i, j) ↔
      s.strayAt tag i j ∧ (∀ m < j, ¬s.strayAt tag i m) ∧ ∀ h < i, ∀ m, ¬s.strayAt tag h m := by
  have none_at : ∀ h, ((s.queue h).any (InductItem.isStrayOf tag) = false ↔ ∀ m, ¬s.strayAt tag h m) := fun h => by
    rw [← Bool.not_eq_true, s.any_stray_iff, not_exists]
  have found : s.findStray tag = some (i, j) ↔
      allInducts.find? (fun i => (s.queue i).any (InductItem.isStrayOf tag)) = some i ∧
        (s.queue i).findIdx (InductItem.isStrayOf tag) = j := by
    unfold State.findStray
    split
    · rename_i i' f
      rw [f, Option.some_inj, Prod.mk.injEq, Option.some_inj]
      constructor <;> rintro ⟨rfl, h⟩ <;> exact ⟨rfl, h⟩
    · rename_i f
      simp [f]
  rw [found, find_lowestInduct_iff]
  simp only [none_at]
  constructor
  · rintro ⟨⟨has, low⟩, idx⟩
    obtain ⟨a, before⟩ := (s.findIdx_stray_iff tag i j ((s.any_stray_iff tag i).1 has)).1 idx
    exact ⟨a, before, low⟩
  · rintro ⟨a, before, low⟩
    exact ⟨⟨(s.any_stray_iff tag i).2 ⟨j, a⟩, low⟩, (s.findIdx_stray_iff tag i j ⟨j, a⟩).2 ⟨a, before⟩⟩

theorem State.findStray_eq_none_iff (s : State) (tag : Nat) :
    s.findStray tag = none ↔ ∀ i j, ¬s.strayAt tag i j := by
  unfold State.findStray
  split
  · rename_i i f
    obtain ⟨j, a⟩ := (s.any_stray_iff tag i).1 (List.find?_some (p := fun i => (s.queue i).any _) f)
    simp only [reduceCtorEq, false_iff, not_forall, not_not]
    exact ⟨i, j, a⟩
  · rename_i f
    simp only [true_iff]
    intro i j a
    exact List.find?_eq_none.1 f i (allInducts_mem i) ((s.any_stray_iff tag i).2 ⟨j, a⟩)

/-- R17: the ranges of an ADD-TOTE. -/
abbrev AddRanges (r : Request) : Prop :=
  wordAt r.args 0 ≤ 9999 ∧ 1 ≤ wordAt r.args 2 ∧ wordAt r.args 2 ≤ 4095 ∧ 1 ≤ byteAt r.args 4 ∧ byteAt r.args 4 ≤ 6

theorem addRanges_iff (r : Request) :
    (isTicket (wordAt r.args 0) && isTagNumber (wordAt r.args 2) && inRange 1 6 (byteAt r.args 4)) = true ↔
      AddRanges r := by
  simp [isTicket_iff, isTagNumber_iff, inRange_iff, AddRanges, and_assoc]

theorem replyAddTote_range {r : Request} (s : State) (h : ¬AddRanges r) : replyAddTote r s = ⟨s, .range, []⟩ := by
  rw [← addRanges_iff, Bool.not_eq_true] at h
  simp only [replyAddTote, h, Bool.not_false, if_true]
  rfl

theorem replyAddTote_noOrder {r : Request} {s : State} (h : AddRanges r) (f : s.findOrder (wordAt r.args 0) = none) :
    replyAddTote r s = ⟨s, .noOrder, []⟩ := by
  rw [← addRanges_iff] at h
  simp only [replyAddTote, h, f, Bool.not_true, Bool.false_eq_true, if_false]
  rfl

/-- R17: a live tote has the tag, or a tote of the order has the part number. -/
abbrev State.toteTaken (s : State) (o : OrderSlot) (tag part : Nat) : Prop :=
  (∃ q ∈ s.totes, q.2.tag = tag) ∨ ∃ q ∈ s.totes, q.2.order = o ∧ q.2.part = part

theorem State.toteTaken_iff (s : State) (o : OrderSlot) (tag part : Nat) :
    ((s.findTote tag).isSome || (s.totesOf o).any (fun p => p.2.part == part)) = true ↔ s.toteTaken o tag part := by
  rw [Bool.or_eq_true, s.findTote_isSome]
  simp [State.totesOf, State.toteTaken]

/-- The checks of an ADD-TOTE for an order that is found, and the record it creates. -/
theorem replyAddTote_found {r : Request} {s : State} {o : OrderSlot} {x : Order} (h : AddRanges r)
    (f : s.findOrder (wordAt r.args 0) = some (o, x)) :
    replyAddTote r s =
      let tag := wordAt r.args 2
      let part := byteAt r.args 4
      let k := lowestFree s.totes
      if x.state = .willcall .cancelled then ⟨s, .state, []⟩
      else if x.total < part ∨ x.total - x.done - x.live = 0 then ⟨s, .range, []⟩
      else if s.toteTaken o tag part then ⟨s, .duplicate, []⟩
      else if 256 ≤ s.totes.length then ⟨s, .full, []⟩
      else ⟨settle s (s.createTote k tag part o), .ok, [(s.createTote k tag part o).locationByte k]⟩ := by
  rw [← addRanges_iff] at h
  simp only [replyAddTote, h, f, Bool.not_true, Bool.false_eq_true, if_false, State.toteTaken_iff]
  rfl

/-- R17: the record of a new tote, and its order's count. -/
abbrev State.withTote (s : State) (k : ToteSlot) (tag part : Nat) (o : OrderSlot) : State :=
  (s.putTote k (newTote tag part o)).modOrder o (fun x => { x with live := x.live + 1 })

theorem State.tote?_modTote_same {s : State} {k : ToteSlot} {x : Tote} (h : s.tote? k = some x) (f : Tote → Tote) :
    (s.modTote k f).tote? k = some (f x) := by
  rw [State.modTote_eq h]
  exact slotGet_slotPut_same _ _ _

theorem State.findStray_congr {s t : State} (h : t.merge = s.merge) (tag : Nat) : t.findStray tag = s.findStray tag := by
  unfold State.findStray State.queue
  rw [h]

theorem State.tote?_withTote (s : State) (k : ToteSlot) (tag part : Nat) (o : OrderSlot) :
    (s.withTote k tag part o).tote? k = some (newTote tag part o) := by
  unfold State.tote?
  rw [State.modOrder_totes]
  exact slotGet_slotPut_same _ _ _

theorem State.withTote_merge (s : State) (k : ToteSlot) (tag part : Nat) (o : OrderSlot) :
    (s.withTote k tag part o).merge = s.merge := State.modOrder_merge _ _ _

theorem State.createTote_alone {s : State} {tag : Nat} (h : s.findStray tag = none) (k : ToteSlot) (part : Nat)
    (o : OrderSlot) :
    s.createTote k tag part o = s.withTote k tag part o ∧ (s.createTote k tag part o).locationByte k = 0x00#8 := by
  have e : s.createTote k tag part o = s.withTote k tag part o := by
    show (s.withTote k tag part o).attach k tag = _
    unfold State.attach
    rw [State.findStray_congr (s.withTote_merge k tag part o), h]
  refine ⟨e, ?_⟩
  rw [e, State.locationByte, State.tote?_withTote]
  rfl

theorem State.createTote_attached {s : State} {tag : Nat} {i : InductIx} {j : Nat}
    (h : s.findStray tag = some (i, j)) (k : ToteSlot) (part : Nat) (o : OrderSlot) :
    s.createTote k tag part o = ((s.withTote k tag part o).putQueue i ((s.queue i).set j ⟨some tag, some k⟩)).modTote k
        (fun t => { t with location := .induct i }) ∧
      (s.createTote k tag part o).locationByte k = byte (0x10 + i.val) := by
  have q : (s.withTote k tag part o).queue i = s.queue i := by unfold State.queue; rw [State.withTote_merge]
  have e : s.createTote k tag part o =
      ((s.withTote k tag part o).putQueue i ((s.queue i).set j ⟨some tag, some k⟩)).modTote k
        (fun t => { t with location := .induct i }) := by
    show (s.withTote k tag part o).attach k tag = _
    unfold State.attach
    rw [State.findStray_congr (s.withTote_merge k tag part o), h]
    simp only [q]
  refine ⟨e, ?_⟩
  have g : ((s.withTote k tag part o).putQueue i ((s.queue i).set j ⟨some tag, some k⟩)).tote? k =
      some (newTote tag part o) := s.tote?_withTote k tag part o
  rw [e, State.locationByte, State.tote?_modTote_same g]
  rfl

/-- Settles O33: the least free slot, the first stray entry, and one reply lemma for each branch. -/
theorem addTote : Obligations.AddTote := by
  refine ⟨fun s w n => ⟨lowestFree_lt w.2 n, slotGet_lowestFree w.2, fun _ => slotGet_of_lt_lowestFree⟩,
    fun s tag => ⟨s.findStray_eq_some_iff tag, s.findStray_eq_none_iff tag⟩, fun s r rest h => ?_⟩
  refine ⟨fun range => exec_replied rfl h (replyAddTote_range _ range), fun range =>
    ⟨fun none => exec_replied rfl h (replyAddTote_noOrder range none), fun o x found => ?_⟩⟩
  have reply := replyAddTote_found (s := s.popRequest rest) range found
  split_ifs with cancelled part taken full
  · exact exec_replied rfl h (reply.trans (if_pos cancelled))
  · exact exec_replied rfl h (reply.trans ((if_neg cancelled).trans (if_pos part)))
  · exact exec_replied rfl h (reply.trans ((if_neg cancelled).trans ((if_neg part).trans (if_pos taken))))
  · exact exec_replied rfl h (reply.trans
      ((if_neg cancelled).trans ((if_neg part).trans ((if_neg taken).trans (if_pos full)))))
  · replace reply := reply.trans
      ((if_neg cancelled).trans ((if_neg part).trans ((if_neg taken).trans (if_neg full))))
    dsimp only
    split
    · rename_i stray
      obtain ⟨e, code⟩ := State.createTote_alone (s := s.popRequest rest) stray
        (lowestFree s.totes) (byteAt r.args 4) o
      rw [State.popRequest_totes, code, e] at reply
      exact exec_replied rfl h reply
    · rename_i stray
      obtain ⟨e, code⟩ := State.createTote_attached (s := s.popRequest rest) stray
        (lowestFree s.totes) (byteAt r.args 4) o
      rw [State.popRequest_totes, code, e] at reply
      exact exec_replied rfl h reply

/-! ## CANCEL-ORDER -/

/-- R18: the order with its total cut to the totes it has. -/
abbrev Order.cut (o : Order) : Order := { o with total := o.done + o.live }

theorem replyCancelOrder_range {r : Request} (s : State) (h : 9999 < wordAt r.args 0) :
    replyCancelOrder r s = ⟨s, .range, []⟩ := by
  have t : isTicket (wordAt r.args 0) = false := by rw [← Bool.not_eq_true, isTicket_iff]; omega
  simp only [replyCancelOrder, t, Bool.not_false, if_true]
  rfl

theorem replyCancelOrder_noOrder {r : Request} {s : State} (h : wordAt r.args 0 ≤ 9999)
    (f : s.findOrder (wordAt r.args 0) = none) : replyCancelOrder r s = ⟨s, .noOrder, []⟩ := by
  rw [← isTicket_iff] at h
  simp only [replyCancelOrder, h, f, Bool.not_true, Bool.false_eq_true, if_false]
  rfl

theorem replyCancelOrder_found {r : Request} {s : State} {k : OrderSlot} {o : Order} (h : wordAt r.args 0 ≤ 9999)
    (f : s.findOrder (wordAt r.args 0) = some (k, o)) :
    replyCancelOrder r s = ⟨settleLanes s (s.cancel k o), .ok, [if o.live = 0 then 0x00#8 else 0x01#8]⟩ := by
  rw [← isTicket_iff] at h
  simp only [replyCancelOrder, h, f, Bool.not_true, Bool.false_eq_true, if_false]
  rfl

theorem State.cancel_empty {o : Order} (h : o.live = 0) (s : State) (k : OrderSlot) :
    s.cancel k o = s.freeOrder k o.cut := if_pos h

/-- R4: a cancelled order that waits for collection already changes its reason alone. -/
theorem State.cancel_willcall {o : Order} {w : Reason} (h : o.live ≠ 0) (e : o.state = .willcall w) (s : State)
    (k : OrderSlot) :
    s.cancel k o = (s.putOrder k { o.cut with state := .willcall .cancelled }).raise .orderToWillcall := by
  unfold State.cancel
  rw [if_neg h, e]

theorem State.cancel_other {o : Order} (h : o.live ≠ 0) (e : ∀ w, o.state ≠ .willcall w) (s : State) (k : OrderSlot) :
    s.cancel k o = (s.putOrder k o.cut).enterWillcall k .cancelled := by
  unfold State.cancel
  rw [if_neg h]
  split
  · exact absurd ‹_› (e _)
  all_goals rfl

/-- R18: CANCEL-ORDER of an order that is found, by its live count and its state. -/
theorem exec_cancelOrder_found {s : State} {r : Request} {rest : List Request} {k : OrderSlot} {o : Order}
    (h : AskedWell s .cancelOrder r rest) (ticket : wordAt r.args 0 ≤ 9999)
    (f : s.findOrder (wordAt r.args 0) = some (k, o)) :
    exec .cancelOrder s = answered s r (settleLanes (s.popRequest rest) ((s.popRequest rest).cancel k o)) .ok
      [if o.live = 0 then 0x00#8 else 0x01#8] :=
  exec_replied rfl h (replyCancelOrder_found ticket f)

/-! ## DROP-TOTE -/

theorem replyDropTote_range {r : Request} (s : State) (h : ¬(1 ≤ wordAt r.args 0 ∧ wordAt r.args 0 ≤ 4095)) :
    replyDropTote r s = ⟨s, .range, []⟩ := by
  rw [← isTagNumber_iff, Bool.not_eq_true] at h
  simp only [replyDropTote, h, Bool.not_false, if_true]
  rfl

theorem replyDropTote_noTote {r : Request} {s : State} (h : 1 ≤ wordAt r.args 0 ∧ wordAt r.args 0 ≤ 4095)
    (f : s.findTote (wordAt r.args 0) = none) : replyDropTote r s = ⟨s, .noTote, []⟩ := by
  rw [← isTagNumber_iff] at h
  simp only [replyDropTote, h, f, Bool.not_true, Bool.false_eq_true, if_false]
  rfl

theorem replyDropTote_found {r : Request} {s : State} {k : ToteSlot} {t : Tote}
    (h : 1 ≤ wordAt r.args 0 ∧ wordAt r.args 0 ≤ 4095) (f : s.findTote (wordAt r.args 0) = some (k, t)) :
    replyDropTote r s =
      if t.location.isCounted = true then ⟨s, .inLane, []⟩
      else ⟨settle s (s.drop k t), .ok, [byte (s.totalOf t.order - 1)]⟩ := by
  rw [← isTagNumber_iff] at h
  simp only [replyDropTote, h, f, Bool.not_true, Bool.false_eq_true, if_false]
  rfl

/-- R19: the counted places. -/
theorem Location.isCounted_iff (loc : Location) :
    loc.isCounted = true ↔
      (∃ l, loc = .incoming l ∨ loc = .lane l) ∨ loc = .willcallIncoming ∨ loc = .willcall := by
  cases loc <;> simp [Location.isCounted]

/-- R19: the order's counts after a drop. -/
abbrev Order.oneDropped (o : Order) : Order := { o with total := o.total - 1, live := o.live - 1 }

/-- R15, R19: the record is gone and its place no longer names it. -/
abbrev State.dropped (s : State) (k : ToteSlot) (loc : Location) : State :=
  { s.dropFrom k loc with totes := slotFree k (s.dropFrom k loc).totes }

theorem State.drop_eq (s : State) (k : ToteSlot) (t : Tote) :
    s.drop k t = (s.dropped k t.location).recount t.order Order.oneDropped := rfl

theorem State.dropFrom_lanes (s : State) (k : ToteSlot) (loc : Location) : (s.dropFrom k loc).lanes = s.lanes := by
  unfold State.dropFrom
  split
  · rfl
  · split <;> rfl
  all_goals rfl

theorem State.order?_dropped (s : State) (k : ToteSlot) (loc : Location) (j : OrderSlot) :
    (s.dropped k loc).order? j = s.order? j := by
  unfold State.order?
  rw [(s.dropFrom_rest k loc).1]

theorem State.dropped_induct (s : State) (k : ToteSlot) (i : InductIx) :
    s.dropped k (.induct i) =
      { s with
        totes := slotFree k s.totes
        merge := { s.merge with
          queues := setRow s.merge.queues i ((s.queue i).map (fun e => if e.tote = some k then ⟨e.tag, none⟩ else e)) } } :=
  rfl

theorem State.dropped_returnBelt (s : State) (k : ToteSlot) :
    s.dropped k .returnBelt =
      { s with
        totes := slotFree k s.totes
        merge := { s.merge with head := if s.merge.head = .known k then .unnamed else s.merge.head } } := by
  unfold State.dropped State.dropFrom
  dsimp only
  split_ifs <;> rfl

theorem State.totalOf_some {s : State} {k : OrderSlot} {o : Order} (h : s.order? k = some o) : s.totalOf k = o.total := by
  unfold State.totalOf; rw [h]

/-- R19: DROP-TOTE of a tote that is found outside the counted places. -/
theorem exec_dropTote_found {s : State} {r : Request} {rest : List Request} {k : ToteSlot} {t : Tote} {o : Order}
    (h : AskedWell s .dropTote r rest) (tag : 1 ≤ wordAt r.args 0 ∧ wordAt r.args 0 ≤ 4095)
    (f : s.findTote (wordAt r.args 0) = some (k, t)) (free : ¬t.location.isCounted = true)
    (g : s.order? t.order = some o) :
    exec .dropTote s = answered s r (settle (s.popRequest rest)
      (((s.popRequest rest).dropped k t.location).recount t.order Order.oneDropped)) .ok [byte (o.total - 1)] := by
  have reply := (replyDropTote_found (s := s.popRequest rest) tag f).trans (if_neg free)
  rw [State.totalOf_some (s := s.popRequest rest) g] at reply
  exact exec_replied rfl h reply

/-- Settles O34: the cancel by its live count and state, and the drop by the place and by what it does to the
counts. -/
theorem cancelAndDrop : Obligations.CancelAndDrop := by
  refine ⟨fun s r rest h => ⟨fun range => exec_replied rfl h (replyCancelOrder_range _ range), fun ticket =>
    ⟨fun none => exec_replied rfl h (replyCancelOrder_noOrder ticket none), fun k o found => ?_⟩⟩,
    fun s r rest h => ⟨fun range => exec_replied rfl h (replyDropTote_range _ range), fun lo hi =>
    ⟨fun none => exec_replied rfl h (replyDropTote_noTote ⟨lo, hi⟩ none), fun k t found => ⟨fun counted => ?_,
      fun o v g place => ?_⟩⟩⟩⟩
  · have event := exec_cancelOrder_found h ticket found
    refine ⟨fun live => ?_, fun live => ?_⟩
    · rw [if_pos live, State.cancel_empty live] at event
      refine ⟨fun l ready => ?_, fun other => ?_⟩
      · rw [State.freeOrder_ready (o := o.cut) ready] at event
        exact event
      · rw [State.freeOrder_other (o := o.cut) other] at event
        exact event
    · rw [if_neg live] at event
      refine ⟨fun w will => ?_, fun other => ?_⟩
      · rwa [State.cancel_willcall live will] at event
      · rwa [State.cancel_other live other] at event
  · exact exec_replied rfl h ((replyDropTote_found (s := s.popRequest rest) ⟨lo, hi⟩ found).trans
      (if_pos ((Location.isCounted_iff _).2 counted)))
  · have dropped : ¬t.location.isCounted = true ∧ (s.popRequest rest).dropped k t.location = v := by
      rcases place with ⟨i, e, rfl⟩ | ⟨e, rfl⟩ | ⟨e | e, rfl⟩ <;> rw [e]
      · exact ⟨by simp [Location.isCounted], State.dropped_induct _ k i⟩
      · exact ⟨by simp [Location.isCounted], State.dropped_returnBelt _ k⟩
      · exact ⟨by simp [Location.isCounted], rfl⟩
      · exact ⟨by simp [Location.isCounted], rfl⟩
    obtain ⟨free, rfl⟩ := dropped
    have event := exec_dropTote_found h ⟨lo, hi⟩ found free g
    have orders := (State.dropFrom_rest (s.popRequest rest) k t.location).1
    have held := (State.order?_dropped (s.popRequest rest) k t.location t.order).trans g
    refine ⟨fun n => ?_, fun full => ?_⟩
    · rw [State.recount_counts held n, State.putOrder] at event
      rwa [orders] at event
    · rw [State.recount_frees (f := Order.oneDropped) held full] at event
      refine ⟨fun l ready => ?_, fun other => ?_⟩
      · have lanes : ((s.popRequest rest).dropped k t.location).lanesWithout t.order l = s.lanesWithout t.order l :=
          State.lanesWithout_congr (State.dropFrom_lanes (s.popRequest rest) k t.location) _ _
        rwa [State.freeOrder_ready ready, orders, lanes] at event
      · rwa [State.freeOrder_other other, orders] at event

/-! ## WRITE-ORDER -/

/-- R20: the ranges of a WRITE-ORDER. -/
abbrev WriteRanges (r : Request) : Prop := wordAt r.args 0 ≤ 9999 ∧ byteAt (r.args.drop 2) 3 ≤ 2

theorem writeRanges_iff (r : Request) :
    (isTicket (wordAt r.args 0) && byteAt (r.args.drop 2) 3 ≤ 2) = true ↔ WriteRanges r := by
  simp [isTicket_iff, WriteRanges]

theorem replyWriteOrder_range {r : Request} (s : State) (h : ¬WriteRanges r) : replyWriteOrder r s = ⟨s, .range, []⟩ := by
  rw [← writeRanges_iff, Bool.not_eq_true] at h
  simp only [replyWriteOrder, h, Bool.not_false, if_true]
  rfl

theorem replyWriteOrder_noOrder {r : Request} {s : State} (h : WriteRanges r)
    (f : s.findOrder (wordAt r.args 0) = none) : replyWriteOrder r s = ⟨s, .noOrder, []⟩ := by
  rw [← writeRanges_iff] at h
  simp only [replyWriteOrder, h, f, Bool.not_true, Bool.false_eq_true, if_false]
  rfl

theorem replyWriteOrder_found {r : Request} {s : State} {k : OrderSlot} {o : Order} (h : WriteRanges r)
    (f : s.findOrder (wordAt r.args 0) = some (k, o)) :
    replyWriteOrder r s =
      ⟨s.putOrder k { o with priority := byteAt (r.args.drop 2) 3 },
        if (s.orderImage k o).eraseIdx 3 = (r.args.drop 2).eraseIdx 3 then .ok else .okIgnored, []⟩ := by
  rw [← writeRanges_iff] at h
  simp only [replyWriteOrder, h, f, Bool.not_true, Bool.false_eq_true, if_false]
  split_ifs <;> rfl

/-- Settles O35: one reply lemma for each branch. -/
theorem writeOrder : Obligations.WriteOrder := by
  intro s r rest h
  refine ⟨fun range => exec_replied rfl h (replyWriteOrder_range _ range), fun ticket priority =>
    ⟨fun none => exec_replied rfl h (replyWriteOrder_noOrder ⟨ticket, priority⟩ none), fun k o found =>
      exec_replied rfl h (replyWriteOrder_found (s := s.popRequest rest) ⟨ticket, priority⟩ found)⟩⟩

end Sys2Proof.Machine
end

section
/-! PROOFS. The reads (R21, R60, R171, R174, R175): their replies, and the images of 11.6 to 11.9 byte by byte. -/

namespace Sys2Proof.Machine

/-! ## Replies of the reads of records -/

theorem replyReadOrder_range {r : Request} (s : State) (h : 9999 < wordAt r.args 0) :
    replyReadOrder r s = ⟨s, .range, []⟩ := by
  have t : isTicket (wordAt r.args 0) = false := by rw [← Bool.not_eq_true, isTicket_iff]; omega
  simp only [replyReadOrder, t, Bool.not_false, if_true]
  rfl

theorem replyReadOrder_found {r : Request} {s : State} {k : OrderSlot} {o : Order} (h : ¬9999 < wordAt r.args 0)
    (f : s.findOrder (wordAt r.args 0) = some (k, o)) : replyReadOrder r s = ⟨s, .ok, s.orderImage k o⟩ := by
  rw [not_lt, ← isTicket_iff] at h
  simp only [replyReadOrder, h, f, Bool.not_true, Bool.false_eq_true, if_false]
  rfl

theorem replyReadOrder_noOrder {r : Request} {s : State} (h : ¬9999 < wordAt r.args 0)
    (f : s.findOrder (wordAt r.args 0) = none) : replyReadOrder r s = ⟨s, .noOrder, []⟩ := by
  rw [not_lt, ← isTicket_iff] at h
  simp only [replyReadOrder, h, f, Bool.not_true, Bool.false_eq_true, if_false]
  rfl

theorem exec_readOrder {s : State} {r : Request} {rest : List Request} (h : AskedWell s .readOrder r rest) :
    exec .readOrder s =
      if 9999 < wordAt r.args 0 then answered s r (s.popRequest rest) .range []
      else match s.findOrder (wordAt r.args 0) with
        | some (k, o) => answered s r (s.popRequest rest) .ok (s.orderImage k o)
        | none => answered s r (s.popRequest rest) .noOrder [] := by
  split_ifs with range
  · exact exec_replied rfl h (replyReadOrder_range _ range)
  · split
    · rename_i found
      exact exec_replied rfl h (replyReadOrder_found (s := s.popRequest rest) range found)
    · rename_i none
      exact exec_replied rfl h (replyReadOrder_noOrder (s := s.popRequest rest) range none)

theorem isTagNumber_eq_false_iff (n : Nat) : isTagNumber n = false ↔ n = 0 ∨ 4095 < n := by
  rw [← Bool.not_eq_true, isTagNumber_iff]
  omega

theorem replyReadTote_range {r : Request} (s : State) (h : wordAt r.args 0 = 0 ∨ 4095 < wordAt r.args 0) :
    replyReadTote r s = ⟨s, .range, []⟩ := by
  rw [← isTagNumber_eq_false_iff] at h
  simp only [replyReadTote, h, Bool.not_false, if_true]
  rfl

theorem replyReadTote_found {r : Request} {s : State} {k : ToteSlot} {t : Tote}
    (h : ¬(wordAt r.args 0 = 0 ∨ 4095 < wordAt r.args 0)) (f : s.findTote (wordAt r.args 0) = some (k, t)) :
    replyReadTote r s = ⟨s, .ok, s.toteImage t⟩ := by
  rw [← isTagNumber_eq_false_iff, Bool.not_eq_false] at h
  simp only [replyReadTote, h, f, Bool.not_true, Bool.false_eq_true, if_false]
  rfl

theorem replyReadTote_noTote {r : Request} {s : State} (h : ¬(wordAt r.args 0 = 0 ∨ 4095 < wordAt r.args 0))
    (f : s.findTote (wordAt r.args 0) = none) : replyReadTote r s = ⟨s, .noTote, []⟩ := by
  rw [← isTagNumber_eq_false_iff, Bool.not_eq_false] at h
  simp only [replyReadTote, h, f, Bool.not_true, Bool.false_eq_true, if_false]
  rfl

theorem exec_readTote {s : State} {r : Request} {rest : List Request} (h : AskedWell s .readTote r rest) :
    exec .readTote s =
      if wordAt r.args 0 = 0 ∨ 4095 < wordAt r.args 0 then answered s r (s.popRequest rest) .range []
      else match s.findTote (wordAt r.args 0) with
        | some (_, t) => answered s r (s.popRequest rest) .ok (s.toteImage t)
        | none => answered s r (s.popRequest rest) .noTote [] := by
  split_ifs with range
  · exact exec_replied rfl h (replyReadTote_range _ range)
  · split
    · rename_i found
      exact exec_replied rfl h (replyReadTote_found (s := s.popRequest rest) range found)
    · rename_i none
      exact exec_replied rfl h (replyReadTote_noTote (s := s.popRequest rest) range none)

/-! ## Replies of the reads of lanes, the spur and the tables -/

/-- R174: the section a section byte names. -/
theorem State.laneSection_eq (s : State) (l : LaneIx) {b : Nat} (lo : 1 ≤ b) (hi : b ≤ 4) :
    s.laneSection l b =
      if b = 1 then s.figures l else if b = 2 then s.queueSection l else if b = 3 then s.bookSection l
      else s.readySection l := by
  interval_cases b <;> rfl

theorem exec_readLane {s : State} {r : Request} {rest : List Request} (h : AskedWell s .readLane r rest) :
    let a := byteAt r.args 0
    let b := byteAt r.args 1
    exec .readLane s =
      if a ≤ 11 ∧ 1 ≤ b ∧ b ≤ 4 then
        answered s r (s.popRequest rest) .ok (byte a :: byte b ::
          (if b = 1 then s.figures (laneIx a) else if b = 2 then s.queueSection (laneIx a)
            else if b = 3 then s.bookSection (laneIx a) else s.readySection (laneIx a)))
      else answered s r (s.popRequest rest) .range [] := by
  intro a b
  have checks : (a ≤ 11 && inRange 1 4 b) = true ↔ a ≤ 11 ∧ 1 ≤ b ∧ b ≤ 4 := by simp [inRange_iff]
  by_cases range : a ≤ 11 ∧ 1 ≤ b ∧ b ≤ 4
  · rw [if_pos range, ← State.laneSection_eq s _ range.2.1 range.2.2]
    refine exec_replied rfl h ?_
    simp only [replyReadLane, a, b, checks.2 range, Bool.not_true, Bool.false_eq_true, if_false]
    rfl
  · rw [if_neg range]
    refine exec_replied rfl h ?_
    rw [← checks, Bool.not_eq_true] at range
    simp only [replyReadLane, a, b, range, Bool.not_false, if_true]
    rfl

theorem exec_readWillcall {s : State} {r : Request} {rest : List Request} (h : AskedWell s .readWillcall r rest) :
    let a := byteAt r.args 0
    let b := byteAt r.args 1
    exec .readWillcall s =
      if a ≤ 47 ∧ 1 ≤ b ∧ b ≤ 4 then
        answered s r (s.popRequest rest) .ok (byte s.willcall.list.length :: byte s.willcall.incoming.length ::
          ((s.willcall.list.drop a).take b).flatMap s.stayEntry)
      else answered s r (s.popRequest rest) .range [] := by
  intro a b
  have checks : (a ≤ 47 && inRange 1 4 b) = true ↔ a ≤ 47 ∧ 1 ≤ b ∧ b ≤ 4 := by simp [inRange_iff]
  split_ifs with range
  · refine exec_replied rfl h ?_
    simp only [replyReadWillcall, a, b, checks.2 range, Bool.not_true, Bool.false_eq_true, if_false]
    rfl
  · refine exec_replied rfl h ?_
    rw [← checks, Bool.not_eq_true] at range
    simp only [replyReadWillcall, a, b, range, Bool.not_false, if_true]
    rfl

theorem exec_readEntry {s : State} {r : Request} {rest : List Request} (h : AskedWell s .readEntry r rest) :
    let a := byteAt r.args 0
    let b := byteAt r.args 1
    exec .readEntry s =
      match s.entryImage a b with
      | some image => answered s r (s.popRequest rest) .ok (byte a :: byte b :: image)
      | none => answered s r (s.popRequest rest) .range [] := by
  intro a b
  cases e : s.entryImage a b with
  | some image =>
    have e : (s.popRequest rest).entryImage (byteAt r.args 0) (byteAt r.args 1) = some image := e
    exact exec_replied rfl h (by simp only [replyReadEntry, e]; rfl)
  | none =>
    have e : (s.popRequest rest).entryImage (byteAt r.args 0) (byteAt r.args 1) = none := e
    exact exec_replied rfl h (by simp only [replyReadEntry, e]; rfl)

theorem readerIx_val (i : ReaderIx) : readerIx i.val = i := Fin.ofNat_val_eq_self i

/-- R60, R171: a read of the reader status table. -/
theorem exec_readReader {s : State} {r : Request} {rest : List Request}
    (h : AskedWell s .readEntryReaderStatus r rest) :
    let p := s.popRequest rest
    (∀ i : ReaderIx, byteAt r.args 1 = i.val →
      exec .readEntryReaderStatus s = answered s r
        { p with readers := setRow s.readers i { s.reader i with crowded := false } } .ok
        (0x09#8 :: byte i.val :: s.readerImage i)) ∧
    (34 ≤ byteAt r.args 1 → exec .readEntryReaderStatus s = answered s r p .range []) := by
  refine ⟨fun i e => exec_replied rfl h ?_, fun range => exec_replied rfl h ?_⟩
  · simp only [replyReadReader, e, i.isLt, if_true, readerIx_val]
    rfl
  · simp only [replyReadReader, Nat.not_lt.2 range, if_false]
    rfl

/-! ## Small pieces of the images -/

theorem indexByte_eq {n : Nat} (i : Option (Fin n)) : indexByte i = i.elim 0xFF#8 (fun k => byte k.val) := by
  cases i <;> rfl

theorem State.leftOf_eq (s : State) (unit : Nat) (timer : Option Time) :
    s.leftOf unit timer = timer.elim 0 (s.left unit) := by
  cases timer <;> rfl

theorem State.ticketOf_some {s : State} {k : OrderSlot} {o : Order} (h : s.order? k = some o) :
    s.ticketOf k = o.ticket := by
  unfold State.ticketOf; rw [h]

theorem State.tagOf_some {s : State} {k : ToteSlot} {t : Tote} (h : s.tote? k = some t) : s.tagOf k = t.tag := by
  unfold State.tagOf; rw [h]

/-- Log entry 6: a time left of whole units is exact. -/
theorem State.left_exact (s : State) (unit : Nat) (e : Time) (h : (e - s.now) % unit = 0) :
    s.left unit e = (e - s.now) / unit := if_pos h

/-- Log entry 6: between two whole units the time left is rounded either way. -/
theorem State.left_rounded (s : State) (unit : Nat) (e : Time) :
    s.left unit e = (e - s.now) / unit ∨ s.left unit e = (e - s.now) / unit + 1 := by
  unfold State.left unitsOf
  split_ifs
  · exact .inl rfl
  · exact .inr rfl
  · exact .inl rfl

/-! ## Record images (11.6, 11.8) -/

theorem orderImage_bytes (s : State) (k : OrderSlot) (o : Order) : ∃ live : List Tote,
    live.Perm ((s.totes.filter (fun q => q.2.order == k)).map (·.2)) ∧ live.Pairwise (fun a b => a.part ≤ b.part) ∧
    s.orderImage k o = twoBytes o.ticket ++
      [byte o.total, byte o.priority, o.band.elim 0xFF#8 (fun b => byte b.val), o.state.code, o.state.laneByte,
       yesNo o.released, byte (o.done * 16 + o.live),
       byte ((o.total - o.done) * 16 + (o.total - o.done - o.live))] ++
      live.flatMap (fun t => twoBytes (t.part * 4096 + t.tag) ++ [t.location.code]) := by
  obtain ⟨perm, sorted⟩ := sortBy_spec Tote.part ((s.totesOf k).map (·.2))
  refine ⟨_, perm, sorted, ?_⟩
  unfold State.orderImage
  rw [indexByte_eq]
  rfl

theorem toteImage_bytes (s : State) (t : Tote) (o : Order) (h : s.order? t.order = some o) :
    s.toteImage t = twoBytes t.tag ++ twoBytes o.ticket ++
      [byte t.part, t.location.code, sightingCode t.sighting, t.lastGate.elim 0xFF#8 (fun g => byte g.val)] ++
      t.deadline.elim [0xFF#8, 0xFF#8] (fun d => twoBytes (s.left 10000 d.expiry)) ++
      [byte t.laps, byte t.trail.length] ++ t.trail.flatMap (fun e => [byte e.gate.val, e.outcome.code]) ++
      List.replicate (8 - 2 * t.trail.length) 0 := by
  have deadline : s.deadlineBytes t =
      t.deadline.elim [0xFF#8, 0xFF#8] (fun d => twoBytes (s.left 10000 d.expiry)) := by
    unfold State.deadlineBytes
    cases t.deadline <;> rfl
  unfold State.toteImage trailBytes
  rw [indexByte_eq, State.ticketOf_some h, deadline]
  simp only [List.append_assoc]

/-! ## Lane sections (11.9) -/

theorem foreignBytes_eq (f : Option Foreign) : foreignBytes f = f.elim [0x00#8, 0x00#8] foreignWord := by
  rcases f with _ | _ | _ <;> rfl

theorem State.unattendedLeft_eq (s : State) (u : Unattended) :
    s.unattendedLeft u = u.expiry.elim 0 (s.left 100000) := by
  cases u <;> rfl

theorem figures_bytes (s : State) (l : LaneIx) :
    let x := s.lane l
    s.figures l =
      [byte (s.laneCfg l).capacity, yesNo (s.laneOpen l), yesNo (s.overbooked l), byte x.queue.length,
       byte x.incoming.length, byte (s.reserved l), BitVec.ofInt 8 (s.free l), x.window.code] ++
      x.foreign.elim [0x00#8, 0x00#8] foreignWord ++ [byte x.emptyScans, yesNo x.attention, x.unattended.code] ++
      twoBytes (x.unattended.expiry.elim 0 (s.left 100000)) ++ twoBytes (x.advance.elim 0 (s.left 100)) ++
      [x.lamp.code, byte x.display.length] ++ x.display.flatMap twoBytes ++
      List.replicate (8 - 2 * x.display.length) 0 := by
  intro x
  unfold State.figures
  dsimp only
  rw [foreignBytes_eq, State.unattendedLeft_eq, State.leftOf_eq]
  rfl

theorem State.queueWord_eq (s : State) (e : QueueEntry) : s.queueWord e = laneWord s e := by
  rcases e with _ | _ | _ <;> rfl

theorem State.incomingEntry_eq (s : State) (e : Incoming) :
    s.incomingEntry e = twoBytes (s.tagOf e.tote) ++ [e.confirm.elim 0xFF#8 (fun t => byte (s.left 10000 t))] := by
  unfold State.incomingEntry
  cases e.confirm <;> rfl

theorem queueSection_bytes (s : State) (l : LaneIx) :
    let x := s.lane l
    s.queueSection l =
      byte x.queue.length :: (x.queue.flatMap (laneWord s) ++ byte x.incoming.length ::
        x.incoming.flatMap (fun e => twoBytes (s.tagOf e.tote) ++
          [e.confirm.elim 0xFF#8 (fun t => byte (s.left 10000 t))])) := by
  intro x
  unfold State.queueSection
  rw [funext s.queueWord_eq, funext s.incomingEntry_eq]

/-- R32: the orders in a lane's book. -/
theorem Order.assignedTo_eq (o : Order) (l : LaneIx) :
    o.assignedTo l = decide (o.state = .routed l ∨ o.state = .ready l) := by
  unfold Order.assignedTo
  split <;> rename_i h <;> simp [h, beq_eq_decide]

theorem bookSection_bytes (s : State) (l : LaneIx) : ∃ book : List (OrderSlot × Order),
    book.Perm (s.orders.filter (fun q => q.2.state = .routed l ∨ q.2.state = .ready l)) ∧
    book.Pairwise (fun a b => a.2.ticket ≤ b.2.ticket) ∧
    s.bookSection l = byte book.length :: book.flatMap (fun q =>
      twoBytes q.2.ticket ++ [q.2.state.code ||| byte (s.share q.1 q.2 l)]) := by
  obtain ⟨perm, sorted⟩ := sortBy_spec (fun p : OrderSlot × Order => p.2.ticket) (s.book l)
  have book : s.book l = s.orders.filter (fun q => q.2.state = .routed l ∨ q.2.state = .ready l) := by
    unfold State.book
    simp only [Order.assignedTo_eq]
  refine ⟨_, book ▸ perm, sorted, ?_⟩
  unfold State.bookSection
  rw [perm.length_eq]
  rfl

theorem readySection_bytes (s : State) (l : LaneIx) :
    s.readySection l = byte (s.lane l).ready.length :: (s.lane l).ready.flatMap (fun e =>
      twoBytes (s.ticketOf e.order) ++ [byte ((e.collect - s.now + 5999999) / 6000000)]) := rfl

theorem State.reasonOf_willcall {s : State} {k : OrderSlot} {o : Order} {w : Reason} (h : s.order? k = some o)
    (e : o.state = .willcall w) : s.reasonOf k = w.code := by
  unfold State.reasonOf
  simp only [h, e]

theorem stayEntry_bytes (s : State) (e : Stay) (t : Tote) (o : Order) (w : Reason) (ht : s.tote? e.tote = some t)
    (ho : s.order? t.order = some o) (hw : o.state = .willcall w) :
    s.stayEntry e = twoBytes t.tag ++ twoBytes o.ticket ++
      byte w.code :: twoBytes (min 65535 ((s.now - e.since) / 100000)) := by
  unfold State.stayEntry
  simp only [ht, State.ticketOf_some ho, State.reasonOf_willcall ho hw]
  rfl

/-! ## Entries of the tables (11.7) -/

theorem gateIx_val (g : GateIx) : gateIx g.val = g := Fin.ofNat_val_eq_self g
theorem laneIx_val (l : LaneIx) : laneIx l.val = l := Fin.ofNat_val_eq_self l
theorem bandIx_val (b : BandIx) : bandIx b.val = b := Fin.ofNat_val_eq_self b
theorem inductIx_val (i : InductIx) : inductIx i.val = i := Fin.ofNat_val_eq_self i

theorem State.entryImage_gate (s : State) (g : GateIx) : s.entryImage 1 g.val = some (s.gateCfg g).image := by
  show (if g.val < 16 then some (s.gateCfg (gateIx g.val)).image else none) = _
  rw [if_pos g.isLt, gateIx_val]

theorem State.entryImage_lane (s : State) (l : LaneIx) : s.entryImage 2 l.val = some (s.laneCfg l).image := by
  show (if l.val < 12 then some (s.laneCfg (laneIx l.val)).image else none) = _
  rw [if_pos l.isLt, laneIx_val]

theorem laneImage_bytes (e : LaneEntry) :
    e.image = [byte e.capacity, yesNo e.take, yesNo e.give, e.alternate.elim 0xFF#8 (fun a => byte a.val),
      byte e.station] ++ twoBytes e.confirmLimit ++ twoBytes e.scanInterval ++ twoBytes e.advanceLimit ++
      twoBytes e.unattendedInterval ++ [e.unattendedAction.code, yesNo e.discardFirst] := by
  unfold LaneEntry.image
  rw [indexByte_eq]

theorem State.entryImage_bandActive (s : State) (b : BandIx) :
    s.entryImage 3 b.val = some (row s.cfg.bandActive b).image := by
  show (if b.val < 8 then some (row s.cfg.bandActive (bandIx b.val)).image else none) = _
  rw [if_pos b.isLt, bandIx_val]

theorem State.entryImage_bandStaging (s : State) (b : BandIx) :
    s.entryImage 4 b.val = some (row s.cfg.bandStaging b).image := by
  show (if b.val < 8 then some (row s.cfg.bandStaging (bandIx b.val)).image else none) = _
  rw [if_pos b.isLt, bandIx_val]

theorem State.entryImage_induct (s : State) (i : InductIx) : s.entryImage 5 i.val = some (s.inductImage i) := by
  show (if i.val < 4 then some (s.inductImage (inductIx i.val)) else none) = _
  rw [if_pos i.isLt, inductIx_val]

/-- R171: the tables and indices that have no image. -/
theorem State.entryImage_none (s : State) (table i : Nat)
    (h : table = 0 ∨ 9 ≤ table ∨ (table = 1 ∧ 16 ≤ i) ∨ (table = 2 ∧ 12 ≤ i) ∨ (table = 3 ∧ 8 ≤ i) ∨
      (table = 4 ∧ 8 ≤ i) ∨ (table = 5 ∧ 4 ≤ i) ∨ (6 ≤ table ∧ i ≠ 0)) : s.entryImage table i = none := by
  unfold State.entryImage
  split
  case h_9 => rfl
  all_goals exact if_neg (by omega)

theorem InductItem.word_eq (e : InductItem) : e.word = inductWord e := by
  obtain ⟨_ | _, _ | _⟩ := e <;> rfl

theorem inductImage_bytes (s : State) (i : InductIx) :
    let e := s.inductCfg i
    s.inductImage i = [yesNo e.present, byte e.station] ++ twoBytes e.transitLimit ++
      [yesNo e.discardFirst] ++ byte (s.queue i).length :: ((s.queue i).flatMap inductWord ++
        List.replicate (8 - 2 * (s.queue i).length) 0) := by
  intro e
  unfold State.inductImage inductQueueBytes
  rw [funext InductItem.word_eq]
  rfl

/-- Log entry 37: the drive image shows 0 where no timer runs. -/
theorem driveImage_bytes (s : State) :
    let e := s.cfg.drive
    s.driveImage = [byte e.station] ++ twoBytes e.idleInterval ++ twoBytes e.startDelay ++
      twoBytes e.stopDelay ++ [s.drive.state.code, yesNo s.drive.wakePending] ++
      twoBytes ((s.drive.idle.or s.drive.delay).elim 0 (s.left 10000)) := by
  intro e
  have timer : s.drive.timer = s.drive.idle.or s.drive.delay := by
    unfold Drive.timer
    cases s.drive.idle <;> rfl
  unfold State.driveImage
  rw [State.leftOf_eq, timer]
  rfl

theorem throttleImage_bytes (s : State) :
    let e := s.cfg.throttle
    s.throttleImage = [e.mode.code, byte e.samplingWindow] ++ twoBytes e.threshold ++
      [byte e.duration, byte e.monitorWindow, byte e.windowMax, byte e.loadMark, yesNo s.throttle.throttled,
       byte s.throttle.windowsLeft] ++ twoBytes s.throttle.samplingCount ++ [byte s.throttle.monitorCount] := by
  intro e
  unfold State.throttleImage ThrottleProfile.image
  simp only [List.append_assoc]
  rfl

/-! ## The reader status image (11.7) -/

theorem roleCode_eq (r : ReaderIx) :
    (roleOf r).code =
      if r.val < 16 then 0x01#8 else if r.val < 20 then 0x02#8 else if r.val < 32 then 0x03#8
        else if r.val = 32 then 0x04#8 else 0x05#8 := by
  revert r; decide

theorem State.serviceByte_eq (s : State) (r : ReaderIx) :
    s.serviceByte r = if s.enabled r = false then 0x00#8 else if s.inService r = true then 0x03#8 else 0x01#8 := by
  unfold State.serviceByte
  cases s.enabled r <;> rfl

theorem lastBytes_eq (x : Option LastResult) :
    lastBytes x = x.elim [0x00#8, 0x00#8, 0x00#8, 0x00#8] (fun y => resultWord y.result ++ [yesNo y.discarded]) := by
  rcases x with _ | ⟨_ | _ | _ | _, _⟩ <;> rfl

theorem readerImage_bytes (s : State) (r : ReaderIx) :
    let x := s.reader r
    s.readerImage r =
      [if r.val < 16 then 0x01#8 else if r.val < 20 then 0x02#8 else if r.val < 32 then 0x03#8
         else if r.val = 32 then 0x04#8 else 0x05#8,
       byte r.val, byte (s.stationOf r),
       if s.enabled r = false then 0x00#8 else if s.inService r = true then 0x03#8 else 0x01#8,
       x.cycle.code, yesNo x.scanPending] ++ twoBytes (x.window.elim 0 (s.left 100)) ++
      [yesNo x.fresh, yesNo x.crowded] ++
      x.last.elim [0x00#8, 0x00#8, 0x00#8, 0x00#8] (fun y => resultWord y.result ++ [yesNo y.discarded]) := by
  intro x
  unfold State.readerImage
  dsimp only
  rw [roleCode_eq, State.serviceByte_eq, State.leftOf_eq, lastBytes_eq]
  rfl

/-! ## The codes -/

theorem imageCodes : ImageCodes := by
  refine ⟨⟨rfl, fun _ => rfl, fun _ => rfl, rfl, rfl, rfl, rfl, rfl, rfl, rfl, rfl, rfl, rfl, rfl, rfl, rfl,
    fun _ => rfl, fun _ => rfl, fun _ => rfl⟩, ⟨rfl, fun _ => rfl, rfl, fun _ => rfl, fun _ => rfl, rfl, rfl, rfl⟩,
    ⟨rfl, rfl, fun _ => rfl, rfl⟩, ⟨rfl, rfl, rfl, rfl, rfl⟩, ⟨rfl, rfl, rfl, rfl⟩, ⟨rfl, rfl, rfl, rfl⟩,
    ⟨rfl, rfl, rfl, rfl, rfl⟩, ⟨rfl, rfl, rfl, rfl⟩, ⟨rfl, rfl, rfl, rfl, rfl⟩, ⟨rfl, rfl, rfl, rfl⟩,
    ⟨rfl, rfl, rfl⟩, ⟨rfl, fun _ => rfl, rfl⟩, ⟨rfl, rfl, rfl, rfl⟩, rfl, rfl⟩

/-- Settles O36: the replies of the reads, and one lemma for the bytes of each image. -/
theorem readRequests : Obligations.ReadRequests := by
  refine ⟨fun s r rest => ⟨exec_readOrder, exec_readTote, exec_readLane, exec_readWillcall, exec_readEntry⟩,
    fun s r rest h => exec_readReader h, orderImage_bytes, toteImage_bytes, fun s l => ?_, fun s => ?_, imageCodes⟩
  · exact ⟨fun _ _ => State.ticketOf_some, fun _ _ => State.tagOf_some, figures_bytes s l, queueSection_bytes s l,
      bookSection_bytes s l, readySection_bytes s l, stayEntry_bytes s⟩
  · refine ⟨s.entryImage_gate, fun l => ?_, fun n v h b => ?_, fun i => ?_, rfl, ?_, ?_, s.entryImage_none,
      readerImage_bytes s, s.left_exact, s.left_rounded⟩
    · exact (s.entryImage_lane l).trans (congrArg some (laneImage_bytes _))
    · rcases h with ⟨rfl, rfl⟩ | ⟨rfl, rfl⟩
      · exact s.entryImage_bandActive b
      · exact s.entryImage_bandStaging b
    · exact (s.entryImage_induct i).trans (congrArg some (inductImage_bytes s i))
    · exact congrArg some (driveImage_bytes s)
    · exact congrArg some (throttleImage_bytes s)

end Sys2Proof.Machine
end

section
/-! PROOFS. The lanes' bounds (R33), the choice of a lane for an order (R26, R27) and the band of a ticket (R24). -/

namespace Sys2Proof.Machine

/-! ## The lanes' bounds -/

/-- Settles O55, from what every event keeps and what a power-on leaves. -/
theorem laneBoundsKept : Obligations.LaneBoundsKept := by
  intro s t bounds h
  obtain ⟨p, n, c, k⟩ | ⟨p, c, rfl⟩ := step_cases h
  · exact k.lanes bounds
  · exact poweredOn_laneBounds p c

/-! ## The lowest index of which a test holds -/

/-- A search of a table in rising order finds the lowest index of which the test holds. -/
theorem find?_finRange_eq_some_iff {n : Nat} (p : Fin n → Bool) (i : Fin n) :
    (List.finRange n).find? p = some i ↔ p i = true ∧ ∀ h < i, p h = false := by
  rw [List.find?_eq_some_iff_getElem]
  constructor
  · rintro ⟨h, j, lt, rfl, low⟩
    refine ⟨h, fun m c => ?_⟩
    rw [List.getElem_finRange] at c
    simpa using low m.val c
  · rintro ⟨h, low⟩
    exact ⟨h, i.val, by simp, by simp, fun j c => by simpa using low ⟨j, by omega⟩ c⟩

theorem allLanes_eq : allLanes = List.finRange 12 := by decide

theorem allBands_eq : allBands = List.finRange 8 := by decide

/-! ## Assignment (R26, R27) -/

/-- R26: a lane of the band's set that is present and has the capacity. -/
abbrev State.fits (s : State) (b : BandEntry) (n : Nat) (l : LaneIx) : Prop :=
  b.laneSet.getLsbD l.val = true ∧ (s.laneCfg l).capacity ≠ 0 ∧ n ≤ (s.laneCfg l).capacity

theorem State.oversize_iff (s : State) (b : BandEntry) (n : Nat) : s.oversize b n = true ↔ ∀ l, ¬s.fits b n l := by
  simp [State.oversize, allLanes_mem, BandEntry.holds, State.lanePresent, LaneEntry.present]

/-- R27: the conditions of a candidate. -/
theorem State.candidate_iff (s : State) (b : BandEntry) (n : Nat) (l : LaneIx) :
    s.candidate b n l = true ↔
      b.laneSet.getLsbD l.val = true ∧ (s.laneCfg l).capacity ≠ 0 ∧ s.laneOpen l = true ∧
        (s.laneCfg l).take = true ∧ s.overbooked l = false ∧ (n : Int) ≤ s.free l := by
  simp [State.candidate, BandEntry.holds, State.lanePresent, LaneEntry.present, and_assoc]

/-- R27: the better of the best lane so far and the next lane. -/
def State.roomier (s : State) (best : Option LaneIx) (l : LaneIx) : Option LaneIx :=
  match best with
  | none => some l
  | some m => if s.free m < s.free l then some l else some m

theorem State.roomiest_eq_foldl (s : State) (ls : List LaneIx) : s.roomiest ls = ls.foldl s.roomier none := rfl

/-- Lanes with less free than l leave no best lane that l does not beat. -/
theorem State.roomier_below {s : State} {l : LaneIx} (u : List LaneIx) (h : ∀ m ∈ u, s.free m < s.free l)
    (best : Option LaneIx) (b : ∀ m, best = some m → s.free m < s.free l) :
    s.roomier (u.foldl s.roomier best) l = some l := by
  induction u generalizing best with
  | nil =>
    cases best with
    | none => rfl
    | some m => exact if_pos (b m rfl)
  | cons x r ih =>
    refine ih (fun m hm => h m (List.mem_cons_of_mem _ hm)) _ (fun m e => ?_)
    have hx := h x List.mem_cons_self
    cases best with
    | none => cases e; exact hx
    | some y =>
      replace e : (if s.free y < s.free x then some x else some y) = some m := e
      split_ifs at e <;> cases e
      · exact hx
      · exact b _ rfl

/-- Lanes with no more free than the best lane do not take its place. -/
theorem State.roomier_stays {s : State} {l : LaneIx} (v : List LaneIx) (h : ∀ m ∈ v, s.free m ≤ s.free l) :
    v.foldl s.roomier (some l) = some l := by
  induction v with
  | nil => rfl
  | cons x r ih =>
    have e : s.roomier (some l) x = some l := if_neg (not_lt.2 (h x List.mem_cons_self))
    rw [List.foldl_cons, e]
    exact ih (fun m hm => h m (List.mem_cons_of_mem _ hm))

/-- R27, SPREAD: of lanes in rising order, the lowest of those with the greatest free. -/
theorem State.roomiest_eq_some {s : State} {ls : List LaneIx} {l : LaneIx} (rising : ls.Pairwise (· < ·)) (m : l ∈ ls)
    (best : ∀ m ∈ ls, s.free m < s.free l ∨ (s.free m = s.free l ∧ l ≤ m)) : s.roomiest ls = some l := by
  obtain ⟨u, v, rfl⟩ := List.append_of_mem m
  have before : ∀ m ∈ u, s.free m < s.free l := fun m hm => by
    have lt : m < l := (List.pairwise_append.1 rising).2.2 m hm l List.mem_cons_self
    rcases best m (List.mem_append_left _ hm) with less | ⟨-, le⟩
    · exact less
    · exact absurd lt (not_lt.2 le)
  have after : ∀ m ∈ v, s.free m ≤ s.free l := fun m hm => by
    rcases best m (List.mem_append_right _ (List.mem_cons_of_mem _ hm)) with less | ⟨eq, -⟩
    · exact le_of_lt less
    · exact le_of_eq eq
  rw [State.roomiest_eq_foldl, List.foldl_append, List.foldl_cons,
    State.roomier_below u before none (fun m e => by cases e), State.roomier_stays v after]

/-- The candidates in rising order. -/
abbrev State.candidates (s : State) (b : BandEntry) (n : Nat) : List LaneIx := allLanes.filter (s.candidate b n)

theorem State.chooseLane_of_fixed {b : BandEntry} (h : b.method = .fixed) (s : State) (n : Nat) :
    s.chooseLane b n = (s.candidates b n).head? := by
  unfold State.chooseLane; rw [h]

theorem State.chooseLane_of_spread {b : BandEntry} (h : b.method = .spread) (s : State) (n : Nat) :
    s.chooseLane b n = s.roomiest (s.candidates b n) := by
  unfold State.chooseLane; rw [h]

theorem State.chooseLane_none {s : State} {b : BandEntry} {n : Nat} (h : ∀ l, s.candidate b n l = false) :
    s.chooseLane b n = none := by
  have e : s.candidates b n = [] := List.filter_eq_nil_iff.2 (fun l _ => by simp [h l])
  cases m : b.method with
  | fixed => rw [State.chooseLane_of_fixed m, e]; rfl
  | spread => rw [State.chooseLane_of_spread m, e]; rfl

theorem State.chooseLane_fixed {s : State} {b : BandEntry} {n : Nat} {l : LaneIx} (fixed : b.method = .fixed)
    (c : s.candidate b n l = true) (low : ∀ m, s.candidate b n m = true → l ≤ m) : s.chooseLane b n = some l := by
  rw [State.chooseLane_of_fixed fixed, List.head?_filter, allLanes_eq, find?_finRange_eq_some_iff]
  exact ⟨c, fun m lt => Bool.eq_false_iff.2 (fun h => absurd lt (not_lt.2 (low m h)))⟩

theorem State.chooseLane_spread {s : State} {b : BandEntry} {n : Nat} {l : LaneIx} (spread : b.method = .spread)
    (c : s.candidate b n l = true)
    (best : ∀ m, s.candidate b n m = true → s.free m < s.free l ∨ (s.free m = s.free l ∧ l ≤ m)) :
    s.chooseLane b n = some l := by
  have rising : (s.candidates b n).Pairwise (· < ·) := by
    refine List.Pairwise.filter _ ?_
    rw [allLanes_eq]
    exact List.pairwise_lt_finRange 12
  rw [State.chooseLane_of_spread spread]
  exact State.roomiest_eq_some rising (List.mem_filter.2 ⟨allLanes_mem l, c⟩) (fun m hm => best m (List.mem_filter.1 hm).2)

/-- R26, R27: an attempt for an UNASSIGNED order that has a band. -/
theorem State.attempt_eq {s : State} {k : OrderSlot} {o : Order} {bx : BandIx} (h : s.order? k = some o)
    (u : o.state = .unassigned) (hb : o.band = some bx) :
    s.attempt k =
      if s.oversize (row s.cfg.bandActive bx) o.remaining = true then s.enterWillcall k .oversize
      else (s.chooseLane (row s.cfg.bandActive bx) o.remaining).elim s (s.routeTo k) := by
  unfold State.attempt
  simp only [h, u, hb]
  split_ifs
  · rfl
  · cases s.chooseLane (row s.cfg.bandActive bx) o.remaining <;> rfl

/-- Settles O20: the test of OVERSIZE, and the lane chosen by each method. -/
theorem assignmentChoice : Obligations.AssignmentChoice := by
  intro s k o bx h u hb b n fits cand
  have attempt : s.attempt k = if s.oversize b n = true then s.enterWillcall k .oversize
      else (s.chooseLane b n).elim s (s.routeTo k) := State.attempt_eq h u hb
  have candidate : ∀ l, s.candidate b n l = true ↔ cand l := s.candidate_iff b n
  refine ⟨fun none => ?_, fun some => ?_⟩
  · exact attempt.trans (if_pos ((s.oversize_iff b n).2 none))
  · obtain ⟨l, fit⟩ := some
    have chosen := attempt.trans (if_neg (fun e => (s.oversize_iff b n).1 e l fit))
    have routes : ∀ l, s.chooseLane b n = some l → s.attempt k = s.routeTo k l := fun l e => by rw [chosen, e]; rfl
    refine ⟨fun none => ?_, fun l c => ⟨fun fixed low => routes l ?_, fun spread best => routes l ?_⟩⟩
    · rw [chosen, State.chooseLane_none (fun l => Bool.eq_false_iff.2 (fun c => none l ((candidate l).1 c)))]
      rfl
    · exact State.chooseLane_fixed fixed ((candidate l).2 c) (fun m d => low m ((candidate m).1 d))
    · exact State.chooseLane_spread spread ((candidate l).2 c) (fun m d => best m ((candidate m).1 d))

/-! ## The band of a ticket (R24) -/

theorem bandOf_eq_some_iff (bands : Vector BandEntry 8) (t : Nat) (k : BandIx) :
    bandOf bands t = some k ↔ t ≤ (row bands k).upper ∧ ∀ j < k, (row bands j).upper < t := by
  unfold bandOf
  rw [allBands_eq, find?_finRange_eq_some_iff]
  simp

theorem bandOf_eq_none_iff (bands : Vector BandEntry 8) (t : Nat) :
    bandOf bands t = none ↔ ∀ j : BandIx, (row bands j).upper < t := by
  unfold bandOf
  rw [allBands_eq, List.find?_eq_none]
  simp

theorem BandIx.sub_one_lt {k : BandIx} (h : k ≠ 0) : k - 1 < k := by
  revert h; revert k; decide

theorem BandIx.le_sub_one {j k : BandIx} (h : j < k) : j ≤ k - 1 := by
  revert h; revert j k; decide

/-- Settles O32: in a copy that does not fall the bound before a band is the highest bound below it. -/
theorem bandOfTicket : Obligations.BandOfTicket := by
  intro bands t rising
  refine ⟨fun k => ?_, ?_⟩
  · rw [bandOf_eq_some_iff, and_congr_right_iff]
    intro _
    constructor
    · intro below
      by_cases first : k = 0
      · exact .inl first
      · exact .inr (below _ (BandIx.sub_one_lt first))
    · rintro (rfl | prior) j lt
      · exact absurd lt (Fin.not_lt_zero j)
      · exact lt_of_le_of_lt (rising j (k - 1) (BandIx.le_sub_one lt)) prior
  · rw [bandOf_eq_none_iff]
    exact ⟨fun all => all 7, fun last j => lt_of_le_of_lt (rising j 7 (Fin.le_last j)) last⟩

end Sys2Proof.Machine
end

section
/-! PROOFS. Writes to the tables of configuration (R23, R29, R30, R38, R152, R171, R172): the ranges of their fields,
the entry that an image gives, and what an accepted write does. -/

namespace Sys2Proof.Machine

/-! ## The ranges of fields -/

theorem firstBad_cons (n : Nat) (b : Bool) (r : List Bool) :
    firstBad n (b :: r) = if b = false then some n else firstBad (n + 1) r := by
  cases b <;> rfl

theorem inRange_eq_false_iff (lo hi n : Nat) : inRange lo hi n = false ↔ n < lo ∨ hi < n := by
  rw [← Bool.not_eq_true, inRange_iff]
  omega

theorem isStation_eq_false_iff (n : Nat) : isStation n = false ↔ n < 3 ∨ 62 < n := inRange_eq_false_iff 3 62 n

theorem isYesNo_eq_false_iff (n : Nat) : isYesNo n = false ↔ 1 < n := by simp [isYesNo]

theorem yes_iff (n : Nat) : yes n = true ↔ n = 1 := by simp [yes]

/-- R23. -/
theorem firstBad_bandChecks (p : List Byte) :
    firstBad 1 (bandChecks p) =
      if 9999 < wordAt p 0 then some 1
      else if 4096 ≤ wordAt p 2 then some 2
      else if 1 < byteAt p 4 then some 3
      else if byteAt p 5 < 1 ∨ 120 < byteAt p 5 then some 4
      else none := by
  simp only [bandChecks, firstBad_cons, decide_eq_false_iff_not, not_le, not_lt, inRange_eq_false_iff]
  rfl

/-- R152. -/
theorem firstBad_driveChecks (p : List Byte) :
    firstBad 1 (driveChecks p) =
      if byteAt p 0 < 3 ∨ 62 < byteAt p 0 then some 1
      else if wordAt p 1 < 10 ∨ 3600 < wordAt p 1 then some 2
      else if wordAt p 3 < 100 ∨ 10000 < wordAt p 3 then some 3
      else if wordAt p 5 < 100 ∨ 10000 < wordAt p 5 then some 4
      else none := by
  simp only [driveChecks, firstBad_cons, isStation_eq_false_iff, inRange_eq_false_iff]
  rfl

/-- R29: a capacity is 0 or 2 to 8. -/
theorem capacityCheck_eq_false_iff (n : Nat) : (n == 0 || inRange 2 8 n) = false ↔ n = 1 ∨ 8 < n := by
  rw [Bool.or_eq_false_iff, inRange_eq_false_iff, beq_eq_false_iff_ne]
  omega

/-- R29: an alternate is none or another lane. -/
theorem alternateCheck_eq_false_iff (n l : Nat) :
    (n == 255 || (n ≤ 11 && n != l)) = false ↔ n ≠ 255 ∧ (11 < n ∨ n = l) := by
  rw [Bool.or_eq_false_iff, Bool.and_eq_false_iff, beq_eq_false_iff_ne, decide_eq_false_iff_not, not_le, bne_eq_false_iff_eq]

/-- R29. -/
theorem firstBad_laneChecks (l : LaneIx) (p : List Byte) :
    firstBad 1 (laneChecks l p) =
      if byteAt p 0 = 1 ∨ 8 < byteAt p 0 then some 1
      else if 1 < byteAt p 1 then some 2
      else if 1 < byteAt p 2 then some 3
      else if byteAt p 3 ≠ 255 ∧ (11 < byteAt p 3 ∨ byteAt p 3 = l.val) then some 4
      else if byteAt p 4 < 3 ∨ 62 < byteAt p 4 then some 5
      else if wordAt p 5 < 200 ∨ 5000 < wordAt p 5 then some 6
      else if wordAt p 7 < 200 ∨ 5000 < wordAt p 7 then some 7
      else if wordAt p 9 < 500 ∨ 10000 < wordAt p 9 then some 8
      else if wordAt p 11 < 10 ∨ 600 < wordAt p 11 then some 9
      else if 1 < byteAt p 13 then some 10
      else if 1 < byteAt p 14 then some 11
      else none := by
  simp only [laneChecks, firstBad_cons, capacityCheck_eq_false_iff, isYesNo_eq_false_iff, alternateCheck_eq_false_iff,
    isStation_eq_false_iff, inRange_eq_false_iff, decide_eq_false_iff_not, not_le]
  rfl

/-! ## The entry that an image gives -/

theorem bandOfImage_laneSet (p : List Byte) (l : LaneIx) :
    (bandOfImage p).laneSet.getLsbD l.val = (wordAt p 2).testBit l.val := by
  show (BitVec.ofNat 12 (wordAt p 2)).getLsbD l.val = _
  rw [BitVec.getLsbD_ofNat]
  simp

theorem bandOfImage_method {p : List Byte} (h : byteAt p 4 ≤ 1) : (bandOfImage p).method.code.toNat = byteAt p 4 := by
  have two : byteAt p 4 = 0 ∨ byteAt p 4 = 1 := by omega
  unfold bandOfImage
  rcases two with e | e <;> rw [e] <;> rfl

theorem laneOfImage_action {p : List Byte} (h : byteAt p 13 ≤ 1) :
    (laneOfImage p).unattendedAction.code.toNat = byteAt p 13 := by
  have two : byteAt p 13 = 0 ∨ byteAt p 13 = 1 := by omega
  unfold laneOfImage
  rcases two with e | e <;> rw [e] <;> rfl

theorem laneOfImage_noAlternate {p : List Byte} (h : byteAt p 3 = 255) : (laneOfImage p).alternate = none := if_pos h

theorem laneOfImage_alternate {p : List Byte} {a : LaneIx} (h : byteAt p 3 = a.val) :
    (laneOfImage p).alternate = some a := by
  have lt := a.isLt
  have e : (laneOfImage p).alternate = some (laneIx (byteAt p 3)) := if_neg (by omega)
  rw [e, h, laneIx_val]

/-! ## The checks of a write (R172) -/

theorem entryChecks_outside (s : State) (checks : List Bool) (locked : Bool) (own : Reply) :
    entryChecks s false checks locked own = ⟨s, .range, []⟩ := rfl

theorem entryChecks_range {checks : List Bool} {n : Nat} (h : firstBad 1 checks = some n) (s : State) (locked : Bool)
    (own : Reply) : entryChecks s true checks locked own = ⟨s, .range, [byte n]⟩ := by
  simp only [entryChecks, h, Bool.not_true, Bool.false_eq_true, if_false]

theorem entryChecks_locked {checks : List Bool} (h : firstBad 1 checks = none) (s : State) (own : Reply) :
    entryChecks s true checks true own = ⟨s.raise .lockedWrite, .locked, []⟩ := by
  simp only [entryChecks, h, Bool.not_true, Bool.false_eq_true, if_false, if_true]
  rfl

theorem entryChecks_own {checks : List Bool} (h : firstBad 1 checks = none) (s : State) (own : Reply) :
    entryChecks s true checks false own = own := by
  simp only [entryChecks, h, Bool.not_true, Bool.false_eq_true, if_false]

/-! ## BAND-STAGING, DRIVE and the tables that are read only -/

theorem exec_writeBand {s : State} {r : Request} {rest : List Request} {b : BandIx}
    (h : AskedWell s .writeEntryBandStaging r rest) (i : r.index = b.val) :
    exec .writeEntryBandStaging s =
      match firstBad 1 (bandChecks r.image) with
      | some n => answered s r (s.popRequest rest) .range [byte n]
      | none =>
        if s.req.lock = true then answered s r ((s.popRequest rest).raise .lockedWrite) .locked []
        else answered s r
          { s.popRequest rest with
            cfg := { s.cfg with bandStaging := setRow s.cfg.bandStaging b (bandOfImage r.image) } } .ok [] := by
  have inTable : decide (r.index < 8) = true := by simp [i]
  have reply : replyWriteBand r (s.popRequest rest) =
      entryChecks (s.popRequest rest) true (bandChecks r.image) s.req.lock
        ⟨{ s.popRequest rest with
            cfg := { s.cfg with bandStaging := setRow s.cfg.bandStaging b (bandOfImage r.image) } }, .ok, []⟩ := by
    unfold replyWriteBand
    rw [inTable, i, bandIx_val]
    rfl
  split
  · rename_i n bad
    exact exec_replied rfl h (reply.trans (entryChecks_range bad _ _ _))
  · rename_i good
    split_ifs with locked
    · rw [locked] at reply
      exact exec_replied rfl h (reply.trans (entryChecks_locked good _ _))
    · rw [Bool.eq_false_iff.2 locked] at reply
      exact exec_replied rfl h (reply.trans (entryChecks_own good _ _))

theorem exec_writeBand_range {s : State} {r : Request} {rest : List Request}
    (h : AskedWell s .writeEntryBandStaging r rest) (i : 8 ≤ r.index) :
    exec .writeEntryBandStaging s = answered s r (s.popRequest rest) .range [] := by
  have outside : decide (r.index < 8) = false := by simp [i]
  refine exec_replied rfl h ?_
  unfold replyWriteBand
  rw [outside]
  exact entryChecks_outside _ _ _ _

theorem exec_writeDrive {s : State} {r : Request} {rest : List Request} (h : AskedWell s .writeEntryDrive r rest) :
    exec .writeEntryDrive s =
      if r.index ≠ 0 then answered s r (s.popRequest rest) .range []
      else match firstBad 1 (driveChecks r.image) with
        | some n => answered s r (s.popRequest rest) .range [byte n]
        | none =>
          if s.req.lock = true then answered s r ((s.popRequest rest).raise .lockedWrite) .locked []
          else if s.trackRuns = true ∧ (driveOfImage r.image).station ≠ s.cfg.drive.station then
            answered s r (s.popRequest rest) .state []
          else answered s r { s.popRequest rest with cfg := { s.cfg with drive := driveOfImage r.image } } .ok [] := by
  have reply : replyWriteDrive r (s.popRequest rest) =
      entryChecks (s.popRequest rest) (r.index == 0) (driveChecks r.image) s.req.lock
        (if s.trackRuns = true ∧ (driveOfImage r.image).station ≠ s.cfg.drive.station then
          ⟨s.popRequest rest, .state, []⟩
        else ⟨{ s.popRequest rest with cfg := { s.cfg with drive := driveOfImage r.image } }, .ok, []⟩) := by
    have moves : (s.trackRuns && (driveOfImage r.image).station != s.cfg.drive.station) = true ↔
        s.trackRuns = true ∧ (driveOfImage r.image).station ≠ s.cfg.drive.station := by simp
    simp only [← moves]
    rfl
  by_cases i : r.index = 0
  · rw [if_neg (not_not.2 i)]
    rw [beq_iff_eq.2 i] at reply
    split
    · rename_i n bad
      exact exec_replied rfl h (reply.trans (entryChecks_range bad _ _ _))
    · rename_i good
      split_ifs with locked moves
      · rw [locked] at reply
        exact exec_replied rfl h (reply.trans (entryChecks_locked good _ _))
      · rw [Bool.eq_false_iff.2 locked] at reply
        exact exec_replied rfl h (reply.trans ((entryChecks_own good _ _).trans (if_pos moves)))
      · rw [Bool.eq_false_iff.2 locked] at reply
        exact exec_replied rfl h (reply.trans ((entryChecks_own good _ _).trans (if_neg moves)))
  · rw [if_pos i]
    rw [beq_eq_false_iff_ne.2 i] at reply
    exact exec_replied rfl h (reply.trans (entryChecks_outside _ _ _ _))

theorem writeEntryCommand_readOnly {n : Nat} (h : writeEntryCommand n = .writeEntryReadOnlyTable) : n = 3 ∨ n = 9 := by
  unfold writeEntryCommand at h
  split at h <;> simp_all

theorem controlCommand_ne_readOnly (n : Nat) : controlCommand n ≠ .writeEntryReadOnlyTable := by
  unfold controlCommand
  split <;> simp

/-- 11.3: the tables that are read only. -/
theorem requestCommand_readOnly {r : Request} (h : requestCommand r = .writeEntryReadOnlyTable) :
    byteAt r.args 0 = 3 ∨ byteAt r.args 0 = 9 := by
  unfold requestCommand at h
  split at h
  case h_10 => split_ifs at h
  case h_11 => exact writeEntryCommand_readOnly h
  case h_13 => exact absurd h (controlCommand_ne_readOnly _)
  case h_16 => split_ifs at h
  all_goals cases h

theorem replyWriteReadOnly_state {r : Request} (h : r.index < if byteAt r.args 0 = 3 then 8 else 34) (s : State) :
    replyWriteReadOnly r s = ⟨s, .state, []⟩ := if_pos h

theorem replyWriteReadOnly_range {r : Request} (h : ¬r.index < if byteAt r.args 0 = 3 then 8 else 34) (s : State) :
    replyWriteReadOnly r s = ⟨s, .range, []⟩ := if_neg h

theorem exec_writeReadOnly {s : State} {r : Request} {rest : List Request}
    (h : AskedWell s .writeEntryReadOnlyTable r rest) :
    exec .writeEntryReadOnlyTable s =
      if (byteAt r.args 0 = 3 ∧ r.index < 8) ∨ (byteAt r.args 0 = 9 ∧ r.index < 34) then
        answered s r (s.popRequest rest) .state []
      else answered s r (s.popRequest rest) .range [] := by
  have inTable : r.index < (if byteAt r.args 0 = 3 then 8 else 34) ↔
      (byteAt r.args 0 = 3 ∧ r.index < 8) ∨ (byteAt r.args 0 = 9 ∧ r.index < 34) := by
    rcases requestCommand_readOnly h.1.2.2 with e | e <;> simp [e]
  split
  · rename_i lt
    exact exec_replied rfl h (replyWriteReadOnly_state (inTable.2 lt) _)
  · rename_i ge
    exact exec_replied rfl h (replyWriteReadOnly_range (mt inTable.1 ge) _)

/-- Settles O40: the ranges and entries of the two images, and each write by its checks. -/
theorem bandDriveAndReadOnlyWrites : Obligations.BandDriveAndReadOnlyWrites := by
  refine ⟨fun p => ?_, fun s r rest => ⟨fun h => ⟨exec_writeBand_range h, fun _ => exec_writeBand h⟩,
    exec_writeDrive, exec_writeReadOnly⟩⟩
  exact ⟨firstBad_bandChecks p, rfl, bandOfImage_laneSet p, bandOfImage_method, rfl, firstBad_driveChecks p, rfl⟩

/-! ## LANE -/

/-- R57: a head reader whose window is open, or whose SCAN is pending, starts again from WAIT. -/
theorem State.writtenHead_restarts {s : State} {l : LaneIx}
    (h : (s.reader (headReader l)).cycle = .opened ∨
      ((s.reader (headReader l)).cycle = .wait ∧ (s.reader (headReader l)).scanPending = true)) :
    s.writtenHead l = s.startScan l := if_pos h

theorem State.writtenHead_stands {s : State} {l : LaneIx}
    (h : ¬((s.reader (headReader l)).cycle = .opened ∨
      ((s.reader (headReader l)).cycle = .wait ∧ (s.reader (headReader l)).scanPending = true))) :
    s.writtenHead l = s := if_neg h

/-- R38: a lane write that would change more than TAKE and GIVE. -/
theorem LaneEntry.onlyTakeGive_iff (d e : LaneEntry) :
    d.onlyTakeGive e = true ↔ ¬{ e with take := d.take, give := d.give } ≠ d := by
  simp [LaneEntry.onlyTakeGive]

/-- R30: the capacity of a lane in use does not change. -/
theorem State.mayResize_iff (s : State) (l : LaneIx) :
    s.mayResize l = true ↔
      ¬(s.laneOpen l = true ∧ ((s.lane l).queue ≠ [] ∨ (s.lane l).incoming ≠ [] ∨ s.book l ≠ [])) := by
  simp [State.mayResize, or_iff_not_imp_left]
  tauto

theorem State.resizeLane_stays (s : State) (l : LaneIx) (b : Bool) : s.resizeLane l b b = s.writtenHead l := by
  cases b <;> rfl

/-- R30, R43, R54, R58: a lane made absent or present starts UNSURVEYED, and its head reader IDLE, fresh where the
lane is there now. -/
theorem State.resizeLane_changes {was is : Bool} (h : was ≠ is) (s : State) (l : LaneIx) :
    s.resizeLane l was is =
      { s with
        lanes := setRow s.lanes l
          ⟨.unsurveyed, [], [], .held, none, none, 0, [], .stopped, false, (s.lane l).lamp, (s.lane l).display⟩
        readers := setRow s.readers (headReader l)
          { (s.reader (headReader l)).toIdle with fresh := (s.reader (headReader l)).fresh || is } } := by
  cases was <;> cases is
  · exact absurd rfl h
  · show (State.freshen _ _) = _
    unfold State.freshen State.abandon
    rw [State.reader_putReader_same, State.putReader_putReader]
    simp only [Bool.or_true]
    rfl
  · simp only [Bool.or_false]
    rfl
  · exact absurd rfl h

theorem LaneEntry.present_eq_true_iff (e : LaneEntry) : e.present = true ↔ e.capacity ≠ 0 := by simp [LaneEntry.present]

theorem LaneEntry.present_eq_false_iff (e : LaneEntry) : e.present = false ↔ e.capacity = 0 := by simp [LaneEntry.present]

/-- The state with the entry of lane l written. -/
abbrev State.withLaneEntry (s : State) (l : LaneIx) (e : LaneEntry) : State :=
  { s with cfg := { s.cfg with lanes := setRow s.cfg.lanes l e } }

theorem replyWriteLane_at {r : Request} {l : LaneIx} (i : r.index = l.val) (s : State) :
    replyWriteLane r s =
      entryChecks s true (laneChecks l r.image) (s.req.lock && !(s.laneCfg l).onlyTakeGive (laneOfImage r.image))
        (if (laneOfImage r.image).capacity != (s.laneCfg l).capacity && !s.mayResize l then ⟨s, .busy, []⟩
         else ⟨settleLanes s (s.writeLane l (laneOfImage r.image)), .ok, []⟩) := by
  have inTable : decide (r.index < 12) = true := by simp [i]
  unfold replyWriteLane
  rw [inTable, i, laneIx_val]
  rfl

theorem exec_writeLane_range {s : State} {r : Request} {rest : List Request}
    (h : AskedWell s .writeEntryLane r rest) (i : 12 ≤ r.index) :
    exec .writeEntryLane s = answered s r (s.popRequest rest) .range [] := by
  have outside : decide (r.index < 12) = false := by simp [i]
  refine exec_replied rfl h ?_
  unfold replyWriteLane
  rw [outside]
  exact entryChecks_outside _ _ _ _

/-- The write of a lane that passes the checks of its fields and the lock. -/
theorem exec_writeLane_own {s : State} {r : Request} {rest : List Request} {l : LaneIx}
    (h : AskedWell s .writeEntryLane r rest) (i : r.index = l.val) (good : firstBad 1 (laneChecks l r.image) = none)
    (free : s.req.lock = false ∨ (s.laneCfg l).onlyTakeGive (laneOfImage r.image) = true) {u : State} {x : Status}
    (own : (if (laneOfImage r.image).capacity != (s.laneCfg l).capacity && !s.mayResize l then
        (⟨s.popRequest rest, .busy, []⟩ : Reply)
      else ⟨settleLanes (s.popRequest rest) ((s.popRequest rest).writeLane l (laneOfImage r.image)), .ok, []⟩) =
        ⟨u, x, []⟩) :
    exec .writeEntryLane s = answered s r u x [] := by
  have unlocked : (s.req.lock && !(s.laneCfg l).onlyTakeGive (laneOfImage r.image)) = false := by
    rcases free with e | e <;> simp [e]
  refine exec_replied rfl h ((replyWriteLane_at i (s.popRequest rest)).trans ?_)
  exact (congrArg (fun b => entryChecks _ true _ b _) unlocked).trans ((entryChecks_own good _ _).trans own)

theorem exec_writeLane_done {s : State} {r : Request} {rest : List Request} {l : LaneIx}
    (h : AskedWell s .writeEntryLane r rest) (i : r.index = l.val) (good : firstBad 1 (laneChecks l r.image) = none)
    (free : s.req.lock = false ∨ (s.laneCfg l).onlyTakeGive (laneOfImage r.image) = true)
    (resize : (laneOfImage r.image).capacity = (s.laneCfg l).capacity ∨ s.mayResize l = true) :
    exec .writeEntryLane s = answered s r (settleLanes (s.popRequest rest)
      (((s.popRequest rest).withLaneEntry l (laneOfImage r.image)).resizeLane l (s.laneCfg l).present
        (laneOfImage r.image).present)) .ok [] := by
  have stands : ((laneOfImage r.image).capacity != (s.laneCfg l).capacity && !s.mayResize l) = false := by
    rcases resize with e | e <;> simp [e]
  exact exec_writeLane_own h i good free (if_neg (Bool.eq_false_iff.1 stands))

/-- Settles O39: the ranges and the entry of the image, the head reader, and the write by its checks and by what it
makes of the lane. -/
theorem laneWrite : Obligations.LaneWrite := by
  refine ⟨fun p l => ?_, fun s l => ⟨State.writtenHead_restarts, State.writtenHead_stands⟩,
    fun s r rest h => exec_writeLane_range h, fun s r rest l h i => ⟨fun n bad => ?_, fun good => ?_⟩⟩
  · exact ⟨firstBad_laneChecks l p, rfl, yes_iff _, yes_iff _, laneOfImage_noAlternate, fun a => laneOfImage_alternate,
      rfl, rfl, rfl, rfl, rfl, laneOfImage_action, yes_iff _⟩
  · exact exec_replied rfl h ((replyWriteLane_at i _).trans (entryChecks_range bad _ _ _))
  · refine ⟨fun locked other => ?_, fun free => ⟨fun resized used => ?_, fun resize => ?_⟩⟩
    · have refused : ((s.popRequest rest).req.lock &&
          !((s.popRequest rest).laneCfg l).onlyTakeGive (laneOfImage r.image)) = true := by
        rw [Bool.and_eq_true, Bool.not_eq_true', ← Bool.not_eq_true, LaneEntry.onlyTakeGive_iff, not_not]
        exact ⟨locked, other⟩
      refine exec_replied rfl h ((replyWriteLane_at i _).trans ?_)
      rw [refused]
      exact entryChecks_locked good _ _
    · rw [← LaneEntry.onlyTakeGive_iff] at free
      refine exec_writeLane_own h i good free (if_pos ?_)
      rw [Bool.and_eq_true, Bool.not_eq_true', ← Bool.not_eq_true, State.mayResize_iff, not_not, bne_iff_ne]
      exact ⟨resized, used⟩
    · rw [← LaneEntry.onlyTakeGive_iff] at free
      rw [← State.mayResize_iff] at resize
      have event := exec_writeLane_done h i good free resize
      refine ⟨fun was is => ?_, fun was is => ?_, fun changes => ?_⟩
      · rwa [(LaneEntry.present_eq_true_iff _).2 was, (LaneEntry.present_eq_true_iff _).2 is,
          State.resizeLane_stays] at event
      · rwa [(LaneEntry.present_eq_false_iff _).2 was, (LaneEntry.present_eq_false_iff _).2 is,
          State.resizeLane_stays] at event
      · have ne : (s.laneCfg l).present ≠ (laneOfImage r.image).present := by
          unfold LaneEntry.present
          rcases changes with ⟨was, is⟩ | ⟨was, is⟩ <;> simp [was, is]
        rwa [State.resizeLane_changes ne] at event

end Sys2Proof.Machine
end

section
/-! PROOFS. COMMIT-BANDS (R25): its checks, and what the banding of the orders anew leaves, record by record. -/

namespace Sys2Proof.Machine

/-! ## The checks -/

/-- R25 check 1: the staging copy falls at a band. -/
abbrev FallsAt (v : Vector BandEntry 8) (b : BandIx) : Prop := b ≠ 0 ∧ (row v b).upper < (row v (b - 1)).upper

/-- R25 check 2: a band that covers a ticket has no lane. -/
abbrev BareAt (v : Vector BandEntry 8) (b : BandIx) : Prop :=
  (b = 0 ∨ (row v (b - 1)).upper < (row v b).upper) ∧ (row v b).laneSet = 0

theorem priorBand_eq {b : BandIx} (h : b ≠ 0) : priorBand b = b - 1 := by
  revert h; revert b; decide

theorem bandFalls_iff (v : Vector BandEntry 8) (b : BandIx) : bandFalls v b = true ↔ FallsAt v b := by
  by_cases h : b = 0
  · simp [bandFalls, FallsAt, h]
  · simp [bandFalls, FallsAt, h, priorBand_eq]

theorem bandWithoutLanes_iff (v : Vector BandEntry 8) (b : BandIx) : bandWithoutLanes v b = true ↔ BareAt v b := by
  by_cases h : b = 0
  · simp [bandWithoutLanes, bandCovers, BareAt, h]
  · simp [bandWithoutLanes, bandCovers, BareAt, h, priorBand_eq]

/-- The first band of which a test holds. -/
theorem find?_allBands_some {p : BandIx → Bool} {P : BandIx → Prop} (h : ∀ b, p b = true ↔ P b) {b : BandIx} (at_ : P b)
    (low : ∀ a < b, ¬P a) : allBands.find? p = some b := by
  rw [allBands_eq, find?_finRange_eq_some_iff]
  exact ⟨(h b).2 at_, fun a lt => Bool.eq_false_iff.2 (fun e => low a lt ((h a).1 e))⟩

theorem find?_allBands_none {p : BandIx → Bool} {P : BandIx → Prop} (h : ∀ b, p b = true ↔ P b) (no : ∀ b, ¬P b) :
    allBands.find? p = none :=
  List.find?_eq_none.2 (fun b _ e => no b ((h b).1 e))

theorem bandFault_falls {v : Vector BandEntry 8} {b : BandIx} (at_ : FallsAt v b) (low : ∀ a < b, ¬FallsAt v a) :
    bandFault v = some (0x01#8, b) := by
  unfold bandFault
  rw [find?_allBands_some (bandFalls_iff v) at_ low]

theorem bandFault_bare {v : Vector BandEntry 8} {b : BandIx} (rising : ∀ a, ¬FallsAt v a) (at_ : BareAt v b)
    (low : ∀ a < b, ¬BareAt v a) : bandFault v = some (0x02#8, b) := by
  unfold bandFault
  rw [find?_allBands_none (bandFalls_iff v) rising, find?_allBands_some (bandWithoutLanes_iff v) at_ low]
  rfl

theorem bandFault_none {v : Vector BandEntry 8} (rising : ∀ a, ¬FallsAt v a) (laned : ∀ a, ¬BareAt v a) :
    bandFault v = none := by
  unfold bandFault
  rw [find?_allBands_none (bandFalls_iff v) rising, find?_allBands_none (bandWithoutLanes_iff v) laned]
  rfl

theorem replyCommitBands_locked {s : State} (h : s.req.lock = true) (r : Request) :
    replyCommitBands r s = ⟨s.raise .lockedWrite, .locked, []⟩ := if_pos h

theorem replyCommitBands_fault {s : State} {code : Byte} {b : BandIx} (h : s.req.lock = false)
    (f : bandFault s.cfg.bandStaging = some (code, b)) (r : Request) :
    replyCommitBands r s = ⟨s, .invalid, [code, byte b.val]⟩ := by
  simp only [replyCommitBands, h, f, Bool.false_eq_true, if_false]

theorem replyCommitBands_done {s : State} (h : s.req.lock = false) (f : bandFault s.cfg.bandStaging = none)
    (r : Request) : replyCommitBands r s = ⟨s.commitBands, .ok, []⟩ := by
  simp only [replyCommitBands, h, f, Bool.false_eq_true, if_false]
  rfl

/-! ## The orders, banded anew -/

/-- R2, R25: the order is UNASSIGNED and no band of the copy takes its ticket. -/
def Order.unbandedBy (v : Vector BandEntry 8) (o : Order) : Bool := o.state == .unassigned && (bandOf v o.ticket).isNone

/-- R25: the record of an order after the copy v has become the active one. -/
def Order.rebanded (v : Vector BandEntry 8) (o : Order) : Order :=
  if o.unbandedBy v = true then { o with band := none, state := .willcall .unbanded }
  else if o.state = .unassigned then { o with band := bandOf v o.ticket }
  else o

theorem Order.rebanded_unbanded {v : Vector BandEntry 8} {o : Order} (u : o.state = .unassigned)
    (h : bandOf v o.ticket = none) : o.rebanded v = { o with band := none, state := .willcall .unbanded } :=
  if_pos (by simp [Order.unbandedBy, u, h])

theorem Order.rebanded_banded {v : Vector BandEntry 8} {o : Order} (u : o.state = .unassigned)
    (h : bandOf v o.ticket ≠ none) : o.rebanded v = { o with band := bandOf v o.ticket } :=
  (if_neg (by simp [Order.unbandedBy, u, h])).trans (if_pos u)

theorem Order.rebanded_other {v : Vector BandEntry 8} {o : Order} (u : o.state ≠ .unassigned) : o.rebanded v = o :=
  (if_neg (by simp [Order.unbandedBy, u])).trans (if_neg u)

theorem State.reband_other {s : State} {k : OrderSlot} {o : Order} (h : s.order? k = some o)
    (u : o.state ≠ .unassigned) : s.reband k = s := by
  unfold State.reband
  simp only [h, u, if_false]

/-- R25: the band of an UNASSIGNED order is taken anew. -/
theorem State.reband_unassigned {s : State} {k : OrderSlot} {o : Order} (h : s.order? k = some o)
    (u : o.state = .unassigned) :
    s.reband k =
      if (bandOf s.cfg.bandActive o.ticket).isNone = true then
        (s.putOrder k { o with band := bandOf s.cfg.bandActive o.ticket }).enterWillcall k .unbanded
      else s.putOrder k { o with band := bandOf s.cfg.bandActive o.ticket } := by
  unfold State.reband
  rw [h]
  exact if_pos u

theorem State.reband_banded {s : State} {k : OrderSlot} {o : Order} (h : s.order? k = some o)
    (u : o.state = .unassigned) (b : bandOf s.cfg.bandActive o.ticket ≠ none) :
    s.reband k = s.putOrder k { o with band := bandOf s.cfg.bandActive o.ticket } :=
  (State.reband_unassigned h u).trans (if_neg (by simpa using b))

/-- R5, R25: an order that no band takes enters WILLCALL(UNBANDED). -/
theorem State.reband_unbanded {s : State} {k : OrderSlot} {o : Order} (h : s.order? k = some o)
    (u : o.state = .unassigned) (b : bandOf s.cfg.bandActive o.ticket = none) :
    s.reband k =
      { s with
        orders := slotPut k { o with band := none, state := .willcall .unbanded } s.orders
        totes := s.totes.map (fun q => (q.1, if q.2.order = k then { q.2 with trail := [] } else q.2))
        req := { s.req with flags := s.req.flags ||| Flag.orderToWillcall.only } } := by
  have held : (s.putOrder k { o with band := none }).order? k = some { o with band := none } := slotGet_slotPut_same _ _ _
  have stays : ∀ l, ({ o with band := none } : Order).state ≠ .ready l := fun l e => by
    cases u.symm.trans e
  have enters := State.enterWillcall_eq held .unbanded
  rw [State.leaveReady_other stays, State.putOrder_orders, slotPut_slotPut] at enters
  rw [State.reband_unassigned h u, b]
  exact enters

/-- R25: all but orders, trails and flags stands. -/
theorem State.reband_rest (s : State) (k : OrderSlot) :
    { s.reband k with orders := s.orders, totes := s.totes, req := s.req } = s := by
  cases h : s.order? k with
  | none => unfold State.reband; rw [h]
  | some o =>
    by_cases u : o.state = .unassigned
    · by_cases b : bandOf s.cfg.bandActive o.ticket = none
      · rw [State.reband_unbanded h u b]
      · rw [State.reband_banded h u b]; rfl
    · rw [State.reband_other h u]

/-- R12: the record of a tote, its trail cleared where b holds. -/
def Tote.clearedIf (b : Bool) (x : Tote) : Tote := if b = true then { x with trail := [] } else x

@[simp] theorem Tote.order_clearedIf (b : Bool) (x : Tote) : (x.clearedIf b).order = x.order := by cases b <;> rfl

@[simp] theorem Tote.clearedIf_false (x : Tote) : x.clearedIf false = x := rfl

@[simp] theorem Tote.clearedIf_clearedIf (a b : Bool) (x : Tote) : (x.clearedIf a).clearedIf b = x.clearedIf (a || b) := by
  cases a <;> cases b <;> rfl

/-- R25: what a list of orders, each held in its slot, leaves when they are banded anew by the copy v. -/
structure Rebanded (v : Vector BandEntry 8) (l : List (OrderSlot × Order)) (s t : State) : Prop where
  order : ∀ j, t.order? j = ((slotGet j l).map (Order.rebanded v)).or (s.order? j)
  totes : t.totes = s.totes.map (fun q =>
    (q.1, q.2.clearedIf ((slotGet q.2.order l).any (Order.unbandedBy v))))
  req : t.req = { s.req with
    flags := if l.any (fun q => q.2.unbandedBy v) = true then s.req.flags ||| Flag.orderToWillcall.only
      else s.req.flags }

theorem Rebanded.nil (v : Vector BandEntry 8) (s : State) : Rebanded v [] s s := ⟨fun _ => rfl, by simp [slotGet], rfl⟩

theorem slotGet_singleton {α : Type} (k j : Nat) (x : α) : slotGet j [(k, x)] = if k = j then some x else none := rfl

theorem slotGet_cons {α : Type} (k j : Nat) (x : α) (l : List (Nat × α)) :
    slotGet j ((k, x) :: l) = if k = j then some x else slotGet j l := rfl

theorem slotGet_eq_none_of_notMem {α : Type} {k : Nat} {l : List (Nat × α)} (h : k ∉ l.map (·.1)) : slotGet k l = none := by
  cases e : slotGet k l with
  | none => rfl
  | some x => exact absurd (List.mem_map_of_mem (f := (·.1)) (slotGet_mem e)) h

/-- The banding of one order. -/
theorem State.reband_rebanded {s : State} {k : OrderSlot} {o : Order} (h : s.order? k = some o) :
    Rebanded s.cfg.bandActive [(k, o)] s (s.reband k) := by
  have one : ∀ j, ((slotGet j [(k, o)]).map (Order.rebanded s.cfg.bandActive)).or (s.order? j) =
      if k = j then some (o.rebanded s.cfg.bandActive) else s.order? j := fun j => by
    rw [slotGet_singleton]; split_ifs <;> rfl
  have unbanded : ∀ j, (slotGet j [(k, o)]).any (Order.unbandedBy s.cfg.bandActive) =
      (j == k && o.unbandedBy s.cfg.bandActive) := fun j => by
    rw [slotGet_singleton]
    split_ifs with e
    · simp [e]
    · rw [beq_eq_false_iff_ne.2 (Ne.symm e)]; rfl
  by_cases u : o.state = .unassigned
  · by_cases b : bandOf s.cfg.bandActive o.ticket = none
    · have gone : o.unbandedBy s.cfg.bandActive = true := by simp [Order.unbandedBy, u, b]
      rw [State.reband_unbanded h u b]
      refine ⟨fun j => ?_, ?_, by simp [gone]⟩
      · rw [one, Order.rebanded_unbanded u b]
        split_ifs with e
        · subst e; exact slotGet_slotPut_same _ _ _
        · exact slotGet_slotPut_ne _ _ _ _ e
      · simp [unbanded, gone, Tote.clearedIf]
    · have stays : o.unbandedBy s.cfg.bandActive = false := by
        rw [Order.unbandedBy, Option.isNone_eq_false_iff.2 (Option.isSome_iff_ne_none.2 b), Bool.and_false]
      rw [State.reband_banded h u b]
      refine ⟨fun j => ?_, by simp [unbanded, stays], by simp [stays]⟩
      rw [one, Order.rebanded_banded u b]
      split_ifs with e
      · subst e; exact slotGet_slotPut_same _ _ _
      · exact slotGet_slotPut_ne _ _ _ _ e
  · have stays : o.unbandedBy s.cfg.bandActive = false := by simp [Order.unbandedBy, u]
    rw [State.reband_other h u]
    refine ⟨fun j => ?_, by simp [unbanded, stays], by simp [stays]⟩
    rw [one, Order.rebanded_other u]
    split_ifs with e
    · subst e; exact h
    · rfl

/-- The banding of one order and then of others. -/
theorem Rebanded.cons {v : Vector BandEntry 8} {k : OrderSlot} {o : Order} {l : List (OrderSlot × Order)} {s t u : State}
    (a : Rebanded v [(k, o)] s t) (b : Rebanded v l t u) (fresh : k ∉ l.map (·.1)) : Rebanded v ((k, o) :: l) s u where
  order := fun j => by
    rw [b.order, a.order, slotGet_singleton, slotGet_cons]
    split_ifs with e
    · subst e
      rw [slotGet_eq_none_of_notMem fresh]
      rfl
    · rfl
  totes := by
    rw [b.totes, a.totes, List.map_map]
    refine List.map_congr_left (fun q _ => ?_)
    rw [Function.comp_apply, Tote.order_clearedIf, Tote.clearedIf_clearedIf, slotGet_singleton, slotGet_cons]
    split_ifs with e
    · subst e
      rw [slotGet_eq_none_of_notMem fresh, Option.any_none, Bool.or_false]
    · rw [Option.any_none, Bool.false_or]
  req := by
    rw [b.req, a.req]
    cases x : o.unbandedBy v
    · simp only [List.any_cons, List.any_nil, x, Bool.or_false, Bool.false_or, Bool.false_eq_true, if_false]
    · simp [x, BitVec.or_assoc]

/-- The banding anew of orders that stand in the table, each in its slot. -/
theorem foldl_reband_rebanded (l : List (OrderSlot × Order)) (nd : (l.map (·.1)).Nodup) (s : State)
    (held : ∀ p ∈ l, s.order? p.1 = some p.2) :
    Rebanded s.cfg.bandActive l s (l.foldl (fun t p => t.reband p.1) s) := by
  induction l generalizing s with
  | nil => exact .nil _ s
  | cons p r ih =>
    obtain ⟨k, o⟩ := p
    rw [List.map_cons, List.nodup_cons] at nd
    have first := State.reband_rebanded (held (k, o) List.mem_cons_self)
    have cfg : (s.reband k).cfg = s.cfg := congrArg (·.cfg) (s.reband_rest k)
    have others := ih nd.2 (s.reband k) (fun p m => by
      have ne : k ≠ p.1 := fun e => nd.1 (List.mem_map.2 ⟨p, m, e.symm⟩)
      rw [first.order, slotGet_singleton, if_neg ne]
      exact held p (List.mem_cons_of_mem _ m))
    rw [cfg] at others
    exact first.cons others nd.1

theorem foldl_reband_rest (l : List (OrderSlot × Order)) (s : State) :
    let t := l.foldl (fun t p => t.reband p.1) s
    { t with orders := s.orders, totes := s.totes, req := s.req } = s := by
  induction l generalizing s with
  | nil => rfl
  | cons p r ih =>
    have others := congrArg (fun u : State => ({ u with orders := s.orders, totes := s.totes, req := s.req } : State))
      (ih (s.reband p.1))
    exact others.trans (s.reband_rest p.1)

/-- The state with the staging copy active. -/
abbrev State.withStagedBands (s : State) : State := { s with cfg := { s.cfg with bandActive := s.cfg.bandStaging } }

theorem State.commitBands_rest (s : State) :
    { s.commitBands with orders := s.orders, totes := s.totes, req := s.req } = s.withStagedBands :=
  foldl_reband_rest s.orders s.withStagedBands

theorem State.commitBands_rebanded {s : State} (w : TablesCanonical s) :
    Rebanded s.cfg.bandStaging s.orders s s.commitBands := by
  have r := foldl_reband_rebanded s.orders (w.1.1.imp (fun {_ _} lt => Nat.ne_of_lt lt)) s.withStagedBands
    (fun _ m => State.order?_some w m)
  exact ⟨r.order, r.totes, r.req⟩

theorem Flag.isIn_or_only (f : Flag) (flags : BitVec 20) : f.isIn (flags ||| f.only) = true := by
  have self : f.only.getLsbD f.bit = true := by cases f <;> decide
  unfold Flag.isIn
  rw [BitVec.getLsbD_or, self, Bool.or_true]

/-- Settles O42: the checks, and the banding of the orders of a table of the one form. -/
theorem commitBands : Obligations.CommitBands := by
  intro s r rest h
  refine ⟨fun locked => exec_replied rfl h (replyCommitBands_locked (s := s.popRequest rest) locked r), fun unlocked => ?_⟩
  have fault := fun {code : Byte} {b : BandIx} (f : bandFault s.cfg.bandStaging = some (code, b)) =>
    exec_replied rfl h (replyCommitBands_fault (s := s.popRequest rest) unlocked f r)
  refine ⟨fun b falls low => fault (bandFault_falls falls low), fun rising =>
    ⟨fun b bare low => fault (bandFault_bare rising bare low), fun laned => ?_⟩⟩
  have rest_ := (s.popRequest rest).commitBands_rest
  refine ⟨(s.popRequest rest).commitBands,
    exec_replied rfl h (replyCommitBands_done (s := s.popRequest rest) unlocked (bandFault_none rising laned) r),
    congrArg (·.cfg) rest_, fun w k o held => ?_, fun w => ?_,
    congrArg (·.lanes) rest_, congrArg (·.readers) rest_, congrArg (·.willcall) rest_, congrArg (·.merge) rest_,
    congrArg (·.throttle) rest_, congrArg (·.drive) rest_, congrArg (·.run) rest_, congrArg (·.ring) rest_,
    congrArg (·.now) rest_, congrArg (·.pending) rest_, congrArg (·.choices) rest_⟩
  · have banded := State.commitBands_rebanded (s := s.popRequest rest) w
    have order : (s.popRequest rest).commitBands.order? k = some (o.rebanded s.cfg.bandStaging) := by
      rw [banded.order, show slotGet k (s.popRequest rest).orders = some o from held]
      rfl
    refine ⟨fun other => ?_, fun u b => ?_, fun u b => ⟨?_, ?_⟩⟩
    · rw [order, Order.rebanded_other other]
    · rw [order, Order.rebanded_banded u b]
    · rw [order, Order.rebanded_unbanded u b]
    · have some_ : (s.popRequest rest).orders.any (fun q => q.2.unbandedBy s.cfg.bandStaging) = true :=
        List.any_eq_true.2 ⟨(k, o), slotGet_mem held, by simp [Order.unbandedBy, u, b]⟩
      rw [banded.req]
      simp only [State.popRequest_cfg, some_, if_true]
      exact Flag.isIn_or_only _ _
  · have banded := State.commitBands_rebanded (s := s.popRequest rest) w
    refine ⟨fun k free => ?_, banded.totes, ?_⟩
    · rw [banded.order, show slotGet k (s.popRequest rest).orders = none from free]
      exact free
    · have any_ : s.orders.any (fun q => q.2.unbandedBy s.cfg.bandStaging) =
          s.orders.any (fun q => (s.order? q.1).any (Order.unbandedBy s.cfg.bandStaging)) := by
        rw [Bool.eq_iff_iff, List.any_eq_true, List.any_eq_true]
        refine exists_congr (fun q => and_congr_right (fun m => ?_))
        rw [State.order?_some w m, Option.any_some]
      have req := banded.req
      simp only [State.popRequest_orders, State.popRequest_cfg, any_] at req
      exact req

end Sys2Proof.Machine
end

section
/-! PROOFS. LANE-EDIT (R42): its checks in order, the removal of an entry, and the identification of one. -/

namespace Sys2Proof.Machine

/-! ## The checks -/

section
variable {s : State} {lane tag pos : Nat} {tagOk : Bool} (own : LaneIx → Reply)

theorem editChecks_notOpen (h : s.req.service = false) : editChecks s lane tag pos tagOk own = ⟨s, .notOpen, []⟩ := by
  simp only [editChecks, h, Bool.not_false, if_true]
  rfl

/-- The ranges of a LANE-EDIT. -/
theorem editRanges_iff :
    (lane ≤ 11 && tag ≤ 4095 && tagOk) = true ↔ lane ≤ 11 ∧ tag ≤ 4095 ∧ tagOk = true := by
  simp [and_assoc]

theorem editChecks_range (h : s.req.service = true) (out : ¬(lane ≤ 11 ∧ tag ≤ 4095 ∧ tagOk = true)) :
    editChecks s lane tag pos tagOk own = ⟨s, .range, []⟩ := by
  rw [← editRanges_iff, Bool.not_eq_true] at out
  simp only [editChecks, h, out, Bool.not_true, Bool.not_false, Bool.false_eq_true, if_false, if_true]
  rfl

/-- The checks of the lane, after those of the service and the ranges. -/
theorem editChecks_ranged (h : s.req.service = true) (ok : lane ≤ 11 ∧ tag ≤ 4095 ∧ tagOk = true) :
    editChecks s lane tag pos tagOk own =
      if s.laneOpen (laneIx lane) = false then ⟨s, .state, []⟩
      else if (s.lane (laneIx lane)).queue.length ≤ pos then ⟨s, .range, []⟩
      else own (laneIx lane) := by
  rw [← editRanges_iff] at ok
  simp only [editChecks, h, ok, Bool.not_true, Bool.false_eq_true, if_false, Bool.not_eq_true']
  rfl

theorem editChecks_state (h : s.req.service = true) (ok : lane ≤ 11 ∧ tag ≤ 4095 ∧ tagOk = true)
    (closed : s.laneOpen (laneIx lane) = false) : editChecks s lane tag pos tagOk own = ⟨s, .state, []⟩ :=
  (editChecks_ranged own h ok).trans (if_pos closed)

theorem editChecks_position (h : s.req.service = true) (ok : lane ≤ 11 ∧ tag ≤ 4095 ∧ tagOk = true)
    (opened : s.laneOpen (laneIx lane) = true) (past : (s.lane (laneIx lane)).queue.length ≤ pos) :
    editChecks s lane tag pos tagOk own = ⟨s, .range, []⟩ :=
  (editChecks_ranged own h ok).trans ((if_neg (by simp [opened])).trans (if_pos past))

theorem editChecks_own (h : s.req.service = true) (ok : lane ≤ 11 ∧ tag ≤ 4095 ∧ tagOk = true)
    (opened : s.laneOpen (laneIx lane) = true) {e : QueueEntry} (at_ : (s.lane (laneIx lane)).queue[pos]? = some e) :
    editChecks s lane tag pos tagOk own = own (laneIx lane) := by
  obtain ⟨lt, -⟩ := List.getElem?_eq_some_iff.1 at_
  exact (editChecks_ranged own h ok).trans ((if_neg (by simp [opened])).trans (if_neg (by omega)))

end

/-! ## What a LANE-EDIT does -/

theorem State.editRemove_known {s : State} {l : LaneIx} {pos : Nat} {k : ToteSlot}
    (h : (s.lane l).queue[pos]? = some (.known k)) : s.editRemove l pos = s.freeDone k := by
  unfold State.editRemove; rw [h]

theorem State.editRemove_unknown {s : State} {l : LaneIx} {pos : Nat} {n : Option Nat}
    (h : (s.lane l).queue[pos]? = some (.unknown n)) :
    s.editRemove l pos = s.putLane l ((s.lane l).removeAt pos) := by
  unfold State.editRemove; rw [h]; rfl

/-- A change of a record after one of a lane. -/
theorem State.totes_modTote_putLane {s : State} {k : ToteSlot} {y : Tote} (h : s.tote? k = some y) (l : LaneIx) (x : Lane)
    (f : Tote → Tote) : ((s.putLane l x).modTote k f).totes = slotPut k (f y) s.totes :=
  congrArg State.totes (State.modTote_eq (s := s.putLane l x) h f)

/-- What IDENTIFY answers at a position of the queue, once the checks are passed. -/
def identifyAt (s : State) (tag pos : Nat) (l : LaneIx) : Reply :=
  match (s.lane l).queue[pos]? with
  | some (.unknown _) =>
    match s.findTote tag with
    | some (k, t) => done (settle s (s.identify l pos k t)) []
    | none => refuse s .noTote
  | _ => ⟨s, .conflict, [byte pos]⟩

section
variable {s : State} {tag pos : Nat} {l : LaneIx}

theorem identifyAt_known {k : ToteSlot} (h : (s.lane l).queue[pos]? = some (.known k)) :
    identifyAt s tag pos l = ⟨s, .conflict, [byte pos]⟩ := by
  unfold identifyAt; rw [h]

theorem identifyAt_noTote {n : Option Nat} (h : (s.lane l).queue[pos]? = some (.unknown n))
    (f : s.findTote tag = none) : identifyAt s tag pos l = ⟨s, .noTote, []⟩ := by
  unfold identifyAt; rw [h, f]; rfl

theorem identifyAt_found {n : Option Nat} {k : ToteSlot} {t : Tote} (h : (s.lane l).queue[pos]? = some (.unknown n))
    (f : s.findTote tag = some (k, t)) : identifyAt s tag pos l = ⟨settle s (s.identify l pos k t), .ok, []⟩ := by
  unfold identifyAt; rw [h, f]; rfl

end

/-- The two operations of LANE-EDIT, each with its own check of operation or tag and its own rule. -/
theorem replyLaneEditRemove_eq (r : Request) (s : State) :
    replyLaneEditRemove r s =
      editChecks s (byteAt r.args 0) (wordAt r.args 3) (byteAt r.args 1) (byteAt r.args 2 == 1)
        (fun l => ⟨settle s (s.editRemove l (byteAt r.args 1)), .ok, []⟩) := rfl

theorem replyLaneEditIdentify_eq (r : Request) (s : State) :
    replyLaneEditIdentify r s =
      editChecks s (byteAt r.args 0) (wordAt r.args 3) (byteAt r.args 1) (1 ≤ wordAt r.args 3)
        (identifyAt s (wordAt r.args 3) (byteAt r.args 1)) := rfl

/-- R42: every LANE-EDIT is the shared checks and a rule of its own. -/
theorem exec_laneEdit {s : State} {c : Instr} {r : Request} {rest : List Request}
    (e : c = .laneEditRemove ∨ c = .laneEditIdentify) (h : AskedWell s c r rest) :
    ∃ (tagOk : Bool) (own : LaneIx → Reply),
      (tagOk = true ↔ (c = .laneEditRemove → byteAt r.args 2 = 1) ∧ (c = .laneEditIdentify → wordAt r.args 3 ≠ 0)) ∧
      ∀ {u : State} {x : Status} {data : List Byte},
        editChecks (s.popRequest rest) (byteAt r.args 0) (wordAt r.args 3) (byteAt r.args 1) tagOk own = ⟨u, x, data⟩ →
        exec c s = answered s r u x data := by
  rcases e with rfl | rfl
  · exact ⟨_, _, by simp, fun reply => exec_replied rfl h ((replyLaneEditRemove_eq r _).trans reply)⟩
  · exact ⟨_, _, by simp; omega, fun reply => exec_replied rfl h ((replyLaneEditIdentify_eq r _).trans reply)⟩

theorem exec_laneEditRemove {s : State} {r : Request} {rest : List Request} (h : AskedWell s .laneEditRemove r rest)
    (service : s.req.service = true) (lane : byteAt r.args 0 ≤ 11) (tag : wordAt r.args 3 ≤ 4095)
    (op : byteAt r.args 2 = 1) (opened : s.laneOpen (laneIx (byteAt r.args 0)) = true) {e : QueueEntry}
    (at_ : (s.lane (laneIx (byteAt r.args 0))).queue[byteAt r.args 1]? = some e) :
    exec .laneEditRemove s = answered s r
      (settle (s.popRequest rest) ((s.popRequest rest).editRemove (laneIx (byteAt r.args 0)) (byteAt r.args 1))) .ok [] :=
  exec_replied rfl h ((replyLaneEditRemove_eq r _).trans
    (editChecks_own (s := s.popRequest rest) _ service ⟨lane, tag, by simp [op]⟩ opened at_))

theorem exec_laneEditIdentify {s : State} {r : Request} {rest : List Request}
    (h : AskedWell s .laneEditIdentify r rest) (service : s.req.service = true) (lane : byteAt r.args 0 ≤ 11)
    (lo : 1 ≤ wordAt r.args 3) (hi : wordAt r.args 3 ≤ 4095) (opened : s.laneOpen (laneIx (byteAt r.args 0)) = true)
    {e : QueueEntry} (at_ : (s.lane (laneIx (byteAt r.args 0))).queue[byteAt r.args 1]? = some e) {u : State} {x : Status}
    {data : List Byte}
    (own : identifyAt (s.popRequest rest) (wordAt r.args 3) (byteAt r.args 1) (laneIx (byteAt r.args 0)) = ⟨u, x, data⟩) :
    exec .laneEditIdentify s = answered s r u x data :=
  exec_replied rfl h ((replyLaneEditIdentify_eq r _).trans
    ((editChecks_own (s := s.popRequest rest) _ service ⟨lane, hi, by simpa using lo⟩ opened at_).trans own))

/-- Settles O47: the removal of an entry, the entry that IDENTIFY makes known, and the checks of both operations. -/
theorem laneEdits : Obligations.LaneEdits := by
  refine ⟨fun x j => ⟨fun gone => ?_, Lane.removeAt_kept⟩, fun s l pos k t _ => ⟨fun y held => ?_, fun p => ?_, fun p => ?_⟩,
    fun s r rest => ⟨fun c e h => ?_, fun h service lane tag op opened => ⟨fun k at_ => ?_, fun n at_ => ?_⟩,
      fun h service lane lo hi opened => ⟨fun k at_ => ?_, fun n at_ => ⟨fun none => ?_, fun k t found => ?_⟩⟩⟩⟩
  · exact Lane.removeAt_gone gone
  · exact State.totes_modTote_putLane held l _ _
  · exact if_pos p
  · exact if_neg p
  · obtain ⟨tagOk, own, ok, event⟩ := exec_laneEdit e h
    refine ⟨fun closed => event (editChecks_notOpen own closed), fun service => ⟨fun out => ?_, fun lane tag op tag0 =>
      ⟨fun shut => ?_, fun opened past => ?_⟩⟩⟩
    · refine event (editChecks_range own service ?_)
      rw [ok]
      rintro ⟨lane, tag, op, tag0⟩
      rcases out with o | o | ⟨c, o⟩ | ⟨c, o⟩
      · omega
      · omega
      · exact o (op c)
      · exact tag0 c o
    · exact event (editChecks_state own service ⟨lane, tag, ok.2 ⟨op, tag0⟩⟩ shut)
    · exact event (editChecks_position own service ⟨lane, tag, ok.2 ⟨op, tag0⟩⟩ opened past)
  · have known := State.editRemove_known (s := s.popRequest rest) at_
    rw [exec_laneEditRemove h service lane tag op opened at_, known]
  · have unknown := State.editRemove_unknown (s := s.popRequest rest) at_
    rw [exec_laneEditRemove h service lane tag op opened at_, unknown]
    rfl
  · exact exec_laneEditIdentify h service lane lo hi opened at_ (identifyAt_known (s := s.popRequest rest) at_)
  · exact exec_laneEditIdentify h service lane lo hi opened at_ (identifyAt_noTote (s := s.popRequest rest) at_ none)
  · exact exec_laneEditIdentify h service lane lo hi opened at_ (identifyAt_found (s := s.popRequest rest) at_ found)

end Sys2Proof.Machine
end

section
/-! PROOFS. The settling of an event: all that it leaves, field by field (R34, R91, R100 to R106, R130, R147, R154), the
operations of readiness, and the lamp of a lane. -/

namespace Sys2Proof.Machine

/-! ## What follows once lanes and HALTING are settled -/

/-- R130, R154: a claimant has come to stand since state `before`. -/
abbrev Rises (before t : State) : Prop := t.claimant = true ∧ before.claimant = false

/-- R103, R104: the frames of a lane whose lamp or display state t shows otherwise than state v. -/
abbrev counterChange (forced : List LaneIx) (v t : State) (l : LaneIx) : List Frame :=
  (if l ∈ forced ∨ (v.lane l).lamp ≠ (t.lane l).lamp then [lampFrame (v.laneCfg l).station (t.lane l).lamp] else []) ++
  (if l ∈ forced ∨ (v.lane l).display ≠ (t.lane l).display then
    [displayFrame (v.laneCfg l).station (t.lane l).display] else [])

/-- All that finishTrack leaves. -/
structure Finished (forced : List LaneIx) (before v t : State) : Prop where
  lane : ∀ l, t.lane l = { v.lane l with lamp := t.lampOf l, display := t.displayOf l }
  orders : t.orders = v.orders
  ring : t.ring = { v.ring with outbox := (v.ring.outbox ++
      (if Rises before t ∧ v.drive.state = .resting then [driveFrame v.cfg.drive.station true] else []) ++
      allLanes.flatMap (counterChange forced v t)) }
  drive : t.drive =
    (if Rises before t ∧ v.drive.state = .resting then
       ⟨.starting, none, some (v.now + v.cfg.drive.startDelay * 100), false⟩
     else if Rises before t ∧ v.drive.state = .stopping then { v.drive with wakePending := true }
     else v.drive)
  overbooked : (∃ l, t.overbooked l = true ∧ before.overbooked l = false) →
    t.req = { v.req with flags := v.req.flags ||| Flag.overbooked.only }
  booked : (∀ l, t.overbooked l = true → before.overbooked l = true) → t.req = v.req
  rest : { t with lanes := v.lanes, ring := v.ring, drive := v.drive, req := v.req } = v

theorem State.newlyOverbooked_iff (before s : State) :
    State.newlyOverbooked before s = true ↔ ∃ l, s.overbooked l = true ∧ before.overbooked l = false := by
  simp [State.newlyOverbooked, allLanes_mem]

/-- What the claimant depends on. -/
theorem State.claimant_congr {s t : State} (cfg : t.cfg = s.cfg) (merge : t.merge = s.merge) (run : t.run = s.run)
    (throttle : t.throttle = s.throttle) (totes : t.totes = s.totes) : t.claimant = s.claimant := by
  unfold State.claimant State.inductCfg State.knownHead State.queue State.throttleAllows State.beltEmpty State.beltCount
    State.trackRuns
  rw [cfg, merge, run, throttle, totes]

/-- What OVERBOOKED depends on. -/
theorem State.overbooked_congr {s t : State} {l : LaneIx} (cfg : t.cfg = s.cfg) (orders : t.orders = s.orders)
    (totes : t.totes = s.totes) (queue : (t.lane l).queue = (s.lane l).queue)
    (incoming : (t.lane l).incoming = (s.lane l).incoming) : t.overbooked l = s.overbooked l := by
  unfold State.overbooked State.laneCfg State.occupied State.incoming State.reserved State.book State.share
    State.toteCountIn State.totesOf
  rw [cfg, orders, totes, queue, incoming]

/-- The claimant report of an event, after OVERBOOKED has been raised or not. -/
theorem State.reportClaimant_raiseIf (before v : State) (b : Bool) :
    State.reportClaimant before (v.raiseIf b .overbooked) =
      { v with
        req := (v.raiseIf b .overbooked).req
        ring := { v.ring with outbox := (v.ring.outbox ++
          if Rises before v ∧ v.drive.state = .resting then [driveFrame v.cfg.drive.station true] else []) }
        drive :=
          (if Rises before v ∧ v.drive.state = .resting then
             ⟨.starting, none, some (v.now + v.cfg.drive.startDelay * 100), false⟩
           else if Rises before v ∧ v.drive.state = .stopping then { v.drive with wakePending := true }
           else v.drive) } := by
  rw [State.reportClaimant_spec]
  cases b <;> rfl

theorem finishTrack_finished (forced : List LaneIx) (before v : State) :
    Finished forced before v (finishTrack forced before v) := by
  have report := State.reportClaimant_raiseIf before v (State.newlyOverbooked before v)
  generalize hr : State.reportClaimant before (v.raiseIf (State.newlyOverbooked before v) .overbooked) = r at report
  obtain ⟨ring, lane, rest, derived⟩ := updateCounters_spec (fun l => forced.contains l) allLanes allLanes_nodup r
  generalize ht : allLanes.foldl (fun t l => t.updateCounter l (forced.contains l)) r = t at ring lane rest derived
  have t_eq : finishTrack forced before v = t := by rw [← ht, ← hr]; rfl
  rw [t_eq]
  have lanes_r : ∀ l, r.lane l = v.lane l := fun l => by rw [report]; rfl
  have cfg_r : r.cfg = v.cfg := by rw [report]
  replace lane : ∀ l, t.lane l = { v.lane l with lamp := t.lampOf l, display := t.displayOf l } := fun l => by
    rw [lane l, if_pos (allLanes_mem l), (derived l).1, (derived l).2, lanes_r]
  have same : { t with lanes := v.lanes, ring := v.ring, drive := v.drive, req := v.req } = v := by
    have step := congrArg
      (fun u : State => ({ u with lanes := v.lanes, ring := v.ring, drive := v.drive, req := v.req } : State)) rest
    refine step.trans ?_
    rw [report]
  have req : t.req = (v.raiseIf (State.newlyOverbooked before v) .overbooked).req :=
    (congrArg (·.req) rest).trans (by rw [report])
  have drive : t.drive = r.drive := congrArg (·.drive) rest
  have rises : Rises before t ↔ Rises before v := by
    unfold Rises
    rw [State.claimant_congr (t := t) (congrArg (·.cfg) same) (congrArg (·.merge) same) (congrArg (·.run) same)
      (congrArg (·.throttle) same) (congrArg (·.totes) same)]
  have booked : ∀ l, t.overbooked l = v.overbooked l := fun l =>
    State.overbooked_congr (congrArg (·.cfg) same) (congrArg (·.orders) same) (congrArg (·.totes) same)
      (by rw [lane l]) (by rw [lane l])
  have frames : ∀ l, r.counterFrames l (forced.contains l) = counterChange forced v t l := fun l => by
    unfold State.counterFrames counterChange State.laneCfg
    rw [lane l, lanes_r, cfg_r, (derived l).1, (derived l).2]
    simp only [List.contains_iff_mem]
  refine ⟨lane, congrArg (·.orders) same, ?_, ?_, fun some => ?_, fun none => ?_, same⟩
  · rw [ring, funext frames, report]
    simp only [rises]
  · rw [drive, report]
    simp only [rises]
  · simp only [booked] at some
    rw [req, (State.newlyOverbooked_iff before v).2 some]
    rfl
  · simp only [booked] at none
    have no : State.newlyOverbooked before v = false := by
      rw [← Bool.not_eq_true, State.newlyOverbooked_iff]
      rintro ⟨l, o, b⟩
      rw [none l o] at b
      cases b
    rw [req, no]
    rfl

/-! ## The lanes' step and the end of HALTING -/

/-- All that the lanes' step leaves, and where `ends` holds the end of HALTING (R147) after it. -/
structure LanesSettled (ends : Bool) (s v : State) : Prop where
  lane : ∀ l, v.lane l = { s.laneRun l with ready := (s.readiness.lane l).ready }
  orders : v.orders = s.readiness.orders
  ring : v.ring = { s.ring with outbox := (s.ring.outbox ++
      (allLanes.filter (fun l => Advances s l)).map (fun l => stopFrame (s.laneCfg l).station) ++
      (if ends = true ∧ s.drive.state ≠ .off then [driveFrame s.cfg.drive.station false] else [])) }
  req : v.req = s.req
  drive : v.drive = if ends = true then ⟨.off, none, none, false⟩ else s.drive
  run : v.run = if ends = true then { s.run with state := .stopped, haltTimer := none } else s.run
  throttle : v.throttle = if ends = true then ⟨false, 0, none, 0, none, 0⟩ else s.throttle
  totes : v.totes = if ends = true then s.totes.map (fun q => (q.1, { q.2 with deadline := none })) else s.totes
  reader : ∀ r : ReaderIx, v.reader r =
    if ends = true ∧ r.val < 16 then
      { s.reader r with cycle := .idle, window := none, scanPending := false, scanTimer := none }
    else s.reader r
  willcall : v.willcall = s.willcall
  merge : v.merge = s.merge
  cfg : v.cfg = s.cfg
  now : v.now = s.now
  pending : v.pending = s.pending
  choices : v.choices = s.choices

theorem State.laneStep_settled (s : State) : LanesSettled false s s.laneStep := by
  obtain ⟨ring, lane, orders, rest⟩ := s.laneStep_spec
  refine ⟨lane, orders, ?_, rest.req, rest.drive, rest.run, rest.throttle, rest.totes, fun r => ?_, rest.willcall,
    rest.merge, rest.cfg, rest.now, rest.pending, rest.choices⟩
  · rw [ring]
    simp
  · unfold State.reader
    rw [rest.readers]
    rfl

theorem State.enterStopped_settled (s : State) : LanesSettled true s s.laneStep.enterStopped := by
  have before := s.laneStep_settled
  obtain ⟨ring, lanes, orders, req, drive, run, throttle, totes, reader, willcall, merge, cfg, now, pending, choices⟩ :=
    s.laneStep.enterStopped_spec
  refine ⟨fun l => ?_, orders.trans before.orders, ?_, req.trans before.req, drive, ?_, throttle, ?_, fun r => ?_,
    willcall.trans before.willcall, merge.trans before.merge, cfg.trans before.cfg, now.trans before.now,
    pending.trans before.pending, choices.trans before.choices⟩
  · rw [← before.lane l]
    unfold State.lane
    rw [lanes]
  · rw [ring, before.ring, before.drive, before.cfg]
    simp
  · rw [run, before.run]
    rfl
  · rw [totes, before.totes]
    rfl
  · rw [reader, before.reader]
    simp

/-- The settling of an event, from what its lanes' step and the end of HALTING leave. -/
theorem LanesSettled.settled {ends : Bool} {s v : State} (h : LanesSettled ends s v) (forced : List LaneIx)
    (before : State) : Settled forced ends before s (finishTrack forced before v) := by
  have f := finishTrack_finished forced before v
  generalize finishTrack forced before v = t at f
  have rest := f.rest
  have frames : ∀ l, counterChange forced v t l = counterChange forced s t l := fun l => by
    unfold counterChange State.laneCfg
    rw [h.lane l, h.cfg]
  refine ⟨fun l => ?_, f.orders.trans h.orders, ?_, ?_, fun some => ?_, fun none => ?_,
    (congrArg (·.run) rest).trans h.run, (congrArg (·.throttle) rest).trans h.throttle,
    (congrArg (·.totes) rest).trans h.totes, fun r => ?_, (congrArg (·.willcall) rest).trans h.willcall,
    (congrArg (·.merge) rest).trans h.merge, (congrArg (·.cfg) rest).trans h.cfg,
    (congrArg (·.now) rest).trans h.now, (congrArg (·.pending) rest).trans h.pending,
    (congrArg (·.choices) rest).trans h.choices⟩
  · rw [f.lane l, h.lane l]
  · rw [f.ring, funext frames, h.ring, h.cfg, h.drive]
    cases ends <;> simp [Rises]
  · rw [f.drive, h.now, h.cfg, h.drive]
    cases ends <;> simp [Rises]
  · rw [f.overbooked some, h.req]
  · rw [f.booked none, h.req]
  · have readers : t.readers = v.readers := congrArg (·.readers) rest
    rw [← h.reader r]
    unfold State.reader
    rw [readers]

theorem settleLanesWith_settled (forced : List LaneIx) (before s : State) :
    Settled forced false before s (settleLanesWith forced before s) := s.laneStep_settled.settled forced before

/-- R147: HALTING ends when loop and return belt are empty. -/
theorem State.haltTest_cond_iff (s : State) :
    (s.run.state == .halting && s.loopOccupancy == 0 && s.beltEmpty) = true ↔
      s.run.state = .halting ∧ (∀ q ∈ s.totes, q.2.location ≠ .loop ∧ q.2.location ≠ .returnBelt) ∧
        s.merge.head = .absent := by
  simp only [State.loopOccupancy, State.beltEmpty, State.beltCount, Bool.and_eq_true, beq_iff_eq,
    List.length_eq_zero_iff, List.filter_eq_nil_iff, and_assoc, forall_and]

/-- R147: the event ends HALTING. -/
abbrev HaltEnds (g : State) : Prop :=
  g.run.state = .halting ∧ (∀ q ∈ g.totes, q.2.location ≠ .loop ∧ q.2.location ≠ .returnBelt) ∧
    g.merge.head = .absent

theorem State.haltTest_laneStep_iff (g : State) :
    (g.laneStep.run.state == .halting && g.laneStep.loopOccupancy == 0 && g.laneStep.beltEmpty) = true ↔ HaltEnds g := by
  obtain ⟨-, -, -, rest⟩ := g.laneStep_spec
  rw [State.haltTest_cond_iff, rest.run, rest.totes, rest.merge]

theorem settle_settled_halted {before s : State} (h : HaltEnds s.grant) :
    Settled [] true before s.grant (settle before s) := by
  unfold settle State.haltTest
  rw [if_pos ((State.haltTest_laneStep_iff _).2 h)]
  exact s.grant.enterStopped_settled.settled [] before

theorem settle_settled {before s : State} (h : ¬HaltEnds s.grant) :
    Settled [] false before s.grant (settle before s) := by
  unfold settle State.haltTest
  rw [if_neg (fun e => h ((State.haltTest_laneStep_iff _).1 e))]
  exact s.grant.laneStep_settled.settled [] before

/-! ## What the grant and readiness keep of the records -/

/-- What a settling keeps of an order. -/
abbrev orderKept (q : OrderSlot × Order) :=
  (q.1, q.2.ticket, q.2.total, q.2.priority, q.2.band, q.2.done, q.2.live)

/-- What a settling keeps of a tote record. -/
abbrev toteKept (q : ToteSlot × Tote) := (q.1, q.2.tag, q.2.order, q.2.part)

/-- No record comes, goes or changes its name or counts, and no flag rises but ORDER-TO-WILLCALL. -/
structure KeepsRecords (s t : State) : Prop where
  orders : Slots.wf 128 s.orders → t.orders.map orderKept = s.orders.map orderKept := by exact fun _ => rfl
  totes : Slots.wf 256 s.totes → t.totes.map toteKept = s.totes.map toteKept := by exact fun _ => rfl
  req : t.req = s.req ∨ t.req = { s.req with flags := s.req.flags ||| Flag.orderToWillcall.only } := by exact .inl rfl

/-- The form of a table depends on its slots alone. -/
theorem Slots.wf_of_map {α β : Type} {n : Nat} {f : Nat × α → Nat × β} {s t : List (Nat × α)}
    (h : t.map f = s.map f) (slot : ∀ q, (f q).1 = q.1) (w : Slots.wf n s) : Slots.wf n t := by
  have keys : ∀ u : List (Nat × α), u.map (·.1) = (u.map f).map (·.1) := fun u => by
    rw [List.map_map]
    exact List.map_congr_left (fun q _ => (slot q).symm)
  have same : t.map (·.1) = s.map (·.1) := by rw [keys, keys, h]
  refine ⟨same ▸ w.1, fun p m => ?_⟩
  have m' : p.1 ∈ s.map (·.1) := same ▸ List.mem_map_of_mem m
  obtain ⟨q, qm, e⟩ := List.mem_map.1 m'
  exact e ▸ w.2 q qm

/-- A put that keeps what f reads of the held record. -/
theorem map_slotPut {α β : Type} {n k : Nat} {x y : α} {f : Nat × α → β} {t : List (Nat × α)} (w : Slots.wf n t)
    (h : slotGet k t = some x) (same : f (k, y) = f (k, x)) : (slotPut k y t).map f = t.map f := by
  obtain ⟨u, v, split, put⟩ := slotPut_of_mem w (slotGet_mem h)
  rw [put, split]
  simp [same]

namespace KeepsRecords

theorem refl (s : State) : KeepsRecords s s where

theorem trans {s t u : State} (a : KeepsRecords s t) (b : KeepsRecords t u) : KeepsRecords s u where
  orders := fun w => (b.orders (Slots.wf_of_map (a.orders w) (fun _ => rfl) w)).trans (a.orders w)
  totes := fun w => (b.totes (Slots.wf_of_map (a.totes w) (fun _ => rfl) w)).trans (a.totes w)
  req := by
    rcases a.req with e | e <;> rcases b.req with g | g <;> rw [e] at g
    · exact .inl g
    · exact .inr g
    · exact .inr g
    · exact .inr (by rw [g, BitVec.or_assoc, BitVec.or_self])

theorem foldl {α : Type} {f : State → α → State} (h : ∀ s x, KeepsRecords s (f s x)) (xs : List α) (s : State) :
    KeepsRecords s (xs.foldl f s) := by
  induction xs generalizing s with
  | nil => exact refl s
  | cons x r ih => exact (h s x).trans (ih _)

theorem putOrder {s : State} {k : OrderSlot} {o o' : Order} (h : s.order? k = some o)
    (same : orderKept (k, o') = orderKept (k, o)) : KeepsRecords s (s.putOrder k o') where
  orders := fun w => map_slotPut w h same

theorem modTote {k : ToteSlot} {f : Tote → Tote} (same : ∀ x, toteKept (k, f x) = toteKept (k, x)) (s : State) :
    KeepsRecords s (s.modTote k f) := by
  unfold State.modTote
  split
  · exact { totes := fun w => map_slotPut w ‹_› (same _) }
  · exact refl s

theorem mapTotes {f : Tote → Tote} (same : ∀ k x, toteKept (k, f x) = toteKept (k, x)) (s : State) :
    KeepsRecords s (s.mapTotes f) where
  totes := fun _ => by
    unfold State.mapTotes
    rw [List.map_map]
    exact List.map_congr_left (fun q _ => same q.1 q.2)

theorem modOrder {k : OrderSlot} {f : Order → Order} (same : ∀ o, orderKept (k, f o) = orderKept (k, o)) (s : State) :
    KeepsRecords s (s.modOrder k f) := by
  unfold State.modOrder
  split
  · exact putOrder ‹_› (same _)
  · exact refl s

theorem clearTrails (s : State) (k : OrderSlot) : KeepsRecords s (s.clearTrails k) :=
  mapTotes (fun j x => by split <;> rfl) s

theorem leaveReady (s : State) (k : OrderSlot) (o : Order) : KeepsRecords s (s.leaveReady k o) := by
  rw [State.leaveReady_eq]
  exact {}

theorem enterWillcall (s : State) (k : OrderSlot) (r : Reason) : KeepsRecords s (s.enterWillcall k r) := by
  cases h : s.order? k with
  | none => unfold State.enterWillcall; rw [h]; exact refl s
  | some o =>
    rw [State.enterWillcall_eq h]
    exact {
      orders := fun w => map_slotPut w h rfl
      totes := fun w => (clearTrails s k).totes w
      req := .inr rfl }

theorem attempt (s : State) (k : OrderSlot) : KeepsRecords s (s.attempt k) := by
  unfold State.attempt
  split
  · exact refl s
  · split
    · dsimp only
      split
      · exact enterWillcall s k _
      · split
        · refine KeepsRecords.trans (modOrder ?_ s) (clearTrails _ k)
          exact fun _ => rfl
        · exact refl s
    · exact refl s

theorem firstReleaseOf (s : State) (k : ToteSlot) : KeepsRecords s (s.firstReleaseOf k) := by
  unfold State.firstReleaseOf State.firstRelease
  split
  · split
    · exact refl s
    · split
      · exact refl s
      · rename_i found _
        refine KeepsRecords.trans (putOrder found ?_) (attempt _ _)
        rfl
  · exact refl s

theorem driveReport (s : State) : KeepsRecords s s.driveReport := by
  unfold State.driveReport
  split <;> exact {}

theorem releaseTote (s : State) (k : ToteSlot) (limit : Nat) : KeepsRecords s (s.releaseTote k limit) := by
  unfold State.releaseTote State.placeOnLoop
  dsimp only
  have placed := modTote (k := k) (f := fun x => { x with
    location := .loop, sighting := some .seen, laps := 0, lastGate := none
    deadline := some (s.deadlineFromMerge limit) }) (fun _ => rfl) s
  split
  · exact placed.trans (driveReport _)
  · exact placed

theorem restartIdle (s : State) : KeepsRecords s s.restartIdle := by
  unfold State.restartIdle
  split
  · exact {}
  · exact refl s

theorem grantInduct (s : State) (i : InductIx) (k : ToteSlot) : KeepsRecords s (s.grantInduct i k) := by
  unfold State.grantInduct
  have queue : KeepsRecords s ((s.hand (stopFrame (s.inductCfg i).station)).putQueue i (s.queue i).tail) := {}
  exact (((queue.trans (releaseTote _ k _)).trans {}).trans (firstReleaseOf _ k)).trans (restartIdle _)

theorem grantBelt (s : State) : KeepsRecords s s.grantBelt := by
  unfold State.grantBelt
  dsimp only
  split
  · have head : KeepsRecords s { s.hand (stopFrame s.cfg.site.returnStation) with
        merge := { (s.hand (stopFrame s.cfg.site.returnStation)).merge with head := .absent } } := {}
    exact (((head.trans (releaseTote _ _ _)).trans {}).trans (firstReleaseOf _ _)).trans (restartIdle _)
  · exact KeepsRecords.trans {} (restartIdle _)
  · exact refl s

theorem grant (s : State) : KeepsRecords s s.grant := by
  unfold State.grant
  split
  · exact grantBelt s
  · split
    · split
      · exact grantInduct s _ _
      · exact refl s
    · exact refl s

theorem unready (s : State) (l : LaneIx) (e : ReadyEntry) : KeepsRecords s (s.unready l e) := by
  unfold State.unready
  split
  · exact refl s
  · split
    · exact refl s
    · rename_i found _
      exact KeepsRecords.trans {} (putOrder found rfl)

theorem promote (s : State) (l : LaneIx) (k : OrderSlot) : KeepsRecords s (s.promote l k) := by
  unfold State.promote
  split
  · exact refl s
  · split
    · rename_i found _
      exact KeepsRecords.trans {} (putOrder found rfl)
    · exact refl s

theorem readiness (s : State) : KeepsRecords s s.readiness :=
  foldl (fun t l => (foldl (fun u e => unready u l e) _ t).trans (foldl (fun u k => promote u l k) _ _)) allLanes s

end KeepsRecords

/-! ## Readiness -/

theorem State.readyNow_iff {s : State} {k : OrderSlot} {o : Order} {l : LaneIx} :
    s.readyNow k o l = true ↔ ReadyIn s l k o := by
  simp [State.readyNow, State.totesOf, Order.remaining, imp_iff_not_or]

theorem State.unready_absent {s : State} {l : LaneIx} {e : ReadyEntry} (h : s.order? e.order = none) :
    s.unready l e = s := by
  unfold State.unready
  rw [h]

theorem State.unready_stays {s : State} {l : LaneIx} {e : ReadyEntry} {o : Order} (h : s.order? e.order = some o)
    (ready : ReadyIn s l e.order o) : s.unready l e = s := by
  unfold State.unready
  rw [h]
  exact if_pos (State.readyNow_iff.2 ready)

theorem State.unready_leaves {s : State} {l : LaneIx} {e : ReadyEntry} {o : Order} (h : s.order? e.order = some o)
    (ready : ¬ReadyIn s l e.order o) : s.unready l e =
      { s with
        lanes := setRow s.lanes l { s.lane l with ready := (s.lane l).ready.filter (fun d => d.order != e.order) }
        orders := slotPut e.order { o with state := .routed l } s.orders } := by
  unfold State.unready
  rw [h]
  exact if_neg (fun r => ready (State.readyNow_iff.1 r))

theorem State.promote_absent {s : State} {l : LaneIx} {k : OrderSlot} (h : s.order? k = none) : s.promote l k = s := by
  unfold State.promote
  rw [h]

/-- R101: the collect timer of an order that joins the ready list. -/
theorem State.collectExpiry_eq (s : State) (o : Order) :
    s.collectExpiry o = s.now + o.band.elim 0 (fun b => (row s.cfg.bandActive b).collectInterval * 6000000) := by
  unfold State.collectExpiry
  cases o.band <;> rfl

theorem State.promote_joins {s : State} {l : LaneIx} {k : OrderSlot} {o : Order} (h : s.order? k = some o)
    (routed : o.state = .routed l) (ready : ReadyIn s l k o) : s.promote l k =
      { s with
        lanes := setRow s.lanes l { s.lane l with ready := (s.lane l).ready ++
          [⟨k, s.now + o.band.elim 0 (fun b => (row s.cfg.bandActive b).collectInterval * 6000000)⟩] }
        orders := slotPut k { o with state := .ready l } s.orders } := by
  unfold State.promote
  rw [h]
  dsimp only
  rw [if_pos ⟨routed, State.readyNow_iff.2 ready⟩, State.collectExpiry_eq]
  rfl

theorem State.promote_stays {s : State} {l : LaneIx} {k : OrderSlot} {o : Order} (h : s.order? k = some o)
    (no : o.state ≠ .routed l ∨ ¬ReadyIn s l k o) : s.promote l k = s := by
  unfold State.promote
  rw [h]
  refine if_neg (fun both => ?_)
  obtain ⟨routed, ready⟩ := both
  rcases no with n | n
  · exact n routed
  · exact n (State.readyNow_iff.1 ready)

/-! ## The lamp -/

/-- R104: entry 0 is a known tote of a READY order. -/
abbrev WindowReady (s : State) (l : LaneIx) : Prop :=
  ∃ k rest t o m, (s.lane l).queue = .known k :: rest ∧ s.tote? k = some t ∧ s.order? t.order = some o ∧ o.state = .ready m

theorem State.entry0Ready_iff {s : State} {l : LaneIx} : s.entry0Ready l = true ↔ WindowReady s l := by
  unfold State.entry0Ready WindowReady
  constructor
  · intro h
    split at h
    · rename_i k rest queue
      split at h
      · rename_i t tote
        split at h
        · rename_i o order
          split at h
          · rename_i m state
            exact ⟨k, rest, t, o, m, queue, tote, order, state⟩
          · cases h
        · cases h
      · cases h
    · cases h
  · rintro ⟨k, rest, t, o, m, queue, tote, order, state⟩
    simp [queue, tote, order, state]

/-- R104: nothing lights the lamp. -/
abbrev LampDark (s : State) (l : LaneIx) : Prop :=
  s.laneOpen l = false ∨ ((s.lane l).queue = [] ∧ (s.lane l).foreign = none)

theorem State.lampOf_eq (s : State) (l : LaneIx) : s.lampOf l =
    if LampDark s l then .off
    else if (s.lane l).attention = true then .attention
    else if (s.lane l).window = .presented ∧ s.entry0Ready l = true then .steady
    else .slow := by
  unfold State.lampOf LampDark
  simp only [Bool.and_eq_true, beq_iff_eq, List.isEmpty_iff, Option.isNone_iff_eq_none]
  cases s.laneOpen l <;> simp

/-! ## The obligation -/

theorem settle_settled_either (before s : State) : ∃ ends, Settled [] ends before s.grant (settle before s) := by
  by_cases h : HaltEnds s.grant
  · exact ⟨true, settle_settled_halted h⟩
  · exact ⟨false, settle_settled h⟩

/-- The only flags that a settling can raise are OVERBOOKED and ORDER-TO-WILLCALL. -/
theorem settle_flags (before s : State) :
    ∃ flags, (settle before s).req = { s.req with flags := flags } ∧
      (flags = s.req.flags ∨ flags = s.req.flags ||| Flag.overbooked.only ∨
        flags = s.req.flags ||| Flag.orderToWillcall.only ∨
        flags = s.req.flags ||| Flag.orderToWillcall.only ||| Flag.overbooked.only) := by
  obtain ⟨ends, -, -, -, -, rise, calm, -⟩ := settle_settled_either before s
  have granted := (KeepsRecords.grant s).req
  by_cases risen : ∃ l, (settle before s).overbooked l = true ∧ before.overbooked l = false
  · rw [rise risen]
    rcases granted with e | e <;> rw [e]
    · exact ⟨_, rfl, .inr (.inl rfl)⟩
    · exact ⟨_, rfl, .inr (.inr (.inr rfl))⟩
  · rw [calm (fun l o => by by_contra n; exact risen ⟨l, o, Bool.not_eq_true _ ▸ n⟩)]
    rcases granted with e | e <;> rw [e]
    · exact ⟨_, rfl, .inl rfl⟩
    · exact ⟨_, rfl, .inr (.inr (.inl rfl))⟩

/-- A settling keeps the records, their names and the orders' counts. -/
theorem settle_keeps (before s : State) (w : TablesCanonical s) :
    (settle before s).orders.map orderKept = s.orders.map orderKept ∧
      (settle before s).totes.map toteKept = s.totes.map toteKept := by
  obtain ⟨ends, -, orders, -, -, -, -, -, -, totes, -⟩ := settle_settled_either before s
  have granted := KeepsRecords.grant s
  have same : (settle before s).totes.map toteKept = s.grant.totes.map toteKept := by
    rw [totes]
    cases ends <;> simp
  rw [orders, same]
  exact ⟨(granted.trans (KeepsRecords.readiness _)).orders w.1, granted.totes w.2⟩

/-- R103, R104: a settling leaves every lamp and display as they are derived. -/
theorem Settled.counter {forced : List LaneIx} {ends : Bool} {before s t : State} (h : Settled forced ends before s t)
    (l : LaneIx) : (t.lane l).lamp = t.lampOf l ∧ (t.lane l).display = t.displayOf l := by
  obtain ⟨lane, -⟩ := h
  rw [lane l]
  exact ⟨rfl, rfl⟩

/-- Settles O52: the settling of an event from the equations of its five steps. -/
theorem settleFrame : Obligations.SettleFrame := by
  refine ⟨fun before s => ?_, fun before s l => ?_, fun forced before s => ⟨settleLanesWith_settled forced before s, rfl⟩,
    fun before s => ⟨settle_settled_halted, settle_settled⟩, fun s l => ?_, fun s => rfl, fun s l => ?_⟩
  · have inside : Within False False s (settle before s) := (settle_inside before s).toWithin
    obtain ⟨fs, ring, -⟩ := inside.ring
    exact ⟨inside.pending, inside.now, inside.cfg, ⟨fs, ring⟩, settle_flags before s, inside.holders, inside.steady,
      settle_keeps before s⟩
  · obtain ⟨ends, settled⟩ := settle_settled_either before s
    exact ⟨settled.counter l, (settleLanesWith_settled [] before s).counter l⟩
  · exact ⟨fun e h => State.unready_absent h, fun e o h => ⟨State.unready_stays h, State.unready_leaves h⟩,
      fun k h => State.promote_absent h, fun k o h => ⟨State.promote_joins h, State.promote_stays h⟩, rfl⟩
  · rw [State.lampOf_eq]
    refine ⟨fun off => if_pos off, fun off att => ?_, fun off att steady => ?_, fun off att steady => ?_, rfl⟩
    · rw [if_neg off, if_pos att]
    · rw [if_neg off, if_neg (by simp [att]), if_pos ⟨steady.1, State.entry0Ready_iff.2 steady.2⟩]
    · rw [if_neg off, if_neg (by simp [att]), if_neg (fun e => steady ⟨e.1, State.entry0Ready_iff.1 e.2⟩)]

end Sys2Proof.Machine
end

section
/-! PROOFS. CLEAR-LANE and RESTORE-LANE (R40, R41, R185, R186): the lane they open, the records that a restore leaves,
their checks in order, and the frames that follow. -/

namespace Sys2Proof.Machine

/-! ## The lane that is opened -/

/-- R40, R41, R52: everything that the opening of a lane leaves. -/
theorem State.openLane_eq (s : State) (l : LaneIx) (queue : List QueueEntry) (w : Window) :
    s.openLane l queue w =
      let t := s.putLane l { s.lane l with state := .opened, queue := queue, window := w }
      if s.run.state = .estop then t
      else { t with readers := (setRow s.readers (headReader l)
              { s.reader (headReader l) with
                cycle := .wait, window := none, scanPending := false
                scanTimer := some (s.now + (s.laneCfg l).scanInterval * 100) }) } := rfl

section
variable (s : State) (l : LaneIx) (queue : List QueueEntry) (w : Window)

theorem State.openLane_orders : (s.openLane l queue w).orders = s.orders := by
  unfold State.openLane
  dsimp only
  split <;> rfl

theorem State.openLane_totes : (s.openLane l queue w).totes = s.totes := by
  unfold State.openLane
  dsimp only
  split <;> rfl

end

/-- A restored position holds the named tote, or an unknown one. -/
theorem State.restoredEntry_eq (s : State) (tag : Nat) :
    s.restoredEntry tag = (s.findTote tag).elim (.unknown none) (fun q => .known q.1) := by
  unfold State.restoredEntry
  cases s.findTote tag <;> rfl

/-! ## The records of a restore -/

/-- A tote record after a restore to lane l. -/
abbrev Tote.restoredTo (l : LaneIx) (named cleared : Bool) (x : Tote) : Tote :=
  { x with location := if named then .lane l else x.location, trail := if cleared then [] else x.trail }

/-- An order after a restore to lane l. -/
abbrev Order.restoredTo (l : LaneIx) (routed : Bool) (z : Order) : Order :=
  { z with state := if routed then .routed l else z.state }

/-- R40: the totes in the slots of `named` are located LANE(l), and the orders in the slots of `routed` become ROUTED
to l, with the trails of their totes cleared (R12). -/
def State.restoredTo (s : State) (l : LaneIx) (named : ToteSlot → Bool) (routed : OrderSlot → Bool) : State :=
  { s with
    totes := s.totes.map (fun q => (q.1, q.2.restoredTo l (named q.1) (routed q.2.order)))
    orders := s.orders.map (fun q => (q.1, q.2.restoredTo l (routed q.1))) }

/-- A tag of the list names the tote in slot k. -/
def State.namedBy (s : State) (tags : List Nat) (k : ToteSlot) : Bool :=
  tags.any (fun t => (s.findTote t).any (fun q => q.1 == k))

/-- An order was UNASSIGNED. -/
def State.isUnassigned (s : State) (o : OrderSlot) : Bool := (s.order? o).any (fun z => z.state == .unassigned)

/-- R40: the order in slot o was UNASSIGNED, and a tag of the list names a tote of it. -/
def State.routedBy (s : State) (tags : List Nat) (o : OrderSlot) : Bool :=
  s.isUnassigned o && tags.any (fun t => (s.findTote t).any (fun q => q.2.order == o))

section
variable {s : State} {l : LaneIx} {named : ToteSlot → Bool} {routed : OrderSlot → Bool}

theorem State.restoredTo_tote? (k : ToteSlot) : (s.restoredTo l named routed).tote? k =
    (s.tote? k).map (fun x => x.restoredTo l (named k) (routed x.order)) :=
  slotGet_map k (fun k (x : Tote) => x.restoredTo l (named k) (routed x.order)) s.totes

theorem State.restoredTo_order? (o : OrderSlot) :
    (s.restoredTo l named routed).order? o = (s.order? o).map (fun z => z.restoredTo l (routed o)) :=
  slotGet_map o (fun o (z : Order) => z.restoredTo l (routed o)) s.orders

theorem State.restoredTo_findTote (tag : Nat) : (s.restoredTo l named routed).findTote tag =
    (s.findTote tag).map (fun q => (q.1, q.2.restoredTo l (named q.1) (routed q.2.order))) := by
  unfold State.findTote State.restoredTo
  rw [List.find?_map]
  rfl

theorem State.restoredTo_canonical (w : TablesCanonical s) : TablesCanonical (s.restoredTo l named routed) := by
  obtain ⟨orders, totes⟩ := w
  exact ⟨Slots.wf_of_map (f := fun q => (q.1, ())) (by simp [State.restoredTo]) (fun _ => rfl) orders,
    Slots.wf_of_map (f := fun q => (q.1, ())) (by simp [State.restoredTo]) (fun _ => rfl) totes⟩

/-- One more tote is located in the lane. -/
theorem State.restoredTo_putTote (w : TablesCanonical s) {k : ToteSlot} {x : Tote} (h : s.tote? k = some x) :
    (s.restoredTo l named routed).putTote k (x.restoredTo l true (routed x.order)) =
      s.restoredTo l (fun j => named j || j == k) routed := by
  have held := State.restoredTo_tote? (s := s) (l := l) (named := named) (routed := routed) k
  rw [h] at held
  unfold State.putTote
  rw [slotPut_eq_map (State.restoredTo_canonical w).2 held]
  unfold State.restoredTo
  congr 1
  rw [List.map_map]
  refine List.map_congr_left (fun q m => ?_)
  by_cases e : q.1 = k
  · have q2 : q.2 = x := Option.some.inj ((State.tote?_some w m).symm.trans (e ▸ h))
    simp [e, q2]
  · simp [e]

/-- One more order becomes ROUTED to the lane. -/
theorem State.restoredTo_routeTo (w : TablesCanonical s) {o : OrderSlot} {z : Order} (h : s.order? o = some z) :
    (s.restoredTo l named routed).routeTo o l = s.restoredTo l named (fun j => routed j || j == o) := by
  have held := State.restoredTo_order? (s := s) (l := l) (named := named) (routed := routed) o
  rw [h] at held
  unfold State.routeTo State.modOrder
  rw [held]
  dsimp only [Option.map_some]
  unfold State.putOrder State.clearTrails State.mapTotes
  rw [slotPut_eq_map (State.restoredTo_canonical w).1 held]
  unfold State.restoredTo
  simp only [List.map_map]
  congr 1
  · refine List.map_congr_left (fun q m => ?_)
    by_cases e : q.1 = o
    · have q2 : q.2 = z := Option.some.inj ((State.order?_some w m).symm.trans (e ▸ h))
      simp [e, q2]
    · simp [e]
  · refine List.map_congr_left (fun q _ => ?_)
    by_cases e : q.2.order = o <;> simp [e]

end

theorem State.restoredTo_congr {s : State} {l : LaneIx} {named : ToteSlot → Bool} {f g : OrderSlot → Bool}
    (h : ∀ o, f o = g o) : s.restoredTo l named f = s.restoredTo l named g := congrArg _ (funext h)

/-- R40: the restore of a tote. -/
theorem State.restoredTo_restoreTote {s : State} (w : TablesCanonical s) (l : LaneIx) (named : ToteSlot → Bool)
    (routed : OrderSlot → Bool) {tag : Nat} {k : ToteSlot} {x : Tote} (found : s.findTote tag = some (k, x)) :
    (s.restoredTo l named routed).restoreTote l tag =
      s.restoredTo l (fun j => named j || j == k) (fun o => routed o || s.isUnassigned o && o == x.order) := by
  have put := State.restoredTo_putTote (l := l) (named := named) (routed := routed) w
    (State.tote?_some w (State.findTote_mem found))
  have changed : { x.restoredTo l (named k) (routed x.order) with location := .lane l } =
    x.restoredTo l true (routed x.order) := rfl
  unfold State.restoreTote
  rw [State.restoredTo_findTote, found]
  dsimp only [Option.map_some]
  rw [changed, put, State.restoredTo_order?]
  cases order : s.order? x.order with
  | none =>
    refine State.restoredTo_congr (fun o => ?_)
    by_cases e : o = x.order <;> simp [e, State.isUnassigned, order]
  | some z =>
    dsimp only [Option.map_some]
    cases r : routed x.order with
    | true =>
      rw [if_neg (by simp)]
      refine State.restoredTo_congr (fun o => ?_)
      by_cases e : o = x.order <;> simp [e, r]
    | false =>
      by_cases u : z.state = .unassigned
      · rw [if_pos (by simp [u]), State.restoredTo_routeTo w order]
        refine State.restoredTo_congr (fun o => ?_)
        by_cases e : o = x.order
        · simp [e, State.isUnassigned, order, u]
        · simp [beq_false_of_ne e]
      · rw [if_neg (by simp [u])]
        refine State.restoredTo_congr (fun o => ?_)
        by_cases e : o = x.order <;> simp [e, State.isUnassigned, order, u]

/-- R40: the restore of one more entry. -/
theorem State.restoreTote_restoredTo {s : State} (w : TablesCanonical s) (l : LaneIx) (tags : List Nat) (tag : Nat) :
    (s.restoredTo l (s.namedBy tags) (s.routedBy tags)).restoreTote l tag =
      s.restoredTo l (s.namedBy (tags ++ [tag])) (s.routedBy (tags ++ [tag])) := by
  cases found : s.findTote tag with
  | none =>
    have names : s.namedBy (tags ++ [tag]) = s.namedBy tags := by funext j; simp [State.namedBy, found]
    have routes : s.routedBy (tags ++ [tag]) = s.routedBy tags := by funext o; simp [State.routedBy, found]
    rw [names, routes]
    unfold State.restoreTote
    rw [State.restoredTo_findTote, found]
    rfl
  | some q =>
    obtain ⟨k, x⟩ := q
    have names : s.namedBy (tags ++ [tag]) = fun j => s.namedBy tags j || j == k := by
      funext j
      simp [State.namedBy, found, Bool.beq_comm]
    have routes : s.routedBy (tags ++ [tag]) = fun o => s.routedBy tags o || s.isUnassigned o && o == x.order := by
      funext o
      simp [State.routedBy, found, Bool.and_or_distrib_left, Bool.beq_comm]
    rw [names, routes]
    exact State.restoredTo_restoreTote w l _ _ found

/-- R40: the records after an accepted restore. -/
theorem State.foldl_restoreTote {s : State} (w : TablesCanonical s) (l : LaneIx) (tags : List Nat) :
    tags.foldl (fun t n => t.restoreTote l n) s = s.restoredTo l (s.namedBy tags) (s.routedBy tags) := by
  induction tags using List.reverseRecOn with
  | nil =>
    have orders : s.orders.map (fun q => (q.1, q.2.restoredTo l false)) = s.orders := List.map_id _
    have totes : s.totes.map (fun q => (q.1, q.2.restoredTo l false false)) = s.totes := List.map_id _
    simp only [State.restoredTo, State.namedBy, State.routedBy, List.any_nil, Bool.and_false, orders, totes]
    rfl
  | append_singleton tags tag ih => rw [List.foldl_append, ih]; exact State.restoreTote_restoredTo w l tags tag

/-- R40: a restore's entries change the records alone. -/
theorem State.restoreTote_rest (s : State) (l : LaneIx) (tag : Nat) :
    { s.restoreTote l tag with orders := s.orders, totes := s.totes } = s := by
  unfold State.restoreTote State.routeTo State.modOrder State.clearTrails State.mapTotes
  dsimp only
  repeat' split
  all_goals rfl

theorem foldl_restoreTote_rest (l : LaneIx) (tags : List Nat) (s : State) :
    { tags.foldl (fun t n => t.restoreTote l n) s with orders := s.orders, totes := s.totes } = s := by
  induction tags generalizing s with
  | nil => rfl
  | cons t tags ih =>
    have step := congrArg (fun u : State => ({ u with orders := s.orders, totes := s.totes } : State))
      (ih (s.restoreTote l t))
    exact step.trans (s.restoreTote_rest l t)

/-- What a tag list names, in the tables of the one form. -/
theorem State.namedBy_iff {s : State} {tags : List Nat} {k : ToteSlot} :
    s.namedBy tags k = true ↔ ∃ t ∈ tags, ∃ x, s.findTote t = some (k, x) := by
  simp [State.namedBy, Option.any_eq_true]

theorem State.routedBy_iff {s : State} (w : TablesCanonical s) {tags : List Nat} {o : OrderSlot} :
    s.routedBy tags o = true ↔ ∃ k x z, (∃ t ∈ tags, ∃ x, s.findTote t = some (k, x)) ∧ s.tote? k = some x ∧
      x.order = o ∧ s.order? o = some z ∧ z.state = .unassigned := by
  simp only [State.routedBy, State.isUnassigned, Bool.and_eq_true, List.any_eq_true, Option.any_eq_true, beq_iff_eq]
  constructor
  · rintro ⟨⟨z, order, u⟩, t, m, ⟨k, x⟩, found, e⟩
    exact ⟨k, x, z, ⟨t, m, x, found⟩, State.tote?_some w (State.findTote_mem found), e, order, u⟩
  · rintro ⟨k, x, z, ⟨t, m, y, found⟩, held, e, order, u⟩
    have same : y = x := Option.some.inj ((State.tote?_some w (State.findTote_mem found)).symm.trans held)
    exact ⟨⟨z, order, u⟩, t, m, (k, y), found, same ▸ e⟩

/-! ## The checks of a restore -/

/-- R40 check 4 fails at position n of the tags. -/
abbrev TagFails (s : State) (l : LaneIx) (tags : List Nat) (n : Nat) : Prop :=
  tags.getD n 0 ≠ 0 ∧
    (tags.getD n 0 ∈ tags.take n ∨
      ¬∃ k x o, s.findTote (tags.getD n 0) = some (k, x) ∧ x.location = .unplaced ∧
        s.order? x.order = some o ∧ (o.state = .unassigned ∨ o.state = .routed l))

theorem restoreFails_iff {s : State} {l : LaneIx} {tags : List Nat} {n : Nat} :
    RestoreFails s l [] tags n ↔ TagFails s l tags n := by
  unfold RestoreFails TagFails
  rw [← State.restorable_iff, Bool.not_eq_true]
  simp only [List.not_mem_nil, false_or]

section
variable {s : State} {r : Request} {rest : List Request}

/-- The lane that a request names is absent or OPEN. -/
theorem laneTaken_iff {l : LaneIx} :
    (!s.lanePresent l || s.laneOpen l) = true ↔ (s.laneCfg l).capacity = 0 ∨ s.laneOpen l = true := by
  simp [State.lanePresent, LaneEntry.present]

theorem replyClearLane_range (out : 11 < byteAt r.args 0) : replyClearLane r s = ⟨s, .range, []⟩ := by
  unfold replyClearLane
  exact if_pos (by simpa using out)

theorem replyClearLane_ranged (ok : byteAt r.args 0 ≤ 11) :
    replyClearLane r s =
      if !s.lanePresent (laneIx (byteAt r.args 0)) || s.laneOpen (laneIx (byteAt r.args 0)) then ⟨s, .state, []⟩
      else ⟨settleLanesWith [laneIx (byteAt r.args 0)] s (s.openLane (laneIx (byteAt r.args 0)) [] .empty), .ok, []⟩ := by
  unfold replyClearLane
  exact if_neg (by simpa using ok)

/-- The ranges of a RESTORE-LANE. -/
abbrev RestoreRanged (r : Request) : Prop :=
  byteAt r.args 0 ≤ 11 ∧ 1 ≤ (restoreEntries r.args).length ∧ (restoreEntries r.args).length ≤ 8 ∧
    ∀ t ∈ restoreEntries r.args, t ≤ 4095

theorem restoreRanged_iff :
    (byteAt r.args 0 ≤ 11 && inRange 1 8 (restoreEntries r.args).length && (restoreEntries r.args).all (· ≤ 4095)) = true ↔
      RestoreRanged r := by
  simp only [Bool.and_eq_true, decide_eq_true_eq, inRange_iff, List.all_eq_true, and_assoc]

theorem replyRestoreLane_range (out : ¬RestoreRanged r) : replyRestoreLane r s = ⟨s, .range, []⟩ := by
  rw [← restoreRanged_iff, Bool.not_eq_true] at out
  unfold replyRestoreLane
  exact if_pos (by rw [out]; rfl)

/-- What a RESTORE-LANE answers once its lane and its ranges are accepted. -/
def restoreAnswer (s : State) (l : LaneIx) (tags : List Nat) : Reply :=
  match s.restoreFault l [] tags 0 with
  | some n => ⟨s, .conflict, [byte n]⟩
  | none => ⟨settleLanesWith [l] s (s.restore l tags), .ok, []⟩

/-- The checks of a RESTORE-LANE after its ranges. -/
theorem replyRestoreLane_ranged (ok : RestoreRanged r) :
    replyRestoreLane r s =
      if !s.lanePresent (laneIx (byteAt r.args 0)) || s.laneOpen (laneIx (byteAt r.args 0)) then ⟨s, .state, []⟩
      else if (s.laneCfg (laneIx (byteAt r.args 0))).capacity < (restoreEntries r.args).length then ⟨s, .range, []⟩
      else restoreAnswer s (laneIx (byteAt r.args 0)) (restoreEntries r.args) := by
  rw [← restoreRanged_iff] at ok
  unfold replyRestoreLane
  exact if_neg (by rw [ok]; decide)

end

theorem restoreAnswer_conflict {s : State} {l : LaneIx} {tags : List Nat} {n : Nat} (lt : n < tags.length)
    (fails : TagFails s l tags n) (first : ∀ m < n, ¬TagFails s l tags m) :
    restoreAnswer s l tags = ⟨s, .conflict, [byte n]⟩ := by
  unfold restoreAnswer
  rw [State.restoreFault_some s l tags [] 0 n lt (restoreFails_iff.2 fails)
    (fun m lt f => first m lt (restoreFails_iff.1 f)), Nat.zero_add]

theorem restoreAnswer_done {s : State} {l : LaneIx} {tags : List Nat} (good : ∀ n < tags.length, ¬TagFails s l tags n) :
    restoreAnswer s l tags = ⟨settleLanesWith [l] s (s.restore l tags), .ok, []⟩ := by
  unfold restoreAnswer
  rw [State.restoreFault_none s l tags [] 0 (fun m lt f => good m lt (restoreFails_iff.1 f))]

/-- The checks of a RESTORE-LANE for a lane that is present and not OPEN, with entries that fit it. -/
theorem replyRestoreLane_entries {s : State} {r : Request} (ok : RestoreRanged r)
    (present : (s.laneCfg (laneIx (byteAt r.args 0))).capacity ≠ 0) (shut : s.laneOpen (laneIx (byteAt r.args 0)) = false)
    (fit : (restoreEntries r.args).length ≤ (s.laneCfg (laneIx (byteAt r.args 0))).capacity) :
    replyRestoreLane r s = restoreAnswer s (laneIx (byteAt r.args 0)) (restoreEntries r.args) := by
  rw [replyRestoreLane_ranged ok, if_neg (by rw [laneTaken_iff]; simp [present, shut]), if_neg (by omega)]

/-! ## The state that a restore leaves -/

section
variable {s : State} {l : LaneIx} {tags : List Nat}

/-- R40: a restore opens the lane and changes no more than the records. -/
theorem State.restore_rest : { s.restore l tags with orders := s.orders, totes := s.totes } =
    s.openLane l (tags.map (fun t => (s.findTote t).elim (.unknown none) (fun q => .known q.1))) .held := by
  have rest := foldl_restoreTote_rest l tags (s.openLane l (tags.map s.restoredEntry) .held)
  rw [State.openLane_orders, State.openLane_totes] at rest
  rw [← funext s.restoredEntry_eq]
  exact rest

theorem State.restore_records (w : TablesCanonical s) :
    (s.restore l tags).totes = (s.restoredTo l (s.namedBy tags) (s.routedBy tags)).totes ∧
      (s.restore l tags).orders = (s.restoredTo l (s.namedBy tags) (s.routedBy tags)).orders := by
  have orders := s.openLane_orders l (tags.map s.restoredEntry) .held
  have totes := s.openLane_totes l (tags.map s.restoredEntry) .held
  unfold State.restore
  generalize s.openLane l (tags.map s.restoredEntry) .held = t at orders totes
  have found : ∀ tag, t.findTote tag = s.findTote tag := fun tag => by unfold State.findTote; rw [totes]
  have held : ∀ o, t.order? o = s.order? o := fun o => by unfold State.order?; rw [orders]
  have names : t.namedBy tags = s.namedBy tags := by unfold State.namedBy; simp only [found]
  have routes : t.routedBy tags = s.routedBy tags := by unfold State.routedBy State.isUnassigned; simp only [found, held]
  rw [State.foldl_restoreTote (by unfold TablesCanonical; rw [orders, totes]; exact w), names, routes]
  unfold State.restoredTo
  rw [orders, totes]
  exact ⟨rfl, rfl⟩

theorem State.restore_tote? (w : TablesCanonical s) (k : ToteSlot) : (s.restore l tags).tote? k =
    (s.tote? k).map (fun x => x.restoredTo l (s.namedBy tags k) (s.routedBy tags x.order)) := by
  rw [← State.restoredTo_tote?]
  unfold State.tote?
  rw [(State.restore_records w).1]

theorem State.restore_order? (w : TablesCanonical s) (o : OrderSlot) :
    (s.restore l tags).order? o = (s.order? o).map (fun z => z.restoredTo l (s.routedBy tags o)) := by
  rw [← State.restoredTo_order?]
  unfold State.order?
  rw [(State.restore_records w).2]

/-- R40: a restore record by record. -/
theorem State.restore_each (w : TablesCanonical s) :
    let v := s.restore l tags
    let named := fun k => ∃ t ∈ tags, ∃ x, s.findTote t = some (k, x)
    let routes := fun o => ∃ k x z, named k ∧ s.tote? k = some x ∧ x.order = o ∧ s.order? o = some z ∧
      z.state = .unassigned
    (∀ k, s.tote? k = none → v.tote? k = none) ∧ (∀ o, s.order? o = none → v.order? o = none) ∧
    (∀ k x, s.tote? k = some x → ∃ y, v.tote? k = some y ∧
      { y with location := x.location, trail := x.trail } = x ∧
      (named k → y.location = .lane l) ∧ (¬named k → y.location = x.location) ∧
      (routes x.order → y.trail = []) ∧ (¬routes x.order → y.trail = x.trail)) ∧
    (∀ o z, s.order? o = some z →
      (routes o → v.order? o = some { z with state := .routed l }) ∧ (¬routes o → v.order? o = some z)) := by
  intro v named routes
  have names : ∀ k, named k ↔ s.namedBy tags k = true := fun k => State.namedBy_iff.symm
  have routed : ∀ o, routes o ↔ s.routedBy tags o = true := fun o => (State.routedBy_iff w).symm
  simp only [names, routed]
  refine ⟨fun k h => ?_, fun o h => ?_, fun k x h => ?_, fun o z h => ?_⟩
  · rw [State.restore_tote? w, h]
    rfl
  · rw [State.restore_order? w, h]
    rfl
  · exact ⟨_, (State.restore_tote? w k).trans (congrArg _ h), rfl, fun n => if_pos n, fun n => if_neg n,
      fun r => if_pos r, fun r => if_neg r⟩
  · rw [State.restore_order? w, h]
    exact ⟨fun r => by rw [r]; rfl, fun r => by rw [eq_false_of_ne_true r]; rfl⟩

end

/-! ## The lane after the settling -/

theorem State.lane_unready_ne (s : State) {l m : LaneIx} (h : m ≠ l) (e : ReadyEntry) :
    (s.unready m e).lane l = s.lane l := by
  unfold State.unready
  split
  · rfl
  · split
    · rfl
    · rw [State.lane_putOrder, State.lane_modLane, if_neg h]

theorem State.lane_promote_ne (s : State) {l m : LaneIx} (h : m ≠ l) (k : OrderSlot) :
    (s.promote m k).lane l = s.lane l := by
  unfold State.promote
  split
  · rfl
  · split
    · rw [State.lane_putOrder, State.lane_modLane, if_neg h]
    · rfl

/-- A fold of steps that leave a lane alone. -/
theorem lane_foldl {α : Type} {f : State → α → State} {l : LaneIx} (h : ∀ s x, (f s x).lane l = s.lane l) (xs : List α)
    (s : State) : (xs.foldl f s).lane l = s.lane l := by
  induction xs generalizing s with
  | nil => rfl
  | cons x xs ih => exact (ih _).trans (h s x)

/-- R100: readiness finds nothing to do in a lane with no entry and no READY order. -/
theorem State.lane_evalReadiness_idle {s : State} {l : LaneIx} (queue : (s.lane l).queue = [])
    (ready : (s.lane l).ready = []) (m : LaneIx) : (s.evalReadiness m).lane l = s.lane l := by
  unfold State.evalReadiness
  by_cases e : m = l
  · subst e
    simp [ready, State.queueOrders, queue]
  · exact (lane_foldl (fun t k => t.lane_promote_ne e k) _ _).trans (lane_foldl (fun t d => t.lane_unready_ne e d) _ s)

theorem State.lane_readiness_idle {s : State} {l : LaneIx} (queue : (s.lane l).queue = [])
    (ready : (s.lane l).ready = []) : s.readiness.lane l = s.lane l := by
  unfold State.readiness
  induction allLanes generalizing s with
  | nil => rfl
  | cons m ms ih =>
    have step := State.lane_evalReadiness_idle queue ready m
    exact (ih (step ▸ queue) (step ▸ ready)).trans step

/-- R185, R186: the settling hands both frames of a forced lane over, the LAMP before the DISPLAY. -/
theorem Settled.forced_frames {forced : List LaneIx} {ends : Bool} {before s u : State}
    (h : Settled forced ends before s u) {l : LaneIx} (f : l ∈ forced) :
    ∃ first last, u.ring.outbox = first ++
      [lampFrame (s.laneCfg l).station (u.lane l).lamp, displayFrame (s.laneCfg l).station (u.lane l).display] ++ last := by
  obtain ⟨-, -, ring, -⟩ := h
  obtain ⟨sent, out⟩ : ∃ sent, u.ring.outbox = sent ++ allLanes.flatMap (counterChange forced s u) :=
    ⟨_, congrArg (·.outbox) ring⟩
  have own : counterChange forced s u l =
      [lampFrame (s.laneCfg l).station (u.lane l).lamp, displayFrame (s.laneCfg l).station (u.lane l).display] := by
    unfold counterChange
    rw [if_pos (.inl f), if_pos (.inl f)]
    rfl
  obtain ⟨low, high, split⟩ := List.append_of_mem (allLanes_mem l)
  refine ⟨sent ++ low.flatMap (counterChange forced s u), high.flatMap (counterChange forced s u), ?_⟩
  rw [out, split, List.flatMap_append, List.flatMap_cons, own]
  simp only [List.append_assoc]

/-- R103, R104: an empty lane with no foreign tote and no READY order is dark. -/
theorem Settled.dark {forced : List LaneIx} {ends : Bool} {before s u : State} (h : Settled forced ends before s u)
    {l : LaneIx} (queue : (s.lane l).queue = []) (foreign : (s.lane l).foreign = none) (ready : (s.lane l).ready = []) :
    (u.lane l).lamp = .off ∧ (u.lane l).display = [] := by
  obtain ⟨lamp, display⟩ := h.counter l
  obtain ⟨lane, -⟩ := h
  have empty : (u.lane l).queue = [] ∧ (u.lane l).foreign = none := by rw [lane l]; exact ⟨queue, foreign⟩
  have none_ready : (u.lane l).ready = [] := by
    rw [lane l]
    dsimp only
    rw [State.lane_readiness_idle queue ready, ready]
  refine ⟨lamp.trans ((State.lampOf_eq u l).trans (if_pos (.inr empty))), display.trans ?_⟩
  unfold State.displayOf
  rw [none_ready]
  rfl

/-! ## The obligation -/

/-- Settles O46: the checks of both requests, the lane and the records of a restore, and the frames of a settling that
names a lane. -/
theorem laneOpening : Obligations.LaneOpening := by
  refine ⟨fun s r rest => ⟨fun h => ⟨fun out => ?_, fun ok => ⟨fun taken => ?_, fun present shut => ?_⟩⟩,
    fun h => ⟨fun out => ?_, fun lane some few small => ?_⟩, fun queue w => rfl⟩, fun before s l => ?_⟩
  · exact exec_replied rfl h (replyClearLane_range out)
  · exact exec_replied rfl h ((replyClearLane_ranged ok).trans (if_pos (laneTaken_iff.2 taken)))
  · exact exec_replied rfl h ((replyClearLane_ranged ok).trans
      (if_neg (fun t => (laneTaken_iff.1 t).elim present (by simp [shut]))))
  · exact exec_replied rfl h (replyRestoreLane_range out)
  · have ok : RestoreRanged r := ⟨lane, some, few, small⟩
    refine ⟨fun taken => ?_, fun present shut => ⟨fun long => ?_, fun fit => ⟨fun n lt fails first => ?_, fun good => ?_⟩⟩⟩
    · exact exec_replied rfl h ((replyRestoreLane_ranged ok).trans (if_pos (laneTaken_iff.2 taken)))
    · exact exec_replied rfl h ((replyRestoreLane_ranged ok).trans
        ((if_neg (fun t => (laneTaken_iff.1 t).elim present (by simp [shut]))).trans (if_pos long)))
    · exact exec_replied rfl h ((replyRestoreLane_entries (s := s.popRequest rest) ok present shut fit).trans
        (restoreAnswer_conflict (s := s.popRequest rest) lt fails first))
    · exact ⟨_, exec_replied rfl h ((replyRestoreLane_entries (s := s.popRequest rest) ok present shut fit).trans
        (restoreAnswer_done (s := s.popRequest rest) good)), State.restore_rest,
        fun w => State.restore_each (s := s.popRequest rest) w⟩
  · have settled := settleLanesWith_settled [l] before s
    obtain ⟨lamp, display⟩ := settled.counter l
    exact ⟨settled.forced_frames List.mem_cons_self, lamp, display,
      fun queue foreign ready _ => settled.dark queue foreign ready⟩

end Sys2Proof.Machine
end

section
/-! PROOFS. The Reader Unit (chapter 3): what a reader index stands for, the EYE that opens a window (R46 to R48), and
the result that completes a cycle or comes late (R46, R49, R51, R53, R56). -/

namespace Sys2Proof.Machine

/-! ## What a reader index stands for (section 3.1) -/

theorem roleOf_gate {r : ReaderIx} {g : GateIx} (h : r.val = g.val) : roleOf r = .gate g := by
  rw [show r = gateReader g from Fin.ext h, roleOf_gateReader]

theorem roleOf_induct {r : ReaderIx} {i : InductIx} (h : r.val = 16 + i.val) : roleOf r = .induct i := by
  rw [show r = inductReader i from Fin.ext h, roleOf_inductReader]

theorem roleOf_head {r : ReaderIx} {l : LaneIx} (h : r.val = 20 + l.val) : roleOf r = .head l := by
  rw [show r = headReader l from Fin.ext h, roleOf_headReader]

theorem roleOf_returnHead {r : ReaderIx} (h : r.val = 32) : roleOf r = .returnHead := by
  rw [show r = returnHeadReader from Fin.ext h]; rfl

theorem roleOf_exit {r : ReaderIx} (h : r.val = 33) : roleOf r = .exit := by
  rw [show r = exitReader from Fin.ext h]; rfl

theorem roleOf_last {r : ReaderIx} (h : 32 ≤ r.val) : roleOf r = .returnHead ∨ roleOf r = .exit := by
  obtain e | e : r.val = 32 ∨ r.val = 33 := by omega
  · exact .inl (roleOf_returnHead e)
  · exact .inr (roleOf_exit e)

/-- The triggered readers but those of the gates. -/
theorem roleOf_triggered {r : ReaderIx} (h : (16 ≤ r.val ∧ r.val < 20) ∨ 32 ≤ r.val) :
    (∃ i, roleOf r = .induct i) ∨ roleOf r = .returnHead ∨ roleOf r = .exit := by
  obtain ⟨lo, hi⟩ | last := h
  · have e : r.val = 16 + (⟨r.val - 16, by omega⟩ : InductIx).val := by dsimp only; omega
    exact .inl ⟨_, roleOf_induct e⟩
  · exact .inr (roleOf_last last)

/-- The reader of a gate is the one whose role names it. -/
theorem gateReader_of_roleOf {r : ReaderIx} {g : GateIx} (h : roleOf r = .gate g) : r = gateReader g := by
  revert g; revert r; decide

theorem roleOf_ne_gate {r : ReaderIx} (h : 16 ≤ r.val) (g : GateIx) : roleOf r ≠ .gate g := by
  intro e
  have v : r.val = g.val := congrArg Fin.val (gateReader_of_roleOf e)
  omega

theorem State.trackRuns_iff (s : State) : s.trackRuns = true ↔ s.run.state = .running ∨ s.run.state = .halting := by
  simp [State.trackRuns]

/-- R44: a gate is served while the track runs. -/
theorem State.gate_fields (s : State) {r : ReaderIx} {g : GateIx} (h : r.val = g.val) :
    (s.enabled r = true ↔ (s.gateCfg g).present = true) ∧ s.stationOf r = (s.gateCfg g).station ∧
      (s.inService r = true ↔ s.run.state = .running ∨ s.run.state = .halting) ∧
      s.windowLength r = (s.gateCfg g).decisionWindow * 100 := by
  simp [State.enabled, State.stationOf, State.inService, State.windowLength, roleOf_gate h, State.trackRuns_iff,
    milliseconds]

/-- R44: a lane's reader is served while the lane is OPEN, outside ESTOP. -/
theorem State.head_fields (s : State) {r : ReaderIx} {l : LaneIx} (h : r.val = 20 + l.val) :
    (s.enabled r = true ↔ (s.laneCfg l).capacity ≠ 0) ∧ s.stationOf r = (s.laneCfg l).station ∧
      (s.inService r = true ↔ s.laneOpen l = true ∧ s.run.state ≠ .estop) := by
  simp [State.enabled, State.stationOf, State.inService, roleOf_head h, State.lanePresent, LaneEntry.present]

/-- R44: the other triggered readers are served outside ESTOP. -/
theorem State.inService_triggered (s : State) {r : ReaderIx} (h : (16 ≤ r.val ∧ r.val < 20) ∨ 32 ≤ r.val) :
    s.inService r = true ↔ s.run.state ≠ .estop := by
  obtain ⟨i, e⟩ | e | e := roleOf_triggered h <;> simp [State.inService, e]

/-- Section 3.1: the window of a reader that is no gate's is 250 ms long. -/
theorem State.windowLength_fixed (s : State) {r : ReaderIx} (h : 16 ≤ r.val) : s.windowLength r = 25000 := by
  unfold State.windowLength
  split
  next g e => exact absurd e (roleOf_ne_gate h g)
  all_goals rfl

theorem State.discardFirst_last (s : State) {r : ReaderIx} (h : 32 ≤ r.val) :
    s.discardFirst r = s.cfg.site.discardFirst := by
  obtain e | e := roleOf_last h <;> simp [State.discardFirst, e]

/-! ## An EYE at a reader (R46 to R48) -/

section
variable {s : State} {r : ReaderIx}

theorem State.eye_reached {rs : List ReaderIx} {a : Nat} (h : ReachedBy s rs a r) : s.eye rs a = s.eyeAt r := by
  simp only [State.eye, h]

theorem State.eye_unreached {rs : List ReaderIx} {a : Nat} (h : ∀ q ∈ rs, s.enabled q = true → s.stationOf q ≠ a) :
    s.eye rs a = s := by
  have unfound : rs.find? (fun q => s.enabled q && s.stationOf q == a) = none := by simpa using h
  simp only [State.eye, unfound]

theorem State.eyeAt_idle (serv : s.inService r = true) (idle : (s.reader r).cycle = .idle) :
    s.eyeAt r = s.openWindow r := by
  simp only [State.eyeAt, serv, idle, if_true]

theorem State.eyeAt_opened (serv : s.inService r = true) (opened : (s.reader r).cycle = .opened) :
    s.eyeAt r = s.crowd r := by
  simp only [State.eyeAt, serv, opened, if_true]

theorem State.eyeAt_unserved (serv : s.inService r = false) : s.eyeAt r = s := by
  simp [State.eyeAt, serv]

end

/-- Settles O11: the event of a trigger row by what its EYE finds, and the readers of section 3.1 by their roles. -/
theorem triggerEyes : Obligations.TriggerEyes := by
  refine ⟨fun s h c rs role r quiet heard row at_ serv idle => ?_, fun s h c rs role quiet heard row => ⟨?_, ?_, ?_⟩,
    by decide, by decide, by decide, fun s r => ⟨fun g => s.gate_fields, fun i e => ?_, fun l => s.head_fields,
      fun e => ?_, fun e => ?_, s.inService_triggered, s.windowLength_fixed⟩⟩
  · rw [exec_trigger quiet heard row, State.eye_reached at_, State.eyeAt_idle serv idle]
    rfl
  · intro r at_ serv opened
    rw [exec_trigger quiet heard row, State.eye_reached at_, State.eyeAt_opened serv opened]
    rfl
  · intro r at_ serv
    rw [exec_trigger quiet heard row, State.eye_reached at_, State.eyeAt_unserved serv]
  · intro other
    rw [exec_trigger quiet heard row, State.eye_unreached other]
  · simp [State.enabled, State.stationOf, roleOf_induct e]
  · simp [State.enabled, State.stationOf, roleOf_returnHead e]
  · simp [State.enabled, State.stationOf, roleOf_exit e]

/-! ## The open reader of a station (R46, R51) -/

/-- R46: of the enabled OPEN readers of a station the lowest. -/
theorem State.openReaderOf_eq_some_iff (s : State) (a : Nat) (r : ReaderIx) :
    s.openReaderOf a = some r ↔
      (s.enabled r = true ∧ s.stationOf r = a ∧ (s.reader r).cycle = .opened) ∧
        ∀ q < r, s.enabled q = true → s.stationOf q = a → (s.reader q).cycle ≠ .opened := by
  unfold State.openReaderOf allReaders
  simp [find?_finRange_eq_some_iff, and_assoc]

theorem State.openReaderOf_eq_none_iff (s : State) (a : Nat) :
    s.openReaderOf a = none ↔ ∀ r, s.enabled r = true → s.stationOf r = a → (s.reader r).cycle ≠ .opened := by
  simp [State.openReaderOf, allReaders]

theorem State.resultFrame_opened {s : State} {a : Nat} {r : ReaderIx} (h : s.openReaderOf a = some r)
    (res : ReadResult) : s.resultFrame a res = s.complete r res := by
  simp only [State.resultFrame, h]

theorem State.resultFrame_late {s : State} {a : Nat} (h : s.openReaderOf a = none) (res : ReadResult) :
    s.resultFrame a res = s := by
  simp only [State.resultFrame, h]

/-- Settles O15: no reader of the station is OPEN. -/
theorem lateResultChangesNothing : Obligations.LateResultChangesNothing := by
  intro s h c res kind payload quiet heard row late
  have none_open : s.openReaderOf h.src.toNat = none := by
    refine (s.openReaderOf_eq_none_iff _).2 fun r en at_ opened => ?_
    obtain e | e := late r en at_ <;> simp [opened] at e
  rw [exec_result quiet heard row, State.resultFrame_late none_open]

/-! ## The completion of a cycle (R49, R50, R53, R55, R56) -/

section
variable (s : State) (r : ReaderIx) (res : ReadResult)

/-- R45, R49, R56: a reader that has completed a cycle and runs no timer. -/
abbrev State.idleWith : Reader :=
  ⟨.idle, none, false, none, false, (s.reader r).crowded, some ⟨res, (s.reader r).fresh && s.discardFirst r⟩⟩

theorem State.finishCycle_gate {g : GateIx} (h : roleOf r = .gate g) :
    s.finishCycle r res = (s.putReader r (s.idleWith r res)).restartIdle := by
  simp only [State.finishCycle, h]
  rfl

theorem State.finishCycle_triggered (h : (16 ≤ r.val ∧ r.val < 20) ∨ 32 ≤ r.val) :
    s.finishCycle r res = s.putReader r (s.idleWith r res) := by
  obtain ⟨i, e⟩ | e | e := roleOf_triggered h <;>
  · simp only [State.finishCycle, e]
    rfl

theorem State.finishCycle_head {l : LaneIx} (h : roleOf r = .head l) :
    s.finishCycle r res = s.putReader r ((s.idleWith r res).toWait (s.now + (s.laneCfg l).scanInterval * 100)) := by
  simp only [State.finishCycle, h]
  rfl

theorem State.complete_eq :
    s.complete r res = settle s ((s.finishCycle r res).deliver r
      (if (s.reader r).fresh = true ∧ s.discardFirst r = true then .none else res)) := by
  simp [State.complete, State.delivered, State.discards]

theorem State.complete_none : s.complete r .none = settle s ((s.finishCycle r .none).deliver r .none) := by
  rw [State.complete_eq, ite_self]

end

theorem State.restartIdle_running {s : State} (h : s.drive.state = .running) :
    s.restartIdle = { s with drive := { s.drive with idle := some (s.now + s.cfg.drive.idleInterval * 100000) } } := by
  simp [State.restartIdle, h, seconds]

theorem State.restartIdle_not_running {s : State} (h : s.drive.state ≠ .running) : s.restartIdle = s := by
  simp [State.restartIdle, h]

theorem tagResult_outside {v : Nat} (h : v = 0 ∨ 4095 < v) : tagResult v = .noread := if_neg (by omega)

/-- Settles O14: the lowest OPEN reader of the station completes, and its own state by its class. -/
theorem resultCompletesCycle : Obligations.ResultCompletesCycle := by
  refine ⟨fun s h c res kind payload r quiet heard row en at_ opened low => ?_,
    fun s r res => ⟨fun gate runs => ?_, fun gate rests => ?_, fun other => s.finishCycle_triggered r res other,
      fun l e => s.finishCycle_head r res (roleOf_head e)⟩,
    fun s r => ⟨fun g e => ?_, fun i e => ?_, fun l e => ?_, s.discardFirst_last⟩,
    fun v => ⟨tagResult_outside, fun lo hi => if_pos ⟨lo, hi⟩⟩⟩
  · have reached := (s.openReaderOf_eq_some_iff h.src.toNat r).2 ⟨⟨en, at_, opened⟩, low⟩
    rw [exec_result quiet heard row, State.resultFrame_opened reached, State.complete_eq]
  · exact (s.finishCycle_gate r res (roleOf_gate (g := ⟨r.val, gate⟩) rfl)).trans (State.restartIdle_running runs)
  · exact (s.finishCycle_gate r res (roleOf_gate (g := ⟨r.val, gate⟩) rfl)).trans (State.restartIdle_not_running rests)
  · simp [State.discardFirst, roleOf_gate e]
  · simp [State.discardFirst, roleOf_induct e]
  · simp [State.discardFirst, roleOf_head e]

end Sys2Proof.Machine
end

section
/-! PROOFS. The expiries of the readers' and the lanes' timers (R50, R52, R92, R101, R106). -/

namespace Sys2Proof.Machine

/-! ## Timers that run -/

theorem atExpiry_runs {timer : Option Time} {e : Time} (h : timer = some e) (s : State) (act : State → State) :
    atExpiry timer s act = closeEvent (s.advanceTo e) (act (s.advanceTo e)) := by
  subst h
  rfl

theorem Reader.openWindow_opened {x : Reader} (h : x.cycle = .opened) : x.openWindow = x.window := if_pos h

theorem Reader.interval_waits {x : Reader} (h : x.cycle = .wait) (p : x.scanPending = false) :
    x.interval = x.scanTimer := if_pos ⟨h, p⟩

theorem Lane.advanceLimit_advancing {x : Lane} (h : x.window = .advancing) : x.advanceLimit = x.advance := if_pos h

theorem State.collectTimer_ready {s : State} {k : OrderSlot} {o : Order} {l : LaneIx} (h : o.state = .ready l) :
    s.collectTimer k o = ((s.lane l).ready.find? (fun x => x.order == k)).map (·.collect) := by
  simp only [State.collectTimer, h]

/-! ## What the expiries do -/

section
variable (s : State) (l : LaneIx)

theorem State.scanDue_room (h : s.ring.routine.length < 32) :
    s.scanDue l = (s.putReader (headReader l)
      { s.reader (headReader l) with scanPending := true, scanTimer := none }).hand
        (scanFrame (s.laneCfg l).station) := by
  simp only [State.scanDue, h, if_true]

theorem State.scanDue_full (h : 32 ≤ s.ring.routine.length) :
    s.scanDue l = (s.putReader (headReader l)
      { s.reader (headReader l) with scanTimer := some (s.now + (s.laneCfg l).scanInterval * 100) }).hand
        (scanFrame (s.laneCfg l).station) := by
  simp only [State.scanDue, Nat.not_lt.2 h, if_false]
  rfl

theorem State.takeAttention_modLane (f : Lane → Lane) :
    (s.modLane l f).takeAttention l = (s.putLane l { f (s.lane l) with attention := true }).raise .laneAttention := by
  simp [State.takeAttention, State.modLane_eq]

theorem State.advanceEnds_eq :
    s.advanceEnds l = (s.putLane l { s.lane l with
      window := .held, foreign := none, advance := none, attention := true }).raise .laneAttention :=
  s.takeAttention_modLane l _

theorem State.unattendedAt_eq :
    let v := (s.putLane l { s.lane l with unattended := .expired, attention := true }).raise .laneAttention
    s.unattendedAt l =
      if (s.laneCfg l).unattendedAction = .autoReturn ∧ (s.lane l).toteAtWindow = true then v.askReturn l else v := by
  simp [State.unattendedAt, State.takeAttention_modLane]

end

theorem State.collectEnds_ready {s : State} {ticket : Nat} {k : OrderSlot} {o : Order} {l : LaneIx} {e : Time}
    (found : s.findOrder ticket = some (k, o)) (ready : o.state = .ready l)
    (timer : ((s.lane l).ready.find? (fun x => x.order == k)).map (·.collect) = some e) :
    s.collectEnds ticket =
      closeEvent (s.advanceTo e) (settleLanes (s.advanceTo e) ((s.advanceTo e).enterWillcall k .expired)) := by
  simp only [State.collectEnds, found]
  exact atExpiry_runs ((State.collectTimer_ready ready).trans timer) s _

/-- Settles O49: the timer that runs in each case, and what its expiry does. -/
theorem readerAndLaneTimers : Obligations.ReaderAndLaneTimers := by
  refine ⟨fun s e => ⟨fun r opened timer => ?_, fun l waits unasked timer => ?_⟩,
    fun s l e => ⟨fun advancing timer => ?_, fun timer => ?_, fun ticket k o found ready timer => ?_⟩⟩
  · refine congrArg Host.Outcome.next ((atExpiry_runs ((Reader.openWindow_opened opened).trans timer) s _).trans ?_)
    rw [State.complete_none]
  · have due := atExpiry_runs ((Reader.interval_waits waits unasked).trans timer) s (fun t => t.scanDue l)
    refine ⟨fun room => ?_, fun full => ?_⟩
    · refine congrArg Host.Outcome.next (due.trans ?_)
      rw [State.scanDue_room (s.advanceTo e) l room]
      rfl
    · refine congrArg Host.Outcome.next (due.trans ?_)
      rw [State.scanDue_full (s.advanceTo e) l full]
      rfl
  · refine congrArg Host.Outcome.next
      ((atExpiry_runs ((Lane.advanceLimit_advancing advancing).trans timer) s _).trans ?_)
    rw [State.advanceEnds_eq]
    rfl
  · have running : (s.lane l).unattended.expiry = some e := by rw [timer]; rfl
    refine congrArg Host.Outcome.next ((atExpiry_runs running s _).trans ?_)
    rw [State.unattendedAt_eq]
    rfl
  · exact congrArg Host.Outcome.next (State.collectEnds_ready found ready timer)

end Sys2Proof.Machine
end

section
/-! PROOFS. A result delivered at a gate (R65, R66), the next present gate (R64), and the entry of a tote onto the loop
with its report to the drive (R10, R154). -/

namespace Sys2Proof.Machine

/-! ## The delivered result (R65, R66) -/

theorem State.deliver_gateReader (s : State) (g : GateIx) (res : ReadResult) :
    s.deliver (gateReader g) res = s.gateResult g res := by
  unfold State.deliver
  rw [roleOf_gateReader]

theorem State.gateResult_unknownTag {s : State} {tag : Nat} (h : s.findTote tag = none) (g : GateIx) :
    s.gateResult g (.tag tag) = s.raise .strayTote := by
  simp only [State.gateResult, h]

theorem State.gateResult_knownTag {s : State} {tag : Nat} {k : ToteSlot} {x : Tote} (h : s.findTote tag = some (k, x))
    (g : GateIx) : s.gateResult g (.tag tag) = ((s.relocateToLoop k x.location).loopUpdate g k).decide g k := by
  simp only [State.gateResult, h]

theorem State.relocateToLoop_loop {loc : Location} (h : loc = .loop) (s : State) (k : ToteSlot) :
    s.relocateToLoop k loc = s := if_pos h

theorem State.relocateToLoop_elsewhere {loc : Location} (h : loc ≠ .loop) (s : State) (k : ToteSlot) :
    s.relocateToLoop k loc = (((s.removeTote k).raise .strayTote).placeOnLoop k id).readiness := if_neg h

/-- R66: the tote is seen at the gate, and its deadline is armed to the next present one. -/
theorem State.loopUpdate_eq {s : State} {k : ToteSlot} {x : Tote} (h : s.tote? k = some x) (g : GateIx) :
    s.loopUpdate g k =
      { s with totes := (slotPut k
          { x with
            sighting := some .seen, lastGate := some g
            deadline := some ⟨s.now + (s.gateCfg g).transitLimit * 10000, s.nextGate g⟩ } s.totes) } :=
  State.modTote_eq h _

/-! ## The next present gate (R64) -/

theorem allGates_eq : allGates = List.finRange 16 := by decide

theorem State.nextGate_above {s : State} {g h : GateIx} (present : (s.gateCfg h).present = true) (above : g < h) :
    (s.gateCfg (s.nextGate g)).present = true ∧ g < s.nextGate g ∧ s.nextGate g ≤ h := by
  unfold State.nextGate
  rw [allGates_eq]
  split
  next n found =>
    obtain ⟨holds, low⟩ := (find?_finRange_eq_some_iff _ _).1 found
    rw [Bool.and_eq_true, decide_eq_true_iff] at holds
    refine ⟨holds.2, holds.1, not_lt.1 fun below => ?_⟩
    simpa [above, present] using low h below
  next unfound =>
    rw [List.find?_eq_none] at unfound
    exact absurd (by simp [above, present]) (unfound h (List.mem_finRange h))

/-- Past the last present gate the search starts again at G0. -/
theorem State.nextGate_around {s : State} {g h : GateIx} (last : ∀ m, (s.gateCfg m).present = true → m ≤ g)
    (present : (s.gateCfg h).present = true) :
    (s.gateCfg (s.nextGate g)).present = true ∧ s.nextGate g ≤ h := by
  have noneAbove : allGates.find? (fun m => g < m && (s.gateCfg m).present) = none := by
    rw [List.find?_eq_none]
    intro m _ holds
    rw [Bool.and_eq_true, decide_eq_true_iff] at holds
    exact absurd holds.1 (not_lt.2 (last m holds.2))
  have next : s.nextGate g = (allGates.find? (fun m => (s.gateCfg m).present)).getD g := by
    simp only [State.nextGate, noneAbove]
  rw [next, allGates_eq]
  cases found : (List.finRange 16).find? (fun m => (s.gateCfg m).present) with
  | none => exact absurd present (List.find?_eq_none.1 found h (List.mem_finRange h))
  | some n =>
    obtain ⟨holds, low⟩ := (find?_finRange_eq_some_iff _ _).1 found
    refine ⟨holds, not_lt.1 fun below => ?_⟩
    simpa [present] using low h below

/-! ## Entry onto the loop (R10, R154) -/

theorem State.driveReport_stands {s : State}
    (h : s.drive.state = .off ∨ s.drive.state = .starting ∨ s.drive.state = .running) : s.driveReport = s := by
  unfold State.driveReport
  rcases h with e | e | e <;> rw [e]

theorem State.driveReport_stopping {s : State} (h : s.drive.state = .stopping) :
    s.driveReport = { s with drive := { s.drive with wakePending := true } } := by
  unfold State.driveReport
  rw [h]

theorem State.driveReport_resting {s : State} (h : s.drive.state = .resting) : s.driveReport = s.startDrive := by
  unfold State.driveReport
  rw [h]

theorem State.loopOccupancy_eq_zero_iff (s : State) :
    s.loopOccupancy = 0 ↔ ∀ q ∈ s.totes, q.2.location ≠ .loop := by
  simp [State.loopOccupancy]

section
variable {s : State} {k : ToteSlot} {x : Tote}

/-- The record of a tote that comes onto the loop. -/
abbrev Tote.onLoop (f : Tote → Tote) (x : Tote) : Tote := f { x with location := .loop, sighting := some .seen }

theorem State.placeOnLoop_occupied (h : s.tote? k = some x) (f : Tote → Tote)
    (occupied : ∃ q ∈ s.totes, q.2.location = .loop) : s.placeOnLoop k f = s.putTote k (x.onLoop f) := by
  have ne : ¬(s.loopOccupancy == 0) = true := by
    rw [beq_iff_eq, State.loopOccupancy_eq_zero_iff]
    obtain ⟨q, m, e⟩ := occupied
    exact fun clear => clear q m e
  exact (if_neg ne).trans (State.modTote_eq h _)

theorem State.placeOnLoop_empty (h : s.tote? k = some x) (f : Tote → Tote)
    (empty : ∀ q ∈ s.totes, q.2.location ≠ .loop) :
    s.placeOnLoop k f = (s.putTote k (x.onLoop f)).driveReport := by
  have zero : (s.loopOccupancy == 0) = true := by rwa [beq_iff_eq, State.loopOccupancy_eq_zero_iff]
  exact (if_pos zero).trans (congrArg State.driveReport (State.modTote_eq h _))

end

/-! ## The obligation -/

/-- Settles O16: the cases of a delivered result, the search for the next present gate, and the report by the state of
the drive. -/
theorem gateDelivery : Obligations.GateDelivery := by
  refine ⟨fun s g => ?_, fun s g => ⟨fun h present above => State.nextGate_above present above,
    fun last h present => State.nextGate_around last present⟩, fun s k f x ht => ?_⟩
  · simp only [State.deliver_gateReader]
    refine ⟨rfl, rfl, rfl, fun t unknown => State.gateResult_unknownTag unknown g, fun t k x known ht loop => ?_,
      fun t k x known elsewhere => ?_⟩
    · rw [State.gateResult_knownTag known, State.relocateToLoop_loop loop, State.loopUpdate_eq ht]
    · rw [State.gateResult_knownTag known, State.relocateToLoop_elsewhere elsewhere]
  · refine ⟨State.placeOnLoop_occupied ht f, fun empty => ?_⟩
    have placed := State.placeOnLoop_empty ht f empty
    exact ⟨fun stands => placed.trans (State.driveReport_stands stands),
      fun stopping => placed.trans (State.driveReport_stopping stopping),
      fun resting => placed.trans (State.driveReport_resting resting)⟩

end Sys2Proof.Machine
end

section
/-! PROOFS. The decisions at the gates: a LANE gate by the answer of its lane (R35, R39, R69 to R74), the lap gate (R68)
and the will-call gate (R75). -/

namespace Sys2Proof.Machine

theorem State.orderOf_eq {s : State} {k : ToteSlot} {x : Tote} {o : Order} (ht : s.tote? k = some x)
    (ho : s.order? x.order = some o) : s.orderOf k = some (x.order, o) := by
  simp only [State.orderOf, ht, ho, Option.map_some]

/-! ## Records changed in place -/

theorem State.tote?_clearTrails (s : State) (o : OrderSlot) (k : ToteSlot) :
    (s.clearTrails o).tote? k = (s.tote? k).map (fun t => if t.order = o then { t with trail := [] } else t) :=
  slotGet_map k (fun _ (t : Tote) => if t.order = o then { t with trail := [] } else t) s.totes

@[simp] theorem State.tote?_putTote_same (s : State) (k : ToteSlot) (x : Tote) : (s.putTote k x).tote? k = some x :=
  slotGet_slotPut_same k x s.totes

theorem State.putTote_putTote (s : State) (k : ToteSlot) (x y : Tote) :
    (s.putTote k x).putTote k y = s.putTote k y := by
  simp [State.putTote]

theorem State.push_eq {s : State} {k : ToteSlot} {x : Tote} (h : s.tote? k = some x) (g : GateIx) (o : Outcome) :
    s.push k g o = s.putTote k { x with trail := pushTrail ⟨g, o⟩ x.trail } := State.modTote_eq h _

/-! ## The decisions at a LANE gate -/

/-- R70: the blade, the incoming list of the lane, and the record. -/
theorem State.divert_eq {s : State} {k : ToteSlot} {x : Tote} (h : s.tote? k = some x) (g : GateIx) (l : LaneIx) :
    s.divert g l k =
      { (s.hand (bladeFrame (s.gateCfg g).station)).putLane l
          { s.lane l with
            incoming := (s.lane l).incoming ++ [⟨k, some (s.now + (s.laneCfg l).confirmLimit * 100)⟩] } with
        totes := (slotPut k
          { x with
            location := .incoming l, sighting := none, deadline := none
            trail := pushTrail ⟨g, .diverted⟩ x.trail } s.totes) } := by
  unfold State.divert
  extract_lets t u
  have stands : u.tote? k = some x := h
  have moved := State.modTote_eq stands
    (fun r => { r with location := .incoming l, sighting := none, deadline := none })
  rw [moved, State.push_eq (State.tote?_putTote_same _ _ _), State.putTote_putTote]
  rfl

/-- R39: the lane that an order is redirected to is the alternate, where no tote of the order is in the lane or on the
way to it and the alternate is a candidate. -/
abbrev State.Redirects (s : State) (l : LaneIx) (k : OrderSlot) (o : Order) (a : LaneIx) : Prop :=
  (s.laneCfg l).alternate = some a ∧
    (∀ q ∈ s.totes, q.2.order = k → q.2.location ≠ .lane l ∧ q.2.location ≠ .incoming l) ∧
    ∃ b, o.band = some b ∧ (row s.cfg.bandActive b).laneSet.getLsbD a.val = true ∧
      (s.laneCfg a).capacity ≠ 0 ∧ s.laneOpen a = true ∧ (s.laneCfg a).take = true ∧
      s.overbooked a = false ∧ ((o.total - o.done : Nat) : Int) ≤ s.free a

theorem State.toteCountIn_eq_zero_iff (s : State) (k : OrderSlot) (l : LaneIx) :
    s.toteCountIn k l = 0 ↔
      ∀ q ∈ s.totes, q.2.order = k → q.2.location ≠ .lane l ∧ q.2.location ≠ .incoming l := by
  simp only [State.toteCountIn, State.totesOf, List.length_eq_zero_iff, List.filter_eq_nil_iff, List.mem_filter,
    Bool.or_eq_true, beq_iff_eq, not_or, and_imp]

theorem State.redirectTo_eq_some_iff (s : State) (l : LaneIx) (k : OrderSlot) (o : Order) (a : LaneIx) :
    s.redirectTo l k o = some a ↔ s.Redirects l k o a := by
  unfold State.redirectTo
  split
  next c b alternate band =>
    simp only [State.Redirects, alternate, band, State.toteCountIn_eq_zero_iff, State.candidate_iff, Option.some_inj]
    constructor
    · intro h
      split_ifs at h with holds
      obtain ⟨clear, cand⟩ := holds
      cases h
      exact ⟨rfl, clear, b, rfl, cand⟩
    · rintro ⟨rfl, clear, b, rfl, cand⟩
      exact if_pos ⟨clear, cand⟩
  next unset =>
    refine ⟨nofun, ?_⟩
    rintro ⟨alternate, -, b, band, -⟩
    exact absurd band (unset a b alternate)

/-- R73: the redirection of an order, with the entry of the tote that was read. -/
theorem State.takeOff_redirects {s : State} {k : ToteSlot} {x : Tote} {o : Order} {l a : LaneIx}
    (ht : s.tote? k = some x) (ho : s.order? x.order = some o) (h : s.Redirects l x.order o a) (g : GateIx) :
    s.takeOff g l k x.order o =
      { s with
        orders := slotPut x.order { o with state := .routed a } s.orders
        totes := slotPut k { x with trail := [⟨g, .redirected⟩] }
          (s.totes.map (fun q => (q.1, if q.2.order = x.order then { q.2 with trail := [] } else q.2))) } := by
  have routed : s.routeTo x.order a = (s.putOrder x.order { o with state := .routed a }).clearTrails x.order := by
    simp only [State.routeTo, State.modOrder, ho]
  have cleared : (s.routeTo x.order a).tote? k = some { x with trail := [] } := by
    have stands : (s.putOrder x.order { o with state := .routed a }).tote? k = some x := ht
    rw [routed, State.tote?_clearTrails, stands, Option.map_some, if_pos rfl]
  simp only [State.takeOff, (s.redirectTo_eq_some_iff l x.order o a).2 h]
  rw [State.push_eq cleared, routed]
  rfl

theorem State.takeOff_refuses {s : State} {o : Order} {l : LaneIx} {j : OrderSlot} (h : ∀ a, ¬s.Redirects l j o a)
    (g : GateIx) (k : ToteSlot) : s.takeOff g l k j o = s.refuse k g j .refusedTake := by
  have unset : s.redirectTo l j o = none :=
    Option.eq_none_iff_forall_ne_some.2 fun a e => h a ((s.redirectTo_eq_some_iff l j o a).1 e)
  simp only [State.takeOff, unset]

section
variable {s : State} {g : GateIx} {k : ToteSlot} {x : Tote} {o : Order} {l : LaneIx}

theorem State.laneGate_passes (ht : s.tote? k = some x) (ho : s.order? x.order = some o)
    (other : o.assignedTo l = false) : s.laneGate g l k = s := by
  simp [State.laneGate, State.orderOf_eq ht ho, other]

/-- R35, R69: the answers of the lane, in their order. -/
theorem State.laneGate_assigned (ht : s.tote? k = some x) (ho : s.order? x.order = some o)
    (assigned : o.assignedTo l = true) :
    s.laneGate g l k =
      if s.laneOpen l = false ∨ s.overbooked l = true then s.refuse k g x.order .refusedClosed
      else if (s.laneCfg l).take = false then s.takeOff g l k x.order o
      else if s.occupied l + s.incoming l = (s.laneCfg l).capacity then s.refuse k g x.order .refusedFull
      else s.divert g l k := by
  simp only [State.laneGate, State.orderOf_eq ht ho, assigned, if_true, State.admission, Bool.or_eq_true,
    Bool.not_eq_true']
  split_ifs <;> rfl

theorem State.decide_lane (kind : (s.gateCfg g).kind = .lane) (lane : (s.gateCfg g).lane = l) :
    s.decide g k = s.laneGate g l k := by
  simp only [State.decide, kind, lane]

end

/-! ## The refusal rule (R74) -/

theorem Outcome.isRefusal_iff (o : Outcome) :
    o.isRefusal = true ↔ o = .refusedFull ∨ o = .refusedTake ∨ o = .refusedClosed := by
  cases o <;> decide

theorem refusalsMet_iff (limit : Nat) (trail : List TrailEntry) :
    refusalsMet limit trail = true ↔ limit ≤ trail.length ∧
      ∀ e ∈ trail.drop (trail.length - limit),
        e.outcome = .refusedFull ∨ e.outcome = .refusedTake ∨ e.outcome = .refusedClosed := by
  simp only [refusalsMet, Bool.and_eq_true, decide_eq_true_iff, List.all_eq_true, Outcome.isRefusal_iff]

theorem State.refuse_eq {s : State} {k : ToteSlot} {x : Tote} (h : s.tote? k = some x) (g : GateIx) (o : OrderSlot)
    (why : Outcome) :
    s.refuse k g o why =
      if refusalsMet s.cfg.site.refusalLimit (pushTrail ⟨g, why⟩ x.trail) = true then
        (s.putTote k { x with trail := pushTrail ⟨g, why⟩ x.trail }).enterWillcall o .refused
      else s.putTote k { x with trail := pushTrail ⟨g, why⟩ x.trail } := by
  have pushed : (s.putTote k { x with trail := pushTrail ⟨g, why⟩ x.trail }).tote? k =
      some { x with trail := pushTrail ⟨g, why⟩ x.trail } := State.tote?_putTote_same _ _ _
  simp only [State.refuse, State.push_eq h, pushed]

/-- Settles O17: the answers of the lane in their order, and the refusal rule. -/
theorem laneGateDecides : Obligations.LaneGateDecides := by
  refine ⟨fun s g k x o l kind lane ht ho => ?_, fun s k x g o why ht => ?_⟩
  · have assigned : o.assignedTo l = true ↔ o.state = .routed l ∨ o.state = .ready l := by
      rw [Order.assignedTo_eq, decide_eq_true_iff]
    rw [State.decide_lane kind lane]
    refine ⟨fun notRouted notReady => ?_, fun mine => ?_⟩
    · refine State.laneGate_passes ht ho (Bool.eq_false_iff.2 fun c => ?_)
      exact (assigned.1 c).elim notRouted notReady
    rw [State.laneGate_assigned ht ho (assigned.2 mine)]
    refine ⟨fun shut => if_pos shut, fun opened off => ?_, fun opened on full => ?_, fun opened on room => ?_⟩
    · rw [if_neg opened, if_pos off]
      exact ⟨fun a redirect => State.takeOff_redirects ht ho redirect g,
        fun unset => State.takeOff_refuses unset g k⟩
    · rw [if_neg opened, if_neg (ne_false_of_eq_true on), if_pos full]
    · rw [if_neg opened, if_neg (ne_false_of_eq_true on), if_neg room, State.divert_eq ht]
  · rw [State.refuse_eq ht]
    simp only [refusalsMet_iff]
    rfl

/-! ## The decisions at the lap gate and at a WILLCALL gate -/

theorem State.decide_track {s : State} {g : GateIx} (kind : (s.gateCfg g).kind = .track) (k : ToteSlot) :
    s.decide g k = s := by
  simp only [State.decide, kind]

section
variable {s : State} {g : GateIx} {k : ToteSlot} {x : Tote} {o : Order}

theorem State.decide_lap (kind : (s.gateCfg g).kind = .lap) : s.decide g k = s.lapGate k := by
  simp only [State.decide, kind]

theorem State.decide_willcall (kind : (s.gateCfg g).kind = .willcall) : s.decide g k = s.willcallGate g k := by
  simp only [State.decide, kind]

/-- R11: the record with one more lap, up to the lap limit. -/
abbrev Tote.lapped (limit : Nat) (x : Tote) : Tote := { x with laps := min limit (x.laps + 1) }

theorem State.countLap_eq (ht : s.tote? k = some x) : s.countLap k = s.putTote k (x.lapped s.cfg.site.lapLimit) :=
  State.modTote_eq ht _

theorem State.orderOf_countLap (ht : s.tote? k = some x) (ho : s.order? x.order = some o) :
    (s.countLap k).orderOf k = some (x.order, o) := by
  rw [State.countLap_eq ht]
  exact State.orderOf_eq (x := x.lapped s.cfg.site.lapLimit) (State.tote?_putTote_same _ _ _) ho

theorem State.lapGate_assigned (ht : s.tote? k = some x) (ho : s.order? x.order = some o)
    (assigned : o.state ≠ .unassigned) : s.lapGate k = s.countLap k := by
  simp only [State.lapGate, State.orderOf_countLap ht ho, assigned, if_false]

theorem State.lapGate_unassigned (ht : s.tote? k = some x) (ho : s.order? x.order = some o)
    (unassigned : o.state = .unassigned) :
    s.lapGate k = ((s.countLap k).attempt x.order).lapLimit k x.order := by
  simp only [State.lapGate, State.orderOf_countLap ht ho, unassigned, if_true]

theorem State.lapLimit_eq {j : OrderSlot} (ho : s.order? j = some o) :
    s.lapLimit k j =
      if o.state = .unassigned ∧ s.lapsOf k = s.cfg.site.lapLimit then s.enterWillcall j .lapped else s := by
  simp only [State.lapLimit, ho]

theorem State.attempt_cfg (s : State) (j : OrderSlot) : (s.attempt j).cfg = s.cfg :=
  (State.attempt_inside (c := True) (d := True) s j).cfg

theorem State.willcallRoom_iff (s : State) :
    s.willcallRoom = true ↔ s.willcall.list.length + s.willcall.incoming.length < s.cfg.site.willcallCapacity :=
  decide_eq_true_iff

theorem State.willcallGate_passes (ht : s.tote? k = some x) (ho : s.order? x.order = some o)
    (other : ∀ w, o.state ≠ .willcall w) : s.willcallGate g k = s := by
  simp only [State.willcallGate, State.orderOf_eq ht ho]
  split
  next w e => exact absurd e (other w)
  all_goals rfl

theorem State.willcallGate_eq (ht : s.tote? k = some x) (ho : s.order? x.order = some o) {w : Reason}
    (cast : o.state = .willcall w) :
    s.willcallGate g k = if s.willcallRoom = true then s.divertWillcall g k else s.raise .willcallFull := by
  simp only [State.willcallGate, State.orderOf_eq ht ho, cast]

/-- R75, R117: the blade, the incoming list of the spur, and the record. -/
theorem State.divertWillcall_eq (ht : s.tote? k = some x) :
    s.divertWillcall g k =
      { s.hand (bladeFrame (s.gateCfg g).station) with
        willcall := { s.willcall with
          incoming := s.willcall.incoming ++ [⟨k, some (s.now + s.cfg.site.willcallConfirmLimit * 100)⟩] }
        totes := (slotPut k
          { x with location := .willcallIncoming, sighting := none, deadline := none } s.totes) } := by
  unfold State.divertWillcall
  extract_lets t e
  have stands : ({ t with willcall := { t.willcall with incoming := t.willcall.incoming ++ [e] } } : State).tote? k =
      some x := ht
  rw [State.modTote_eq stands]
  rfl

end

/-- Settles O18: a decision for each kind of gate but LANE. -/
theorem lapAndWillcallGates : Obligations.LapAndWillcallGates := by
  refine ⟨fun s g k kind => State.decide_track kind k, fun s g k x o ht ho => ⟨fun kind => ?_, fun kind => ?_⟩⟩
  · intro t
    have counted : s.countLap k = t := State.countLap_eq ht
    rw [State.decide_lap kind]
    refine ⟨fun assigned => ?_, fun unassigned o' ho' => ?_⟩
    · rw [State.lapGate_assigned ht ho assigned, counted]
    · rw [State.lapGate_unassigned ht ho unassigned, counted, State.lapLimit_eq ho', State.attempt_cfg]
  · rw [State.decide_willcall kind]
    refine ⟨State.willcallGate_passes ht ho, fun w cast => ⟨fun room => ?_, fun full => ?_⟩⟩
    · rw [State.willcallGate_eq ht ho cast, if_pos (s.willcallRoom_iff.2 room), State.divertWillcall_eq ht]
    · rw [State.willcallGate_eq ht ho cast, if_neg (fun c => not_lt.2 full (s.willcallRoom_iff.1 c))]

end Sys2Proof.Machine
end

section
/-! PROOFS. Writes to a gate entry and to an induct entry (R57, R58, R62, R63, R124, R172). -/

namespace Sys2Proof.Machine

/-! ## The ranges of fields, and the entries that images give -/

/-- R62: a kind is one of four, and LAP at G0 alone. -/
theorem kindCheck_eq_false_iff (n : Nat) (g : GateIx) :
    (n ≤ 3 && (n != 0 || g == 0)) = false ↔ 3 < n ∨ (n = 0 ∧ g ≠ 0) := by
  rw [Bool.and_eq_false_iff, Bool.or_eq_false_iff, decide_eq_false_iff_not, not_le, bne_eq_false_iff_eq,
    beq_eq_false_iff_ne]

/-- R62, R63 check 1. -/
theorem firstBad_gateChecks (g : GateIx) (p : List Byte) :
    firstBad 1 (gateChecks g p) =
      if 1 < byteAt p 0 then some 1
      else if 3 < byteAt p 1 ∨ (byteAt p 1 = 0 ∧ g ≠ 0) then some 2
      else if 11 < byteAt p 2 then some 3
      else if byteAt p 3 < 3 ∨ 62 < byteAt p 3 then some 4
      else if wordAt p 4 < 20 ∨ 500 < wordAt p 4 then some 5
      else if wordAt p 6 < 5 ∨ 600 < wordAt p 6 then some 6
      else if 1 < byteAt p 8 then some 7
      else none := by
  simp only [gateChecks, firstBad_cons, isYesNo_eq_false_iff, kindCheck_eq_false_iff, decide_eq_false_iff_not, not_le,
    isStation_eq_false_iff, inRange_eq_false_iff]
  rfl

/-- R124. -/
theorem firstBad_inductChecks (p : List Byte) :
    firstBad 1 (inductChecks p) =
      if 1 < byteAt p 0 then some 1
      else if byteAt p 1 < 3 ∨ 62 < byteAt p 1 then some 2
      else if wordAt p 2 < 5 ∨ 300 < wordAt p 2 then some 3
      else if 1 < byteAt p 4 then some 4
      else none := by
  simp only [inductChecks, firstBad_cons, isYesNo_eq_false_iff, isStation_eq_false_iff, inRange_eq_false_iff]
  rfl

theorem GateKind.code_ofCode {n : Nat} (h : n ≤ 3) : (GateKind.ofCode n).code.toNat = n := by
  obtain rfl | rfl | rfl | rfl : n = 0 ∨ n = 1 ∨ n = 2 ∨ n = 3 := by omega
  all_goals rfl

theorem laneIx_toNat {n : Nat} (h : n ≤ 11) : (laneIx n).val = n := Nat.mod_eq_of_lt (by omega)

/-! ## The reader of a written entry (R57, R58) -/

/-- The triggered reader of a written entry is IDLE, and fresh where the entry has become present. -/
abbrev Reader.written (x : Reader) (fresh : Bool) : Reader :=
  { x with cycle := .idle, window := none, scanPending := false, scanTimer := none, fresh := x.fresh || fresh }

theorem State.writtenTriggered_eq (s : State) (r : ReaderIx) (was is : Bool) :
    s.writtenTriggered r was is = s.putReader r ((s.reader r).written (is && !was)) := by
  unfold State.writtenTriggered
  cases is && !was with
  | true =>
    show (s.abandon r).freshen r = _
    unfold State.freshen State.abandon
    rw [State.reader_putReader_same, State.putReader_putReader]
    simp only [Reader.written, Bool.or_true]
    rfl
  | false =>
    simp only [Reader.written, Bool.or_false]
    rfl

/-! ## A write in its table, by the checks of R172 -/

section
variable {c : Instr} {handler : Request → State → Reply} {s : State} {r : Request} {rest : List Request}
  {checks : List Bool} {own : Reply}

theorem exec_entry_range (e : exec c s = .next (takeRequest c handler s)) (h : AskedWell s c r rest)
    (reply : handler r (s.popRequest rest) = entryChecks (s.popRequest rest) true checks s.req.lock own) {n : Nat}
    (bad : firstBad 1 checks = some n) : exec c s = answered s r (s.popRequest rest) .range [byte n] :=
  exec_replied e h (reply.trans (entryChecks_range bad _ _ _))

theorem exec_entry_locked (e : exec c s = .next (takeRequest c handler s)) (h : AskedWell s c r rest)
    (reply : handler r (s.popRequest rest) = entryChecks (s.popRequest rest) true checks s.req.lock own)
    (good : firstBad 1 checks = none) (locked : s.req.lock = true) :
    exec c s = answered s r ((s.popRequest rest).raise .lockedWrite) .locked [] := by
  rw [locked] at reply
  exact exec_replied e h (reply.trans (entryChecks_locked good _ _))

theorem exec_entry_own (e : exec c s = .next (takeRequest c handler s)) (h : AskedWell s c r rest)
    (reply : handler r (s.popRequest rest) = entryChecks (s.popRequest rest) true checks s.req.lock own)
    (good : firstBad 1 checks = none) (unlocked : s.req.lock = false) {u : State} {x : Status} {data : List Byte}
    (answer : own = ⟨u, x, data⟩) : exec c s = answered s r u x data := by
  rw [unlocked] at reply
  exact exec_replied e h (reply.trans ((entryChecks_own good _ _).trans answer))

end

/-! ## GATE -/

/-- R63 check 3. -/
abbrev GateEntry.Moves (d e : GateEntry) : Prop :=
  d.present ≠ e.present ∨ d.kind ≠ e.kind ∨ d.lane ≠ e.lane ∨ d.station ≠ e.station

theorem GateEntry.movesGate_iff (d e : GateEntry) : d.movesGate e = true ↔ d.Moves e := by
  simp only [GateEntry.movesGate, GateEntry.Moves, Bool.or_eq_true, bne_iff_ne, or_assoc]

theorem State.writeGate_eq (s : State) (g : GateIx) (e : GateEntry) :
    s.writeGate g e =
      { s with
        cfg := { s.cfg with gates := setRow s.cfg.gates g e }
        readers := setRow s.readers (gateReader g)
          ((s.reader (gateReader g)).written (e.present && !(s.gateCfg g).present)) } :=
  State.writtenTriggered_eq _ _ _ _

theorem replyWriteGate_at {r : Request} {g : GateIx} (i : r.index = g.val) (s : State) :
    replyWriteGate r s =
      entryChecks s true (gateChecks g r.image) s.req.lock
        (if s.trackRuns = true ∧ (s.gateCfg g).Moves (gateOfImage r.image) then ⟨s, .state, []⟩
         else ⟨s.writeGate g (gateOfImage r.image), .ok, []⟩) := by
  have inTable : decide (r.index < 16) = true := by simp [i]
  unfold replyWriteGate
  rw [inTable, i, gateIx_val]
  simp only [Bool.and_eq_true, GateEntry.movesGate_iff]
  rfl

theorem exec_writeGate_range {s : State} {r : Request} {rest : List Request}
    (h : AskedWell s .writeEntryGate r rest) (i : 16 ≤ r.index) :
    exec .writeEntryGate s = answered s r (s.popRequest rest) .range [] := by
  have outside : decide (r.index < 16) = false := by simp [i]
  refine exec_replied rfl h ?_
  unfold replyWriteGate
  rw [outside]
  exact entryChecks_outside _ _ _ _

/-! ## INDUCT -/

/-- R124 check 3. -/
abbrev InductEntry.Moves (d e : InductEntry) : Prop := d.present ≠ e.present ∨ d.station ≠ e.station

theorem InductEntry.movesInduct_iff (d e : InductEntry) : d.movesInduct e = true ↔ d.Moves e := by
  simp only [InductEntry.movesInduct, InductEntry.Moves, Bool.or_eq_true, bne_iff_ne]

theorem State.writeInduct_eq (s : State) (i : InductIx) (e : InductEntry) :
    s.writeInduct i e =
      { s with
        cfg := { s.cfg with inducts := setRow s.cfg.inducts i e }
        readers := setRow s.readers (inductReader i)
          ((s.reader (inductReader i)).written (e.present && !(s.inductCfg i).present)) } :=
  State.writtenTriggered_eq _ _ _ _

theorem replyWriteInduct_at {r : Request} {i : InductIx} (ix : r.index = i.val) (s : State) :
    replyWriteInduct r s =
      entryChecks s true (inductChecks r.image) s.req.lock
        (if s.trackRuns = true ∧ (s.inductCfg i).Moves (inductOfImage r.image) then ⟨s, .state, []⟩
         else if (inductOfImage r.image).present = false ∧ s.queue i ≠ [] then ⟨s, .busy, []⟩
         else ⟨s.writeInduct i (inductOfImage r.image), .ok, []⟩) := by
  have inTable : decide (r.index < 4) = true := by simp [ix]
  unfold replyWriteInduct
  rw [inTable, ix, inductIx_val]
  simp only [Bool.and_eq_true, Bool.not_eq_true', List.isEmpty_eq_false_iff, InductEntry.movesInduct_iff]
  rfl

theorem exec_writeInduct_range {s : State} {r : Request} {rest : List Request}
    (h : AskedWell s .writeEntryInduct r rest) (i : 4 ≤ r.index) :
    exec .writeEntryInduct s = answered s r (s.popRequest rest) .range [] := by
  have outside : decide (r.index < 4) = false := by simp [i]
  refine exec_replied rfl h ?_
  unfold replyWriteInduct
  rw [outside]
  exact entryChecks_outside _ _ _ _

/-! ## The obligation -/

/-- A write that moves nothing, or finds the track at rest, is not refused STATE. -/
theorem State.not_trackRuns_and {s : State} {moves : Prop} (stays : s.trackRuns = false ∨ ¬moves) :
    ¬(s.trackRuns = true ∧ moves) := fun ⟨runs, moved⟩ =>
  stays.elim (Bool.eq_false_iff.1 · runs) (· moved)

/-- Settles O38: the ranges and the entries of the two images, and each write by its checks. -/
theorem gateAndInductWrites : Obligations.GateAndInductWrites := by
  refine ⟨fun p g => ?_, fun p => ?_, fun s r rest => ⟨exec_writeGate_range, exec_writeInduct_range,
    fun h g i => ?_, fun h i ix => ?_⟩⟩
  · exact ⟨firstBad_gateChecks g p, yes_iff _, GateKind.code_ofCode, laneIx_toNat, rfl, rfl, rfl, yes_iff _⟩
  · exact ⟨firstBad_inductChecks p, yes_iff _, rfl, rfl, yes_iff _⟩
  · have reply := replyWriteGate_at i (s.popRequest rest)
    refine ⟨fun n => exec_entry_range rfl h reply, fun good => ⟨exec_entry_locked rfl h reply good,
      fun unlocked runs moves => ?_, fun unlocked stays => ?_⟩⟩
    · exact exec_entry_own rfl h reply good unlocked (if_pos ⟨runs, moves⟩)
    · have passed := State.not_trackRuns_and stays
      have written := State.writeGate_eq (s.popRequest rest) g (gateOfImage r.image)
      exact exec_entry_own rfl h reply good unlocked ((if_neg passed).trans (congrArg (Reply.mk · .ok []) written))
  · have reply := replyWriteInduct_at ix (s.popRequest rest)
    refine ⟨fun n => exec_entry_range rfl h reply, fun good => ⟨exec_entry_locked rfl h reply good,
      fun unlocked runs moves => ?_, fun unlocked stays => ?_⟩⟩
    · exact exec_entry_own rfl h reply good unlocked (if_pos ⟨runs, moves⟩)
    · have passed := State.not_trackRuns_and stays
      refine ⟨fun absent held => ?_, fun free => ?_⟩
      · exact exec_entry_own rfl h reply good unlocked ((if_neg passed).trans (if_pos ⟨absent, held⟩))
      · have unused : ¬((inductOfImage r.image).present = false ∧ s.queue i ≠ []) := fun ⟨absent, held⟩ =>
          free.elim (fun is => by simp [absent] at is) held
        have written := State.writeInduct_eq (s.popRequest rest) i (inductOfImage r.image)
        exact exec_entry_own rfl h reply good unlocked
          ((if_neg passed).trans ((if_neg unused).trans (congrArg (Reply.mk · .ok []) written)))

end Sys2Proof.Machine
end

section
/-! PROOFS. The lane that an address names (R161), the EYE at the entry of a lane (R86, R87), the counter frames that a
STATION-UP has handed over again (R107, R155), and the expiries of a tote's timers (R78, R88, R119). -/

namespace Sys2Proof.Machine

/-! ## The lane that an address names (R161) -/

/-- R161: a present lane whose counter station has the address. -/
abbrev State.namesLane (s : State) (a : Nat) (l : LaneIx) : Prop :=
  (s.laneCfg l).capacity ≠ 0 ∧ (s.laneCfg l).station = a

theorem State.namesLane_iff (s : State) (a : Nat) (l : LaneIx) :
    (s.lanePresent l && (s.laneCfg l).station == a) = true ↔ s.namesLane a l := by
  simp [State.lanePresent, LaneEntry.present]

theorem State.laneAt_eq_some_iff (s : State) (a : Nat) (l : LaneIx) :
    s.laneAt a = some l ↔ s.namesLane a l ∧ ∀ m < l, ¬s.namesLane a m := by
  unfold State.laneAt
  rw [allLanes_eq, find?_finRange_eq_some_iff]
  simp only [← Bool.not_eq_true, State.namesLane_iff]

theorem State.laneAt_eq_none_iff (s : State) (a : Nat) : s.laneAt a = none ↔ ∀ l, ¬s.namesLane a l := by
  unfold State.laneAt
  rw [List.find?_eq_none]
  simp only [State.namesLane_iff, allLanes_mem, forall_const]

/-- An address from which every lane is absent or differs names none. -/
theorem State.laneAt_unnamed {s : State} {a : Nat} (h : ∀ l, (s.laneCfg l).capacity = 0 ∨ (s.laneCfg l).station ≠ a) :
    s.laneAt a = none :=
  (s.laneAt_eq_none_iff a).2 fun l ⟨present, station⟩ => (h l).elim present (· station)

/-! ## The EYE at the entry of a lane (R86, R87) -/

theorem exec_laneEntryEye {s : State} {h : Header} (quiet : Quiet s) (heard : Heard s h) :
    exec (.laneEntryEye h) s = .next (closeEvent s (passOn h Kind.eye [0x03#8] (s.laneEye h.src.toNat))) :=
  congrArg Host.Outcome.next (receive_eye quiet heard)

section
variable {s : State} {l : LaneIx}

theorem State.laneEye_open {a : Nat} (at_ : s.laneAt a = some l) (opened : s.laneOpen l = true) :
    s.laneEye a = settleLanes s (s.laneEntry l) := by
  simp only [State.laneEye, at_, opened, if_true]

theorem State.laneEye_shut {a : Nat} (shut : ∀ l, s.laneAt a = some l → s.laneOpen l = false) : s.laneEye a = s := by
  unfold State.laneEye
  split
  next l at_ => simp [shut l at_]
  next => rfl

theorem State.laneEntry_confirms {e : Incoming} {rest : List Incoming} (h : (s.lane l).incoming = e :: rest) :
    s.laneEntry l = s.confirmEntry l e rest := by
  simp only [State.laneEntry, h]

theorem State.laneEntry_stray (h : (s.lane l).incoming = []) : s.laneEntry l = s.strayEntry l := by
  simp only [State.laneEntry, h]

theorem State.strayEntry_room (h : (s.lane l).queue.length < (s.laneCfg l).capacity) :
    s.strayEntry l =
      (s.putLane l { s.lane l with queue := (s.lane l).queue ++ [.unknown none] }).raise .strayTote :=
  congrArg (State.raise · .strayTote) (if_pos h)

theorem State.strayEntry_full (h : (s.laneCfg l).capacity ≤ (s.lane l).queue.length) :
    s.strayEntry l = s.raise .strayTote :=
  congrArg (State.raise · .strayTote) (if_neg (Nat.not_lt.2 h))

end

/-- Settles O12: the search for the lane, and its entry by the incoming list and the room. -/
theorem laneEntryEye : Obligations.LaneEntryEye := by
  refine ⟨fun s a => ⟨s.laneAt_eq_some_iff a, s.laneAt_eq_none_iff a⟩,
    fun s h quiet heard => ⟨fun l at_ opened => ?_, fun shut => ?_⟩⟩
  · have event := exec_laneEntryEye quiet heard
    rw [State.laneEye_open at_ opened] at event
    refine ⟨fun e rest incoming => ?_, fun none_ room => ?_, fun none_ full => ?_⟩
    · rw [event, State.laneEntry_confirms incoming]
      rfl
    · rw [event, State.laneEntry_stray none_, State.strayEntry_room room]
    · rw [event, State.laneEntry_stray none_, State.strayEntry_full full]
  · rw [exec_laneEntryEye quiet heard, State.laneEye_shut shut]

/-! ## STATION-UP (R107, R155) -/

/-- Frames handed over one after another. -/
def State.handAll (s : State) (fs : List Frame) : State :=
  { s with ring := { s.ring with outbox := s.ring.outbox ++ fs } }

theorem State.handAll_nil (s : State) : s.handAll [] = s := by simp [State.handAll]

theorem State.handAll_handAll (s : State) (fs gs : List Frame) : (s.handAll fs).handAll gs = s.handAll (fs ++ gs) := by
  simp [State.handAll]

theorem State.handAll_of_quiet {s : State} (h : Quiet s) (fs : List Frame) :
    s.handAll fs = { s with ring := { s.ring with outbox := fs } } := by
  simp [State.handAll, h.1]

/-- R107: the frames of a lane's counter as they were last handed over. -/
abbrev State.counterContent (s : State) (a : Nat) (l : LaneIx) : List Frame :=
  [lampFrame a (s.lane l).lamp, displayFrame a (s.lane l).display]

theorem State.resendCounter_eq (s : State) (l : LaneIx) :
    s.resendCounter l = s.handAll (s.counterContent (s.laneCfg l).station l) := by
  simp [State.resendCounter, State.hand, State.handAll, State.laneCfg, State.lane]

/-- R107: each lane of the station hands its own frames over, which no other lane's frames change. -/
theorem foldl_resendCounter (s : State) (a : Nat) (ls : List LaneIx) (fs : List Frame) :
    ls.foldl (fun t l => if s.lanePresent l && (s.laneCfg l).station == a then t.resendCounter l else t)
        (s.handAll fs) =
      s.handAll (fs ++ (ls.filter (fun l => s.namesLane a l)).flatMap (s.counterContent a)) := by
  induction ls generalizing fs with
  | nil => simp
  | cons l ls ih =>
    rw [List.foldl_cons]
    by_cases names : s.namesLane a l
    · rw [if_pos ((s.namesLane_iff a l).2 names), State.resendCounter_eq, State.handAll_handAll,
        ih, List.filter_cons_of_pos (by simpa using names), List.flatMap_cons, List.append_assoc]
      obtain ⟨-, rfl⟩ := names
      rfl
    · rw [if_neg (mt (s.namesLane_iff a l).1 names), ih,
        List.filter_cons_of_neg (by simpa using names)]

/-- R155: the drive command, where the address is the drive's. -/
abbrev State.driveContent (s : State) (a : Nat) : List Frame :=
  if s.cfg.drive.station = a then [driveFrame a s.driveCommand] else []

theorem State.stationIsUp_eq (s : State) (a : Nat) :
    s.stationIsUp a =
      s.handAll ((allLanes.filter (fun l => s.namesLane a l)).flatMap (s.counterContent a) ++ s.driveContent a) := by
  have counters := foldl_resendCounter s a allLanes []
  rw [State.handAll_nil, List.nil_append] at counters
  unfold State.stationIsUp State.driveContent
  rw [counters]
  dsimp only [State.handAll]
  split_ifs with drive
  · exact State.handAll_handAll s _ [driveFrame a s.driveCommand]
  · rw [List.append_nil]

theorem State.driveCommand_eq (s : State) :
    s.driveCommand = Decidable.decide (s.drive.state = .starting ∨ s.drive.state = .running) := by
  simp [State.driveCommand, Bool.decide_or, Bool.beq_eq_decide_eq]

/-- Settles O28: the frames of the lanes that the station serves, and the drive's. -/
theorem stationUpResends : Obligations.StationUpResends := by
  intro s h quiet heard a lanes drive
  have event : exec (.stationUp h) s = .next (closeEvent s (passOn h Kind.stationUp [] (s.stationIsUp a))) :=
    congrArg Host.Outcome.next (receive_stationUp quiet heard)
  rw [event, State.stationIsUp_eq, State.handAll_of_quiet quiet, State.driveContent, State.driveCommand_eq]

/-! ## The timers of a tote (R78, R88, R119) -/

section
variable {s : State} {tag : Nat} {k : ToteSlot} {x : Tote}

theorem State.slotAt_found {loc : Location} (found : s.findTote tag = some (k, x)) (at_ : x.location = loc) :
    s.slotAt tag loc = some k := by
  simp only [State.slotAt, found, at_, if_true]

theorem State.confirmEnds_runs {l : LaneIx} {e : Time} (found : s.findTote tag = some (k, x))
    (at_ : x.location = .incoming l) (timer : confirmOf k (s.lane l).incoming = some e) :
    s.confirmEnds l tag =
      closeEvent (s.advanceTo e) (settleLanes (s.advanceTo e) ((s.advanceTo e).bladeMiss k)) := by
  simp only [State.confirmEnds, State.slotAt_found found at_]
  exact atExpiry_runs timer s _

theorem State.willcallConfirmEnds_runs {e : Time} (found : s.findTote tag = some (k, x))
    (at_ : x.location = .willcallIncoming) (timer : confirmOf k s.willcall.incoming = some e) :
    s.willcallConfirmEnds tag =
      closeEvent (s.advanceTo e) (settleLanes (s.advanceTo e) ((s.advanceTo e).bladeMiss k)) := by
  simp only [State.willcallConfirmEnds, State.slotAt_found found at_]
  exact atExpiry_runs timer s _

/-- A placement on the loop asks of the change of the record only what it makes of the record itself. -/
theorem State.placeOnLoop_congr {f g : Tote → Tote} (held : s.tote? k = some x) (same : x.onLoop f = x.onLoop g) :
    s.placeOnLoop k f = s.placeOnLoop k g := by
  have changed := (State.modTote_eq held (Tote.onLoop f)).trans
    ((congrArg (s.putTote k) same).trans (State.modTote_eq held (Tote.onLoop g)).symm)
  unfold State.placeOnLoop
  rw [changed]

/-- R88, R119: the tote goes back to the loop; its deadline runs from its last gate. -/
theorem State.bladeMiss_eq (held : s.tote? k = some x) :
    s.bladeMiss k = ((s.removeTote k).placeOnLoop k (fun t =>
      { t with
        deadline := if s.trackRuns = true then x.lastGate.map (fun g => s.deadlineFrom g s.now) else none })).raise
      .bladeMiss :=
  congrArg (State.raise · .bladeMiss) (State.placeOnLoop_congr (State.tote?_removeTote held) rfl)

/-- R78: a miss below the lost limit. -/
theorem State.miss_unseen {d : Deadline} {n : Nat} (misses : missesAfter s.cfg.site.lostLimit x.sighting = n)
    (below : n < s.cfg.site.lostLimit) :
    s.miss k x d = s.putTote k
      { x with
        sighting := some (.unseen n)
        deadline := some ⟨d.expiry + (s.gateCfg d.target).transitLimit * 10000, s.nextGate d.target⟩ } := by
  subst misses
  exact if_pos below

theorem State.miss_lost {d : Deadline} (at_ : s.cfg.site.lostLimit ≤ missesAfter s.cfg.site.lostLimit x.sighting) :
    s.miss k x d = (s.putTote k { x with sighting := some .lost, deadline := none }).raise .toteLost :=
  if_neg (Nat.not_lt.2 at_)

theorem exec_deadlineExpiry {d : Deadline} (found : s.findTote tag = some (k, x)) (timer : x.deadline = some d) :
    exec (.deadlineExpiry tag) s =
      .next (closeEvent (s.advanceTo d.expiry) ((s.advanceTo d.expiry).miss k x d)) := by
  show Host.Outcome.next (s.deadlineEnds tag) = _
  simp only [State.deadlineEnds, found, timer]
  rfl

end

/-- Settles O50: the blade miss of both confirm timers, and the count of misses by the tote's sighting. -/
theorem toteTimers : Obligations.ToteTimers := by
  refine ⟨?_, ?_⟩
  · intro s tag k x e found u back tables
    have held : u.tote? k = some x := State.tote?_some tables (State.findTote_mem found)
    have missed : u.bladeMiss k = back := State.bladeMiss_eq held
    rw [← missed]
    exact ⟨fun l at_ runs => congrArg Host.Outcome.next (State.confirmEnds_runs found at_ runs),
      fun at_ runs => congrArg Host.Outcome.next (State.willcallConfirmEnds_runs found at_ runs)⟩
  · intro s tag k x d found timer u lost unseen
    have event : exec (.deadlineExpiry tag) s = .next (closeEvent u (u.miss k x d)) := exec_deadlineExpiry found timer
    rw [event]
    have isUnseen {n : Nat} (misses : missesAfter s.cfg.site.lostLimit x.sighting = n)
        (below : n < s.cfg.site.lostLimit) : u.miss k x d = unseen n := State.miss_unseen misses below
    have isLost (at_ : s.cfg.site.lostLimit ≤ missesAfter s.cfg.site.lostLimit x.sighting) : u.miss k x d = lost :=
      State.miss_lost at_
    refine ⟨fun seen => ?_, fun n before => ?_, fun lostBefore => ?_⟩
    · have misses : missesAfter s.cfg.site.lostLimit x.sighting = 1 := by rw [seen]; rfl
      exact ⟨fun below => by rw [isUnseen misses below], fun at_ => by rw [isLost (misses ▸ at_)]⟩
    · have misses : missesAfter s.cfg.site.lostLimit x.sighting = n + 1 := by rw [before]; rfl
      exact ⟨fun below => by rw [isUnseen misses below], fun at_ => by rw [isLost (misses ▸ at_)]⟩
    · have misses : missesAfter s.cfg.site.lostLimit x.sighting = s.cfg.site.lostLimit := by rw [lostBefore]; rfl
      rw [isLost misses.ge]

end Sys2Proof.Machine
end

section
/-! PROOFS. The clerk's buttons at the counter (section 5.5): the window tote, what each button does in each window
state, and the address of the button. -/

namespace Sys2Proof.Machine

/-! ## The window -/

theorem Lane.toteAtWindow_iff (x : Lane) :
    x.toteAtWindow = true ↔ x.window = .presented ∨ (x.window = .held ∧ x.foreign ≠ none) := by
  simp [Lane.toteAtWindow, Option.isSome_iff_ne_none]

theorem Lane.toteAtWindow_presented {x : Lane} (h : x.window = .presented) : x.toteAtWindow = true :=
  x.toteAtWindow_iff.2 (.inl h)

theorem Lane.toteAtWindow_foreign {x : Lane} {f : Foreign} (h : x.window = .held) (at_ : x.foreign = some f) :
    x.toteAtWindow = true :=
  x.toteAtWindow_iff.2 (.inr ⟨h, by simp [at_]⟩)

theorem Lane.toteAtWindow_held {x : Lane} (h : x.window = .held) (none_ : x.foreign = none) :
    x.toteAtWindow = false := by
  simp [Lane.toteAtWindow, h, none_]

theorem Lane.toteAtWindow_moving {x : Lane} (h : x.window = .empty ∨ x.window = .advancing) :
    x.toteAtWindow = false := by
  rcases h with w | w <;> simp [Lane.toteAtWindow, w]

section
variable {s : State} {l : LaneIx} {known : ToteSlot → State} {unknown : State}

theorem State.windowTote_known {k : ToteSlot} {rest : List QueueEntry} (h : (s.lane l).foreign = none)
    (q : (s.lane l).queue = .known k :: rest) : s.windowTote l known unknown = known k := by
  simp only [State.windowTote, h, q]

theorem State.windowTote_unknown {n : Option Nat} {rest : List QueueEntry} (h : (s.lane l).foreign = none)
    (q : (s.lane l).queue = .unknown n :: rest) : s.windowTote l known unknown = unknown := by
  simp only [State.windowTote, h, q]

theorem State.windowTote_unread (h : (s.lane l).foreign = some .unread) : s.windowTote l known unknown = s := by
  simp only [State.windowTote, h]

theorem State.windowTote_recorded {t : Nat} {k : ToteSlot} {x : Tote} (h : (s.lane l).foreign = some (.tag t))
    (found : s.findTote t = some (k, x)) : s.windowTote l known unknown = known k := by
  simp only [State.windowTote, h, found]

theorem State.windowTote_unrecorded {t : Nat} (h : (s.lane l).foreign = some (.tag t)) (unfound : s.findTote t = none) :
    s.windowTote l known unknown = s := by
  simp only [State.windowTote, h, unfound]

end

/-! ## The effects in every window state (R99) -/

section
variable {s : State} {l : LaneIx}

theorem State.clerkButton_eq (s : State) (l : LaneIx) :
    s.clerkButton l = s.putLane l { s.lane l with
      attention := false, emptyScans := 0
      unattended := if (s.lane l).unattended = .stopped then .stopped
        else .running (s.now + (s.laneCfg l).unattendedInterval * 100000) } := by
  cases u : (s.lane l).unattended <;> simp [State.clerkButton, State.modLane_eq, u, seconds]

@[simp] theorem State.clerkButton_window (s : State) (l : LaneIx) :
    ((s.clerkButton l).lane l).window = (s.lane l).window := by simp [State.clerkButton]
@[simp] theorem State.clerkButton_foreign (s : State) (l : LaneIx) :
    ((s.clerkButton l).lane l).foreign = (s.lane l).foreign := by simp [State.clerkButton]
@[simp] theorem State.clerkButton_queue (s : State) (l : LaneIx) :
    ((s.clerkButton l).lane l).queue = (s.lane l).queue := by simp [State.clerkButton]
@[simp] theorem State.clerkButton_emptyScans (s : State) (l : LaneIx) :
    ((s.clerkButton l).lane l).emptyScans = 0 := by simp [State.clerkButton]

theorem State.buttonElsewhere_held (h : (s.lane l).window = .held) : s.buttonElsewhere l = s.emptyWindow l := by
  simp only [State.buttonElsewhere, h]

theorem State.buttonElsewhere_moving (h : (s.lane l).window = .empty ∨ (s.lane l).window = .advancing) :
    s.buttonElsewhere l = s := by
  rcases h with w | w <;> simp only [State.buttonElsewhere, w]

/-- R90, R97: entry 0 of a PRESENTED window leaves its queue, and the window becomes EMPTY. -/
theorem State.emptyWindow_dropEntry0 {e : QueueEntry} {rest : List QueueEntry} (w : (s.lane l).window = .presented)
    (q : (s.lane l).queue = e :: rest) :
    (s.dropEntry0 l).emptyWindow l = s.putLane l { s.lane l with
      queue := rest, window := .empty, foreign := none, emptyScans := 0
      unattended := if rest = [] then .stopped else (s.lane l).unattended } := by
  simp [State.dropEntry0, State.emptyWindow, State.modLane_eq, Lane.removeAt_gone ⟨rfl, w⟩, q]

/-! ## TAKEN (R97) -/

theorem State.takenAt_window (h : (s.lane l).toteAtWindow = true) :
    let c := s.clerkButton l
    s.takenAt l = (c.windowTote l c.freeDone (c.dropEntry0 l)).emptyWindow l := if_pos h

theorem State.takenAt_elsewhere (h : (s.lane l).toteAtWindow = false) :
    s.takenAt l = (s.clerkButton l).buttonElsewhere l := if_neg (by simp [h])

/-! ## RETURN (R98) -/

theorem State.returnAt_window (h : (s.lane l).toteAtWindow = true) : s.returnAt l = (s.clerkButton l).askReturn l :=
  if_pos h

theorem State.returnAt_elsewhere (h : (s.lane l).toteAtWindow = false) :
    s.returnAt l = (s.clerkButton l).buttonElsewhere l := if_neg (by simp [h])

/-- R111: a full belt refuses, in ESTOP too. -/
theorem State.askReturn_full (h : 6 ≤ s.beltCount) :
    s.askReturn l =
      ((s.raise .returnFull).putLane l { s.lane l with attention := true }).raise .laneAttention := by
  have full : s.beltRoom = false := Bool.eq_false_iff.2 (mt s.beltRoom_iff.1 (Nat.not_lt.2 h))
  simp only [State.askReturn, full, Bool.not_false, if_true]
  rfl

theorem State.askReturn_estop (room : s.beltCount < 6) (estop : s.run.state = .estop) : s.askReturn l = s := by
  simp [State.askReturn, s.beltRoom_iff.2 room, estop]

theorem State.askReturn_pushes (room : s.beltCount < 6) (steady : s.run.state ≠ .estop) :
    s.askReturn l = s.pushWindow l := by
  simp [State.askReturn, s.beltRoom_iff.2 room, steady]

/-- R98: the push, once its CHUTE frame has been handed over. -/
theorem State.pushWindow_eq (s : State) (l : LaneIx) :
    let d := s.hand (chuteFrame (s.laneCfg l).station)
    s.pushWindow l = (d.windowTote l d.pushTote (d.dropEntry0 l)).emptyWindow l := rfl

end

/-! ## The address of a button (R161) -/

section
variable {s : State} {a : Nat} {act : State → LaneIx → State}

theorem State.clerkAt_open {l : LaneIx} (at_ : s.laneAt a = some l) (opened : s.laneOpen l = true) :
    s.clerkAt a act = settle s (act s l) := by
  simp only [State.clerkAt, at_, opened, if_true]

theorem State.clerkAt_shut {l : LaneIx} (at_ : s.laneAt a = some l) (shut : s.laneOpen l = false) :
    s.clerkAt a act = s := by
  simp [State.clerkAt, at_, shut]

theorem State.clerkAt_unnamed (h : ∀ l, (s.laneCfg l).capacity = 0 ∨ (s.laneCfg l).station ≠ a) :
    s.clerkAt a act = s := by
  simp only [State.clerkAt, State.laneAt_unnamed h]

end

theorem exec_taken {s : State} {h : Header} (quiet : Quiet s) (heard : Heard s h) :
    exec (.taken h) s =
      .next (closeEvent s (passOn h Kind.button [0x01#8] (s.clerkAt h.src.toNat State.takenAt))) :=
  congrArg Host.Outcome.next (receive_button quiet heard)

theorem exec_returnButton {s : State} {h : Header} (quiet : Quiet s) (heard : Heard s h) :
    exec (.returnButton h) s =
      .next (closeEvent s (passOn h Kind.button [0x02#8] (s.clerkAt h.src.toNat State.returnAt))) :=
  congrArg Host.Outcome.next (receive_button quiet heard)

/-- Settles O24: the address, and the window tote in each window state. -/
theorem takenButton : Obligations.TakenButton := by
  refine ⟨fun s h quiet heard unnamed => ?_, fun s h l quiet heard at_ => ⟨fun shut => ?_, fun opened => ?_⟩⟩
  · rw [exec_taken quiet heard, State.clerkAt_unnamed unnamed]
  · rw [exec_taken quiet heard, State.clerkAt_shut at_ shut]
  intro c
  have foreign : (c.lane l).foreign = (s.lane l).foreign := s.clerkButton_foreign l
  have queue : (c.lane l).queue = (s.lane l).queue := s.clerkButton_queue l
  have window : (c.lane l).window = (s.lane l).window := s.clerkButton_window l
  refine ⟨s.clerkButton_eq l, ?_, fun k rest w f q => ?_, fun n rest w f q => ?_,
    fun t w f => ⟨fun k x found => ?_, fun unfound => ?_⟩, fun w f => ?_, fun w f => ?_, fun w => ?_, fun t => rfl⟩
  · rw [exec_taken quiet heard, State.clerkAt_open at_ opened]
  · rw [State.takenAt_window (Lane.toteAtWindow_presented w), State.windowTote_known (foreign.trans f) (queue.trans q)]
  · rw [State.takenAt_window (Lane.toteAtWindow_presented w),
      State.windowTote_unknown (foreign.trans f) (queue.trans q), State.emptyWindow_dropEntry0 (window.trans w) (queue.trans q)]
    simp [c]
  · rw [State.takenAt_window (Lane.toteAtWindow_foreign w f), State.windowTote_recorded (foreign.trans f) found]
  · rw [State.takenAt_window (Lane.toteAtWindow_foreign w f), State.windowTote_unrecorded (foreign.trans f) unfound]
  · rw [State.takenAt_window (Lane.toteAtWindow_foreign w f), State.windowTote_unread (foreign.trans f)]
  · rw [State.takenAt_elsewhere (Lane.toteAtWindow_held w f), State.buttonElsewhere_held (window.trans w)]
  · rw [State.takenAt_elsewhere (Lane.toteAtWindow_moving w), State.buttonElsewhere_moving (by rwa [window])]

/-- Settles O25: the address, the refusals, and the window tote that is pushed. -/
theorem returnButton : Obligations.ReturnButton := by
  refine ⟨fun s h quiet heard unnamed => ?_, fun s h l quiet heard at_ => ⟨fun shut => ?_, fun opened => ?_⟩⟩
  · rw [exec_returnButton quiet heard, State.clerkAt_unnamed unnamed]
  · rw [exec_returnButton quiet heard, State.clerkAt_shut at_ shut]
  intro c
  have foreign : (c.lane l).foreign = (s.lane l).foreign := s.clerkButton_foreign l
  have queue : (c.lane l).queue = (s.lane l).queue := s.clerkButton_queue l
  have window : (c.lane l).window = (s.lane l).window := s.clerkButton_window l
  refine ⟨?_, fun tote full => ?_, fun tote room estop => ?_, fun tote room steady => ?_, fun w f => ?_, fun w => ?_⟩
  · rw [exec_returnButton quiet heard, State.clerkAt_open at_ opened]
  · rw [State.returnAt_window tote, State.askReturn_full (s := s.clerkButton l) full]
  · rw [State.returnAt_window tote, State.askReturn_estop (s := s.clerkButton l) room estop]
  · intro d
    have pushed : s.returnAt l = (d.windowTote l d.pushTote (d.dropEntry0 l)).emptyWindow l := by
      rw [State.returnAt_window tote, State.askReturn_pushes (s := s.clerkButton l) room steady]
      exact State.pushWindow_eq c l
    rw [pushed]
    have foreign : (d.lane l).foreign = (s.lane l).foreign := foreign
    have queue : (d.lane l).queue = (s.lane l).queue := queue
    refine ⟨fun k rest f q => ?_, fun n rest f q => ?_, fun f => ?_, fun t k x f found => ?_, fun t f unfound => ?_⟩
    · rw [State.windowTote_known (foreign.trans f) (queue.trans q)]
      rfl
    · rw [State.windowTote_unknown (foreign.trans f) (queue.trans q)]
    · rw [State.windowTote_unread (foreign.trans f)]
    · rw [State.windowTote_recorded (foreign.trans f) found]
      rfl
    · rw [State.windowTote_unrecorded (foreign.trans f) unfound]
  · rw [State.returnAt_elsewhere (Lane.toteAtWindow_held w f), State.buttonElsewhere_held (window.trans w)]
  · rw [State.returnAt_elsewhere (Lane.toteAtWindow_moving w), State.buttonElsewhere_moving (by rwa [window])]

end Sys2Proof.Machine
end

section
/-! PROOFS. The scans of the counter window (section 5.4): the reconciliation of the tote shown against entry 0, the
scan of a window that holds a foreign tote, the relocation of a record that stands elsewhere, and the results of the head
reader. -/

namespace Sys2Proof.Machine

/-! ## A record that leaves its place keeps its tag -/

/-- The record that a tag names, changed in its slot, is the one that the tag names still. -/
theorem find?_slotPut {tag k : Nat} {x y : Tote} {t : List (Nat × Tote)}
    (h : t.find? (fun p => p.2.tag == tag) = some (k, x)) (same : y.tag = tag) :
    (slotPut k y t).find? (fun p => p.2.tag == tag) = some (k, y) := by
  induction t with
  | nil => simp at h
  | cons p r ih =>
    obtain ⟨j, z⟩ := p
    unfold slotPut
    split_ifs with before at_
    · simp [same]
    · simp [same]
    · by_cases named : z.tag = tag
      · rw [List.find?_cons_of_pos (by simpa using named)] at h
        cases h
        exact absurd rfl at_
      · rw [List.find?_cons_of_neg (by simpa using named)] at h ⊢
        exact ih h

section
variable {s : State} {t : Nat} {k : ToteSlot} {x : Tote}

theorem State.findTote_removeTote (found : s.findTote t = some (k, x)) (held : s.tote? k = some x) :
    (s.removeTote k).findTote t = some (k, x.removed) := by
  have tag : x.tag = t := by simpa using List.find?_some found
  rw [State.removeTote_fields held]
  exact find?_slotPut found tag

theorem State.tagOf_removeTote (held : s.tote? k = some x) (j : ToteSlot) : (s.removeTote k).tagOf j = s.tagOf j := by
  rw [State.removeTote_fields held]
  unfold State.tagOf State.tote?
  by_cases same : k = j
  · subst same
    have held : slotGet k s.totes = some x := held
    simp [held]
  · rw [slotGet_slotPut_ne _ _ _ _ same]

theorem State.laneCfg_removeTote (held : s.tote? k = some x) (l : LaneIx) :
    (s.removeTote k).laneCfg l = s.laneCfg l := by
  rw [State.removeTote_fields held]
  rfl

/-- R13: of a lane that is not its place a removed tote leaves all but the incoming list. -/
theorem State.lane_removeTote {l : LaneIx} (held : s.tote? k = some x) (elsewhere : x.location ≠ .lane l) :
    ∃ incoming, (s.removeTote k).lane l = { s.lane l with incoming := incoming } := by
  have taken : (s.removeTote k).lane l = (s.takeOut k x.location).lane l := by
    rw [State.removeTote_eq held]
    rfl
  rw [taken, State.lane_takeOut, if_neg elsewhere]
  split_ifs
  · exact ⟨_, rfl⟩
  · exact ⟨(s.lane l).incoming, rfl⟩

end

/-- R14 at a head reader: the state in which a tote located anywhere but in the lane has left its place. -/
abbrev State.relocated (s : State) (l : LaneIx) (k : ToteSlot) (x : Tote) : State :=
  if x.location = .lane l then s else (s.removeTote k).raise .strayTote

section
variable {s : State} {t : Nat} {k : ToteSlot} {x : Tote}

theorem State.relocateToWindow_found (found : s.findTote t = some (k, x)) (l : LaneIx) :
    s.relocateToWindow l (.tag t) = s.relocated l k x := by
  simp only [State.relocateToWindow, found]

theorem State.lane_relocated (held : s.tote? k = some x) (l : LaneIx) :
    ∃ incoming, (s.relocated l k x).lane l = { s.lane l with incoming := incoming } := by
  unfold State.relocated
  split_ifs with here
  · exact ⟨(s.lane l).incoming, rfl⟩
  · exact State.lane_removeTote held here

theorem State.laneCfg_relocated (held : s.tote? k = some x) (l : LaneIx) :
    (s.relocated l k x).laneCfg l = s.laneCfg l := by
  unfold State.relocated
  split_ifs
  · rfl
  · exact State.laneCfg_removeTote held l

theorem State.tagOf_relocated (held : s.tote? k = some x) (l : LaneIx) (j : ToteSlot) :
    (s.relocated l k x).tagOf j = s.tagOf j := by
  unfold State.relocated
  split_ifs
  · rfl
  · exact State.tagOf_removeTote held j

theorem State.findTote_relocated (found : s.findTote t = some (k, x)) (held : s.tote? k = some x) (l : LaneIx) :
    ∃ y, (s.relocated l k x).findTote t = some (k, y) := by
  unfold State.relocated
  split_ifs
  · exact ⟨x, found⟩
  · exact ⟨x.removed, State.findTote_removeTote found held⟩

end

/-! ## Reconciliation against entry 0 (R94) -/

/-- R94, R105: a foreign tote at the window, with ATTENTION. -/
theorem State.holdForeign_eq (s : State) (l : LaneIx) (x : Shown) :
    s.holdForeign l x = (s.putLane l { s.lane l with
      window := .held, foreign := some x.foreign, advance := none, attention := true }).raise .laneAttention :=
  s.takeAttention_modLane l _

/-- The queue of a lane with new entries. -/
abbrev State.setEntries (s : State) (l : LaneIx) (q : List QueueEntry) : State :=
  s.putLane l { s.lane l with queue := q }

/-- The record of a tote that stands in a lane. -/
abbrev State.locate (s : State) (l : LaneIx) (k : ToteSlot) : State :=
  s.modTote k (fun r => { r with location := .lane l })

section
variable {s : State} {l : LaneIx} {rest : List QueueEntry}

theorem State.reconcile_unread {e : QueueEntry} (q : (s.lane l).queue = e :: rest) :
    s.reconcile l .unread = s.present l := by
  unfold State.reconcile
  rw [q]
  cases e <;> rfl

theorem State.reconcile_own {j : ToteSlot} {t : Nat} (q : (s.lane l).queue = .known j :: rest) (own : s.tagOf j = t) :
    s.reconcile l (.tag t) = s.present l := by
  unfold State.reconcile
  rw [q]
  exact if_pos own

theorem State.reconcile_foreign {j : ToteSlot} {t : Nat} (q : (s.lane l).queue = .known j :: rest)
    (other : s.tagOf j ≠ t) : s.reconcile l (.tag t) = s.holdForeign l (.tag t) := by
  unfold State.reconcile
  rw [q]
  exact if_neg other

/-- R94: an unknown entry 0 is identified. -/
theorem State.reconcile_identifies {n : Option Nat} {t : Nat} {k : ToteSlot} {x : Tote}
    (q : (s.lane l).queue = .unknown n :: rest) (found : s.findTote t = some (k, x)) :
    s.reconcile l (.tag t) = (((s.setEntries l
      (.known k :: rest.map (fun e => if e = .known k then .unknown none else e))).locate l k).present l) := by
  simp [State.reconcile, q, found, State.nameEntry, State.modLane_eq, Lane.forget]

theorem State.reconcile_notes {n : Option Nat} {t : Nat} (q : (s.lane l).queue = .unknown n :: rest)
    (unfound : s.findTote t = none) :
    s.reconcile l (.tag t) = (s.setEntries l (.unknown (some t) :: rest)).present l := by
  simp [State.reconcile, q, unfound, State.noteEntry0, State.modLane_eq]

theorem State.reconcile_empty (q : (s.lane l).queue = []) (x : Shown) : s.reconcile l x = s.foundTote l x := by
  unfold State.reconcile
  rw [q]

theorem State.foundTote_full (q : (s.lane l).queue = []) (full : (s.laneCfg l).capacity ≤ (s.lane l).incoming.length)
    (x : Shown) : s.foundTote l x = s.holdForeign l x := by
  have no_room : ¬s.occupied l + s.incoming l < (s.laneCfg l).capacity := by
    simpa [State.occupied, State.incoming, q] using full
  exact if_neg no_room

theorem State.foundTote_room (q : (s.lane l).queue = []) (room : (s.lane l).incoming.length < (s.laneCfg l).capacity) :
    s.foundTote l .unread = ((s.setEntries l [.unknown none]).present l).raise .strayTote ∧
    (∀ t, s.findTote t = none →
      s.foundTote l (.tag t) = ((s.setEntries l [.unknown (some t)]).present l).raise .strayTote) ∧
    (∀ t k x, s.findTote t = some (k, x) →
      s.foundTote l (.tag t) = (((s.setEntries l [.known k]).locate l k).present l).raise .strayTote) := by
  have has_room : s.occupied l + s.incoming l < (s.laneCfg l).capacity := by
    simpa [State.occupied, State.incoming, q] using room
  refine ⟨?_, fun t unfound => ?_, fun t k x found => ?_⟩ <;> unfold State.foundTote <;> rw [if_pos has_room]
  · rfl
  · simp only [unfound]
    rfl
  · simp only [found]
    rfl

end

/-! ### The foreign tote that stood there before -/

/-- A lane with no foreign tote. -/
abbrev State.clearForeign (s : State) (l : LaneIx) : State := s.modLane l (fun y => { y with foreign := none })

theorem State.modTote_putLane (s : State) (l : LaneIx) (y : Lane) (k : ToteSlot) (f : Tote → Tote) :
    (s.putLane l y).modTote k f = (s.modTote k f).putLane l y := by
  have same : (s.putLane l y).tote? k = s.tote? k := rfl
  unfold State.modTote
  rw [same]
  cases s.tote? k <;> rfl

section
variable (s : State) (l : LaneIx)

theorem State.clearForeign_present : (s.clearForeign l).present l = s.present l := by
  simp [State.present, State.modLane_eq]

theorem State.clearForeign_holdForeign (x : Shown) : (s.clearForeign l).holdForeign l x = s.holdForeign l x := by
  simp [State.holdForeign_eq, State.modLane_eq]

theorem State.clearForeign_setEntries (q : List QueueEntry) :
    ((s.clearForeign l).setEntries l q).present l = (s.setEntries l q).present l := by
  simp [State.present, State.modLane_eq]

theorem State.clearForeign_locate (q : List QueueEntry) (k : ToteSlot) :
    (((s.clearForeign l).setEntries l q).locate l k).present l = ((s.setEntries l q).locate l k).present l := by
  simp [State.present, State.modLane_eq, State.modTote_putLane]

/-- R94: the reconciliation leaves a foreign tote of its own or none, whichever stood at the window before. -/
theorem State.clearForeign_reconcile (x : Shown) : (s.clearForeign l).reconcile l x = s.reconcile l x := by
  have queue : ((s.clearForeign l).lane l).queue = (s.lane l).queue := by simp
  have incoming : ((s.clearForeign l).lane l).incoming = (s.lane l).incoming := by simp
  cases q : (s.lane l).queue with
  | nil =>
    have q' := queue.trans q
    rw [State.reconcile_empty q', State.reconcile_empty q]
    by_cases full : (s.laneCfg l).capacity ≤ (s.lane l).incoming.length
    · rw [State.foundTote_full q' (incoming ▸ full), State.foundTote_full q full, State.clearForeign_holdForeign]
    · have room : (s.lane l).incoming.length < (s.laneCfg l).capacity := Nat.lt_of_not_le full
      obtain ⟨unread, unfound, found⟩ := State.foundTote_room q room
      obtain ⟨unread', unfound', found'⟩ := State.foundTote_room q' (incoming ▸ room)
      cases x with
      | unread => rw [unread, unread', State.clearForeign_setEntries]
      | tag t =>
        cases named : s.findTote t with
        | none => rw [unfound t named, unfound' t named, State.clearForeign_setEntries]
        | some p => rw [found t p.1 p.2 named, found' t p.1 p.2 named, State.clearForeign_locate]
  | cons e rest =>
    have q' := queue.trans q
    cases x with
    | unread => rw [State.reconcile_unread q', State.reconcile_unread q, State.clearForeign_present]
    | tag t =>
      cases e with
      | known j =>
        by_cases own : s.tagOf j = t
        · rw [State.reconcile_own q' own, State.reconcile_own q own, State.clearForeign_present]
        · rw [State.reconcile_foreign q' own, State.reconcile_foreign q own, State.clearForeign_holdForeign]
      | unknown n =>
        cases named : s.findTote t with
        | none => rw [State.reconcile_notes q' named, State.reconcile_notes q named, State.clearForeign_setEntries]
        | some p =>
          rw [State.reconcile_identifies q' named, State.reconcile_identifies q named, State.clearForeign_locate]

end

/-! ## The tote shown, by what the window holds (R93 to R95) -/

/-- R94, R95: what a scan makes of the window once the record of the tag has been relocated. -/
def State.resolve (s : State) (l : LaneIx) (x : Shown) : State :=
  match (s.lane l).window, (s.lane l).foreign with
  | .held, some f => s.scanForeign l f x
  | _, _ => s.reconcile l x

theorem State.showAtWindow_eq (s : State) (l : LaneIx) (x : Shown) :
    s.showAtWindow l x = ((s.relocateToWindow l x).modLane l (fun y => { y with emptyScans := 0 })).resolve l x := rfl

/-- R95: the window is HELD with the foreign tote of this tag. -/
abbrev Lane.holdsTag (x : Lane) (t : Nat) : Prop := x.window = .held ∧ x.foreign = some (.tag t)

section
variable {s : State} {l : LaneIx}

theorem State.resolve_held {f : Foreign} (w : (s.lane l).window = .held) (at_ : (s.lane l).foreign = some f)
    (x : Shown) : s.resolve l x = s.scanForeign l f x := by
  simp only [State.resolve, w, at_]

theorem State.resolve_other (h : ¬((s.lane l).window = .held ∧ (s.lane l).foreign ≠ none)) (x : Shown) :
    s.resolve l x = s.reconcile l x := by
  unfold State.resolve
  split
  next f w at_ => exact absurd ⟨w, by simp [at_]⟩ h
  next => rfl

theorem State.resolve_unread_foreign (h : (s.lane l).window = .held ∧ (s.lane l).foreign ≠ none) :
    s.resolve l .unread = s := by
  obtain ⟨w, at_⟩ := h
  obtain ⟨f, at_⟩ := Option.ne_none_iff_exists'.1 at_
  exact State.resolve_held w at_ .unread

variable {t : Nat}

theorem State.scanForeign_own {f : Foreign} (own : s.entry0Has l t = true) :
    s.scanForeign l f (.tag t) = s.present l := if_pos own

theorem State.scanForeign_again (other : s.entry0Has l t = false) : s.scanForeign l (.tag t) (.tag t) = s := by
  simp [State.scanForeign, other]

theorem State.scanForeign_another {f : Foreign} (other : s.entry0Has l t = false) (ne : f ≠ .tag t) :
    s.scanForeign l f (.tag t) = s.reconcile l (.tag t) := by
  simp only [State.scanForeign, other, Bool.false_eq_true, if_false, ne]
  exact s.clearForeign_reconcile l (.tag t)

theorem State.entry0Has_iff :
    s.entry0Has l t = true ↔ ∃ j rest, (s.lane l).queue = .known j :: rest ∧ s.tagOf j = t := by
  unfold State.entry0Has
  split
  next j rest q => simp [q]
  next unknown => simpa using fun j rest q => absurd q (unknown j rest)

/-- Entry 0 does not hold the tag where it is another tote, is unknown, or does not stand. -/
theorem State.entry0Has_eq_false (h : ∀ j rest, (s.lane l).queue = .known j :: rest → s.tagOf j ≠ t) :
    s.entry0Has l t = false := by
  rw [Bool.eq_false_iff, ne_eq, State.entry0Has_iff]
  rintro ⟨j, rest, q, tag⟩
  exact h j rest q tag

/-- R94, R95, log entry 14: the tag of entry 0 presents it, whatever the window holds. -/
theorem State.resolve_own {j : ToteSlot} {rest : List QueueEntry} (q : (s.lane l).queue = .known j :: rest)
    (own : s.tagOf j = t) : s.resolve l (.tag t) = s.present l := by
  by_cases foreign : (s.lane l).window = .held ∧ (s.lane l).foreign ≠ none
  · obtain ⟨w, at_⟩ := foreign
    obtain ⟨f, at_⟩ := Option.ne_none_iff_exists'.1 at_
    rw [State.resolve_held w at_, State.scanForeign_own (State.entry0Has_iff.2 ⟨j, rest, q, own⟩)]
  · rw [State.resolve_other foreign, State.reconcile_own q own]

/-- R95: the scan of the foreign tote itself changes nothing. -/
theorem State.resolve_again (again : (s.lane l).holdsTag t) (other : s.entry0Has l t = false) :
    s.resolve l (.tag t) = s := by
  rw [State.resolve_held again.1 again.2, State.scanForeign_again other]

/-- R94, R95: every other tag is reconciled against entry 0. -/
theorem State.resolve_another (another : ¬(s.lane l).holdsTag t) (other : s.entry0Has l t = false) :
    s.resolve l (.tag t) = s.reconcile l (.tag t) := by
  by_cases foreign : (s.lane l).window = .held ∧ (s.lane l).foreign ≠ none
  · obtain ⟨w, at_⟩ := foreign
    obtain ⟨f, at_⟩ := Option.ne_none_iff_exists'.1 at_
    have ne : f ≠ .tag t := fun same => another ⟨w, same ▸ at_⟩
    rw [State.resolve_held w at_, State.scanForeign_another other ne]
  · rw [State.resolve_other foreign]

end

/-! ## The auto-return test after a scan (R94, R102) -/

/-- The result that shows a tote. -/
def Shown.result (x : Shown) : ReadResult :=
  match x with
  | .tag t => .tag t
  | .unread => .noread

theorem State.deliver_headReader (s : State) (l : LaneIx) (res : ReadResult) :
    s.deliver (headReader l) res = s.headResult l res := by
  unfold State.deliver
  rw [roleOf_headReader]

theorem State.deliver_shown (s : State) (l : LaneIx) (x : Shown) :
    s.deliver (headReader l) x.result = s.scanShows l x := by
  rw [State.deliver_headReader]
  cases x <;> rfl

/-- R94: entry 0 is known and PRESENTED. -/
abbrev Lane.stands (x : Lane) : Prop :=
  x.window = .presented ∧ x.foreign = none ∧ ∃ k rest, x.queue = .known k :: rest

theorem Lane.presentsKnown_iff (x : Lane) : x.presentsKnown = true ↔ x.stands := by
  unfold Lane.presentsKnown Lane.stands
  simp only [Bool.and_eq_true, beq_iff_eq, Option.isNone_iff_eq_none, and_assoc]
  refine and_congr_right fun _ => and_congr_right fun _ => ?_
  split
  next k rest q => simp [q]
  next unknown => simpa using fun k rest q => unknown k rest q

section
variable {s u : State} {l : LaneIx} {x : Shown}

theorem not_returnsTote_of_held (h : (u.lane l).window = .held) : ¬ReturnsTote u l := by
  rintro ⟨presented, -⟩
  simp [h] at presented

theorem not_returnsTote_of_unknown {n : Option Nat} {rest : List QueueEntry}
    (h : (u.lane l).queue = .unknown n :: rest) : ¬ReturnsTote u l := by
  rintro ⟨-, -, -, k, rest', -, -, known, -⟩
  simp [h] at known

/-- R94: a scan that changes what is PRESENTED is followed by the auto-return test. -/
theorem State.deliver_tested (h : s.showAtWindow l x = u) :
    ((s.lane l).stands → s.deliver (headReader l) x.result = u) ∧
      (¬(s.lane l).stands → s.deliver (headReader l) x.result = u.returnTest l) := by
  subst h
  simp only [State.deliver_shown, ← Lane.presentsKnown_iff]
  exact ⟨fun stands => if_pos stands, fun moves => if_neg moves⟩

/-- The test changes nothing where it does not hold of what the scan leaves. -/
theorem State.deliver_untested (h : s.showAtWindow l x = u) (rests : ¬ReturnsTote u l) :
    s.deliver (headReader l) x.result = u := by
  obtain ⟨stood, moved⟩ := State.deliver_tested h
  by_cases stands : (s.lane l).stands
  · exact stood stands
  · rw [moved stands, (u.returnTest_spec l).2 fun returns => rests returns.1]

/-! ### The rows of R94 in which the test cannot hold -/

variable {z : State} (scan : s.showAtWindow l x = z.reconcile l x)
include scan

theorem State.deliver_full (q : (z.lane l).queue = []) (full : (z.laneCfg l).capacity ≤ (z.lane l).incoming.length) :
    s.deliver (headReader l) x.result = (z.putLane l { z.lane l with
      window := .held, foreign := some x.foreign, advance := none, attention := true }).raise .laneAttention := by
  rw [State.reconcile_empty q, State.foundTote_full q full, State.holdForeign_eq] at scan
  exact State.deliver_untested scan (not_returnsTote_of_held (by simp))

theorem State.deliver_unknownFound {n : Option Nat} (q : (z.lane l).queue = [])
    (found : z.foundTote l x = ((z.setEntries l [.unknown n]).present l).raise .strayTote) :
    s.deliver (headReader l) x.result = ((z.setEntries l [.unknown n]).present l).raise .strayTote := by
  rw [State.reconcile_empty q, found] at scan
  exact State.deliver_untested scan (not_returnsTote_of_unknown (n := n) (rest := []) (by simp [State.present]))

end

section
variable {s z : State} {l : LaneIx} {t : Nat} {rest : List QueueEntry}
  (scan : s.showAtWindow l (.tag t) = z.reconcile l (.tag t))
include scan

theorem State.deliver_foreign {j : ToteSlot} (q : (z.lane l).queue = .known j :: rest) (other : z.tagOf j ≠ t) :
    s.deliver (headReader l) (.tag t) = (z.putLane l { z.lane l with
      window := .held, foreign := some (.tag t), advance := none, attention := true }).raise .laneAttention := by
  rw [State.reconcile_foreign q other, State.holdForeign_eq] at scan
  exact State.deliver_untested (x := .tag t) scan (not_returnsTote_of_held (by simp))

theorem State.deliver_notes {n : Option Nat} (q : (z.lane l).queue = .unknown n :: rest)
    (unfound : z.findTote t = none) : s.deliver (headReader l) (.tag t) = (z.setEntries l (.unknown (some t) :: rest)).present l := by
  rw [State.reconcile_notes q unfound] at scan
  exact State.deliver_untested (x := .tag t) scan
    (not_returnsTote_of_unknown (n := some t) (rest := rest) (by simp [State.present]))

end

/-! ## A scan, by the lane as it was -/

/-- A scan of s that shows x comes to the resolution of x in state z, which is s but for the relocation of a record and
the count of empty scans: the lane's window, foreign tote and queue stand, and so do its capacity and every tag. -/
structure ScanFrom (s : State) (l : LaneIx) (x : Shown) (z : State) : Prop where
  shows : s.showAtWindow l x = z.resolve l x
  window : (z.lane l).window = (s.lane l).window
  foreign : (z.lane l).foreign = (s.lane l).foreign
  queue : (z.lane l).queue = (s.lane l).queue
  capacity : (z.laneCfg l).capacity = (s.laneCfg l).capacity
  tagOf : ∀ j, z.tagOf j = s.tagOf j

/-- A lane with no empty scan counted. -/
abbrev State.clearScans (s : State) (l : LaneIx) : State := s.putLane l { s.lane l with emptyScans := 0 }

theorem State.clearScans_incoming (s : State) (l : LaneIx) :
    ((s.clearScans l).lane l).incoming = (s.lane l).incoming := by
  rw [State.lane_putLane_same]

section
variable {s z : State} {l : LaneIx} {x : Shown}

theorem ScanFrom.of_relocated {m : State} (shown : s.relocateToWindow l x = m)
    (lane : ∃ incoming, m.lane l = { s.lane l with incoming := incoming }) (cfg : m.laneCfg l = s.laneCfg l)
    (tagOf : ∀ j, m.tagOf j = s.tagOf j) : ScanFrom s l x (m.clearScans l) := by
  obtain ⟨incoming, lane⟩ := lane
  refine ⟨?_, ?_, ?_, ?_, congrArg LaneEntry.capacity cfg, tagOf⟩
  · rw [State.showAtWindow_eq, shown]; rfl
  · rw [State.lane_putLane_same, lane]
  · rw [State.lane_putLane_same, lane]
  · rw [State.lane_putLane_same, lane]

/-- A scan for which no record is relocated. -/
theorem ScanFrom.of_stays (h : s.relocateToWindow l x = s) : ScanFrom s l x (s.clearScans l) :=
  .of_relocated h ⟨(s.lane l).incoming, rfl⟩ rfl fun _ => rfl

theorem State.relocateToWindow_unfound {t : Nat} (unfound : s.findTote t = none) :
    s.relocateToWindow l (.tag t) = s := by
  simp only [State.relocateToWindow, unfound]

namespace ScanFrom

theorem holdsTag_iff (scan : ScanFrom s l x z) (t : Nat) : (z.lane l).holdsTag t ↔ (s.lane l).holdsTag t := by
  rw [Lane.holdsTag, scan.window, scan.foreign]

theorem entry0Has_eq (scan : ScanFrom s l x z) (t : Nat) : z.entry0Has l t = s.entry0Has l t := by
  simp only [State.entry0Has, scan.queue, scan.tagOf]

theorem unread (scan : ScanFrom s l .unread z) (other : ¬((s.lane l).window = .held ∧ (s.lane l).foreign ≠ none)) :
    s.showAtWindow l .unread = z.reconcile l .unread := by
  rw [scan.shows, State.resolve_other (by rwa [scan.window, scan.foreign])]

theorem unread_foreign (scan : ScanFrom s l .unread z)
    (foreign : (s.lane l).window = .held ∧ (s.lane l).foreign ≠ none) : s.deliver (headReader l) .noread = z := by
  have held : (z.lane l).window = .held := scan.window.trans foreign.1
  refine State.deliver_untested (x := .unread) ?_ (not_returnsTote_of_held held)
  rw [scan.shows, State.resolve_unread_foreign (by rwa [scan.window, scan.foreign])]

variable {t : Nat}

theorem own (scan : ScanFrom s l (.tag t) z) {j : ToteSlot} {rest : List QueueEntry}
    (q : (s.lane l).queue = .known j :: rest) (tag : s.tagOf j = t) : s.showAtWindow l (.tag t) = z.present l := by
  rw [scan.shows, State.resolve_own (scan.queue.trans q) ((scan.tagOf j).trans tag)]

theorem again (scan : ScanFrom s l (.tag t) z) (other : s.entry0Has l t = false) (again : (s.lane l).holdsTag t) :
    s.deliver (headReader l) (.tag t) = z := by
  have held : (z.lane l).window = .held := scan.window.trans again.1
  refine State.deliver_untested (x := .tag t) ?_ (not_returnsTote_of_held held)
  rw [scan.shows, State.resolve_again ((scan.holdsTag_iff t).2 again) ((scan.entry0Has_eq t).trans other)]

theorem another (scan : ScanFrom s l (.tag t) z) (other : s.entry0Has l t = false) (another : ¬(s.lane l).holdsTag t) :
    s.showAtWindow l (.tag t) = z.reconcile l (.tag t) := by
  rw [scan.shows, State.resolve_another (mt (scan.holdsTag_iff t).1 another) ((scan.entry0Has_eq t).trans other)]

/-- R94, R95: the tag of another tote than a known entry 0. -/
theorem foreign_entry (scan : ScanFrom s l (.tag t) z) {j : ToteSlot} {rest : List QueueEntry}
    (q : (s.lane l).queue = .known j :: rest) (ne : s.tagOf j ≠ t) :
    ((s.lane l).holdsTag t → s.deliver (headReader l) (.tag t) = z) ∧
    (¬(s.lane l).holdsTag t → s.deliver (headReader l) (.tag t) = (z.putLane l { z.lane l with
      window := .held, foreign := some (.tag t), advance := none, attention := true }).raise .laneAttention) := by
  have other : s.entry0Has l t = false := State.entry0Has_eq_false (by simp [q, ne])
  exact ⟨scan.again other, fun another => State.deliver_foreign (scan.another other another)
    (scan.queue.trans q) ((scan.tagOf j).trans_ne ne)⟩

end ScanFrom

end

/-! ## EMPTY (R93, R96) -/

section
variable {s : State} {l : LaneIx}

theorem State.scanEmpty_none (h : (s.lane l).toteAtWindow = false) : s.scanEmpty l = s := if_neg (by simp [h])

theorem State.scanEmpty_first (h : (s.lane l).toteAtWindow = true) (first : (s.lane l).emptyScans = 0) :
    s.scanEmpty l = s.putLane l { s.lane l with emptyScans := 1 } := (if_pos h).trans (if_pos first)

theorem State.scanEmpty_second (h : (s.lane l).toteAtWindow = true) (second : (s.lane l).emptyScans ≠ 0) :
    s.scanEmpty l = s.takenAt l := (if_pos h).trans (if_neg second)

end

/-! ## The obligation -/

/-- Settles O23: the tote shown against what the window holds, row by row, and the test of R102 after it. -/
theorem windowScan : Obligations.WindowScan := by
  refine ⟨State.returnTest_spec, ?_⟩
  intro s l r stands scanned shown held reset entries z foreign
  refine ⟨fun other => ?_, fun at_ => ?_, ?_, ?_, ?_, fun w => ?_, fun w first => ?_, fun w second => ?_⟩
  · have scan : ScanFrom s l .unread z := .of_stays rfl
    have reconciled := scan.unread other
    have incoming : (z.lane l).incoming = (s.lane l).incoming := s.clearScans_incoming l
    refine ⟨fun e rest q => ?_, fun q room => ?_, fun q full => ?_⟩
    · exact State.deliver_tested (reconciled.trans (State.reconcile_unread (scan.queue.trans q)))
    · have q := scan.queue.trans q
      rw [← incoming, ← scan.capacity] at room
      obtain ⟨unread, -, -⟩ := State.foundTote_room q room
      exact State.deliver_unknownFound reconciled q unread
    · rw [← incoming, ← scan.capacity] at full
      exact State.deliver_full reconciled (scan.queue.trans q) full
  · exact ScanFrom.unread_foreign (.of_stays rfl) at_
  · intro t unfound again
    have scan : ScanFrom s l (.tag t) z := .of_stays (State.relocateToWindow_unfound unfound)
    have incoming : (z.lane l).incoming = (s.lane l).incoming := s.clearScans_incoming l
    refine ⟨fun j rest q ne => scan.foreign_entry q ne, fun n rest q => ?_, fun q => ?_⟩
    · have other : s.entry0Has l t = false := State.entry0Has_eq_false (by simp [q])
      exact ⟨scan.again other, fun another => State.deliver_notes (scan.another other another)
        (scan.queue.trans q) unfound⟩
    · have other : s.entry0Has l t = false := State.entry0Has_eq_false (by simp [q])
      have q := scan.queue.trans q
      refine ⟨scan.again other, fun another room => ?_, fun another full => ?_⟩
      · rw [← incoming, ← scan.capacity] at room
        obtain ⟨-, tag, -⟩ := State.foundTote_room q room
        exact State.deliver_unknownFound (scan.another other another) q (tag t unfound)
      · rw [← incoming, ← scan.capacity] at full
        exact State.deliver_full (scan.another other another) q full
  · intro t k x found record again m z located
    have scan : ScanFrom s l (.tag t) z := .of_relocated (State.relocateToWindow_found found l)
      (State.lane_relocated record l) (State.laneCfg_relocated record l) (State.tagOf_relocated record l)
    obtain ⟨y, named⟩ : ∃ y, z.findTote t = some (k, y) := State.findTote_relocated found record l
    have incoming : (z.lane l).incoming = (m.lane l).incoming := m.clearScans_incoming l
    refine ⟨fun j rest q => ⟨fun own => ?_, scan.foreign_entry q⟩, fun n rest q => ?_, fun q => ?_⟩
    · exact State.deliver_tested (x := .tag t) (scan.own q own)
    · have other : s.entry0Has l t = false := State.entry0Has_eq_false (by simp [q])
      exact ⟨scan.again other, fun another => State.deliver_tested (x := .tag t)
        ((scan.another other another).trans (State.reconcile_identifies (scan.queue.trans q) named))⟩
    · have other : s.entry0Has l t = false := State.entry0Has_eq_false (by simp [q])
      have q := scan.queue.trans q
      refine ⟨scan.again other, fun another room => ?_, fun another full => ?_⟩
      · rw [← incoming, ← scan.capacity] at room
        obtain ⟨-, -, tag⟩ := State.foundTote_room q room
        exact State.deliver_tested (x := .tag t)
          ((scan.another other another).trans ((State.reconcile_empty q _).trans (tag t k y named)))
      · rw [← incoming, ← scan.capacity] at full
        exact State.deliver_full (scan.another other another) q full
  · exact s.deliver_headReader l .none
  · exact (s.deliver_headReader l .empty).trans (State.scanEmpty_none w)
  · exact (s.deliver_headReader l .empty).trans (State.scanEmpty_first w first)
  · exact (s.deliver_headReader l .empty).trans (State.scanEmpty_second w second)

end Sys2Proof.Machine
end

section
/-! PROOFS. The EYE at the entry of the will-call spur (R118) and the EYE at the merge's approach (R131), each taken
from the station that the site record names and ignored from any other (R161). -/

namespace Sys2Proof.Machine

/-! ## The EYE at the entry of the spur (R118) -/

theorem exec_willcallEntryEye {s : State} {h : Header} (quiet : Quiet s) (heard : Heard s h) :
    exec (.willcallEntryEye h) s = .next (closeEvent s (passOn h Kind.eye [0x05#8] (s.spurEye h.src.toNat))) :=
  congrArg Host.Outcome.next (receive_eye quiet heard)

section
variable {s : State} {a : Nat}

theorem State.spurEye_own (own : a = s.cfg.site.willcallStation) : s.spurEye a = s.willcallEntry := if_pos own

theorem State.spurEye_other (other : a ≠ s.cfg.site.willcallStation) : s.spurEye a = s := if_neg other

/-- R118: the oldest incoming entry leaves its list; its tote joins the tail of the will-call list. -/
theorem State.willcallEntry_confirms {e : Incoming} {rest : List Incoming} (h : s.willcall.incoming = e :: rest) :
    s.willcallEntry =
      { s with willcall := WillCall.mk rest (s.willcall.list ++ [Stay.mk e.tote s.now]) }.modTote e.tote
        (fun t => { t with location := .willcall }) := by
  simp only [State.willcallEntry, h]

/-- R118: a tote that nobody diverted into the spur. -/
theorem State.willcallEntry_stray (h : s.willcall.incoming = []) : s.willcallEntry = s.raise .strayTote := by
  simp only [State.willcallEntry, h]

end

/-! ## The EYE at the merge's approach (R131) -/

theorem exec_mergeApproachEye {s : State} {h : Header} (quiet : Quiet s) (heard : Heard s h) :
    exec (.mergeApproachEye h) s = .next (closeEvent s (passOn h Kind.eye [0x07#8] (s.approach h.src.toNat))) :=
  congrArg Host.Outcome.next (receive_eye quiet heard)

section
variable {s : State} {a : Nat}

theorem State.approach_own (own : a = s.cfg.site.mergeStation) : s.approach a = s.holdMerge := if_pos own

theorem State.approach_other (other : a ≠ s.cfg.site.mergeStation) : s.approach a = s := if_neg other

/-- R131: the hold ends one merge gap from now, whatever end it had before. -/
theorem State.holdMerge_eq (s : State) :
    s.holdMerge = { s with merge := { s.merge with hold := some (s.now + s.cfg.site.mergeGap * 100) } } := rfl

end

/-! ## The obligation -/

/-- Settles O13: each EYE by its sender, and that of the spur by the oldest incoming entry. -/
theorem spurAndApproachEyes : Obligations.SpurAndApproachEyes := by
  intro s h quiet heard
  have spur := exec_willcallEntryEye quiet heard
  have approach := exec_mergeApproachEye quiet heard
  refine ⟨fun own => ⟨fun e rest incoming => ?_, fun incoming => ?_⟩, fun other => ?_, fun own => ?_, fun other => ?_⟩
  · rw [spur, State.spurEye_own own, State.willcallEntry_confirms incoming]
  · rw [spur, State.spurEye_own own, State.willcallEntry_stray incoming]
  · rw [spur, State.spurEye_other other]
  · rw [approach, State.approach_own own, State.holdMerge_eq]
  · rw [approach, State.approach_other other]

end Sys2Proof.Machine
end

section
/-! PROOFS. The merge arbiter (R132), when a head is releasable and a claimant stands (R130, R139), and the grants of
an induct head and of the return-belt head (R131, R133 to R135). -/

namespace Sys2Proof.Machine

/-! ## Heads and claimants (R130, R139) -/

theorem State.throttleAllows_iff (s : State) :
    s.throttleAllows = true ↔ s.throttle.throttled = false ∨ s.throttle.monitorCount < s.cfg.throttle.windowMax := by
  simp [State.throttleAllows]

theorem State.knownHead_eq_some_iff (s : State) (i : InductIx) (k : ToteSlot) :
    s.knownHead i = some k ↔ ∃ e rest, s.queue i = e :: rest ∧ e.tote = some k := by
  unfold State.knownHead
  cases s.queue i <;> simp

theorem State.beltReleasable_iff (s : State) :
    s.beltReleasable = true ↔
      s.merge.head ≠ .absent ∧ (s.run.state = .running ∨ s.run.state = .halting) ∧ s.drive.state = .running ∧
        s.merge.hold = none := by
  simp [State.beltReleasable, State.trackRuns_iff, and_assoc]

theorem State.inductReleasable_iff (s : State) (i : InductIx) :
    s.inductReleasable i = true ↔
      (s.inductCfg i).present = true ∧ s.knownHead i ≠ none ∧ s.run.state = .running ∧
        s.drive.state = .running ∧ s.merge.hold = none ∧
        (s.throttle.throttled = false ∨ s.throttle.monitorCount < s.cfg.throttle.windowMax) := by
  simp [State.inductReleasable, State.throttleAllows_iff, Option.isSome_iff_ne_none, and_assoc]

theorem State.headPriority_eq {s : State} {i : InductIx} {k : ToteSlot} {x : Tote} {o : Order}
    (head : s.knownHead i = some k) (held : s.tote? k = some x) (ho : s.order? x.order = some o) :
    s.headPriority i = o.priority := by
  simp only [State.headPriority, head, held, ho]

theorem State.beltEmpty_eq_false_iff (s : State) :
    s.beltEmpty = false ↔ s.merge.head ≠ .absent ∨ ∃ q ∈ s.totes, q.2.location = .returnBelt := by
  rw [← Bool.not_eq_true]
  simp only [State.beltEmpty, State.beltCount, Bool.and_eq_true, beq_iff_eq, List.length_eq_zero_iff,
    List.filter_eq_nil_iff, not_and_or, not_forall, not_not, exists_prop]
  exact or_comm

theorem State.claimant_iff (s : State) :
    s.claimant = true ↔
      ((∃ i, (s.inductCfg i).present = true ∧ s.knownHead i ≠ none) ∧ s.run.state = .running ∧
          (s.throttle.throttled = false ∨ s.throttle.monitorCount < s.cfg.throttle.windowMax)) ∨
        ((s.merge.head ≠ .absent ∨ ∃ q ∈ s.totes, q.2.location = .returnBelt) ∧
          (s.run.state = .running ∨ s.run.state = .halting)) := by
  rw [← State.beltEmpty_eq_false_iff, ← State.throttleAllows_iff, ← State.trackRuns_iff]
  simp [State.claimant, allInducts_mem, Option.isSome_iff_ne_none, and_assoc]

/-! ## The choice among the induct heads (R132) -/

/-- R132 rule 2: a releasable head of the highest priority. -/
abbrev State.Leads (s : State) (i : InductIx) : Prop :=
  s.inductReleasable i = true ∧ ∀ j, s.inductReleasable j = true → s.headPriority j ≤ s.headPriority i

/-- R132 rule 3: the round robin, from the lane after the pointer on. -/
theorem inductsAfter_eq (p : InductIx) : inductsAfter p = (List.finRange 4).map (fun n => p + 1 + n) := by
  revert p; decide

theorem mem_inductsAfter (p i : InductIx) : i ∈ inductsAfter p := by revert p i; decide

/-- The place of an induct in the round robin. -/
theorem inductAfter_eq_iff (p i n : InductIx) : p + 1 + n = i ↔ n = i - p - 1 := by revert p i n; decide

/-- A search of the round robin finds the first induct after the pointer of which the test holds. -/
theorem find?_inductsAfter_eq_some_iff (p i : InductIx) (test : InductIx → Bool) :
    (inductsAfter p).find? test = some i ↔
      test i = true ∧ ∀ j, test j = true → (i - p - 1).val ≤ (j - p - 1).val := by
  have place : ∀ j, p + 1 + (j - p - 1) = j := fun j => (inductAfter_eq_iff p j _).2 rfl
  rw [inductsAfter_eq, List.find?_map, Option.map_eq_some_iff]
  simp only [inductAfter_eq_iff, exists_eq_right, find?_finRange_eq_some_iff, Function.comp_apply, place]
  refine and_congr_right fun _ => ⟨fun low j holds => not_lt.1 fun before => ?_, fun low n before => ?_⟩
  · have fails := low (j - p - 1) before
    rw [place, holds] at fails
    exact absurd fails (by decide)
  · rw [← Bool.not_eq_true]
    intro holds
    have after := low _ holds
    rw [← (inductAfter_eq_iff p _ n).1 rfl] at after
    exact absurd before (not_lt.2 after)

/-- The arbiter takes the first leading head of the round robin. -/
theorem State.chooseInduct_eq (s : State) :
    s.chooseInduct = (inductsAfter s.merge.pointer).find? (fun i => Decidable.decide (s.Leads i)) := by
  unfold State.chooseInduct
  dsimp only
  rw [List.find?_filter]
  congr 1
  funext i
  simp [mem_inductsAfter, or_iff_not_imp_left]

theorem State.chooseInduct_eq_none {s : State} (h : ∀ i, s.inductReleasable i = false) : s.chooseInduct = none := by
  rw [State.chooseInduct_eq, List.find?_eq_none]
  simp [h]

/-- R132 rules 2 and 3, by comparing the releasable heads one by one. -/
theorem State.chooseInduct_eq_some {s : State} {i : InductIx} (head : s.inductReleasable i = true)
    (best : ∀ j, s.inductReleasable j = true →
      s.headPriority j < s.headPriority i ∨
        (s.headPriority j = s.headPriority i ∧ (i - s.merge.pointer - 1).val ≤ (j - s.merge.pointer - 1).val)) :
    s.chooseInduct = some i := by
  rw [State.chooseInduct_eq, find?_inductsAfter_eq_some_iff]
  simp only [decide_eq_true_iff]
  refine ⟨⟨head, fun j releasable => ?_⟩, fun j ⟨releasable, leads⟩ => ?_⟩
  · obtain lower | ⟨equal, -⟩ := best j releasable <;> omega
  · have at_least := leads i head
    obtain lower | ⟨-, first⟩ := best j releasable
    · omega
    · exact first

theorem State.grant_belt {s : State} (h : s.beltReleasable = true) : s.grant = s.grantBelt := if_pos h

theorem State.grant_induct {s : State} {i : InductIx} {k : ToteSlot} (belt : s.beltReleasable = false)
    (chosen : s.chooseInduct = some i) (head : s.knownHead i = some k) : s.grant = s.grantInduct i k := by
  simp [State.grant, belt, chosen, head]

theorem State.grant_none {s : State} (belt : s.beltReleasable = false) (unchosen : s.chooseInduct = none) :
    s.grant = s := by
  simp [State.grant, belt, unchosen]

/-! ## The grants (R131, R133 to R135) -/

/-- An attempt of assignment leaves the drive alone. -/
theorem State.attempt_drive (s : State) (k : OrderSlot) : (s.attempt k).drive = s.drive := by
  unfold State.attempt
  split
  next => rfl
  next o ho =>
    split
    next =>
      dsimp only
      split
      next => rw [State.enterWillcall_eq ho]
      next => split <;> simp [State.routeTo, State.clearTrails]
    next => rfl

theorem State.attempt_now (s : State) (k : OrderSlot) : (s.attempt k).now = s.now :=
  (State.attempt_inside (c := True) (d := True) s k).now

section
variable {s : State} {k : ToteSlot} {x : Tote} {o : Order}

/-- R133, R134: the record of a granted tote; the loop report changes nothing while the drive is RUNNING. -/
theorem State.releaseTote_eq (runs : s.drive.state = .running) (held : s.tote? k = some x) (limit : Nat) :
    s.releaseTote k limit =
      { s with totes := (slotPut k
          { x with
            location := .loop, sighting := some .seen, laps := 0, lastGate := none
            deadline := some ⟨s.now + limit * 10000, 0⟩ } s.totes) } := by
  by_cases occupied : ∃ q ∈ s.totes, q.2.location = .loop
  · exact State.placeOnLoop_occupied held _ occupied
  · exact (State.placeOnLoop_empty held _ (by simpa using occupied)).trans
      (State.driveReport_stands (.inr (.inr runs)))

/-- R153: an operation that leaves the drive, the clock and the configuration alone comes before the restart. -/
theorem State.restartIdle_after {t : State} (drive : t.drive = s.drive) (now : t.now = s.now) (cfg : t.cfg = s.cfg)
    (runs : s.drive.state = .running) :
    t.restartIdle =
      { t with drive := { s.drive with idle := some (s.now + s.cfg.drive.idleInterval * 100000) } } := by
  have expiry : t.now + t.cfg.drive.idleInterval * 100000 = s.now + s.cfg.drive.idleInterval * 100000 := by
    rw [now, cfg]
  rw [State.restartIdle_running (by rw [drive]; exact runs), expiry, drive]

/-- The order of a granted tote was released before: the idle timer alone starts again. -/
theorem State.grantEnds_again (runs : s.drive.state = .running) (held : s.tote? k = some x)
    (ho : s.order? x.order = some o) (again : o.released = true) :
    (s.firstReleaseOf k).restartIdle =
      { s with drive := { s.drive with idle := some (s.now + s.cfg.drive.idleInterval * 100000) } } := by
  have stays : s.firstReleaseOf k = s := by simp [State.firstReleaseOf, State.firstRelease, held, ho, again]
  rw [stays, State.restartIdle_running runs]

/-- R135: the order's first release, with its attempt of assignment. -/
theorem State.grantEnds_first (runs : s.drive.state = .running) (held : s.tote? k = some x)
    (ho : s.order? x.order = some o) (first : o.released = false) :
    (s.firstReleaseOf k).restartIdle =
      { (s.putOrder x.order { o with released := true }).attempt x.order with
        drive := { s.drive with idle := some (s.now + s.cfg.drive.idleInterval * 100000) } } := by
  have attempts : s.firstReleaseOf k = (s.putOrder x.order { o with released := true }).attempt x.order := by
    simp [State.firstReleaseOf, State.firstRelease, held, ho, first]
  rw [attempts]
  exact State.restartIdle_after (State.attempt_drive _ _) (State.attempt_now _ _) (State.attempt_cfg _ _) runs

end

/-- R131, R133: the state in which the order of the tote granted from induct i is looked at. -/
abbrev State.inductGranted (s : State) (i : InductIx) (k : ToteSlot) (x : Tote) : State :=
  { s.hand (stopFrame (s.inductCfg i).station) with
    totes := slotPut k
      { x with
        location := .loop, sighting := some .seen, laps := 0, lastGate := none
        deadline := some ⟨s.now + (s.inductCfg i).transitLimit * 10000, 0⟩ } s.totes
    merge :=
      { s.merge with
        queues := setRow s.merge.queues i (s.queue i).tail
        hold := some (s.now + s.cfg.site.mergeGap * 100), pointer := i }
    throttle := s.throttle.countGrant }

/-- R131, R134: the state in which the order of the KNOWN return-belt head is looked at. -/
abbrev State.beltGranted (s : State) (k : ToteSlot) (x : Tote) : State :=
  { s.hand (stopFrame s.cfg.site.returnStation) with
    totes := slotPut k
      { x with
        location := .loop, sighting := some .seen, laps := 0, lastGate := none
        deadline := some ⟨s.now + s.cfg.site.returnTransitLimit * 10000, 0⟩ } s.totes
    merge := { s.merge with head := .absent, hold := some (s.now + s.cfg.site.mergeGap * 100) } }

theorem State.grantInduct_eq {s : State} {k : ToteSlot} {x : Tote} (i : InductIx)
    (runs : s.drive.state = .running) (held : s.tote? k = some x) :
    s.grantInduct i k = ((s.inductGranted i k x).firstReleaseOf k).restartIdle := by
  have released := State.releaseTote_eq
    (s := (s.hand (stopFrame (s.inductCfg i).station)).putQueue i (s.queue i).tail) runs held
  unfold State.grantInduct
  dsimp only
  rw [released]
  rfl

theorem State.grantBelt_known {s : State} {k : ToteSlot} {x : Tote} (known : s.merge.head = .known k)
    (runs : s.drive.state = .running) (held : s.tote? k = some x) :
    s.grantBelt = ((s.beltGranted k x).firstReleaseOf k).restartIdle := by
  unfold State.grantBelt
  have released := State.releaseTote_eq
    (s := { s.hand (stopFrame s.cfg.site.returnStation) with merge := { s.merge with head := .absent } }) runs held
  simp only [known, State.hand_merge]
  rw [released]
  rfl

theorem State.grantBelt_unnamed {s : State} (unnamed : s.merge.head = .unnamed) :
    s.grantBelt =
      ({ s.hand (stopFrame s.cfg.site.returnStation) with
        merge := { s.merge with head := .absent, hold := some (s.now + s.cfg.site.mergeGap * 100) } } :
          State).restartIdle := by
  unfold State.grantBelt
  simp only [unnamed]
  rfl

/-- Settles O21: the arbiter's choice, what each grant leaves, and the heads and claimants. -/
theorem mergeGrants : Obligations.MergeGrants := by
  refine ⟨fun s => ⟨State.grant_belt, fun belt => ⟨fun i k releasable head best => ?_, fun none_ => ?_⟩⟩,
    fun s i k x o held ho runs => ?_, fun s runs => ⟨fun unnamed => ?_, fun k x o known held ho => ?_⟩,
    fun s => ⟨s.beltReleasable_iff, s.knownHead_eq_some_iff, s.inductReleasable_iff,
      fun i k x o => State.headPriority_eq, s.claimant_iff⟩⟩
  · exact State.grant_induct belt (State.chooseInduct_eq_some releasable best) head
  · exact State.grant_none belt (State.chooseInduct_eq_none none_)
  · rw [State.grantInduct_eq i runs held]
    have granted : (s.inductGranted i k x).tote? k = some _ := slotGet_slotPut_same k _ s.totes
    have first := State.grantEnds_first (s := s.inductGranted i k x) runs granted ho
    exact ⟨State.grantEnds_again runs granted ho, first⟩
  · rw [State.grantBelt_unnamed unnamed]
    exact State.restartIdle_running runs
  · rw [State.grantBelt_known known runs held]
    have granted : (s.beltGranted k x).tote? k = some _ := slotGet_slotPut_same k _ s.totes
    have first := State.grantEnds_first (s := s.beltGranted k x) runs granted ho
    exact ⟨State.grantEnds_again runs granted ho, first⟩

end Sys2Proof.Machine
end

section
/-! PROOFS. The results delivered to the readers that are no gate's and no lane's: an induct's (R126, R127), the return
head's (R113, R114) and the will-call exit's (R120, R121); and the REMOVED button of an induct (R129, R161). -/

namespace Sys2Proof.Machine

/-! ## The reads at an induct (R126, R127) -/

theorem State.deliver_inductReader (s : State) (i : InductIx) (res : ReadResult) :
    s.deliver (inductReader i) res = s.inductResult i res := by
  unfold State.deliver
  rw [roleOf_inductReader]

section
variable {s : State} {i : InductIx} {t : Nat} {k : ToteSlot} {x : Tote}

theorem State.inductResult_unknownTag (h : s.findTote t = none) (i : InductIx) :
    s.inductResult i (.tag t) = s.inductStray i (some t) := by
  simp only [State.inductResult, h]

theorem State.inductResult_knownTag (h : s.findTote t = some (k, x)) (i : InductIx) :
    s.inductResult i (.tag t) = s.inductKnown i k x := by
  simp only [State.inductResult, h]

/-- R14, R126: a second read of a tote of this queue moves it to the tail. -/
theorem State.inductKnown_again (here : x.location = .induct i) :
    s.inductKnown i k x = (s.appendKnown i k x.tag).raise .strayTote := if_pos here

theorem State.inductKnown_full (elsewhere : x.location ≠ .induct i) (full : (s.queue i).length = 4) :
    s.inductKnown i k x = s.raise .inductOverfill := by
  simp only [State.inductKnown, elsewhere, full, if_true, if_false]

theorem State.inductKnown_unplaced (unplaced : x.location = .unplaced) (room : (s.queue i).length ≠ 4) :
    s.inductKnown i k x = s.appendKnown i k x.tag := by
  simp [State.inductKnown, unplaced, room]

/-- R14: a tote recorded elsewhere is taken from there. -/
theorem State.inductKnown_elsewhere (elsewhere : x.location ≠ .induct i) (placed : x.location ≠ .unplaced)
    (room : (s.queue i).length ≠ 4) : s.inductKnown i k x = (s.appendKnown i k x.tag).raise .strayTote := by
  simp only [State.inductKnown, elsewhere, placed, room, if_false]

end

/-! ## The reads at the return head (R113, R114) -/

theorem State.deliver_returnHeadReader (s : State) (res : ReadResult) :
    s.deliver returnHeadReader res = s.returnHeadResult res := by
  unfold State.deliver
  rw [roleOf_returnHead rfl]

section
variable {s : State} {t : Nat} {k : ToteSlot} {x : Tote}

theorem State.returnHeadResult_untagged {res : ReadResult} (h : res = .noread ∨ res = .empty ∨ res = .none) :
    s.returnHeadResult res = s.setHead .unnamed := by
  obtain rfl | rfl | rfl := h <;> rfl

theorem State.returnHeadResult_unknownTag (h : s.findTote t = none) :
    s.returnHeadResult (.tag t) = (s.setHead .unnamed).raise .strayTote := by
  simp only [State.returnHeadResult, h]

theorem State.returnHeadResult_knownTag (h : s.findTote t = some (k, x)) :
    s.returnHeadResult (.tag t) = s.headKnown k x := by
  simp only [State.returnHeadResult, h]

theorem State.headKnown_member (h : x.location = .returnBelt) : s.headKnown k x = s.setHead (.known k) := if_pos h

/-- R114: a tote recorded elsewhere joins the return-belt set where that has room. -/
theorem State.headKnown_joins (elsewhere : x.location ≠ .returnBelt) (room : s.beltCount < 6) :
    s.headKnown k x = ((s.pushTote k).setHead (.known k)).raise .strayTote :=
  (if_neg elsewhere).trans (if_pos ((State.beltRoom_iff s).2 room))

theorem State.headKnown_full (elsewhere : x.location ≠ .returnBelt) (full : 6 ≤ s.beltCount) :
    s.headKnown k x = (s.setHead .unnamed).raise .strayTote :=
  (if_neg elsewhere).trans (if_neg fun room => absurd ((State.beltRoom_iff s).1 room) (Nat.not_lt.2 full))

end

/-! ## The reads at the exit of the spur (R120, R121) -/

theorem State.deliver_exitReader (s : State) (res : ReadResult) : s.deliver exitReader res = s.exitResult res := by
  unfold State.deliver
  rw [roleOf_exit rfl]

section
variable {s : State} {t : Nat} {k : ToteSlot} {x : Tote}

theorem State.exitResult_noread_empty (h : s.willcall.list = []) : s.exitResult .noread = s := by
  simp only [State.exitResult, h]

/-- R121: an unread tote at the exit is taken to be the oldest of the list. -/
theorem State.exitResult_noread_head {e : Stay} {rest : List Stay} (h : s.willcall.list = e :: rest) :
    s.exitResult .noread = s.freeDone e.tote := by
  simp only [State.exitResult, h]

theorem State.exitResult_unknownTag (h : s.findTote t = none) : s.exitResult (.tag t) = s.raise .strayTote := by
  simp only [State.exitResult, h]

theorem State.exitResult_knownTag (h : s.findTote t = some (k, x)) :
    s.exitResult (.tag t) =
      if x.location = .willcall then s.freeDone k else (s.raise .strayTote).freeDone k := by
  simp only [State.exitResult, h]

end

/-- Settles O22: each reader's results by the tag they give and by the place of the tote it names. -/
theorem otherReaderDeliveries : Obligations.OtherReaderDeliveries := by
  refine ⟨fun s i => ?_, fun s => ?_⟩
  · simp only [State.deliver_inductReader]
    refine ⟨rfl, rfl, rfl, fun t unknown => State.inductResult_unknownTag unknown i, fun t k x known => ?_⟩
    rw [State.inductResult_knownTag known]
    exact ⟨State.inductKnown_again, State.inductKnown_full, State.inductKnown_unplaced, State.inductKnown_elsewhere⟩
  · simp only [State.deliver_returnHeadReader, State.deliver_exitReader]
    refine ⟨fun res => State.returnHeadResult_untagged, fun t => State.returnHeadResult_unknownTag,
      fun t k x known => ?_, rfl, rfl, State.exitResult_noread_empty, fun e rest => State.exitResult_noread_head,
      fun t => State.exitResult_unknownTag, fun t k x => State.exitResult_knownTag⟩
    rw [State.returnHeadResult_knownTag known]
    exact ⟨State.headKnown_member, State.headKnown_joins, State.headKnown_full⟩

/-! ## The REMOVED button (R129, R161) -/

/-- R161: a present induct whose station has the address. -/
abbrev State.namesInduct (s : State) (a : Nat) (i : InductIx) : Prop :=
  (s.inductCfg i).present = true ∧ (s.inductCfg i).station = a

theorem State.namesInduct_iff (s : State) (a : Nat) (i : InductIx) :
    ((s.inductCfg i).present && (s.inductCfg i).station == a) = true ↔ s.namesInduct a i := by
  simp

theorem State.inductAt_eq_some_iff (s : State) (a : Nat) (i : InductIx) :
    s.inductAt a = some i ↔ s.namesInduct a i ∧ ∀ j < i, ¬s.namesInduct a j := by
  unfold State.inductAt
  rw [find_lowestInduct_iff]
  simp only [← Bool.not_eq_true, State.namesInduct_iff]

theorem State.inductAt_eq_none_iff (s : State) (a : Nat) : s.inductAt a = none ↔ ∀ i, ¬s.namesInduct a i := by
  unfold State.inductAt
  rw [List.find?_eq_none]
  simp only [State.namesInduct_iff, allInducts_mem, forall_const]

theorem exec_removed {s : State} {h : Header} (quiet : Quiet s) (heard : Heard s h) :
    exec (.removed h) s = .next (closeEvent s (passOn h Kind.button [0x03#8] (s.removedAt h.src.toNat))) :=
  congrArg Host.Outcome.next (receive_button quiet heard)

section
variable {s : State} {a : Nat} {i : InductIx} {e : InductItem} {rest : List InductItem}

theorem State.removedAt_head (at_ : s.inductAt a = some i) (q : s.queue i = e :: rest) :
    s.removedAt a = settle s (s.dropHead i e rest) := by
  simp only [State.removedAt, at_, q]

theorem State.removedAt_nothing (h : ∀ i, s.inductAt a = some i → s.queue i = []) : s.removedAt a = s := by
  unfold State.removedAt
  split
  next i at_ => simp only [h i at_]
  next => rfl

theorem State.dropHead_known {k : ToteSlot} (h : e.tote = some k) :
    s.dropHead i e rest = (s.putQueue i rest).modTote k (fun t => { t with location := .unplaced }) := by
  simp only [State.dropHead, h]

theorem State.dropHead_stray (h : e.tote = none) : s.dropHead i e rest = s.putQueue i rest := by
  simp only [State.dropHead, h]

end

/-- Settles O26: the induct that the address names, and the head entry of its queue. -/
theorem removedButton : Obligations.RemovedButton := by
  refine ⟨fun s a => ⟨s.inductAt_eq_some_iff a, s.inductAt_eq_none_iff a⟩,
    fun s h quiet heard => ⟨fun i e rest at_ q => ⟨fun k known => ?_, fun stray => ?_⟩, fun nothing => ?_⟩⟩
  · rw [exec_removed quiet heard, State.removedAt_head at_ q, State.dropHead_known known]
  · rw [exec_removed quiet heard, State.removedAt_head at_ q, State.dropHead_stray stray]
  · rw [exec_removed quiet heard, State.removedAt_nothing nothing]

end Sys2Proof.Machine
end

section
/-! PROOFS. CONTROL THROTTLE-NOW, LOCK, SERVICE-OPEN and SERVICE-CLOSE (R140, R176, R177), and the timers of the merge,
of the throttle, of run control and of the drive (R131, R138, R139, R148, R153, R154). -/

namespace Sys2Proof.Machine

/-! ## A trigger of the throttle (R138 to R140) -/

section
variable {s : State}

theorem State.throttleTrigger_monitor (h : s.cfg.throttle.mode = .monitor) :
    s.throttleTrigger = s.raise .throttle := by
  simp only [State.throttleTrigger, h]

theorem State.throttleTrigger_starts (off : s.cfg.throttle.mode ≠ .none) (acts : s.cfg.throttle.mode ≠ .monitor) :
    s.throttleTrigger = s.throttleStart.raise .throttle := by
  unfold State.throttleTrigger
  split
  next e => exact absurd e off
  next e => exact absurd e acts
  all_goals rfl

/-- R139: a trigger while THROTTLED starts the count of windows again. -/
theorem State.throttleTrigger_renews (on : s.cfg.throttle.mode ≠ .none) (acts : s.cfg.throttle.mode ≠ .monitor)
    (throttled : s.throttle.throttled = true) :
    s.throttleTrigger =
      ({ s with throttle := { s.throttle with windowsLeft := s.cfg.throttle.duration } } : State).raise .throttle := by
  rw [State.throttleTrigger_starts on acts]
  exact congrArg (State.raise · .throttle) (if_pos throttled)

/-- R139: a trigger while NORMAL starts the monitor windows too. -/
theorem State.throttleTrigger_begins (on : s.cfg.throttle.mode ≠ .none) (acts : s.cfg.throttle.mode ≠ .monitor)
    (normal : s.throttle.throttled = false) :
    s.throttleTrigger =
      ({ s with throttle :=
          { s.throttle with
            throttled := true, windowsLeft := s.cfg.throttle.duration, monitorCount := 0
            monitorTimer := some (s.now + s.cfg.throttle.monitorWindow * 10000) } } : State).raise .throttle := by
  rw [State.throttleTrigger_starts on acts]
  exact congrArg (State.raise · .throttle) (if_neg (by simp [normal]))

end

/-! ## The requests -/

section
variable {s : State} {r : Request} {rest : List Request}

theorem exec_controlThrottleNow_rests (h : AskedWell s .controlThrottleNow r rest) (rests : s.trackRuns = false) :
    exec .controlThrottleNow s = answered s r (s.popRequest rest) .state [] :=
  exec_replied rfl h (if_neg (by simp [rests]))

theorem exec_controlThrottleNow_off (h : AskedWell s .controlThrottleNow r rest) (runs : s.trackRuns = true)
    (off : s.cfg.throttle.mode = .none) :
    exec .controlThrottleNow s =
      answered s r (s.popRequest rest) .okIgnored (s.popRequest rest).controlData :=
  exec_replied rfl h ((if_pos runs).trans (if_pos off))

theorem exec_controlThrottleNow_triggers {u : State} (h : AskedWell s .controlThrottleNow r rest)
    (runs : s.trackRuns = true) (on : s.cfg.throttle.mode ≠ .none) (trigger : (s.popRequest rest).throttleTrigger = u) :
    exec .controlThrottleNow s = answered s r u .ok u.controlData := by
  subst trigger
  exact exec_replied rfl h ((if_pos runs).trans (if_neg on))

theorem exec_controlLock (h : AskedWell s .controlLock r rest) :
    let p := s.popRequest rest
    let u : State := { p with req := { p.req with lock := true, service := false } }
    exec .controlLock s =
      if s.req.lock = true then answered s r p .okIgnored p.controlData
      else answered s r u .ok u.controlData := by
  dsimp only
  split_ifs with locked
  · exact exec_replied rfl h (if_pos locked)
  · exact exec_replied rfl h (if_neg locked)

theorem exec_controlServiceOpen (h : AskedWell s .controlServiceOpen r rest) :
    let p := s.popRequest rest
    let u : State := { p with req := { p.req with service := true } }
    exec .controlServiceOpen s =
      if s.req.lock = true then answered s r p .locked []
      else if s.req.service = true then answered s r p .okIgnored p.controlData
      else answered s r u .ok u.controlData := by
  dsimp only
  split_ifs with locked opened
  · exact exec_replied rfl h (if_pos locked)
  · exact exec_replied rfl h ((if_neg locked).trans (if_pos opened))
  · exact exec_replied rfl h ((if_neg locked).trans (if_neg opened))

theorem exec_controlServiceClose (h : AskedWell s .controlServiceClose r rest) :
    let p := s.popRequest rest
    let u : State := { p with req := { p.req with service := false } }
    exec .controlServiceClose s =
      if s.req.service = true then answered s r u .ok u.controlData
      else answered s r p .okIgnored p.controlData := by
  dsimp only
  split_ifs with opened
  · exact exec_replied rfl h (if_pos opened)
  · exact exec_replied rfl h (if_neg opened)

end

/-- Settles O45: one event lemma for each request, and the trigger of THROTTLE-NOW by the profile's mode. -/
theorem throttleLockService : Obligations.ThrottleLockService := by
  intro s r rest p ok
  refine ⟨fun asked => ?_, fun asked => ?_, fun asked => ?_, fun asked => ?_⟩
  · refine ⟨exec_controlThrottleNow_rests asked, fun runs => ⟨exec_controlThrottleNow_off asked runs,
      fun monitor => ?_, fun on acts => ⟨fun throttled => ?_, fun normal => ?_⟩⟩⟩
    · exact exec_controlThrottleNow_triggers asked runs (by simp [monitor]) (State.throttleTrigger_monitor monitor)
    · exact exec_controlThrottleNow_triggers asked runs on
        (State.throttleTrigger_renews (s := s.popRequest rest) on acts throttled)
    · exact exec_controlThrottleNow_triggers asked runs on
        (State.throttleTrigger_begins (s := s.popRequest rest) on acts normal)
  · have event := exec_controlLock asked
    exact ⟨fun locked => event.trans (if_pos locked), fun unlocked => event.trans (if_neg (by simp [unlocked]))⟩
  · have event := exec_controlServiceOpen asked
    refine ⟨fun locked => event.trans (if_pos locked), fun unlocked opened => ?_, fun unlocked closed => ?_⟩
    · exact event.trans ((if_neg (by simp [unlocked])).trans (if_pos opened))
    · exact event.trans ((if_neg (by simp [unlocked])).trans (if_neg (by simp [closed])))
  · have event := exec_controlServiceClose asked
    exact ⟨fun closed => event.trans (if_neg (by simp [closed])), fun opened => event.trans (if_pos opened)⟩

/-! ## The end of a sampling window (R138, R139) -/

/-- R138: the count test passes. -/
abbrev State.CountMet (s : State) : Prop := s.cfg.throttle.threshold < s.throttle.samplingCount

/-- R138: the load test passes. -/
abbrev State.LoadMet (s : State) : Prop := s.cfg.throttle.loadMark ≤ s.loopOccupancy

/-- R137, R138: the tests of each mode. -/
theorem State.throttleTests_iff (s : State) :
    s.throttleTests = true ↔
      (s.cfg.throttle.mode = .monitor ∧ (s.CountMet ∨ s.LoadMet)) ∨ (s.cfg.throttle.mode = .count ∧ s.CountMet) ∨
        (s.cfg.throttle.mode = .load ∧ s.LoadMet) ∨ (s.cfg.throttle.mode = .countLoad ∧ (s.CountMet ∨ s.LoadMet)) := by
  unfold State.throttleTests
  cases s.cfg.throttle.mode <;> simp

theorem State.throttleTests_on {s : State} (h : s.throttleTests = true) : s.cfg.throttle.mode ≠ .none := by
  intro off
  simp [State.throttleTests, off] at h

section
variable {s : State}

/-- R138: what starts again with every sampling window. -/
abbrev State.resample (s : State) (t : Throttle) : State :=
  { s with throttle :=
      { t with samplingCount := 0, samplingTimer := some (s.now + s.cfg.throttle.samplingWindow * 100000) } }

theorem State.samplingEnds_normal (quiet : s.throttleTests = false) (normal : s.throttle.throttled = false) :
    s.samplingEnds = s.resample s.throttle := by
  simp [State.samplingEnds, Throttle.windowEnds, quiet, normal, seconds]

/-- R139: windows are left. -/
theorem State.samplingEnds_counts (quiet : s.throttleTests = false) (throttled : s.throttle.throttled = true)
    (left : 2 ≤ s.throttle.windowsLeft) :
    s.samplingEnds = s.resample { s.throttle with windowsLeft := s.throttle.windowsLeft - 1 } := by
  have more : s.throttle.windowsLeft - 1 ≠ 0 := by omega
  simp [State.samplingEnds, Throttle.windowEnds, quiet, throttled, more, seconds]

/-- R139: no window is left. -/
theorem State.samplingEnds_returns (quiet : s.throttleTests = false) (throttled : s.throttle.throttled = true)
    (last : s.throttle.windowsLeft ≤ 1) :
    s.samplingEnds = s.resample ⟨false, 0, none, 0, none, 0⟩ := by
  have none_ : s.throttle.windowsLeft - 1 = 0 := by omega
  simp [State.samplingEnds, Throttle.windowEnds, Throttle.toNormal, quiet, throttled, none_, seconds]

/-- R139: a trigger that acts. -/
theorem State.samplingEnds_triggers (met : s.throttleTests = true) (acts : s.cfg.throttle.mode ≠ .monitor)
    (some_ : 1 ≤ s.cfg.throttle.duration) :
    s.samplingEnds =
      (s.resample ⟨true, s.cfg.throttle.duration,
        if s.throttle.throttled = true then s.throttle.monitorTimer
          else some (s.now + s.cfg.throttle.monitorWindow * 10000),
        if s.throttle.throttled = true then s.throttle.monitorCount else 0, none, 0⟩).raise .throttle := by
  have on := State.throttleTests_on met
  have some_ne : s.cfg.throttle.duration ≠ 0 := by omega
  cases throttled : s.throttle.throttled with
  | true =>
    have trigger := State.throttleTrigger_renews (s := { s with throttle := s.throttle.windowEnds }) on acts
      (by simp [Throttle.windowEnds, throttled])
    simp only [State.samplingEnds, met, if_true, trigger]
    simp [Throttle.windowEnds, throttled, some_ne, seconds, State.raise]
  | false =>
    have trigger := State.throttleTrigger_begins (s := { s with throttle := s.throttle.windowEnds }) on acts
      (by simp [Throttle.windowEnds, throttled])
    simp only [State.samplingEnds, met, if_true, trigger]
    simp [some_ne, seconds, State.raise]

/-- R138: a trigger in MONITOR raises the flag alone. -/
theorem State.samplingEnds_reports (met : s.throttleTests = true) (monitor : s.cfg.throttle.mode = .monitor)
    (normal : s.throttle.throttled = false) : s.samplingEnds = (s.resample s.throttle).raise .throttle := by
  have trigger := State.throttleTrigger_monitor (s := { s with throttle := s.throttle.windowEnds }) monitor
  simp only [State.samplingEnds, met, if_true, trigger]
  simp [Throttle.windowEnds, normal, seconds, State.raise]

end

/-! ## Timers that run -/

theorem Throttle.monitoring_throttled {t : Throttle} (h : t.throttled = true) : t.monitoring = t.monitorTimer :=
  if_pos h

theorem RunControl.halting_runs {r : RunControl} (h : r.state = .halting) : r.halting = r.haltTimer := if_pos h

theorem Drive.starting_runs {d : Drive} (h : d.state = .starting) : d.starting = d.delay := if_pos h

theorem Drive.stopping_runs {d : Drive} (h : d.state = .stopping) : d.stopping = d.delay := if_pos h

theorem Drive.idling_runs {d : Drive} (h : d.state = .running) : d.idling = d.idle := if_pos h

/-! ## The drive (R153, R154) -/

section
variable {s : State}

/-- R153: the idle test passes where nothing is on the loop or the return belt and no claimant stands. -/
theorem State.idleTest_stops (loop : ∀ q ∈ s.totes, q.2.location ≠ .loop) (belt : s.beltEmpty = true)
    (claimant : s.claimant = false) : s.idleTest = s.stopDrive :=
  if_pos ⟨s.loopOccupancy_eq_zero_iff.2 loop, belt, claimant⟩

theorem State.idleTest_restarts (runs : s.drive.state = .running)
    (busy : (∃ q ∈ s.totes, q.2.location = .loop) ∨ s.beltEmpty = false ∨ s.claimant = true) :
    s.idleTest = { s with drive := { s.drive with idle := some (s.now + s.cfg.drive.idleInterval * 100000) } } := by
  have fails : ¬(s.loopOccupancy = 0 ∧ s.beltEmpty = true ∧ s.claimant = false) := by
    rintro ⟨loop, belt, claimant⟩
    obtain ⟨q, m, e⟩ | e | e := busy
    · exact s.loopOccupancy_eq_zero_iff.1 loop q m e
    · simp [e] at belt
    · simp [e] at claimant
  exact (if_neg fails).trans (State.restartIdle_running runs)

theorem State.driveRests_rests (h : s.drive.wakePending = false) :
    s.driveRests = { s with drive := ⟨.resting, none, none, false⟩ } := if_neg (by simp [h])

theorem State.driveRests_wakes (h : s.drive.wakePending = true) : s.driveRests = s.startDrive := if_pos h

end

/-! ## The expiries -/

section
variable {s : State} {e : Time}

theorem exec_samplingWindowExpiry {v : State} (timer : s.throttle.samplingTimer = some e)
    (ends : (s.advanceTo e).samplingEnds = v) :
    exec .samplingWindowExpiry s = .next (closeEvent (s.advanceTo e) (settle (s.advanceTo e) v)) := by
  subst ends
  exact congrArg Host.Outcome.next (atExpiry_runs timer s _)

theorem exec_idleExpiry {v : State} (runs : s.drive.state = .running) (timer : s.drive.idle = some e)
    (test : (s.advanceTo e).idleTest = v) : exec .idleExpiry s = .next (closeEvent (s.advanceTo e) v) := by
  subst test
  exact congrArg Host.Outcome.next (atExpiry_runs ((Drive.idling_runs runs).trans timer) s _)

theorem exec_stopDelayExpiry {v : State} (stopping : s.drive.state = .stopping) (timer : s.drive.delay = some e)
    (rests : (s.advanceTo e).driveRests = v) :
    exec .stopDelayExpiry s = .next (closeEvent (s.advanceTo e) v) := by
  subst rests
  exact congrArg Host.Outcome.next (atExpiry_runs ((Drive.stopping_runs stopping).trans timer) s _)

end

/-- Settles O51: the timer that runs in each case, and what its expiry does. -/
theorem trackAndDriveTimers : Obligations.TrackAndDriveTimers := by
  refine ⟨fun s e => ?_, fun s e => ?_⟩
  · intro u t mode load count triggers timer win
    have tests : u.throttleTests = true ↔ triggers := u.throttleTests_iff
    have quiet : ¬triggers → u.throttleTests = false := fun unmet => Bool.eq_false_iff.2 (unmet ∘ tests.1)
    refine ⟨fun hold => congrArg Host.Outcome.next (atExpiry_runs hold s _), fun throttled monitor => ?_,
      fun sampling => ⟨fun unmet normal => ?_, fun unmet throttled left => ?_, fun unmet throttled last => ?_,
        fun met acts some_ => ?_, fun met monitor normal => ?_⟩, fun halting halt => ?_⟩
    · exact congrArg Host.Outcome.next (atExpiry_runs ((Throttle.monitoring_throttled throttled).trans monitor) s _)
    · exact exec_samplingWindowExpiry sampling (State.samplingEnds_normal (quiet unmet) normal)
    · exact exec_samplingWindowExpiry sampling (State.samplingEnds_counts (quiet unmet) throttled left)
    · exact exec_samplingWindowExpiry sampling (State.samplingEnds_returns (quiet unmet) throttled last)
    · exact exec_samplingWindowExpiry sampling (State.samplingEnds_triggers (tests.2 met) acts some_)
    · exact exec_samplingWindowExpiry sampling (State.samplingEnds_reports (tests.2 met) monitor normal)
    · obtain ⟨ring, lanes, orders, req, drive, run, throttle, totes, readers, rest⟩ := u.enterStopped_spec
      rw [ite_not] at ring
      have raised : u.haltTimeout.req = { u.req with flags := u.req.flags ||| Flag.haltTimeout.only } :=
        (u.enterStopped.raise_req .haltTimeout).trans (by rw [req])
      exact ⟨u.haltTimeout,
        congrArg Host.Outcome.next (atExpiry_runs ((RunControl.halting_runs halting).trans halt) s _),
        run, drive, throttle, totes, readers, ring, raised, orders, lanes, rest⟩
  · refine ⟨fun starting delay => ?_, fun runs idle => ⟨fun loop belt claimant => ?_, fun busy => ?_⟩,
      fun stopping delay => ⟨fun sleeps => ?_, fun wakes => ?_⟩⟩
    · exact congrArg Host.Outcome.next (atExpiry_runs ((Drive.starting_runs starting).trans delay) s _)
    · exact exec_idleExpiry runs idle (State.idleTest_stops loop belt claimant)
    · exact exec_idleExpiry runs idle (State.idleTest_restarts runs busy)
    · exact exec_stopDelayExpiry stopping delay (State.driveRests_rests sleeps)
    · exact exec_stopDelayExpiry stopping delay (State.driveRests_wakes wakes)

end Sys2Proof.Machine
end

section
/-! PROOFS. Emergency stop (section 8.3): what every step keeps in ESTOP, the buttons that order a stop and give it
back (R149, R150), and the requests that enter ESTOP and leave it (R149, R151). -/

namespace Sys2Proof.Machine

/-! ## What ESTOP keeps quiet (R150) -/

/-- Settles O58, from what every event keeps and what a power-on leaves. -/
theorem estopQuietKept : Obligations.EstopQuietKept := by
  intro s t quiet calm h
  obtain ⟨p, n, c, k⟩ | ⟨p, c, rfl⟩ := step_cases h
  · exact k.estop quiet calm
  · exact poweredOn_estopQuiet p c

/-! ## The entry into ESTOP (R149, R150) -/

section
variable {s : State}

theorem State.orderEstop_again (h : s.run.state = .estop) : s.orderEstop = s.raise .estop := by
  simp [State.orderEstop, h]

theorem State.orderEstop_enters (h : s.run.state ≠ .estop) : s.orderEstop = s.enterEstop.raise .estop := by
  simp [State.orderEstop, h]

end

theorem State.orderEstop_run (s : State) :
    s.orderEstop.run.state = .estop ∧ s.orderEstop.run.holders = s.run.holders := by
  by_cases h : s.run.state = .estop
  · rw [State.orderEstop_again h]; exact ⟨h, rfl⟩
  · rw [State.orderEstop_enters h]; exact ⟨rfl, rfl⟩

theorem State.reader_enterEstop (s : State) (r : ReaderIx) : s.enterEstop.reader r = (s.reader r).toIdle :=
  row_map _ _ _

theorem State.lane_enterEstop (s : State) (l : LaneIx) : s.enterEstop.lane l = (s.lane l).estop := row_map _ _ _

/-- R166: between events no frame waits to be placed, so DRIVE HALT is the only one that this event hands over. -/
theorem State.ring_enterEstop {s : State} (quiet : Quiet s) :
    s.enterEstop.ring =
      { s.ring with urgent := [], outbox := [driveFrame s.cfg.drive.station false] } := by
  have handed : s.enterEstop.ring = { s.ring.flush with
      outbox := s.ring.flush.outbox ++ [driveFrame s.cfg.drive.station false] } := rfl
  rw [handed]
  simp [RingPort.flush, quiet.1]

/-! ## The buttons -/

/-- R160: an ESTOP frame is taken from every station address, named or not. -/
theorem receive_estop {s : State} {h : Header} {b : Byte} (quiet : Quiet s) (ready : s.ring.ready = true)
    (dest : h.dest = 0x01#8 ∨ h.dest = 0x3F#8) (low : 3 ≤ h.src.toNat) (high : h.src.toNat ≤ 62) :
    receiveFrame (Header.frame h Kind.estop [b]) s =
      closeEvent s (passOn h Kind.estop [b] (s.estopFrame h.src.toNat b.toNat)) := by
  have src : h.src ≠ 0x01#8 := fun e => absurd low (by rw [e]; decide)
  have taken : s.takesFrom (Header.frame h Kind.estop [b]) = true := by simp [State.takesFrom, low, high]
  have kind : Kind.estop ≠ Kind.request := by decide
  have consumed : s.consume (Header.frame h Kind.estop [b]) = s.estopFrame h.src.toNat b.toNat :=
    (if_neg kind).trans (if_pos ⟨rfl, taken⟩)
  rw [receiveFrame_consumed quiet ready dest src (Nat.le_of_ble_eq_true rfl), consumed]

/-- R149: the station is a holder. -/
abbrev State.heldBy (s : State) (a : Nat) : State :=
  { s with run := { s.run with holders := s.run.holders ||| 1#64 <<< a } }

theorem State.pressed_again {s : State} (h : s.run.state = .estop) (a : Nat) :
    s.pressed a = (s.heldBy a).raise .estop := State.orderEstop_again (s := s.heldBy a) h

theorem State.pressed_enters {s : State} (h : s.run.state ≠ .estop) (a : Nat) :
    s.pressed a = (s.heldBy a).enterEstop.raise .estop := State.orderEstop_enters (s := s.heldBy a) h

/-- Settles O27: the events of both buttons, and the entry into ESTOP field by field. -/
theorem estopButtons : Obligations.EstopButtons := by
  intro s h quiet ready dest low high held
  have pressed : exec (.estopPressed h) s =
      .next (closeEvent s (passOn h Kind.estop [0x01#8] (s.pressed h.src.toNat))) :=
    congrArg Host.Outcome.next (receive_estop quiet ready dest low high)
  have released : exec (.estopReleased h) s =
      .next (closeEvent s (passOn h Kind.estop [0x02#8] (s.released h.src.toNat))) :=
    congrArg Host.Outcome.next (receive_estop quiet ready dest low high)
  refine ⟨fun already => ?_, fun outside => ?_, released⟩
  · rw [pressed, State.pressed_again already]
  · rw [pressed, State.pressed_enters outside]
    exact ⟨_, rfl, rfl, rfl, rfl, State.ring_enterEstop (s := s.heldBy h.src.toNat) quiet, rfl,
      (s.heldBy h.src.toNat).reader_enterEstop, (s.heldBy h.src.toNat).lane_enterEstop,
      rfl, rfl, rfl, rfl, rfl, rfl, rfl⟩

/-! ## The scans that start when ESTOP is left (R52, R59, R151) -/

/-- R52: the head reader of a lane after a start of the scans. -/
def State.scannedHead (s : State) (l : LaneIx) : Reader :=
  if s.laneOpen l = true then
    (s.reader (headReader l)).toWait (s.now + milliseconds (s.laneCfg l).scanInterval)
  else s.reader (headReader l)

theorem State.scannedHead_open {s : State} {l : LaneIx} (h : s.laneOpen l = true) :
    s.scannedHead l = { s.reader (headReader l) with
      cycle := .wait, window := none, scanPending := false
      scanTimer := some (s.now + (s.laneCfg l).scanInterval * 100) } := if_pos h

theorem State.scannedHead_closed {s : State} {l : LaneIx} (h : s.laneOpen l = false) :
    s.scannedHead l = s.reader (headReader l) := if_neg (by simp [h])

/-- The scans of some lanes have started: state t, from state s. -/
structure ScansStarted (s : State) (ls : List LaneIx) (t : State) : Prop where
  head : ∀ l, t.reader (headReader l) = if l ∈ ls then s.scannedHead l else s.reader (headReader l)
  other : ∀ q, (∀ l, q ≠ headReader l) → t.reader q = s.reader q
  rest : { t with readers := s.readers } = s

theorem ScansStarted.nil (s : State) : ScansStarted s [] s := ⟨fun _ => rfl, fun _ _ => rfl, rfl⟩

/-- One lane more; the start of a scan that has started already changes nothing. -/
theorem ScansStarted.step {s t : State} {ls : List LaneIx} (h : ScansStarted s ls t) (m : LaneIx) :
    ScansStarted s (ls ++ [m]) (if s.laneOpen m then t.startScan m else t) := by
  obtain ⟨head, other, rest⟩ := h
  have now : t.now = s.now := congrArg (·.now) rest
  have cfg : t.laneCfg m = s.laneCfg m := congrArg (·.laneCfg m) rest
  split_ifs with o
  · refine ⟨fun l => ?_, fun q apart => ?_, rest⟩
    · unfold State.startScan
      rw [State.reader_putReader, now, cfg]
      by_cases e : m = l
      · subst e
        rw [if_pos rfl, if_pos (by simp), head, State.scannedHead, if_pos o]
        split_ifs <;> rfl
      · rw [if_neg (fun eq => e (headReader_inj eq)), head]
        simp [Ne.symm e]
    · unfold State.startScan
      rw [State.reader_putReader, if_neg (Ne.symm (apart m))]
      exact other q apart
  · refine ⟨fun l => ?_, other, rest⟩
    by_cases e : l = m
    · subst e
      rw [head, State.scannedHead_closed (by simpa using o)]
      simp
    · rw [head]
      simp [e]

theorem ScansStarted.foldl (s : State) (ls : List LaneIx) :
    ScansStarted s ls (ls.foldl (fun t l => if s.laneOpen l then t.startScan l else t) s) := by
  induction ls using List.reverseRecOn with
  | nil => exact .nil s
  | append_singleton ls m ih => rw [List.foldl_append]; exact ih.step m

theorem State.reader_startScans_head (s : State) (l : LaneIx) :
    s.startScans.reader (headReader l) = s.scannedHead l :=
  ((ScansStarted.foldl s allLanes).head l).trans (if_pos (allLanes_mem l))

/-- A reader that is no OPEN lane's stays as it is. -/
theorem State.reader_startScans_other {s : State} {q : ReaderIx} (h : ∀ l, q = headReader l → s.laneOpen l = false) :
    s.startScans.reader q = s.reader q := by
  by_cases head : ∃ l, q = headReader l
  · obtain ⟨l, rfl⟩ := head
    rw [State.reader_startScans_head, State.scannedHead_closed (h l rfl)]
  · exact (ScansStarted.foldl s allLanes).other q (not_exists.1 head)

/-- R151, R59: state and readers when ESTOP is left, before the lanes make their tests. -/
def State.awake (s : State) : State := (s.setRun .stopped).mapReaders (fun x => { x with fresh := true })

theorem State.leaveEstop_eq (s : State) : s.leaveEstop = s.awake.startScans.returnTests := rfl

theorem State.reader_awake (s : State) (q : ReaderIx) : s.awake.reader q = { s.reader q with fresh := true } :=
  row_map _ _ _

theorem State.startScans_awake_rest (s : State) :
    { s.awake.startScans with readers := s.readers } = { s with run := { s.run with state := .stopped } } :=
  congrArg (fun t : State => { t with readers := s.readers }) (ScansStarted.foldl s.awake allLanes).rest

/-! ## The requests -/

/-- Settles O44: the lanes' tests in either order, the entry by request, and the way out. -/
theorem estopRequests : Obligations.EstopRequests := by
  refine ⟨fun v => ⟨v.wantsReturn_iff, fun room => if_pos room, fun full => ?_⟩, fun s r rest => ?_⟩
  · exact ⟨_, (sortBy_spec _ allLanes).1, if_neg (Nat.not_le.2 full)⟩
  intro p
  refine ⟨fun asked => ?_, fun asked => ⟨fun outside => ?_, fun in_ held => ?_, fun in_ free => ?_⟩⟩
  · obtain ⟨state, holders⟩ := p.orderEstop_run
    exact ⟨p.orderEstop, exec_replied rfl asked rfl, state, holders, Flag.isIn_or_only _ _,
      State.orderEstop_again (s := p), State.orderEstop_enters (s := p)⟩
  · exact exec_replied rfl asked (if_neg outside)
  · exact exec_replied rfl asked ((if_pos in_).trans (if_neg held))
  · refine ⟨p.awake.startScans, exec_replied rfl asked ((if_pos in_).trans (if_pos free)), fun l opened => ?_,
      fun q closed => ?_, p.startScans_awake_rest⟩
    · rw [State.reader_startScans_head, State.scannedHead_open (s := p.awake) opened, State.reader_awake]
      rfl
    · rw [State.reader_startScans_other (s := p.awake) closed, State.reader_awake]
      rfl

end Sys2Proof.Machine
end

section
/-! PROOFS. CONTROL START and HALT (section 8.2): the data of a response (11.4), the deadline that START gives (R82),
the checks of the validation in their order (R145), and the start of the track (R144, R146). -/

namespace Sys2Proof.Machine

/-! ## The holder set (11.4) -/

theorem holderBytes_getD (h : BitVec 64) {i : Nat} (lt : i < 8) :
    (holderBytes h).getD i 0x00#8 = h.extractLsb' (8 * (7 - i)) 8 := by
  interval_cases i <;> rfl

theorem getLsbD_holderBytes (h : BitVec 64) (a : Fin 64) :
    ((holderBytes h).getD (7 - a.val / 8) 0x00#8).getLsbD (a.val % 8) = h.getLsbD a.val := by
  have place : 8 * (7 - (7 - a.val / 8)) + a.val % 8 = a.val := by omega
  have bit : a.val % 8 < 8 := by omega
  rw [holderBytes_getD h (by omega), BitVec.getLsbD_extractLsb', place]
  simp [bit]

/-! ## The deadline of a tote on the loop at START (R82) -/

section
variable {s : State} {x : Tote}

theorem State.startDeadline_gate {g : GateIx} (last : x.lastGate = some g) (present : (s.gateCfg g).present = true) :
    s.startDeadline x = ⟨s.now + (s.gateCfg g).transitLimit * 10000, s.nextGate g⟩ := by
  simp [State.startDeadline, last, present, State.deadlineFrom, tenths]

theorem State.startDeadline_merge (h : ∀ g, x.lastGate = some g → (s.gateCfg g).present = false) :
    s.startDeadline x = ⟨s.now + s.longestRelease * 10000, 0⟩ := by
  unfold State.startDeadline
  split
  next g last => rw [if_neg (by simp [h g last])]; rfl
  next => rfl

end

/-- One induct's part in the longest release. -/
def State.longerRelease (s : State) (m : Nat) (i : InductIx) : Nat :=
  if (s.inductCfg i).present then max m (s.inductCfg i).transitLimit else m

theorem State.longerRelease_spec (s : State) (m : Nat) (i : InductIx) :
    m ≤ s.longerRelease m i ∧
      ((s.inductCfg i).present = true → (s.inductCfg i).transitLimit ≤ s.longerRelease m i) ∧
      (s.longerRelease m i = m ∨
        ((s.inductCfg i).present = true ∧ (s.inductCfg i).transitLimit = s.longerRelease m i)) := by
  unfold State.longerRelease
  split_ifs with present
  · exact ⟨le_max_left _ _, fun _ => le_max_right _ _, (max_choice m _).imp_right (fun e => ⟨present, e.symm⟩)⟩
  · exact ⟨le_rfl, fun p => absurd p present, .inl rfl⟩

/-- The fold over some inducts is a maximum: an upper bound that is attained. -/
theorem foldl_longerRelease (s : State) (is : List InductIx) (m : Nat) :
    m ≤ is.foldl s.longerRelease m ∧
      (∀ i ∈ is, (s.inductCfg i).present = true → (s.inductCfg i).transitLimit ≤ is.foldl s.longerRelease m) ∧
      (is.foldl s.longerRelease m = m ∨
        ∃ i, (s.inductCfg i).present = true ∧ (s.inductCfg i).transitLimit = is.foldl s.longerRelease m) := by
  induction is generalizing m with
  | nil => simp
  | cons i is ih =>
    rw [List.foldl_cons]
    obtain ⟨least, above, attained⟩ := ih (s.longerRelease m i)
    obtain ⟨grows, covers, one⟩ := s.longerRelease_spec m i
    refine ⟨grows.trans least, List.forall_mem_cons.2 ⟨fun p => (covers p).trans least, above⟩, ?_⟩
    rcases attained with e | found
    · rw [e]
      exact one.imp_right (fun own => ⟨i, own⟩)
    · exact .inr found

theorem State.longestRelease_spec (s : State) :
    s.cfg.site.returnTransitLimit ≤ s.longestRelease ∧
      (∀ i, (s.inductCfg i).present = true → (s.inductCfg i).transitLimit ≤ s.longestRelease) ∧
      (s.longestRelease = s.cfg.site.returnTransitLimit ∨
        ∃ i, (s.inductCfg i).present = true ∧ (s.inductCfg i).transitLimit = s.longestRelease) := by
  obtain ⟨least, above, attained⟩ := foldl_longerRelease s allInducts s.cfg.site.returnTransitLimit
  exact ⟨least, fun i => above i (allInducts_mem i), attained⟩

/-! ## Lists of rising indices -/

theorem length_filter_finRange_eq_one_iff {n : Nat} (p : Fin n → Bool) :
    ((List.finRange n).filter p).length = 1 ↔ ∃ a, p a = true ∧ ∀ b, p b = true → b = a := by
  rw [← List.toFinset_card_of_nodup ((List.nodup_finRange n).filter p), Finset.card_eq_one]
  simp [Finset.eq_singleton_iff_unique_mem]

theorem one_lt_length_filter_finRange_iff {n : Nat} (p : Fin n → Bool) :
    1 < ((List.finRange n).filter p).length ↔ ∃ a b, p a = true ∧ p b = true ∧ a ≠ b := by
  rw [← List.toFinset_card_of_nodup ((List.nodup_finRange n).filter p), Finset.one_lt_card_iff]
  simp

/-- The second of the rising indices of which a test holds. -/
theorem getElem?_one_filter_finRange {n : Nat} {p : Fin n → Bool} {a b : Fin n} (pa : p a = true) (pb : p b = true)
    (lt : a < b) (next : ∀ m, p m = true → m = a ∨ b ≤ m) : ((List.finRange n).filter p)[1]? = some b := by
  have rising : ((List.finRange n).filter p).Pairwise (· < ·) := (List.sortedLT_finRange n).pairwise.filter p
  have elem : ∀ m, m ∈ (List.finRange n).filter p ↔ p m = true := fun m => by simp
  simp only [← elem] at pa pb next
  clear elem
  generalize (List.finRange n).filter p = l at *
  match l, rising, pa, pb, next with
  | [c], _, pa, pb, _ => exact absurd ((List.mem_singleton.1 pa).trans (List.mem_singleton.1 pb).symm) lt.ne
  | c :: d :: rest, rising, pa, pb, next =>
    obtain ⟨above, rising⟩ := List.pairwise_cons.1 rising
    have first : c = a := by
      rcases next c List.mem_cons_self with e | le
      · exact e
      · rcases List.mem_cons.1 pa with e | tail
        · exact e.symm
        · exact absurd ((above a tail).trans lt) (not_lt.2 le)
    subst first
    have second : b = d := by
      rcases next d (by simp) with e | le
      · exact absurd e.symm (above d List.mem_cons_self).ne
      · rcases List.mem_cons.1 ((List.mem_cons.1 pb).resolve_left lt.ne') with e | tail
        · exact e
        · exact absurd ((List.pairwise_cons.1 rising).1 b tail) (not_lt.2 le)
    subst second
    rfl

/-! ## The checks of START (R145) -/

/-- R145: a present gate of a kind. -/
abbrev State.GateAt (s : State) (g : GateIx) (k : GateKind) : Prop :=
  (s.gateCfg g).present = true ∧ (s.gateCfg g).kind = k

/-- R145 check 3: a present LANE gate that serves the lane. -/
abbrev State.Serves (s : State) (g : GateIx) (l : LaneIx) : Prop := s.GateAt g .lane ∧ (s.gateCfg g).lane = l

/-- R145 check 2: one WILLCALL gate. -/
abbrev State.OneSpur (s : State) : Prop := ∃ g, s.GateAt g .willcall ∧ ∀ h, s.GateAt h .willcall → h = g

/-- R145 check 3a fails at a lane. -/
abbrev State.UnservedLane (s : State) (l : LaneIx) : Prop :=
  (s.laneCfg l).capacity ≠ 0 ∧ ¬∃ g, s.Serves g l ∧ ∀ h, s.Serves h l → h = g

/-- R145 check 3b fails at a gate. -/
abbrev State.LanelessGate (s : State) (g : GateIx) : Prop :=
  s.GateAt g .lane ∧ (s.laneCfg (s.gateCfg g).lane).capacity = 0

/-- R145 check 5 fails at an address. -/
abbrev State.SharedHost (s : State) (a : Nat) : Prop :=
  a ≤ 62 ∧ ∃ q r : ReaderIx, q ≠ r ∧ s.enabled q = true ∧ s.enabled r = true ∧ s.stationOf q = a ∧ s.stationOf r = a

theorem State.isWillcallGate_iff (s : State) (g : GateIx) : s.isWillcallGate g = true ↔ s.GateAt g .willcall := by
  simp [State.isWillcallGate]

theorem State.isLaneGate_iff (s : State) (g : GateIx) : s.isLaneGate g = true ↔ s.GateAt g .lane := by
  simp [State.isLaneGate]

theorem State.oneSpur_iff (s : State) : (allGates.filter s.isWillcallGate).length = 1 ↔ s.OneSpur := by
  rw [allGates_eq, length_filter_finRange_eq_one_iff]
  simp only [State.isWillcallGate_iff]

theorem State.laneGateFault_iff (s : State) (l : LaneIx) : s.laneGateFault l = true ↔ s.UnservedLane l := by
  unfold State.laneGateFault
  rw [Bool.and_eq_true, bne_iff_ne, allGates_eq, ne_eq,
    length_filter_finRange_eq_one_iff]
  simp only [Bool.and_eq_true, State.isLaneGate_iff, beq_iff_eq]
  simp [State.lanePresent, LaneEntry.present]

theorem State.gateLaneFault_iff (s : State) (g : GateIx) : s.gateLaneFault g = true ↔ s.LanelessGate g := by
  unfold State.gateLaneFault
  rw [Bool.and_eq_true, State.isLaneGate_iff]
  simp [State.lanePresent, LaneEntry.present]

theorem State.sharedHost_iff (s : State) {a : Nat} (le : a ≤ 62) :
    1 < (s.readerHosts.filter (· == a)).length ↔ s.SharedHost a := by
  have hosts : (s.readerHosts.filter (· == a)).length =
      ((List.finRange 34).filter (fun r => s.stationOf r == a && s.enabled r)).length := by
    simp [State.readerHosts, allReaders, List.filter_map, List.filter_filter, Function.comp_def]
  rw [hosts, one_lt_length_filter_finRange_iff]
  simp only [Bool.and_eq_true, beq_iff_eq]
  exact ⟨fun ⟨q, r, ⟨atq, onq⟩, ⟨atr, onr⟩, apart⟩ => ⟨le, q, r, apart, onq, onr, atq, atr⟩,
    fun ⟨_, q, r, apart, onq, onr, atq, atr⟩ => ⟨q, r, ⟨atq, onq⟩, ⟨atr, onr⟩, apart⟩⟩

theorem State.sharedStation_eq_some {s : State} {a : Nat} (shared : s.SharedHost a) (low : ∀ b < a, ¬s.SharedHost b) :
    s.sharedStation = some a := by
  have le : a ≤ 62 := shared.1
  unfold State.sharedStation
  rw [List.find?_range_eq_some]
  refine ⟨decide_eq_true ((s.sharedHost_iff le).2 shared), List.mem_range.2 (Nat.lt_succ_of_le le), fun b lt => ?_⟩
  have alone := mt (s.sharedHost_iff (lt.le.trans le)).1 (low b lt)
  simp [alone]

theorem State.sharedStation_eq_none {s : State} (h : ∀ a, ¬s.SharedHost a) : s.sharedStation = none := by
  unfold State.sharedStation
  rw [List.find?_range_eq_none]
  intro a lt
  have alone := mt (s.sharedHost_iff (Nat.le_of_lt_succ lt)).1 (h a)
  simp [alone]

/-- R145: the first check that fails, the last four as one chain. -/
theorem State.startFault_eq (s : State) :
    s.startFault =
      if ¬s.GateAt 0 .lap then some (0x11#8, 0)
      else if (allGates.filter s.isWillcallGate).length ≠ 1 then
        some (0x12#8, (allGates.filter s.isWillcallGate)[1]?.elim 255 Fin.val)
      else ((allLanes.find? s.laneGateFault).map (fun l => (0x13#8, l.val))).or
        (((allGates.find? s.gateLaneFault).map (fun g => (0x14#8, g.val))).or
          (if ¬∃ i, (s.inductCfg i).present = true then some (0x15#8, 255)
          else s.sharedStation.map (fun a => (0x16#8, a)))) := by
  have lap : (!((s.gateCfg 0).present && (s.gateCfg 0).kind == .lap)) = true ↔ ¬s.GateAt 0 .lap := by
    simp only [Bool.not_eq_true', ← Bool.not_eq_true, Bool.and_eq_true, beq_iff_eq]
  have induct : (!allInducts.any (fun i => (s.inductCfg i).present)) = true ↔
      ¬∃ i, (s.inductCfg i).present = true := by simp [allInducts_mem]
  unfold State.startFault
  simp only [lap, induct, bne_iff_ne]
  cases (allGates.filter s.isWillcallGate)[1]? <;> cases allLanes.find? s.laneGateFault <;>
    cases allGates.find? s.gateLaneFault <;> rfl

section
variable {s : State}

theorem State.startFault_lap (h : ¬s.GateAt 0 .lap) : s.startFault = some (0x11#8, 0) :=
  s.startFault_eq.trans (if_pos h)

theorem State.startFault_spurs (lap : s.GateAt 0 .lap) (h : ¬s.OneSpur) :
    s.startFault = some (0x12#8, (allGates.filter s.isWillcallGate)[1]?.elim 255 Fin.val) :=
  s.startFault_eq.trans ((if_neg (not_not.2 lap)).trans (if_pos (mt s.oneSpur_iff.1 h)))

theorem State.startFault_noSpur (lap : s.GateAt 0 .lap) (h : ∀ g, ¬s.GateAt g .willcall) :
    s.startFault = some (0x12#8, 255) := by
  have none_ : allGates.filter s.isWillcallGate = [] :=
    List.filter_eq_nil_iff.2 fun g _ => mt (s.isWillcallGate_iff g).1 (h g)
  rw [State.startFault_spurs lap (fun ⟨g, at_, _⟩ => h g at_), none_]
  rfl

theorem State.startFault_secondSpur (lap : s.GateAt 0 .lap) {g h : GateIx} (first : s.GateAt g .willcall)
    (second : s.GateAt h .willcall) (lt : g < h) (next : ∀ m, s.GateAt m .willcall → m = g ∨ h ≤ m) :
    s.startFault = some (0x12#8, h.val) := by
  have two : (allGates.filter s.isWillcallGate)[1]? = some h := by
    rw [allGates_eq]
    simp only [← State.isWillcallGate_iff] at first second next
    exact getElem?_one_filter_finRange first second lt next
  rw [State.startFault_spurs lap (fun ⟨m, _, only⟩ => lt.ne ((only g first).trans (only h second).symm)), two]
  rfl

/-- R145: the checks from the third on. -/
theorem State.startFault_lanes (lap : s.GateAt 0 .lap) (spur : s.OneSpur) :
    s.startFault = ((allLanes.find? s.laneGateFault).map (fun l => (0x13#8, l.val))).or
      (((allGates.find? s.gateLaneFault).map (fun g => (0x14#8, g.val))).or
        (if ¬∃ i, (s.inductCfg i).present = true then some (0x15#8, 255)
        else s.sharedStation.map (fun a => (0x16#8, a)))) :=
  s.startFault_eq.trans ((if_neg (not_not.2 lap)).trans (if_neg (not_not.2 (s.oneSpur_iff.2 spur))))

theorem State.startFault_lane (lap : s.GateAt 0 .lap) (spur : s.OneSpur) {l : LaneIx} (at_ : s.UnservedLane l)
    (low : ∀ m < l, ¬s.UnservedLane m) : s.startFault = some (0x13#8, l.val) := by
  have found : allLanes.find? s.laneGateFault = some l := by
    rw [allLanes_eq, find?_finRange_eq_some_iff]
    simpa only [← Bool.not_eq_true, State.laneGateFault_iff] using And.intro at_ low
  rw [State.startFault_lanes lap spur, found]
  rfl

/-- R145: the checks of gates, inducts and stations. -/
theorem State.startFault_gates (lap : s.GateAt 0 .lap) (spur : s.OneSpur) (served : ∀ l, ¬s.UnservedLane l) :
    s.startFault = ((allGates.find? s.gateLaneFault).map (fun g => (0x14#8, g.val))).or
      (if ¬∃ i, (s.inductCfg i).present = true then some (0x15#8, 255)
      else s.sharedStation.map (fun a => (0x16#8, a))) := by
  have unfound : allLanes.find? s.laneGateFault = none :=
    List.find?_eq_none.2 fun l _ => mt (s.laneGateFault_iff l).1 (served l)
  rw [State.startFault_lanes lap spur, unfound]
  rfl

theorem State.startFault_gate (lap : s.GateAt 0 .lap) (spur : s.OneSpur) (served : ∀ l, ¬s.UnservedLane l)
    {g : GateIx} (at_ : s.LanelessGate g) (low : ∀ m < g, ¬s.LanelessGate m) :
    s.startFault = some (0x14#8, g.val) := by
  have found : allGates.find? s.gateLaneFault = some g := by
    rw [allGates_eq, find?_finRange_eq_some_iff]
    simpa only [← Bool.not_eq_true, State.gateLaneFault_iff] using And.intro at_ low
  rw [State.startFault_gates lap spur served, found]
  rfl

/-- R145: the checks of inducts and stations. -/
theorem State.startFault_inducts (lap : s.GateAt 0 .lap) (spur : s.OneSpur) (served : ∀ l, ¬s.UnservedLane l)
    (laned : ∀ g, ¬s.LanelessGate g) :
    s.startFault =
      if ¬∃ i, (s.inductCfg i).present = true then some (0x15#8, 255)
      else s.sharedStation.map (fun a => (0x16#8, a)) := by
  have unfound : allGates.find? s.gateLaneFault = none :=
    List.find?_eq_none.2 fun g _ => mt (s.gateLaneFault_iff g).1 (laned g)
  rw [State.startFault_gates lap spur served, unfound]
  rfl

end

/-! ## The start of the track (R144) -/

theorem State.lane_armConfirms (s : State) (l : LaneIx) :
    s.armConfirms.lane l = { s.lane l with
      incoming := (s.lane l).incoming.map (fun e =>
        ⟨e.tote, some (s.now + (s.laneCfg l).confirmLimit * 100)⟩) } := by
  have at_ : s.armConfirms.lane l = (Vector.mapIdx _ s.lanes)[l.val] := rfl
  rw [at_, Vector.getElem_mapIdx, laneIx_val]
  rfl

/-- R144: all that START from STOPPED changes. -/
theorem State.startTrack_eq (s : State) : s.startTrack = { s with
    run := { s.run with state := .running }
    drive := ⟨.starting, none, some (s.now + s.cfg.drive.startDelay * 100), false⟩
    throttle := { s.throttle with
      samplingCount := 0, samplingTimer := some (s.now + s.cfg.throttle.samplingWindow * 100000) }
    ring := { s.ring with outbox := s.ring.outbox ++ [driveFrame s.cfg.drive.station true] }
    totes := s.totes.map (fun q =>
      (q.1, if q.2.location = .loop then { q.2 with deadline := some (s.startDeadline q.2) } else q.2))
    lanes := s.armConfirms.lanes
    willcall := s.armConfirms.willcall } := rfl

/-! ## The requests -/

section
variable {s : State} {r : Request} {rest : List Request}

theorem replyStart_running (h : s.run.state = .running ∨ s.run.state = .estop) : replyStart r s = refuse s .state := by
  obtain h | h := h <;> simp only [replyStart, h]

theorem replyStart_stopped (h : s.run.state = .stopped) : replyStart r s = startWith s s.startTrack := by
  simp only [replyStart, h]

theorem replyStart_halting (h : s.run.state = .halting) : replyStart r s = startWith s s.resumeTrack := by
  simp only [replyStart, h]

theorem startWith_fault {code : Byte} {i : Nat} (h : s.startFault = some (code, i)) (t : State) :
    startWith s t = ⟨s, .invalid, [code, byte i]⟩ := by
  simp only [startWith, h]

theorem startWith_valid (h : s.startFault = none) (t : State) : startWith s t = doneControl (settle s t) := by
  simp only [startWith, h]

/-- R145: an invalid START, from either state it can be asked in. -/
theorem replyStart_fault (state : s.run.state = .stopped ∨ s.run.state = .halting) {code : Byte} {i : Nat}
    (h : s.startFault = some (code, i)) : replyStart r s = ⟨s, .invalid, [code, byte i]⟩ := by
  obtain stopped | halting := state
  · exact (replyStart_stopped stopped).trans (startWith_fault h _)
  · exact (replyStart_halting halting).trans (startWith_fault h _)

end

/-- Settles O43: the data, the deadline, each check as the first that fails, and the requests by run state. -/
theorem startAndHalt : Obligations.StartAndHalt := by
  refine ⟨fun s => ⟨rfl, rfl, rfl, rfl, rfl, rfl, rfl, rfl, rfl, rfl⟩, fun h => ⟨rfl, getLsbD_holderBytes h⟩,
    fun s x => ⟨fun g => State.startDeadline_gate,
      fun absent => ⟨_, State.startDeadline_merge absent, s.longestRelease_spec⟩⟩, fun s => ?_, fun s r rest => ?_⟩
  · intro at_ serves lapGate oneSpur badLane badGate induct shared
    refine ⟨State.startFault_lap, fun lap => ⟨State.startFault_noSpur lap,
      fun g h => State.startFault_secondSpur lap, fun spur => ⟨fun l => State.startFault_lane lap spur,
      fun served => ⟨fun g => State.startFault_gate lap spur served, fun laned => ?_⟩⟩⟩⟩
    have last := State.startFault_inducts lap spur served laned
    refine ⟨fun none_ => last.trans (if_pos none_), fun some_ => ?_⟩
    have hosts := last.trans (if_neg (not_not.2 some_))
    refine ⟨fun a at_ low => ?_, fun apart => ?_⟩
    · rw [hosts, State.sharedStation_eq_some at_ low]; rfl
    · rw [hosts, State.sharedStation_eq_none apart]; rfl
  · intro p
    refine ⟨fun asked => ⟨fun runs => ?_, fun rests code i fault => ?_, fun halting valid => ?_,
        fun stopped valid => ?_⟩,
      fun asked => ⟨fun other => exec_replied rfl asked (if_neg other),
        fun runs => exec_replied rfl asked (if_pos runs)⟩⟩
    · exact exec_replied rfl asked (replyStart_running runs)
    · exact exec_replied rfl asked (replyStart_fault (s := p) rests fault)
    · exact exec_replied rfl asked ((replyStart_halting (s := p) halting).trans (startWith_valid (s := p) valid _))
    · have event := exec_replied rfl asked
        ((replyStart_stopped (s := p) stopped).trans (startWith_valid (s := p) valid _))
      rw [State.startTrack_eq] at event
      exact ⟨_, event, rfl, rfl, rfl, rfl, rfl, p.lane_armConfirms, rfl, rfl, rfl, rfl, rfl, rfl, rfl, rfl, rfl⟩

end Sys2Proof.Machine
end

section
/-! PROOFS. The Ring Port's transmit side (chapter 9): the sizes that every step keeps, power-on and the reset time
(R167, R182), the choice of the ring-output arbiter (R164), and the end of an event, which places the frames handed
over (R162, R163). -/

namespace Sys2Proof.Machine

/-! ## What every step keeps -/

/-- Settles O54, from what every event keeps and what a power-on leaves. -/
theorem ringBoundsKept : Obligations.RingBoundsKept := by
  intro s t bounds h
  obtain ⟨p, n, c, k⟩ | ⟨p, c, rfl⟩ := step_cases h
  · exact k.ring bounds
  · exact poweredOn_ringBounds p c

/-! ## Power-on and the reset time (R167, R182) -/

/-- Settles O4: every table is filled with one entry, and all else stands in the reset state as it is written. -/
theorem resetStateHolds : Obligations.ResetStateHolds := by
  unfold Obligations.ResetStateHolds
  intro s
  have filled {α : Type} {n : Nat} (x : α) (i : Fin n) : row (Vector.replicate n x) i = x := row_replicate x i
  exact ⟨rfl, rfl, rfl, filled _, filled _, filled _, rfl, rfl, rfl, rfl, rfl, rfl, rfl, rfl, rfl, rfl, rfl, rfl, rfl,
    rfl, filled _, filled _, fun b => ⟨filled _ b, filled _ b⟩, filled _, rfl, rfl, rfl⟩

/-- R167: a frame received in the reset time is lost. -/
theorem receiveFrame_lost {s : State} (quiet : Quiet s) (reset : s.ring.ready = false) (f : Frame) :
    receiveFrame f s = s := by
  rw [receiveFrame, if_neg (by simp [reset]), State.endReception_of_quiet quiet]

/-- R167: bytes received in the reset time are lost, whether they hold a frame or not. -/
theorem receiveBytes_lost {s : State} (quiet : Quiet s) (reset : s.ring.ready = false) (bytes : List Byte) :
    receiveBytes bytes s = s := by
  unfold receiveBytes
  split
  · exact receiveFrame_lost quiet reset _
  · rw [if_neg (by simp [reset]), State.endReception_of_quiet quiet]

/-- Settles O5: both rows write their state out, and reception reads nothing before the reset time ends. -/
theorem powerOnAndResetTime : Obligations.PowerOnAndResetTime := fun _ =>
  ⟨rfl, rfl, fun quiet reset f => ⟨receiveFrame_lost quiet reset f, receiveBytes_lost quiet reset f.bytes⟩⟩

/-! ## The arbiter's choice (R164) -/

section
variable {s : State} {f : Frame} {rest : List Frame}

theorem State.choose_nothing (urgent : s.ring.urgent = []) (forward : s.ring.forward = [])
    (routine : s.ring.routine = []) : s.choose = s := by
  simp only [State.choose, urgent, forward, routine]

/-- Rules 1 and 4: the routine head goes at a wait count of 8, and where it alone waits. -/
theorem State.choose_sendsRoutine (routine : s.ring.routine = f :: rest)
    (turn : s.ring.waitCount = 8 ∨ (s.ring.urgent = [] ∧ s.ring.forward = [])) :
    s.choose = s.sendRoutine f rest := by
  unfold State.choose
  rw [routine]
  obtain full | ⟨urgent, forward⟩ := turn
  · match s.ring.urgent, s.ring.forward with
    | [], [] => rfl
    | [], _ :: _ => exact if_pos full
    | _ :: _, _ => exact if_pos full
  · rw [urgent, forward]

/-- Rule 2: else the urgent head goes. -/
theorem State.choose_sendsUrgent (urgent : s.ring.urgent = f :: rest)
    (turn : s.ring.routine = [] ∨ s.ring.waitCount ≠ 8) : s.choose = s.sendUrgent f rest := by
  unfold State.choose
  rw [urgent]
  cases routine : s.ring.routine with
  | nil => rfl
  | cons r rs => exact if_neg (turn.resolve_left (by simp [routine]))

/-- Rule 3: else the head of the forward buffer goes. -/
theorem State.choose_sendsForward (urgent : s.ring.urgent = []) (forward : s.ring.forward = f :: rest)
    (turn : s.ring.routine = [] ∨ s.ring.waitCount ≠ 8) : s.choose = s.sendForward f rest := by
  unfold State.choose
  rw [urgent, forward]
  cases routine : s.ring.routine with
  | nil => rfl
  | cons r rs => exact if_neg (turn.resolve_left (by simp [routine]))

end

/-- R164: the wait count after a frame that is not routine has gone. -/
abbrev RingPort.counted (p : RingPort) : Nat := if p.routine = [] then p.waitCount else min 8 (p.waitCount + 1)

theorem State.countWait_eq (s : State) :
    s.countWait = { s with ring := { s.ring with waitCount := s.ring.counted } } := by
  unfold State.countWait RingPort.counted
  simp only [List.isEmpty_iff]
  split_ifs <;> rfl

section
variable (s : State) (f : Frame) (rest : List Frame)

theorem State.sendRoutine_begins :
    Begins { s with ring := { s.ring with routine := rest, waitCount := 0 } } f (s.sendRoutine f rest) :=
  State.begin_begins _ f

theorem State.sendUrgent_begins :
    Begins { s with ring := { s.ring with urgent := rest, waitCount := s.ring.counted } } f (s.sendUrgent f rest) := by
  rw [State.sendUrgent, State.countWait_eq]
  exact State.begin_begins _ f

theorem State.sendForward_begins :
    Begins { s with ring := { s.ring with forward := rest, waitCount := s.ring.counted } } f (s.sendForward f rest) := by
  rw [State.sendForward, State.countWait_eq]
  exact State.begin_begins _ f

end

/-! ## What the arbiter leaves to the other blocks -/

@[simp] theorem State.scanReport_req (s : State) (a : Nat) : (s.scanReport a).req = s.req := by
  unfold State.scanReport; split <;> rfl

@[simp] theorem State.begin_req (s : State) (f : Frame) : (s.begin f).req = s.req := by
  unfold State.begin
  dsimp only
  split
  · exact State.scanReport_req _ _
  · rfl

@[simp] theorem State.countWait_req (s : State) : s.countWait.req = s.req := by
  rw [State.countWait_eq]

/-- The arbiter raises no flag. -/
@[simp] theorem State.choose_req (s : State) : s.choose.req = s.req := by
  unfold State.choose
  split
  · rfl
  · exact State.begin_req _ _
  · simp [State.sendForward]
  · split
    · exact State.begin_req _ _
    · simp [State.sendForward]
  · simp [State.sendUrgent]
  · split
    · exact State.begin_req _ _
    · simp [State.sendUrgent]

@[simp] theorem State.arbitrate_req (s : State) : s.arbitrate.req = s.req := by
  unfold State.arbitrate
  split
  · rfl
  · exact s.choose_req

/-! ## The end of an event (R180) -/

theorem enabledRises_same {b : BitVec 20} {s : State} (h : s.req.flags = b) : enabledRises b s = 0 := by
  simp [enabledRises, h]

theorem State.notify_none {b : BitVec 20} {s : State} (h : enabledRises b s = 0) : s.notify b = s := if_pos h

theorem State.placeAll_nothing {s : State} (h : s.ring.outbox = []) : s.placeAll = s := by
  have emptied : { s with ring := { s.ring with outbox := [] } } = s := by rw [← h]
  unfold State.placeAll
  rw [h, emptied]
  rfl

/-- An event that hands nothing over and raises no flag leaves its state as it is. -/
theorem closeEvent_nothing {before s : State} (h : s.ring.outbox = []) (same : s.req.flags = before.req.flags) :
    closeEvent before s = s := by
  rw [closeEvent, State.placeAll_nothing h, State.notify_none (enabledRises_same same)]

/-- R164: RING OUT has become free. -/
abbrev State.freed (s : State) (e : Time) : State :=
  { s.advanceTo e with ring := { s.ring with transmission := none, gap := none } }

/-- The event of a free RING OUT is the arbiter's choice alone. -/
theorem closeEvent_transmissionEnds {s : State} (quiet : Quiet s) (e : Time) :
    closeEvent (s.advanceTo e) (s.advanceTo e).transmissionEnds = (s.freed e).choose :=
  closeEvent_nothing ((s.freed e).choose_placed.outbox.trans quiet.1) (congrArg (·.flags) (s.freed e).choose_req)

/-- Settles O10: the choice by the queues and the wait count, and the beginning of each class. -/
theorem transmissionEndChooses : Obligations.TransmissionEndChooses := by
  refine ⟨fun s e ends => ?_, fun s transmission gap => ?_⟩
  · rw [← RingPort.ends_eq] at ends
    refine ⟨_, congrArg Host.Outcome.next (atExpiry_runs ends s _), fun quiet => ?_⟩
    rw [closeEvent_transmissionEnds quiet e]
    refine ⟨rfl, fun f rest routine turn => ?_, fun f rest urgent turn => ?_, fun f rest urgent forward turn => ?_,
      State.choose_nothing (s := s.freed e)⟩
    · rw [State.choose_sendsRoutine (s := s.freed e) routine turn]
      exact State.sendRoutine_begins _ f rest
    · rw [State.choose_sendsUrgent (s := s.freed e) urgent turn]
      exact State.sendUrgent_begins _ f rest
    · rw [State.choose_sendsForward (s := s.freed e) urgent forward turn]
      exact State.sendForward_begins _ f rest
  · have free : s.ring.ends = none := by rw [RingPort.ends_eq, transmission, gap]; rfl
    have still : atExpiry s.ring.ends s State.transmissionEnds = s := by rw [free]; rfl
    exact congrArg Host.Outcome.next still

/-! ## The bytes of the part's own frames (R157, 11.2) -/

theorem extractLsb'_eq_ofNat {w : Nat} (x : BitVec w) (start len : Nat) :
    x.extractLsb' start len = BitVec.ofNat len (x.toNat / 2 ^ start) := by
  rw [← Nat.shiftRight_eq_div_pow]; rfl

theorem twoBytes_eq (n : Nat) : twoBytes n = [BitVec.ofNat 8 (n / 256), BitVec.ofNat 8 n] := by
  have high : n % 2 ^ 16 / 2 ^ 8 % 2 ^ 8 = n / 256 % 2 ^ 8 := by omega
  simp only [twoBytes, bytes16, extractLsb'_eq_ofNat, BitVec.toNat_ofNat, List.cons.injEq, and_true]
  exact ⟨BitVec.eq_of_toNat_eq (by simpa using high), BitVec.eq_of_toNat_eq (by simp)⟩

theorem maskBytes_eq (m : BitVec 20) :
    maskBytes m = [BitVec.ofNat 8 (m.toNat / 65536), BitVec.ofNat 8 (m.toNat / 256), BitVec.ofNat 8 m.toNat] := by
  have wide : (m.setWidth 24).toNat = m.toNat := BitVec.toNat_setWidth_of_le (by decide)
  simp [maskBytes, extractLsb'_eq_ofNat, wide]

theorem displayFrame_eq (a : Nat) (ts : List Nat) :
    displayFrame a ts = ⟨BitVec.ofNat 8 a, 0x01#8, 0x15#8, 0x00#8,
      BitVec.ofNat 8 ts.length :: ts.flatMap (fun t => [BitVec.ofNat 8 (t / 256), BitVec.ofNat 8 t])⟩ := by
  have words : ts.flatMap twoBytes = ts.flatMap (fun t => [BitVec.ofNat 8 (t / 256), BitVec.ofNat 8 t]) :=
    List.flatMap_congr fun t _ => twoBytes_eq t
  rw [displayFrame, words]
  rfl

/-! ## Flags by their numbers (11.5) -/

theorem Flag.bit_lt (f : Flag) : f.bit < 20 := by cases f <;> decide

theorem Flag.getLsbD_only (f : Flag) (i : Nat) : f.only.getLsbD i = Decidable.decide (i = f.bit) := by
  have := f.bit_lt
  rw [Flag.only, BitVec.getLsbD_shiftLeft, BitVec.getLsbD_one]
  by_cases e : i = f.bit
  · simp [e, this]
  · by_cases below : i < f.bit
    · simp [e, below]
    · simp [e]; omega

/-- A flag is set where the flag set has a bit in common with the flag alone. -/
theorem Flag.isIn_iff (f : Flag) (m : BitVec 20) : f.isIn m = true ↔ m &&& f.only ≠ 0 := by
  have common (i : Nat) : (m &&& f.only).getLsbD i = (m.getLsbD i && Decidable.decide (i = f.bit)) := by
    rw [BitVec.getLsbD_and, f.getLsbD_only]
  constructor
  · intro set clear
    have := common f.bit
    rw [clear] at this
    simp [show m.getLsbD f.bit = true from set] at this
  · contrapose!
    intro clear
    refine BitVec.eq_of_getLsbD_eq fun i _ => ?_
    rw [common]
    by_cases e : i = f.bit
    · have unset : ¬m.getLsbD f.bit = true := clear
      simp [e, unset]
    · simp [e]

/-! ## Placing a frame by its class (R159, R162, R163) -/

theorem isUrgent_iff (k : Byte) :
    isUrgent k = true ↔ k = Kind.blade ∨ k = Kind.stop ∨ k = Kind.chute ∨ k = Kind.drive := by
  simp [isUrgent, or_assoc]

/-- R163: a queued frame g that gives its place to f. -/
abbrev SameContent (f g : Frame) : Prop :=
  g.kind = f.kind ∧ g.dest = f.dest ∧ (f.kind = Kind.lamp ∨ f.kind = Kind.display ∨ f.kind = Kind.notice)

theorem coalesces_iff (f g : Frame) : coalesces f g = true ↔ SameContent f g := by
  simp [coalesces, and_assoc, or_assoc, eq_comm (a := f.kind) (b := g.kind), eq_comm (a := f.dest) (b := g.dest)]

/-- R163: the first frame that gives its place is replaced. -/
theorem replaceIn_first {f g : Frame} {first : List Frame} (last : List Frame) (same : SameContent f g)
    (others : ∀ h ∈ first, ¬SameContent f h) : replaceIn f (first ++ g :: last) = first ++ f :: last := by
  induction first with
  | nil => exact if_pos ((coalesces_iff f g).2 same)
  | cons h first ih =>
    rw [List.cons_append, replaceIn, if_neg (mt (coalesces_iff f h).1 (others h List.mem_cons_self)),
      ih fun x m => others x (List.mem_cons_of_mem h m)]
    rfl

section
variable {s : State} {f : Frame}

theorem State.place_foreign (src : f.src ≠ 0x01#8) : s.place f = (s.placeForward f).arbitrate := by
  have other : (f.src != byte Config.ringAddress) = true := bne_iff_ne.2 src
  rw [State.place, if_pos other]

theorem State.place_own_urgent (src : f.src = 0x01#8) (urgent : isUrgent f.kind = true) :
    s.place f = (s.placeUrgent f).arbitrate := by
  have own : ¬(f.src != byte Config.ringAddress) = true := fun h => bne_iff_ne.1 h src
  rw [State.place, if_neg own, if_pos urgent]

theorem State.place_own_routine (src : f.src = 0x01#8) (routine : ¬isUrgent f.kind = true) :
    s.place f = (s.placeRoutine f).arbitrate := by
  have own : ¬(f.src != byte Config.ringAddress) = true := fun h => bne_iff_ne.1 h src
  rw [State.place, if_neg own, if_neg routine]

theorem State.placeRoutine_replaces {g : Frame} {first last : List Frame}
    (queue : s.ring.routine = first ++ g :: last) (same : SameContent f g) (others : ∀ h ∈ first, ¬SameContent f h) :
    s.placeRoutine f = { s with ring := { s.ring with routine := first ++ f :: last } } := by
  have found : s.ring.routine.any (coalesces f) = true :=
    List.any_eq_true.2 ⟨g, by simp [queue], (coalesces_iff f g).2 same⟩
  rw [State.placeRoutine, if_pos found, queue, replaceIn_first last same others]

theorem State.placeRoutine_new (none_ : ∀ g ∈ s.ring.routine, ¬SameContent f g) :
    s.placeRoutine f = if s.ring.routine.length < 32 then
      { s with ring := { s.ring with routine := s.ring.routine ++ [f] } } else s.raise .txOverrun := by
  refine if_neg fun found => ?_
  obtain ⟨g, m, same⟩ := List.any_eq_true.1 found
  exact none_ g m ((coalesces_iff f g).1 same)

end

/-- RING OUT is in use: a frame is in transmission, or a gap is owed. -/
abbrev RingPort.Busy (p : RingPort) : Prop := p.transmission ≠ none ∨ p.gap ≠ none

/-- R164: a frame that has joined its queue waits while RING OUT is in use; else the arbiter chooses at once. -/
theorem State.place_joined {s v w : State} {f : Frame} (place : s.place f = w.arbitrate) (joined : w = v)
    (out : v.ring.transmission = s.ring.transmission ∧ v.ring.gap = s.ring.gap) :
    (s.ring.Busy → s.place f = v) ∧ (¬s.ring.Busy → s.place f = v.choose) := by
  obtain ⟨transmission, gap⟩ := out
  rw [place, joined, RingPort.Busy, ← transmission, ← gap]
  exact ⟨State.arbitrate_busy, State.arbitrate_free⟩

/-! ## A frame that nothing waits beside -/

section
variable {s : State} {f : Frame}

/-- Nothing waits at RING OUT, and it is free. -/
abbrev State.Idle (s : State) : Prop :=
  ¬s.ring.Busy ∧ s.ring.forward = [] ∧ s.ring.urgent = [] ∧ s.ring.routine = []

theorem Begins.of_eq {v w t : State} (h : Begins v f t) (e : v = w) : Begins w f t := e ▸ h

theorem State.place_foreign_idle (idle : s.Idle) (src : f.src ≠ 0x01#8) : Begins s f (s.place f) := by
  obtain ⟨free, forward, urgent, routine⟩ := idle
  have joined : s.placeForward f = { s with ring := { s.ring with forward := [f] } } := by
    simp [State.placeForward, forward]
  rw [(State.place_joined (State.place_foreign src) joined ⟨rfl, rfl⟩).2 free,
    State.choose_sendsForward (s := { s with ring := { s.ring with forward := [f] } }) urgent rfl (.inl routine)]
  exact (State.sendForward_begins _ f []).of_eq (by rw [RingPort.counted, if_pos routine, ← forward])

theorem State.place_urgent_idle (idle : s.Idle) (src : f.src = 0x01#8) (actuates : isUrgent f.kind = true) :
    Begins s f (s.place f) := by
  obtain ⟨free, forward, urgent, routine⟩ := idle
  have joined : s.placeUrgent f = { s with ring := { s.ring with urgent := [f] } } := by
    simp [State.placeUrgent, urgent]
  rw [(State.place_joined (State.place_own_urgent src actuates) joined ⟨rfl, rfl⟩).2 free,
    State.choose_sendsUrgent (s := { s with ring := { s.ring with urgent := [f] } }) rfl (.inl routine)]
  exact (State.sendUrgent_begins _ f []).of_eq (by rw [RingPort.counted, if_pos routine, ← urgent])

theorem State.place_routine_idle (idle : s.Idle) (src : f.src = 0x01#8) (waits : ¬isUrgent f.kind = true) :
    Begins { s with ring := { s.ring with waitCount := 0 } } f (s.place f) := by
  obtain ⟨free, forward, urgent, routine⟩ := idle
  have joined : s.placeRoutine f = { s with ring := { s.ring with routine := [f] } } := by
    simp [State.placeRoutine, routine]
  rw [(State.place_joined (State.place_own_routine src waits) joined ⟨rfl, rfl⟩).2 free,
    State.choose_sendsRoutine (s := { s with ring := { s.ring with routine := [f] } }) rfl (.inr ⟨urgent, forward⟩)]
  exact (State.sendRoutine_begins _ f []).of_eq (by rw [← routine])

end

/-! ## What the end of an event changes -/

/-- Bits that are kept do not fall. -/
theorem and_not_or_self {w : Nat} (a m : BitVec w) : a &&& ~~~(a ||| m) = 0 := by
  ext i
  simp only [BitVec.getElem_and, BitVec.getElem_not, BitVec.getElem_or]
  cases a[i] <;> simp

/-- Only bits of p rise where bits of p are added. -/
theorem or_and_not_or {w : Nat} {a m p : BitVec w} (h : m &&& ~~~p = 0) : (a ||| m) &&& ~~~(a ||| p) = 0 := by
  ext i lt
  have bit : (m &&& ~~~p)[i] = false := by rw [h]; exact BitVec.getElem_zero lt
  simp only [BitVec.getElem_and, BitVec.getElem_not, BitVec.getElem_or] at bit ⊢
  cases a[i] with
  | true => simp
  | false => simpa using bit

/-- The frames handed over are placed, with the port's own flags as the only ones that rise. -/
theorem closeEvent_changes (before s : State) :
    let t := closeEvent before s
    { t with ring := s.ring, readers := s.readers, req := s.req } = s ∧
    t.ring.outbox = [] ∧ t.ring.ready = s.ring.ready ∧ t.ring.readyBy = s.ring.readyBy ∧
    t.ring.reception = s.ring.reception ∧ t.ring.gap = s.ring.gap ∧
    (∃ flags, t.req = { s.req with flags := flags } ∧
      s.req.flags &&& ~~~flags = 0 ∧
      flags &&& ~~~(s.req.flags ||| Flag.forwardDrop.only ||| Flag.txOverrun.only) = 0) ∧
    (∀ r, t.reader r = s.reader r ∨
      ((s.reader r).cycle = .wait ∧ (s.reader r).scanPending = true ∧
        t.reader r = { s.reader r with cycle := .opened, scanPending := false, window := some (s.now + 25000) })) := by
  intro t
  have placed : Placed { s with ring := { s.ring with outbox := [] } } t := closeEvent_placed before s
  obtain ⟨m, flags, port⟩ := placed.req
  have rest : { t with ring := s.ring, readers := s.readers, req := s.req } = s :=
    congrArg (fun u : State => { u with ring := s.ring }) placed.rest
  refine ⟨rest, placed.outbox, placed.ready, placed.readyBy, placed.reception, placed.gap,
    ⟨s.req.flags ||| m, flags, ?_, ?_⟩, placed.readers⟩
  · exact and_not_or_self s.req.flags m
  · rw [BitVec.or_assoc]
    exact or_and_not_or port

/-- Settles O53: the bytes of the frames, the numbers of the flags, the NOTICE, the class of a placed frame, and what
the end of an event changes. -/
theorem closeEventFrame : Obligations.CloseEventFrame := by
  refine ⟨fun a ts m => ⟨rfl, rfl, rfl, rfl, rfl, rfl, rfl, rfl, rfl, displayFrame_eq a ts, rfl, rfl, maskBytes_eq m⟩,
    ⟨Flag.isIn_iff, by decide⟩, fun before s => ⟨fun none_ => if_pos none_, fun some_ => if_neg some_⟩, fun s f => ?_,
    closeEvent_changes⟩
  intro busy goes urgent same
  refine ⟨fun src => ?_, fun src actuates => ?_, fun src waits => ⟨fun first g last queue replaced others => ?_,
    fun none_ => ?_⟩, fun free forward empty routine => ?_⟩
  · exact ⟨fun room => State.place_joined (State.place_foreign src) (if_pos room) ⟨rfl, rfl⟩,
      fun full => State.place_joined (State.place_foreign src) (if_neg (not_lt.2 full)) ⟨rfl, rfl⟩⟩
  · have place := State.place_own_urgent (s := s) src ((isUrgent_iff _).2 actuates)
    exact ⟨fun room => State.place_joined place (if_pos room) ⟨rfl, rfl⟩,
      fun full => State.place_joined place (if_neg (not_lt.2 full)) ⟨rfl, rfl⟩⟩
  · exact State.place_joined (State.place_own_routine src (mt (isUrgent_iff _).1 waits))
      (State.placeRoutine_replaces queue replaced others) ⟨rfl, rfl⟩
  · have place := State.place_own_routine (s := s) src (mt (isUrgent_iff _).1 waits)
    have new := State.placeRoutine_new none_
    exact ⟨fun room => State.place_joined place (new.trans (if_pos room)) ⟨rfl, rfl⟩,
      fun full => State.place_joined place (new.trans (if_neg (not_lt.2 full))) ⟨rfl, rfl⟩⟩
  · have idle : s.Idle := ⟨free, forward, empty, routine⟩
    split_ifs with own
    · obtain ⟨src, waits⟩ := own
      exact State.place_routine_idle idle src (mt (isUrgent_iff _).1 waits)
    · by_cases src : f.src = 0x01#8
      · have actuates : urgent := not_not.1 fun waits => own ⟨src, waits⟩
        exact State.place_urgent_idle idle src ((isUrgent_iff _).2 actuates)
      · exact State.place_foreign_idle idle src

end Sys2Proof.Machine
end

section
/-! PROOFS. Reception (sections 9.2, 9.3, 11.1): the bytes of a frame read back (R158), and the frames that fail, are
stripped, are ignored or are forwarded (R159, R160, R184). -/

namespace Sys2Proof.Machine

/-! ## The bytes of a frame (R158) -/

/-- 11.1: LEN says how many payload bytes a frame has. -/
theorem Frame.len_toNat {f : Frame} (h : f.payload.length ≤ 32) :
    (BitVec.ofNat 8 f.payload.length).toNat = f.payload.length := by
  rw [BitVec.toNat_ofNat]
  exact Nat.mod_eq_of_lt (by omega)

theorem bytes16_length (w : BitVec 16) : (bytes16 w).length = 2 := rfl

/-- A frame that passes reception is read back from its bytes. -/
theorem frameOfBytes_bytes {f : Frame} (dest : f.dest ≠ 0x00#8) (len : f.payload.length ≤ 32) :
    frameOfBytes f.bytes = some f := by
  have line : f.bytes = f.dest :: f.src :: f.kind :: f.tag :: BitVec.ofNat 8 f.payload.length ::
      (f.payload ++ bytes16 f.check) := rfl
  rw [line, frameOfBytes]
  simp only [Frame.len_toNat len, List.take_left, List.drop_left]
  exact if_pos ⟨by rw [List.length_append, bytes16_length], len, dest, trivial⟩

/-- What is read from bytes has them as its own. -/
theorem bytes_of_frameOfBytes {bytes : List Byte} {f : Frame} (h : frameOfBytes bytes = some f) :
    f.bytes = bytes ∧ f.dest ≠ 0x00#8 ∧ f.payload.length ≤ 32 := by
  unfold frameOfBytes at h
  split at h
  · rename_i dest src kind tag len rest
    obtain ⟨⟨count, short, named, check⟩, read⟩ := Option.ite_none_right_eq_some.1 h
    have payload : (rest.take len.toNat).length = len.toNat := by rw [List.length_take]; omega
    obtain rfl := Option.some.inj read
    refine ⟨?_, named, payload.trans_le short⟩
    calc Frame.bytes ⟨dest, src, kind, tag, rest.take len.toNat⟩
        = dest :: src :: kind :: tag :: BitVec.ofNat 8 (rest.take len.toNat).length ::
            (rest.take len.toNat ++ rest.drop len.toNat) := by rw [check]; rfl
      _ = dest :: src :: kind :: tag :: len :: rest := by
          rw [payload, BitVec.ofNat_toNat, BitVec.setWidth_eq, List.take_append_drop]
  · cases h

/-- Settles O8: reading undoes writing, and only a frame's own bytes give it. -/
theorem frameBytesReadBack : Obligations.FrameBytesReadBack := by
  intro bytes f
  refine ⟨bytes_of_frameOfBytes, ?_⟩
  rintro ⟨rfl, dest, len⟩
  exact frameOfBytes_bytes dest len

/-! ## Named addresses (R160) -/

/-- R160: the address of a present gate, induct or lane, or of a station of the site or drive record. -/
abbrev State.Named (s : State) (a : Nat) : Prop :=
  (∃ g, (s.gateCfg g).present = true ∧ (s.gateCfg g).station = a) ∨ (∃ i, s.namesInduct a i) ∨ (∃ l, s.namesLane a l) ∨
    s.cfg.site.willcallStation = a ∨ s.cfg.site.returnStation = a ∨ s.cfg.site.mergeStation = a ∨
    s.cfg.drive.station = a

theorem State.named_iff (s : State) (a : Nat) : s.named a = true ↔ s.Named a := by
  have gates : allGates.any (fun g => (s.gateCfg g).present && (s.gateCfg g).station == a) = true ↔
      ∃ g, (s.gateCfg g).present = true ∧ (s.gateCfg g).station = a := by simp [allGates_eq]
  have inducts : (s.inductAt a).isSome = true ↔ ∃ i, s.namesInduct a i := by
    rw [Option.isSome_iff_ne_none, ne_eq, State.inductAt_eq_none_iff, not_forall_not]
  have lanes : (s.laneAt a).isSome = true ↔ ∃ l, s.namesLane a l := by
    rw [Option.isSome_iff_ne_none, ne_eq, State.laneAt_eq_none_iff, not_forall_not]
  simp only [State.named, Bool.or_eq_true, gates, inducts, lanes, beq_iff_eq, or_assoc]

/-- R160: an ESTOP is taken from the addresses 3 to 62, every other kind from a named address. -/
theorem State.takesFrom_iff (s : State) (f : Frame) :
    s.takesFrom f = true ↔
      (f.kind = Kind.estop ∧ 3 ≤ f.src.toNat ∧ f.src.toNat ≤ 62) ∨ (f.kind ≠ Kind.estop ∧ s.Named f.src.toNat) := by
  unfold State.takesFrom
  split_ifs with estop
  · simp [estop]
  · simp [estop, s.named_iff]

/-! ## Frames that change nothing (R159, R160, R184) -/

/-- R160: a frame whose LEN is not its kind's, or from an address the part does not take its kind from, is ignored. -/
theorem State.consume_untaken {s : State} {f : Frame} (request : f.kind ≠ Kind.request)
    (h : stationLength f.kind ≠ some f.payload.length ∨ ¬s.takesFrom f = true) : s.consume f = s := by
  rw [State.consume, if_neg request, if_neg (not_and_or.2 h)]

theorem State.eyeFrame_undefined {n : Nat} (h : n = 0 ∨ 7 < n) (s : State) (a : Nat) : s.eyeFrame a n = s := by
  obtain rfl | high := h
  · rfl
  · obtain ⟨m, rfl⟩ := Nat.exists_eq_add_of_le' high
    rfl

theorem State.buttonFrame_undefined {n : Nat} (h : n = 0 ∨ 3 < n) (s : State) (a : Nat) : s.buttonFrame a n = s := by
  obtain rfl | high := h
  · rfl
  · obtain ⟨m, rfl⟩ := Nat.exists_eq_add_of_le' high
    rfl

theorem State.estopFrame_undefined {n : Nat} (h : n = 0 ∨ 2 < n) (s : State) (a : Nat) : s.estopFrame a n = s := by
  obtain rfl | high := h
  · rfl
  · obtain ⟨m, rfl⟩ := Nat.exists_eq_add_of_le' high
    rfl

/-- R184: a payload byte that names no role, button or state. -/
abbrev NamesNothing (f : Frame) (b : Nat) : Prop :=
  (f.kind = Kind.eye ∧ (b = 0 ∨ 7 < b)) ∨ (f.kind = Kind.button ∧ (b = 0 ∨ 3 < b)) ∨
    (f.kind = Kind.estop ∧ (b = 0 ∨ 2 < b))

theorem State.stationFrame_undefined {f : Frame} (h : NamesNothing f (byteAt f.payload 0)) (s : State) :
    s.stationFrame f = s := by
  unfold State.stationFrame
  obtain ⟨kind, byte⟩ | ⟨kind, byte⟩ | ⟨kind, byte⟩ := h
  · rw [if_pos kind]
    exact State.eyeFrame_undefined byte s _
  · simp only [kind, Kind.eye, Kind.tag, Kind.noread, Kind.empty, Kind.button]
    exact State.buttonFrame_undefined byte s _
  · simp only [kind, Kind.eye, Kind.tag, Kind.noread, Kind.empty, Kind.button, Kind.estop]
    exact State.estopFrame_undefined byte s _

theorem State.consume_undefined {s : State} {f : Frame} (h : NamesNothing f (byteAt f.payload 0)) : s.consume f = s := by
  have request : f.kind ≠ Kind.request := by
    obtain ⟨kind, -⟩ | ⟨kind, -⟩ | ⟨kind, -⟩ := h <;> rw [kind] <;> decide
  rw [State.consume, if_neg request, State.stationFrame_undefined h, ite_self]

section
variable {s : State} {f : Frame}

/-- R159, R160: a frame to the part or to all that the part ignores is passed on alone. -/
theorem receiveFrame_ignored (quiet : Quiet s) (ready : s.ring.ready = true) (len : f.payload.length ≤ 32)
    (src : f.src ≠ 0x01#8) (dest : f.dest = 0x01#8 ∨ f.dest = 0x3F#8) (ignored : s.consume f = s) :
    receiveFrame f s = closeEvent s (if f.dest = 0x3F#8 then s.hand f else s) := by
  have event := receiveFrame_consumed (h := ⟨f.dest, f.src, f.tag⟩) (k := f.kind) quiet ready dest src len
  have same : Header.frame ⟨f.dest, f.src, f.tag⟩ f.kind f.payload = f := rfl
  rwa [same, ignored] at event

/-- R159, row 1. -/
theorem receiveFrame_stripped (quiet : Quiet s) (ready : s.ring.ready = true) (dest : f.dest ≠ 0x00#8)
    (len : f.payload.length ≤ 32) (src : f.src = 0x01#8) : receiveFrame f s = closeEvent s s := by
  have passes : ¬(f.dest = 0 ∨ 32 < f.payload.length) := not_or.2 ⟨dest, not_lt.2 len⟩
  rw [receiveFrame, if_pos ready, if_neg passes, State.endReception_of_quiet quiet, State.dispose, if_pos src]

/-- R159, row 4. -/
theorem receiveFrame_forwarded (quiet : Quiet s) (ready : s.ring.ready = true) (dest : f.dest ≠ 0x00#8)
    (len : f.payload.length ≤ 32) (src : f.src ≠ 0x01#8) (other : f.dest ≠ 0x01#8) (one : f.dest ≠ 0x3F#8) :
    receiveFrame f s = closeEvent s (s.hand f) := by
  have passes : ¬(f.dest = 0 ∨ 32 < f.payload.length) := not_or.2 ⟨dest, not_lt.2 len⟩
  rw [receiveFrame, if_pos ready, if_neg passes, State.endReception_of_quiet quiet, State.dispose, if_neg src,
    if_neg other, if_neg one]

/-- R158. -/
theorem receiveBytes_failed {bytes : List Byte} (quiet : Quiet s) (ready : s.ring.ready = true)
    (failed : frameOfBytes bytes = none) : receiveBytes bytes s = closeEvent s (s.raise .frameCheck) := by
  unfold receiveBytes
  rw [failed, State.endReception_of_quiet quiet]
  exact if_pos ready

/-! ## A frame to forward (R159) -/

theorem closeEvent_hand (quiet : Quiet s) (f : Frame) : closeEvent s (s.hand f) = (s.place f).notify s.req.flags := by
  have handed : (s.hand f).ring.outbox = [f] := by simp [State.hand, quiet.1]
  have emptied : { s.hand f with ring := { (s.hand f).ring with outbox := [] } } = s := by
    rw [← quiet.1]; rfl
  rw [closeEvent, State.placeAll, handed, emptied]
  rfl

theorem State.placeForward_room (room : s.ring.forward.length < 4) :
    s.placeForward f = { s with ring := { s.ring with forward := s.ring.forward ++ [f] } } := if_pos room

theorem State.placeForward_full (full : 4 ≤ s.ring.forward.length) : s.placeForward f = s.raise .forwardDrop :=
  if_neg (not_lt.2 full)

/-- A frame that has a place in the forward buffer raises no flag. -/
theorem closeEvent_forward (quiet : Quiet s) (src : f.src ≠ 0x01#8) (room : s.ring.forward.length < 4) :
    closeEvent s (s.hand f) = s.place f := by
  have flags : (s.place f).req.flags = s.req.flags := by
    rw [State.place_foreign src, State.placeForward_room room, State.arbitrate_req]
  rw [closeEvent_hand quiet, State.notify_none (enabledRises_same flags)]

end

theorem stationLength_other {k : Byte} (eye : k ≠ Kind.eye) (tag : k ≠ Kind.tag) (noread : k ≠ Kind.noread)
    (empty : k ≠ Kind.empty) (button : k ≠ Kind.button) (estop : k ≠ Kind.estop) (stationUp : k ≠ Kind.stationUp) :
    stationLength k = none := by
  simp only [stationLength, eye, tag, noread, empty, button, estop, stationUp, if_false]

/-- Settles O9: the event of each kind of reception, the ways a frame is ignored, and the place of one to forward. -/
theorem framesNotForThePart : Obligations.FramesNotForThePart := by
  refine ⟨fun s quiet ready => ⟨fun bytes failed => ?_, fun f dest len src => ?_,
      fun f len src dest request => ?_, fun f b src dest payload out => ?_, fun h src dest => ?_⟩,
    fun s f quiet ready src dest other one len => ?_,
    ⟨rfl, rfl, rfl, rfl, rfl, rfl, rfl, rfl⟩,
    ⟨rfl, rfl, rfl, rfl, rfl, rfl, rfl, fun _ => stationLength_other⟩⟩
  · exact congrArg Host.Outcome.next (receiveBytes_failed quiet ready failed)
  · exact congrArg Host.Outcome.next (receiveFrame_stripped quiet ready dest len src)
  · intro a named out
    refine congrArg Host.Outcome.next (receiveFrame_ignored quiet ready len src dest (State.consume_untaken request ?_))
    rw [State.takesFrom_iff]
    obtain length | ⟨kind, unnamed⟩ | ⟨kind, outside⟩ := out
    · exact .inl length
    · exact .inr (not_or.2 ⟨fun h => kind h.1, fun h => unnamed h.2⟩)
    · exact .inr (not_or.2 ⟨fun ⟨_, low, high⟩ => outside.elim low.not_gt high.not_gt, fun h => h.1 kind⟩)
  · have undefined : NamesNothing f (byteAt f.payload 0) := by rw [payload]; exact out
    exact congrArg Host.Outcome.next
      (receiveFrame_ignored quiet ready (by simp [payload]) src dest (State.consume_undefined undefined))
  · have ignored : s.consume (Header.frame h Kind.request []) = s :=
      (if_pos rfl).trans (if_neg fun ⟨_, _, filled⟩ => absurd filled (Nat.not_succ_le_zero 0))
    have event := receiveFrame_consumed (k := Kind.request) (p := []) quiet ready dest src (Nat.zero_le _)
    rw [ignored] at event
    exact congrArg Host.Outcome.next event
  · intro busy
    refine ⟨congrArg Host.Outcome.next (receiveFrame_forwarded quiet ready dest len src other one),
      fun waits room => ?_, fun waits full => ?_, fun free forward urgent routine => ?_⟩
    · rw [closeEvent_forward quiet src room]
      exact (State.place_joined (State.place_foreign src) (State.placeForward_room room) ⟨rfl, rfl⟩).1 waits
    · rw [closeEvent_hand quiet]
      exact congrArg (State.notify · s.req.flags)
        ((State.place_joined (State.place_foreign src) (State.placeForward_full full) ⟨rfl, rfl⟩).1 waits)
    · rw [closeEvent_forward quiet src (by simp [forward])]
      exact State.place_foreign_idle ⟨free, forward, urgent, routine⟩ src

end Sys2Proof.Machine
end

section
/-! PROOFS. A step on an empty queue (log entries 2, 4, 34, 40): the events that are due, and the one that happens. -/

namespace Sys2Proof.Machine

open Laws.Commands (isRequest isRequest_requestCommand)

/-! ## Timers that have run out -/

theorem mem_dueIf_iff {b : Bool} {c x : Instr} : c ∈ dueIf b x ↔ c = x ∧ b = true := by
  cases b <;> simp [dueIf]

theorem State.runOut_iff (s : State) (timer : Option Time) : s.runOut timer = true ↔ RunsOut s timer := by
  cases timer <;> simp [State.runOut, RunsOut]

theorem mem_dueTimer_iff {s : State} {timer : Option Time} {c x : Instr} :
    c ∈ dueIf (s.runOut timer) x ↔ c = x ∧ RunsOut s timer := by
  rw [mem_dueIf_iff, s.runOut_iff]

/-- A timer that runs in one state of its block alone. -/
theorem runsOut_ite_iff {s : State} {p : Prop} [Decidable p] {timer : Option Time} :
    RunsOut s (if p then timer else none) ↔ p ∧ RunsOut s timer := by
  by_cases h : p <;> simp [h]

theorem runsOut_unattended_iff {s : State} {u : Unattended} :
    RunsOut s u.expiry ↔ ∃ e, u = .running e ∧ e ≤ s.now := by
  cases u <;> simp [Unattended.expiry, RunsOut]

/-! ## The rows that are due, block by block -/

section
variable {s : State} {c : Instr}

theorem State.mem_dueReady_iff : c ∈ s.dueReady ↔ c = .partReady ∧ Due s .partReady := by
  simp [State.dueReady, mem_dueIf_iff, Due]

theorem State.mem_dueRequest_iff :
    c ∈ s.dueRequest ↔
      ∃ r rest, s.req.buffer = r :: rest ∧ requestCommand r = c ∧ s.ring.routine.length < 32 := by
  unfold State.dueRequest
  cases s.req.buffer with
  | nil => simp
  | cons r rest => simp [mem_dueIf_iff, eq_comm]

theorem State.mem_dueEnd_iff :
    c ∈ dueIf (s.runOut s.ring.ends) .transmissionEnd ↔ c = .transmissionEnd ∧ Due s .transmissionEnd := by
  rw [mem_dueTimer_iff, RingPort.ends_eq]
  rfl

theorem State.mem_dueReaders_iff :
    c ∈ s.dueReaders ↔ ∃ r, c = .readWindowExpiry r ∧ Due s (.readWindowExpiry r) := by
  simp only [State.dueReaders, allReaders, List.mem_flatMap, List.mem_finRange, true_and, mem_dueTimer_iff,
    Reader.openWindow, runsOut_ite_iff, Due]

theorem State.mem_dueConfirms_iff {incoming : List Incoming} {mk : Nat → Instr} :
    c ∈ s.dueConfirms incoming mk ↔ ∃ e ∈ incoming, c = mk (s.tagOf e.tote) ∧ RunsOut s e.confirm := by
  simp only [State.dueConfirms, List.mem_flatMap, mem_dueTimer_iff]

theorem State.mem_dueLane_iff {l : LaneIx} :
    c ∈ s.dueLane l ↔
      (c = .scanIntervalExpiry l ∧ Due s (.scanIntervalExpiry l)) ∨
      (∃ e ∈ (s.lane l).incoming, c = .confirmExpiry l (s.tagOf e.tote) ∧ RunsOut s e.confirm) ∨
      (c = .advanceLimitExpiry l ∧ Due s (.advanceLimitExpiry l)) ∨
      (c = .unattendedExpiry l ∧ Due s (.unattendedExpiry l)) ∨
      ∃ e ∈ (s.lane l).ready, c = .collectExpiry (s.ticketOf e.order) ∧ e.collect ≤ s.now := by
  simp only [State.dueLane, List.mem_append, List.mem_flatMap, mem_dueIf_iff, State.runOut_iff,
    State.mem_dueConfirms_iff, Reader.interval, Lane.advanceLimit, runsOut_ite_iff, runsOut_unattended_iff, Due,
    decide_eq_true_eq, and_assoc, or_assoc]

theorem State.mem_dueDeadlines_iff :
    c ∈ s.dueDeadlines ↔
      ∃ p ∈ s.totes, c = .deadlineExpiry p.2.tag ∧ ∃ d, p.2.deadline = some d ∧ d.expiry ≤ s.now := by
  simp only [State.dueDeadlines, List.mem_flatMap, mem_dueTimer_iff, RunsOut, Option.map_eq_some_iff]
  simp

theorem State.mem_dueTrack_iff :
    c ∈ s.dueTrack ↔
      (c = .mergeHoldExpiry ∧ Due s .mergeHoldExpiry) ∨ (c = .samplingWindowExpiry ∧ Due s .samplingWindowExpiry) ∨
      (c = .monitorWindowExpiry ∧ Due s .monitorWindowExpiry) ∨ (c = .haltTimerExpiry ∧ Due s .haltTimerExpiry) ∨
      (c = .startDelayExpiry ∧ Due s .startDelayExpiry) ∨ (c = .idleExpiry ∧ Due s .idleExpiry) ∨
      (c = .stopDelayExpiry ∧ Due s .stopDelayExpiry) := by
  simp only [State.dueTrack, List.mem_append, mem_dueTimer_iff, Throttle.monitoring, RunControl.halting,
    Drive.starting, Drive.idling, Drive.stopping, runsOut_ite_iff, Due, or_assoc]

theorem State.mem_dueCommands_iff :
    c ∈ s.dueCommands ↔
      c ∈ s.dueReady ∨ c ∈ s.dueRequest ∨ c ∈ dueIf (s.runOut s.ring.ends) .transmissionEnd ∨ c ∈ s.dueReaders ∨
      (∃ l, c ∈ s.dueLane l) ∨ c ∈ s.dueConfirms s.willcall.incoming .willcallConfirmExpiry ∨ c ∈ s.dueDeadlines ∨
      c ∈ s.dueTrack := by
  simp only [State.dueCommands, List.mem_append, List.mem_flatMap, allLanes_mem, true_and, or_assoc]

/-! ## The rows that are due, row by row -/

/-- R168: a request row is due where the oldest request is its own and the routine queue has room. -/
theorem due_request_iff (h : isRequest c = true) :
    Due s c ↔ ∃ r rest, s.req.buffer = r :: rest ∧ requestCommand r = c ∧ s.ring.routine.length < 32 := by
  cases c <;> cases h <;> rfl

theorem due_of_mem_dueCommands (h : c ∈ s.dueCommands) : Due s c := by
  obtain ready | request | ring | readers | ⟨l, lane⟩ | spur | watch | track := State.mem_dueCommands_iff.1 h
  · obtain ⟨rfl, due⟩ := State.mem_dueReady_iff.1 ready
    exact due
  · obtain ⟨r, rest, oldest, rfl, room⟩ := State.mem_dueRequest_iff.1 request
    exact (due_request_iff (isRequest_requestCommand r)).2 ⟨r, rest, oldest, rfl, room⟩
  · obtain ⟨rfl, due⟩ := State.mem_dueEnd_iff.1 ring
    exact due
  · obtain ⟨r, rfl, due⟩ := State.mem_dueReaders_iff.1 readers
    exact due
  · obtain ⟨rfl, due⟩ | ⟨e, m, rfl, out⟩ | ⟨rfl, due⟩ | ⟨rfl, due⟩ | ⟨e, m, rfl, out⟩ :=
      State.mem_dueLane_iff.1 lane
    · exact due
    · exact ⟨e, m, rfl, out⟩
    · exact due
    · exact due
    · exact ⟨l, e, m, rfl, out⟩
  · obtain ⟨e, m, rfl, out⟩ := State.mem_dueConfirms_iff.1 spur
    exact ⟨e, m, rfl, out⟩
  · obtain ⟨p, m, rfl, out⟩ := State.mem_dueDeadlines_iff.1 watch
    exact ⟨p, m, rfl, out⟩
  · obtain ⟨rfl, due⟩ | ⟨rfl, due⟩ | ⟨rfl, due⟩ | ⟨rfl, due⟩ | ⟨rfl, due⟩ | ⟨rfl, due⟩ | ⟨rfl, due⟩ :=
      State.mem_dueTrack_iff.1 track
    all_goals exact due

theorem mem_dueCommands_of_lane {l : LaneIx} (h : c ∈ s.dueLane l) : c ∈ s.dueCommands :=
  State.mem_dueCommands_iff.2 (.inr (.inr (.inr (.inr (.inl ⟨l, h⟩)))))

theorem mem_dueCommands_of_track (h : c ∈ s.dueTrack) : c ∈ s.dueCommands :=
  State.mem_dueCommands_iff.2 (.inr (.inr (.inr (.inr (.inr (.inr (.inr h)))))))

theorem mem_dueCommands_of_due (h : Due s c) : c ∈ s.dueCommands := by
  by_cases request : isRequest c = true
  · exact State.mem_dueCommands_iff.2 (.inr (.inl (State.mem_dueRequest_iff.2 ((due_request_iff request).1 h))))
  · cases c with
    | partReady => exact State.mem_dueCommands_iff.2 (.inl (State.mem_dueReady_iff.2 ⟨rfl, h⟩))
    | transmissionEnd =>
      exact State.mem_dueCommands_iff.2 (.inr (.inr (.inl (State.mem_dueEnd_iff.2 ⟨rfl, h⟩))))
    | readWindowExpiry r =>
      exact State.mem_dueCommands_iff.2 (.inr (.inr (.inr (.inl (State.mem_dueReaders_iff.2 ⟨r, rfl, h⟩)))))
    | scanIntervalExpiry l => exact mem_dueCommands_of_lane (State.mem_dueLane_iff.2 (.inl ⟨rfl, h⟩))
    | confirmExpiry l tag =>
      obtain ⟨e, m, rfl, out⟩ := h
      exact mem_dueCommands_of_lane (State.mem_dueLane_iff.2 (.inr (.inl ⟨e, m, rfl, out⟩)))
    | advanceLimitExpiry l =>
      exact mem_dueCommands_of_lane (State.mem_dueLane_iff.2 (.inr (.inr (.inl ⟨rfl, h⟩))))
    | unattendedExpiry l =>
      exact mem_dueCommands_of_lane (State.mem_dueLane_iff.2 (.inr (.inr (.inr (.inl ⟨rfl, h⟩)))))
    | collectExpiry ticket =>
      obtain ⟨l, e, m, rfl, out⟩ := h
      exact mem_dueCommands_of_lane (State.mem_dueLane_iff.2 (.inr (.inr (.inr (.inr ⟨e, m, rfl, out⟩)))))
    | willcallConfirmExpiry tag =>
      obtain ⟨e, m, rfl, out⟩ := h
      exact State.mem_dueCommands_iff.2
        (.inr (.inr (.inr (.inr (.inr (.inl (State.mem_dueConfirms_iff.2 ⟨e, m, rfl, out⟩)))))))
    | deadlineExpiry tag =>
      obtain ⟨p, m, rfl, out⟩ := h
      exact State.mem_dueCommands_iff.2
        (.inr (.inr (.inr (.inr (.inr (.inr (.inl (State.mem_dueDeadlines_iff.2 ⟨p, m, rfl, out⟩))))))))
    | mergeHoldExpiry => exact mem_dueCommands_of_track (State.mem_dueTrack_iff.2 (.inl ⟨rfl, h⟩))
    | samplingWindowExpiry => exact mem_dueCommands_of_track (State.mem_dueTrack_iff.2 (.inr (.inl ⟨rfl, h⟩)))
    | monitorWindowExpiry => exact mem_dueCommands_of_track (State.mem_dueTrack_iff.2 (.inr (.inr (.inl ⟨rfl, h⟩))))
    | haltTimerExpiry =>
      exact mem_dueCommands_of_track (State.mem_dueTrack_iff.2 (.inr (.inr (.inr (.inl ⟨rfl, h⟩)))))
    | startDelayExpiry =>
      exact mem_dueCommands_of_track (State.mem_dueTrack_iff.2 (.inr (.inr (.inr (.inr (.inl ⟨rfl, h⟩))))))
    | idleExpiry =>
      exact mem_dueCommands_of_track (State.mem_dueTrack_iff.2 (.inr (.inr (.inr (.inr (.inr (.inl ⟨rfl, h⟩)))))))
    | stopDelayExpiry =>
      exact mem_dueCommands_of_track (State.mem_dueTrack_iff.2 (.inr (.inr (.inr (.inr (.inr (.inr ⟨rfl, h⟩)))))))
    | _ => simp [isRequest, Due] at request h

/-- A row is in the list of due rows exactly where its event is due. -/
theorem mem_dueCommands_iff_due : c ∈ s.dueCommands ↔ Due s c := ⟨due_of_mem_dueCommands, mem_dueCommands_of_due⟩

end

/-! ## The lanes' own tests of auto-return (R102) -/

theorem State.mem_dueReturns_iff (s : State) (l : LaneIx) : l ∈ s.dueReturns ↔ ReturnsTote s l ∧ s.beltCount < 6 := by
  simp only [State.dueReturns, List.mem_filter, allLanes_mem, true_and, Bool.and_eq_true, State.wantsReturn_iff,
    State.beltRoom_iff]

theorem State.command_mem_dueEvents_iff (s : State) (c : Instr) :
    OwnEvent.command c ∈ s.dueEvents ↔ c ∈ s.dueCommands := by
  simp [State.dueEvents]

theorem State.laneReturn_mem_dueEvents_iff (s : State) (l : LaneIx) :
    OwnEvent.laneReturn l ∈ s.dueEvents ↔ ReturnsTote s l ∧ s.beltCount < 6 := by
  rw [← s.mem_dueReturns_iff]
  simp [State.dueEvents]

theorem State.laneReturn_pushes {s : State} {l : LaneIx} {k : ToteSlot} {rest : List QueueEntry}
    (test : ReturnsTote s l) (room : s.beltCount < 6) (queue : (s.lane l).queue = .known k :: rest) :
    s.laneReturn l = closeEvent s (settle s (Pushed s l k)) := by
  rw [State.laneReturn, (s.returnTest_spec l).1 k rest test room queue]

/-! ## The event that happens -/

section
variable {s : State}

theorem step_ownEvent (empty : s.pending = []) : step s = s.ownEvent := by simp only [step, empty]

theorem State.ownEvent_none (none_ : s.dueEvents = []) : s.ownEvent = .next s.tick := by
  simp only [State.ownEvent, none_]

theorem State.ownEvent_one {e : OwnEvent} (one : s.dueEvents = [e]) : s.ownEvent = e.run s := by
  simp only [State.ownEvent, one]

/-- Of several due events one happens, and a free choice has been drawn. -/
theorem State.ownEvent_several (several : 2 ≤ s.dueEvents.length) :
    ∃ e ∈ s.dueEvents, s.ownEvent = e.run s.drawChoice := by
  unfold State.ownEvent
  match due : s.dueEvents, several with
  | e :: f :: es, _ =>
    have within : Config.freeChoice s.choices % ((f :: es).length + 1) < (e :: f :: es).length :=
      Nat.mod_lt _ (Nat.succ_pos _)
    refine ⟨_, ?_, rfl⟩
    rw [List.getD_eq_getElem _ _ within]
    exact List.getElem_mem within

end

/-- Settles O2: the event that happens by the number of due ones, and the due ones row by row and lane by lane. -/
theorem emptyQueueStep : Obligations.EmptyQueueStep := by
  intro s
  refine ⟨fun empty => ?_, s.command_mem_dueEvents_iff, fun _ => mem_dueCommands_iff_due,
    s.laneReturn_mem_dueEvents_iff, fun _ => rfl,
    fun l k rest test room queue => congrArg Host.Outcome.next (State.laneReturn_pushes test room queue)⟩
  rw [step_ownEvent empty]
  exact ⟨State.ownEvent_none, fun _ => State.ownEvent_one, State.ownEvent_several⟩

end Sys2Proof.Machine
end

section
/-! PROOFS. The Request Unit: what the lock keeps (R176), the buffer of requests (R168), the requests that are refused
(R169, R170), and those for flags, mask and identity (R179 to R181, R184). -/

namespace Sys2Proof.Machine

/-! ## What every command keeps -/

/-- Settles O59: the lock and what it protects are among the things that every event keeps. -/
theorem configurationLock : Obligations.ConfigurationLock := fun _ _ _ other locked h => (exec_kept other h).lock locked

/-- Settles O3: power-on writes its next state out, and every other row is an event. -/
theorem everyCommandAnswersNext : Obligations.EveryCommandAnswersNext := by
  intro c s
  by_cases power : c = .powerOn
  · subst power
    exact ⟨_, rfl, rfl⟩
  · obtain ⟨t, next, kept⟩ := exec_rowKeeps power s
    exact ⟨t, next, kept.pending⟩

/-! ## The lengths of requests (11.3) -/

/-- 11.3: the LEN of a WRITE-ENTRY, by its table. -/
abbrev WriteEntryLength (table n : Nat) : Prop :=
  (table = 1 ∧ n = 3 + 9) ∨ (table = 2 ∧ n = 3 + 15) ∨ ((table = 3 ∨ table = 4) ∧ n = 3 + 6) ∨
    (table = 5 ∧ n = 3 + 5) ∨ (table = 6 ∧ n = 3 + 16) ∨ (table = 7 ∧ n = 3 + 7) ∨ (table = 8 ∧ n = 3 + 8) ∨
    ((table = 0 ∨ 9 ≤ table) ∧ 3 ≤ n)

/-- 11.3: the LEN of a request, by its code and, for a WRITE-ENTRY, its table. -/
abbrev RequestLength (code table n : Nat) : Prop :=
  (code = 0x01 ∧ n = 5) ∨ (code = 0x02 ∧ n = 6) ∨ (code = 0x03 ∧ n = 3) ∨ (code = 0x04 ∧ n = 3) ∨
    (code = 0x05 ∧ ∃ k ≤ 6, n = 13 + 3 * k) ∨ (code = 0x06 ∧ n = 3) ∨ (code = 0x07 ∧ n = 3) ∨
    (code = 0x08 ∧ n = 3) ∨ (code = 0x09 ∧ n = 3) ∨ (code = 0x0A ∧ n = 3) ∨ (code = 0x0B ∧ WriteEntryLength table n) ∨
    (code = 0x0C ∧ n = 1) ∨ (code = 0x0D ∧ n = 2) ∨ (code = 0x0E ∧ ∃ k, n = 2 + 2 * k) ∨ (code = 0x0F ∧ n = 2) ∨
    (code = 0x10 ∧ n = 6) ∨ (code = 0x11 ∧ n = 4) ∨ (code = 0x12 ∧ n = 4) ∨ (code = 0x13 ∧ n = 4) ∨
    (code = 0x14 ∧ n = 1) ∨ code = 0 ∨ 0x15 ≤ code

theorem writeEntryFits_iff (p : List Byte) : writeEntryFits p = true ↔ WriteEntryLength (byteAt p 1) p.length := by
  unfold writeEntryFits WriteEntryLength
  generalize byteAt p 1 = table
  match table with
  | 0 | 1 | 2 | 3 | 4 | 5 | 6 | 7 | 8 | m + 9 => simp [imageLength]

/-- 11.3: a WRITE-ORDER has three bytes for each of at most six totes. -/
theorem writeOrderLength_iff (n : Nat) : (13 ≤ n && n ≤ 31 && n % 3 == 1) = true ↔ ∃ k ≤ 6, n = 13 + 3 * k := by
  simp only [Bool.and_eq_true, decide_eq_true_eq, beq_iff_eq]
  constructor
  · rintro ⟨⟨low, high⟩, words⟩
    exact ⟨(n - 13) / 3, by omega, by omega⟩
  · rintro ⟨k, few, rfl⟩
    omega

/-- 11.3: a RESTORE-LANE has two bytes for each entry. -/
theorem restoreLaneLength_iff (n : Nat) : (2 ≤ n && n % 2 == 0) = true ↔ ∃ k, n = 2 + 2 * k := by
  simp only [Bool.and_eq_true, decide_eq_true_eq, beq_iff_eq]
  constructor
  · rintro ⟨low, words⟩
    exact ⟨(n - 2) / 2, by omega⟩
  · rintro ⟨k, rfl⟩
    omega

theorem requestFits_iff (p : List Byte) : requestFits p = true ↔ RequestLength (byteAt p 0) (byteAt p 1) p.length := by
  unfold RequestLength
  rw [← writeEntryFits_iff, ← writeOrderLength_iff, ← restoreLaneLength_iff]
  unfold requestFits
  generalize byteAt p 0 = code
  match code with
  | 0x00 | 0x01 | 0x02 | 0x03 | 0x04 | 0x05 | 0x06 | 0x07 | 0x08 | 0x09 | 0x0A | 0x0B | 0x0C | 0x0D | 0x0E | 0x0F | 0x10
  | 0x11 | 0x12 | 0x13 | 0x14 | m + 0x15 => simp

/-! ## The buffer of requests (R168) -/

section
variable {s : State} {h : Header} {p : List Byte}

theorem State.consume_request_taken (dest : h.dest = 0x01#8) (src : h.src = 0x02#8) (filled : 1 ≤ p.length) :
    s.consume (Header.frame h Kind.request p) = s.bufferRequest h.tag p :=
  (if_pos rfl).trans (if_pos ⟨src, dest, filled⟩)

theorem State.consume_request_ignored (other : h.src ≠ 0x02#8 ∨ h.dest ≠ 0x01#8) :
    s.consume (Header.frame h Kind.request p) = s :=
  (if_pos rfl).trans (if_neg fun ⟨src, dest, _⟩ => other.elim (· src) (· dest))

theorem State.bufferRequest_room (tag : Byte) (room : s.req.buffer.length < 4) :
    s.bufferRequest tag p =
      { s with req := { s.req with buffer := s.req.buffer ++ [⟨tag, p, !requestFits p⟩] } } := if_pos room

theorem State.bufferRequest_full (tag : Byte) (full : 4 ≤ s.req.buffer.length) : s.bufferRequest tag p = s :=
  if_neg (not_lt.2 full)

theorem passOn_alone (dest : h.dest = 0x01#8) (kind : Byte) (u : State) : passOn h kind p u = u :=
  if_neg (by rw [dest]; decide)

end

/-- Settles O29: the lengths by code, and the event of a REQUEST by its addresses and the room in the buffer. -/
theorem requestIsBuffered : Obligations.RequestIsBuffered := by
  refine ⟨requestFits_iff, fun s h p quiet ready filled len dest src => ?_⟩
  have event : exec (.requestFrame h p) s =
      .next (closeEvent s (passOn h Kind.request p (s.consume (Header.frame h Kind.request p)))) :=
    congrArg Host.Outcome.next (receiveFrame_consumed quiet ready dest src len)
  refine ⟨fun one two room => ?_, fun one two full => ?_, fun other => ?_⟩
  · rw [event, passOn_alone one, State.consume_request_taken one two filled, State.bufferRequest_room _ room]
  · rw [event, passOn_alone one, State.consume_request_taken one two filled, State.bufferRequest_full _ full]
  · have elsewhere : h.src ≠ 0x02#8 ∨ h.dest ≠ 0x01#8 := other.imp_right fun all => by rw [all]; decide
    rw [event, State.consume_request_ignored elsewhere]

/-! ## Requests that are not carried out (R168, R170) -/

/-- A row of the Request Unit: it answers MALFORMED where its request is, and leaves the state as it stands where it
finds no request of its own or has no room for a RESPONSE (log entry 1). -/
structure TakesRequests (c : Instr) : Prop where
  malformed : ∀ {s r rest}, Asked s c r rest → r.malformed = true →
    exec c s = answered s r (s.popRequest rest) .malformed []
  waits : ∀ {s : State}, s.req.buffer = [] ∨ 32 ≤ s.ring.routine.length → exec c s = .next s
  other : ∀ {s : State} {r rest}, s.req.buffer = r :: rest → requestCommand r ≠ c → exec c s = .next s

section
variable {s : State} {c : Instr} {handler : Request → State → Reply} {r : Request} {rest : List Request}

theorem takeRequest_malformed (asked : Asked s c r rest) (bad : r.malformed = true) :
    takeRequest c handler s = closeEvent s (respond r ⟨s.popRequest rest, .malformed, []⟩) := by
  rw [takeRequest_taken asked, carryOut, if_pos bad]
  rfl

theorem State.takes_iff : s.takes c r = true ↔ s.ring.routine.length < 32 ∧ requestCommand r = c := by
  simp [State.takes]

theorem takeRequest_untaken (untaken : ∀ r rest, s.req.buffer = r :: rest → ¬s.takes c r = true) :
    takeRequest c handler s = s := by
  unfold takeRequest
  split
  next => rfl
  next r rest buffer => exact if_neg (untaken r rest buffer)

theorem State.untaken_of_waits (waits : s.req.buffer = [] ∨ 32 ≤ s.ring.routine.length) (r : Request)
    (rest : List Request) (buffer : s.req.buffer = r :: rest) : ¬s.takes c r = true := by
  rw [State.takes_iff]
  rintro ⟨room, -⟩
  obtain empty | full := waits
  · simp [empty] at buffer
  · exact absurd room (not_lt.2 full)

theorem State.untaken_of_other (buffer : s.req.buffer = r :: rest) (row : requestCommand r ≠ c) (q : Request)
    (others : List Request) (front : s.req.buffer = q :: others) : ¬s.takes c q = true := by
  obtain ⟨rfl, -⟩ := List.cons.inj (buffer.symm.trans front)
  rw [State.takes_iff]
  exact fun ⟨_, own⟩ => row own

end

theorem TakesRequests.ofHandler {c : Instr} {handler : Request → State → Reply}
    (e : ∀ s, exec c s = .next (takeRequest c handler s)) : TakesRequests c where
  malformed asked bad := by rw [e, takeRequest_malformed asked bad]; rfl
  waits still := by rw [e, takeRequest_untaken (State.untaken_of_waits still)]
  other buffer row := by rw [e, takeRequest_untaken (State.untaken_of_other buffer row)]

theorem execControlRestart_untaken {s : State}
    (untaken : ∀ r rest, s.req.buffer = r :: rest → ¬s.takes .controlRestart r = true) :
    execControlRestart s = .next s := by
  unfold execControlRestart
  split
  next => rfl
  next r rest buffer => exact if_neg (untaken r rest buffer)

theorem execControlRestart_taken {s : State} {r : Request} {rest : List Request}
    (asked : Asked s .controlRestart r rest) :
    execControlRestart s =
      if r.malformed = true then answered s r (s.popRequest rest) .malformed []
      else .next (s.warmStart .startRequest) := by
  obtain ⟨buffer, room, row⟩ := asked
  unfold execControlRestart
  rw [buffer]
  exact if_pos (State.takes_iff.2 ⟨room, row⟩)

/-- R178: a RESTART has no reply of its own. -/
theorem TakesRequests.controlRestart : TakesRequests .controlRestart where
  malformed asked bad := (execControlRestart_taken asked).trans (if_pos bad)
  waits still := execControlRestart_untaken (State.untaken_of_waits still)
  other buffer row := execControlRestart_untaken (State.untaken_of_other buffer row)

theorem takesRequests_writeEntryCommand (table : Nat) : TakesRequests (writeEntryCommand table) := by
  unfold writeEntryCommand
  split <;> exact .ofHandler fun _ => rfl

theorem takesRequests_controlCommand (op : Nat) : TakesRequests (controlCommand op) := by
  unfold controlCommand
  split
  case h_9 => exact .controlRestart
  all_goals exact .ofHandler fun _ => rfl

/-- 11.3: whatever a request's code, table and operation, its row is one of the Request Unit's. -/
theorem takesRequests_requestCommand (r : Request) : TakesRequests (requestCommand r) := by
  unfold requestCommand
  split
  case h_10 => split <;> exact .ofHandler fun _ => rfl
  case h_11 => exact takesRequests_writeEntryCommand _
  case h_13 => exact takesRequests_controlCommand _
  case h_16 => split <;> exact .ofHandler fun _ => rfl
  all_goals exact .ofHandler fun _ => rfl

theorem IsRequestRow.takesRequests {c : Instr} (row : IsRequestRow c) : TakesRequests c := by
  obtain ⟨r, rfl⟩ := row
  exact takesRequests_requestCommand r

/-- R157, R169: the bytes of a RESPONSE. -/
theorem respond_eq {r : Request} {code : Byte} {args : List Byte} (payload : r.payload = code :: args) (u : State)
    (x : Status) (data : List Byte) :
    respond r ⟨u, x, data⟩ =
      { u with ring := { u.ring with
          outbox := ⟨0x02#8, 0x01#8, 0x21#8, r.tag, code :: x.code :: data⟩ :: u.ring.outbox } } := by
  have first : byte r.code = code := by simp [Request.code, byteAt, byte, payload]
  unfold respond responseFrame
  rw [first]
  rfl

theorem exec_refusingRow {s : State} {c : Instr} {x : Status} {r : Request} {rest : List Request}
    (row : RefusingRow c x) (asked : AskedWell s c r rest) : exec c s = answered s r (s.popRequest rest) x [] := by
  obtain ⟨rfl, rfl⟩ | ⟨rfl, rfl⟩ | ⟨rfl, rfl⟩ := row
  all_goals exact exec_replied rfl asked rfl

/-- Settles O30: the bytes of a RESPONSE, and what every row of the Request Unit does with a request that it does not
carry out. -/
theorem refusedRequests : Obligations.RefusedRequests := by
  refine ⟨fun r u x data code args payload => respond_eq payload u x data, by decide, fun s c r rest => ?_⟩
  refine ⟨fun asked => ?_, fun x row => exec_refusingRow row, fun row => row.takesRequests.waits,
    fun row => row.takesRequests.other⟩
  have row : IsRequestRow c := ⟨r, asked.2.2⟩
  exact row.takesRequests.malformed asked

/-! ## Flags, mask and identity (R179 to R181, R184) -/

theorem maskOutOfRange_iff (m : BitVec 24) : maskOutOfRange m = true ↔ 0x100000 ≤ m.toNat := by
  simp [maskOutOfRange]

section
variable {s : State} {r : Request}

theorem replyReadFlags_eq :
    replyReadFlags r s =
      if 0x100000 ≤ (maskAt r.args 0).toNat then ⟨s, .range, []⟩
      else ⟨s.clearFlags (maskAt r.args 0), .ok, maskBytes s.req.flags ++ maskBytes s.req.mask⟩ := by
  simp only [← maskOutOfRange_iff]
  rfl

theorem replyClearFlags_eq :
    replyClearFlags r s =
      if 0x100000 ≤ (maskAt r.args 0).toNat then ⟨s, .range, []⟩ else ⟨s.clearFlags (maskAt r.args 0), .ok, []⟩ := by
  simp only [← maskOutOfRange_iff]
  rfl

theorem replySetNoticeMask_eq :
    replySetNoticeMask r s =
      if 0x100000 ≤ (maskAt r.args 0).toNat then ⟨s, .range, []⟩
      else if s.req.lock = true then ⟨s.raise .lockedWrite, .locked, []⟩
      else ⟨{ s with req := { s.req with mask := (maskAt r.args 0).setWidth 20 } }, .ok, []⟩ := by
  simp only [← maskOutOfRange_iff]
  rfl

end

/-- Settles O48: each reply by the range of its mask and, for SET-NOTICE-MASK, the lock. -/
theorem flagRequests : Obligations.FlagRequests := by
  intro s r rest p m bad cleared
  refine ⟨fun c row asked out => ?_, fun asked good => ?_, fun asked good => ?_, fun asked good =>
    ⟨fun locked => ?_, fun unlocked => ?_⟩⟩
  · obtain rfl | rfl | rfl := row
    · exact exec_replied rfl asked (replyReadFlags_eq.trans (if_pos out))
    · exact exec_replied rfl asked (replyClearFlags_eq.trans (if_pos out))
    · exact exec_replied rfl asked (replySetNoticeMask_eq.trans (if_pos out))
  · exact exec_replied rfl asked (replyReadFlags_eq.trans (if_neg good))
  · exact exec_replied rfl asked (replyClearFlags_eq.trans (if_neg good))
  · exact exec_replied rfl asked (replySetNoticeMask_eq.trans ((if_neg good).trans (if_pos locked)))
  · have writable : ¬p.req.lock = true := by simp [p, unlocked]
    exact exec_replied rfl asked (replySetNoticeMask_eq.trans ((if_neg good).trans (if_neg writable)))

/-- Settles O37: the bytes of the identity record. -/
theorem readIdentity : Obligations.ReadIdentity := fun _ _ _ asked => exec_replied rfl asked rfl

end Sys2Proof.Machine
end

section
/-! PROOFS. Writes to the site record and to the throttle profile (R57, R80, R137, R172, R173). -/

namespace Sys2Proof.Machine

/-! ## The ranges of fields, and the records that images give -/

theorem byteAt_lt (p : List Byte) (i : Nat) : byteAt p i < 256 := (p.getD i 0).isLt

/-- R173. -/
theorem firstBad_siteChecks (p : List Byte) :
    firstBad 1 (siteChecks p) =
      if byteAt p 0 < 8 ∨ 48 < byteAt p 0 then some 1
      else if byteAt p 1 < 3 ∨ 62 < byteAt p 1 then some 2
      else if byteAt p 2 < 3 ∨ 62 < byteAt p 2 then some 3
      else if wordAt p 3 < 5 ∨ 300 < wordAt p 3 then some 4
      else if byteAt p 5 < 3 ∨ 62 < byteAt p 5 then some 5
      else if wordAt p 6 < 100 ∨ 5000 < wordAt p 6 then some 6
      else if byteAt p 8 < 1 ∨ 15 < byteAt p 8 then some 7
      else if byteAt p 9 < 1 ∨ 4 < byteAt p 9 then some 8
      else if byteAt p 10 < 1 ∨ 3 < byteAt p 10 then some 9
      else if wordAt p 11 < 10 ∨ 600 < wordAt p 11 then some 10
      else if wordAt p 13 < 200 ∨ 5000 < wordAt p 13 then some 11
      else if 1 < byteAt p 15 then some 12
      else none := by
  simp only [siteChecks, firstBad_cons, isStation_eq_false_iff, inRange_eq_false_iff, isYesNo_eq_false_iff]
  rfl

/-- A field of one byte from 1 on has no upper bound of its own. -/
theorem inRange_byte_eq_false_iff (p : List Byte) (i : Nat) : inRange 1 255 (byteAt p i) = false ↔ byteAt p i < 1 := by
  have := byteAt_lt p i
  rw [inRange_eq_false_iff]
  omega

/-- R137. -/
theorem firstBad_throttleChecks (p : List Byte) :
    firstBad 1 (throttleChecks p) =
      if 4 < byteAt p 0 then some 1
      else if byteAt p 1 < 1 then some 2
      else if wordAt p 2 < 1 ∨ 4095 < wordAt p 2 then some 3
      else if byteAt p 4 < 1 ∨ 63 < byteAt p 4 then some 4
      else if byteAt p 5 < 1 then some 5
      else if 15 < byteAt p 6 then some 6
      else if byteAt p 7 < 1 then some 7
      else none := by
  simp only [throttleChecks, firstBad_cons, inRange_byte_eq_false_iff]
  simp only [inRange_eq_false_iff, decide_eq_false_iff_not, not_le]
  rfl

theorem ThrottleMode.code_ofCode {n : Nat} (h : n ≤ 4) : (ThrottleMode.ofCode n).code.toNat = n := by
  obtain rfl | rfl | rfl | rfl | rfl : n = 0 ∨ n = 1 ∨ n = 2 ∨ n = 3 ∨ n = 4 := by omega
  all_goals rfl

/-! ## What a write to the site record does (R11, R57, R80, R173) -/

/-- R80: the tote is UNSEEN with a miss count at or above a lost limit that is lowered from `old` to `new`. -/
abbrev Tote.LostAt (old new : Nat) (t : Tote) : Prop :=
  new < old ∧ ∃ n, t.sighting = some (.unseen n) ∧ new ≤ n

theorem Tote.unseenAt_iff (limit : Nat) (t : Tote) :
    t.unseenAt limit = true ↔ ∃ n, t.sighting = some (.unseen n) ∧ limit ≤ n := by
  unfold Tote.unseenAt
  split <;> simp_all

/-- R80: a record after the lost limit has gone from `old` to `new`. -/
def Tote.underLimit (old new : Nat) (t : Tote) : Tote := if new < old then t.lose new else t

theorem Tote.underLimit_lost {old new : Nat} {t : Tote} (lost : t.LostAt old new) :
    t.underLimit old new = { t with sighting := some .lost, deadline := none } := by
  obtain ⟨lowered, unseen⟩ := lost
  exact (if_pos lowered).trans (if_pos ((t.unseenAt_iff new).2 unseen))

theorem Tote.underLimit_kept {old new : Nat} {t : Tote} (kept : ¬t.LostAt old new) : t.underLimit old new = t := by
  unfold Tote.underLimit
  split_ifs with lowered
  · exact if_neg fun unseen => kept ⟨lowered, (t.unseenAt_iff new).1 unseen⟩
  · rfl

theorem State.any_unseenAt_iff (s : State) (limit : Nat) :
    s.totes.any (fun q => q.2.unseenAt limit) = true ↔
      ∃ q ∈ s.totes, ∃ n, q.2.sighting = some (.unseen n) ∧ limit ≤ n := by
  simp only [List.any_eq_true, Tote.unseenAt_iff]

section
variable {s : State} {old new : Nat}

theorem State.lowerLostLimit_totes :
    (s.lowerLostLimit old new).totes = s.totes.map (fun q => (q.1, q.2.underLimit old new)) := by
  unfold State.lowerLostLimit Tote.underLimit
  split_ifs
  · exact State.raiseIf_totes _ _ _
  · exact (List.map_id s.totes).symm

/-- R80: TOTE-LOST is raised where a tote becomes LOST. -/
theorem State.lowerLostLimit_req_lost (lost : ∃ q ∈ s.totes, q.2.LostAt old new) :
    (s.lowerLostLimit old new).req = { s.req with flags := s.req.flags ||| Flag.toteLost.only } := by
  obtain ⟨q, m, lowered, unseen⟩ := lost
  unfold State.lowerLostLimit
  rw [if_pos lowered, (s.any_unseenAt_iff new).2 ⟨q, m, unseen⟩]
  rfl

theorem State.lowerLostLimit_req_kept (kept : ∀ q ∈ s.totes, ¬q.2.LostAt old new) :
    (s.lowerLostLimit old new).req = s.req := by
  unfold State.lowerLostLimit
  split_ifs with lowered
  · have none_ : ¬s.totes.any (fun q => q.2.unseenAt new) = true := fun some_ => by
      obtain ⟨q, m, unseen⟩ := (s.any_unseenAt_iff new).1 some_
      exact kept q m ⟨lowered, unseen⟩
    rw [State.raiseIf, if_neg none_]
    rfl
  · rfl

/-- R80: a change of the lost limit touches the records and the flags alone. -/
theorem State.lowerLostLimit_rest :
    s.lowerLostLimit old new =
      { s with totes := (s.lowerLostLimit old new).totes, req := (s.lowerLostLimit old new).req } := by
  unfold State.lowerLostLimit State.raiseIf
  split_ifs <;> rfl

end

/-- R11, R173: the site record has become e, and the lap counts are cut to its limit. -/
def State.withSite (s : State) (e : SiteRecord) : State :=
  { s with
    cfg := { s.cfg with site := e }
    totes := s.totes.map (fun q => (q.1, { q.2 with laps := min e.lapLimit q.2.laps })) }

/-- A lap count says nothing of a tote's sighting. -/
theorem State.exists_lostAt_withSite_iff (s : State) (e : SiteRecord) (old new : Nat) :
    (∃ q ∈ (s.withSite e).totes, q.2.LostAt old new) ↔ ∃ q ∈ s.totes, q.2.LostAt old new := by
  simp only [State.withSite, List.mem_map, exists_exists_and_eq_and]

theorem State.abandon_abandon {r q : ReaderIx} (ne : r ≠ q) (s : State) :
    (s.abandon r).abandon q =
      { s with readers := setRow (setRow s.readers r (s.reader r).toIdle) q (s.reader q).toIdle } := by
  have other : (s.abandon r).reader q = s.reader q := (s.reader_putReader r q _).trans (if_neg ne)
  show (s.abandon r).putReader q ((s.abandon r).reader q).toIdle = _
  rw [other]
  rfl

/-- R57, R173: a site write, with the readers of its two stations IDLE. -/
theorem State.writeSite_eq (s : State) (e : SiteRecord) :
    let u := (s.withSite e).lowerLostLimit s.cfg.site.lostLimit e.lostLimit
    s.writeSite e =
      { s with
        cfg := { s.cfg with site := e }
        totes := u.totes
        req := u.req
        readers := setRow (setRow s.readers returnHeadReader (s.reader returnHeadReader).toIdle) exitReader
          (s.reader exitReader).toIdle } := by
  intro u
  have rest : u = { s.withSite e with totes := u.totes, req := u.req } := State.lowerLostLimit_rest
  calc s.writeSite e = (u.abandon returnHeadReader).abandon exitReader := rfl
    _ = _ := State.abandon_abandon (by decide) u
    _ = _ := by rw [rest]; rfl

/-- R11, R80: the records after a site write, one by one. -/
theorem State.writeSite_totes (s : State) (e : SiteRecord) :
    (s.writeSite e).totes =
      s.totes.map (fun q =>
        (q.1, Tote.underLimit s.cfg.site.lostLimit e.lostLimit { q.2 with laps := min e.lapLimit q.2.laps })) := by
  rw [State.writeSite_eq]
  exact State.lowerLostLimit_totes.trans List.map_map

theorem State.writeSite_req_lost {s : State} {e : SiteRecord}
    (lost : ∃ q ∈ s.totes, q.2.LostAt s.cfg.site.lostLimit e.lostLimit) :
    (s.writeSite e).req = { s.req with flags := s.req.flags ||| Flag.toteLost.only } := by
  rw [State.writeSite_eq]
  exact State.lowerLostLimit_req_lost ((s.exists_lostAt_withSite_iff e _ _).2 lost)

theorem State.writeSite_req_kept {s : State} {e : SiteRecord}
    (kept : ∀ q ∈ s.totes, ¬q.2.LostAt s.cfg.site.lostLimit e.lostLimit) : (s.writeSite e).req = s.req := by
  rw [State.writeSite_eq]
  refine State.lowerLostLimit_req_kept fun q m lost => ?_
  obtain ⟨p, n, lost⟩ := (s.exists_lostAt_withSite_iff e _ _).1 ⟨q, m, lost⟩
  exact kept p n lost

/-- R57: the readers after a site write. -/
theorem State.reader_writeSite (s : State) (e : SiteRecord) (q : ReaderIx) :
    (s.writeSite e).reader q =
      if q = returnHeadReader ∨ q = exitReader then (s.reader q).toIdle else s.reader q := by
  rw [State.writeSite_eq]
  show row (setRow (setRow _ _ _) _ _) q = _
  by_cases exit : q = exitReader
  · rw [exit, row_setRow_same, if_pos (.inr rfl)]
  · rw [row_setRow_ne _ _ _ _ (Ne.symm exit)]
    by_cases head : q = returnHeadReader
    · rw [head, row_setRow_same, if_pos (.inl rfl)]
    · rw [row_setRow_ne _ _ _ _ (Ne.symm head), if_neg (not_or.2 ⟨head, exit⟩)]
      rfl

/-! ## The site record -/

/-- R173 check 1. -/
abbrev SiteRecord.Moves (d e : SiteRecord) : Prop :=
  d.willcallStation ≠ e.willcallStation ∨ d.returnStation ≠ e.returnStation ∨ d.mergeStation ≠ e.mergeStation

theorem SiteRecord.movesSite_iff (d e : SiteRecord) : d.movesSite e = true ↔ d.Moves e := by
  simp only [SiteRecord.movesSite, SiteRecord.Moves, Bool.or_eq_true, bne_iff_ne, or_assoc]

theorem replyWriteSite_zero {r : Request} (i : r.index = 0) (s : State) :
    replyWriteSite r s =
      entryChecks s true (siteChecks r.image) s.req.lock
        (if s.trackRuns = true ∧ s.cfg.site.Moves (siteOfImage r.image) then ⟨s, .state, []⟩
         else if (siteOfImage r.image).willcallCapacity < s.willcallCount then ⟨s, .busy, []⟩
         else ⟨s.writeSite (siteOfImage r.image), .ok, []⟩) := by
  unfold replyWriteSite
  rw [i]
  simp only [Bool.and_eq_true, SiteRecord.movesSite_iff]
  rfl

theorem replyWriteSite_outside {r : Request} (i : r.index ≠ 0) (s : State) : replyWriteSite r s = ⟨s, .range, []⟩ := by
  unfold replyWriteSite
  rw [beq_eq_false_iff_ne.2 i]
  exact entryChecks_outside _ _ _ _

/-! ## The throttle profile (R137) -/

/-- R137: the profile has become e. -/
abbrev State.withThrottle (s : State) (e : ThrottleProfile) : State := { s with cfg := { s.cfg with throttle := e } }

section
variable {s : State} {e : ThrottleProfile}

theorem State.writeThrottle_normal (normal : s.throttle.throttled = false) : s.writeThrottle e = s.withThrottle e :=
  if_neg (by simp [normal])

theorem State.writeThrottle_ends (throttled : s.throttle.throttled = true) (ends : e.mode = .none ∨ e.mode = .monitor) :
    s.writeThrottle e =
      { s.withThrottle e with
        throttle := ⟨false, 0, none, 0, s.throttle.samplingTimer, s.throttle.samplingCount⟩ } :=
  (if_pos throttled).trans (if_pos ends)

theorem State.writeThrottle_keeps (throttled : s.throttle.throttled = true)
    (acts : ¬(e.mode = .none ∨ e.mode = .monitor)) :
    s.writeThrottle e =
      { s.withThrottle e with
        throttle := ⟨true, min s.throttle.windowsLeft e.duration, some (s.now + e.monitorWindow * 10000), 0,
          s.throttle.samplingTimer, s.throttle.samplingCount⟩ } := by
  rw [← throttled]
  exact (if_pos throttled).trans (if_neg acts)

end

theorem replyWriteThrottle_zero {r : Request} (i : r.index = 0) (s : State) :
    replyWriteThrottle r s =
      entryChecks s true (throttleChecks r.image) s.req.lock
        ⟨settle s (s.writeThrottle (throttleOfImage r.image)), .ok, []⟩ := by
  unfold replyWriteThrottle
  rw [i]
  rfl

theorem replyWriteThrottle_outside {r : Request} (i : r.index ≠ 0) (s : State) :
    replyWriteThrottle r s = ⟨s, .range, []⟩ := by
  unfold replyWriteThrottle
  rw [beq_eq_false_iff_ne.2 i]
  exact entryChecks_outside _ _ _ _

theorem exec_writeThrottle_done {s v : State} {r : Request} {rest : List Request}
    (h : AskedWell s .writeEntryThrottle r rest) (i : r.index = 0) (good : firstBad 1 (throttleChecks r.image) = none)
    (unlocked : s.req.lock = false) (written : (s.popRequest rest).writeThrottle (throttleOfImage r.image) = v) :
    exec .writeEntryThrottle s = answered s r (settle (s.popRequest rest) v) .ok [] :=
  exec_entry_own rfl h (replyWriteThrottle_zero i (s.popRequest rest)) good unlocked
    (congrArg (fun v => Reply.mk (settle (s.popRequest rest) v) .ok []) written)

/-! ## The obligation -/

/-- Settles O41: the ranges and the records of the two images, and each write by its checks and by what it leaves. -/
theorem siteAndThrottleWrites : Obligations.SiteAndThrottleWrites := by
  refine ⟨fun p => ?_, fun s r rest h => ?_, fun s r rest h => ?_⟩
  · exact ⟨firstBad_siteChecks p, rfl, firstBad_throttleChecks p, ThrottleMode.code_ofCode, rfl, rfl, rfl, rfl, rfl,
      rfl⟩
  · intro p e d moves lost idle
    refine ⟨fun i => exec_replied rfl h (replyWriteSite_outside i p), fun i => ?_⟩
    have reply := replyWriteSite_zero i p
    refine ⟨fun n => exec_entry_range rfl h reply, fun good => ⟨exec_entry_locked rfl h reply good,
      fun unlocked runs moved => exec_entry_own rfl h reply good unlocked (if_pos ⟨runs, moved⟩),
      fun unlocked stays => ?_⟩⟩
    have passed := State.not_trackRuns_and stays
    refine ⟨fun small => exec_entry_own rfl h reply good unlocked ((if_neg passed).trans (if_pos small)),
      fun fits => ?_⟩
    have event := exec_entry_own rfl h reply good unlocked ((if_neg passed).trans (if_neg (not_lt.2 fits)))
    have totes := p.writeSite_totes e
    refine ⟨p.writeSite e, event, ?_, ?_, fun j hj hu => ?_, State.writeSite_req_lost (s := p),
      State.writeSite_req_kept (s := p), ?_, ?_, fun q head exit => ?_, ?_⟩
    · rw [State.writeSite_eq]; rfl
    · rw [totes]; exact List.length_map _
    · have at_ : (p.writeSite e).totes[j] = _ := (List.getElem_of_eq totes hu).trans (List.getElem_map _)
      rw [at_]
      exact ⟨rfl, fun gone => Tote.underLimit_lost gone, fun stays => Tote.underLimit_kept stays⟩
    · exact (p.reader_writeSite e returnHeadReader).trans (if_pos (.inl rfl))
    · exact (p.reader_writeSite e exitReader).trans (if_pos (.inr rfl))
    · exact (p.reader_writeSite e q).trans (if_neg (not_or.2 ⟨head, exit⟩))
    · rw [State.writeSite_eq]
      exact ⟨rfl, rfl, rfl, rfl, rfl, rfl, rfl, rfl, rfl, rfl⟩
  · intro p e q
    refine ⟨fun i => exec_replied rfl h (replyWriteThrottle_outside i p), fun i => ?_⟩
    have reply := replyWriteThrottle_zero i p
    refine ⟨fun n => exec_entry_range rfl h reply, fun good => ⟨exec_entry_locked rfl h reply good,
      fun unlocked => ⟨fun normal => ?_, fun throttled ends => ?_, fun throttled some_ acts => ?_⟩⟩⟩
    · exact exec_writeThrottle_done h i good unlocked (State.writeThrottle_normal (s := p) normal)
    · exact exec_writeThrottle_done h i good unlocked (State.writeThrottle_ends (s := p) throttled ends)
    · exact exec_writeThrottle_done h i good unlocked
        (State.writeThrottle_keeps (s := p) throttled (not_or.2 ⟨some_, acts⟩))

end Sys2Proof.Machine
end

section
/-! PROOFS. The warm start (R178, R182): the frames it hands over, the place of each, and all that it leaves. -/

namespace Sys2Proof.Machine

/-! ## The frames that are handed over (R109, R156, R182) -/

/-- R109: LAMP OFF and an empty DISPLAY for lane l. -/
abbrev State.blankContent (s : State) (l : LaneIx) : List Frame :=
  [lampFrame (s.laneCfg l).station .off, displayFrame (s.laneCfg l).station []]

/-- The routine frames of a warm start: the NOTICE of its start flag where that is enabled, and those of the present
lanes. -/
def State.startFrames (s : State) (f : Flag) : List Frame :=
  (if f.isIn s.req.mask = true then [noticeFrame f.only] else []) ++
    (allLanes.filter s.lanePresent).flatMap s.blankContent

theorem State.startNotice_eq (s : State) (f : Flag) :
    s.startNotice f = s.handAll (if f.isIn s.req.mask = true then [noticeFrame f.only] else []) := by
  unfold State.startNotice
  split_ifs
  · rfl
  · exact s.handAll_nil.symm

/-- R109: each present lane hands its own frames over. -/
theorem foldl_resetCounter (s : State) (ls : List LaneIx) (fs : List Frame) :
    ls.foldl State.resetCounter (s.handAll fs) =
      s.handAll (fs ++ (ls.filter s.lanePresent).flatMap s.blankContent) := by
  induction ls generalizing fs with
  | nil => simp
  | cons l ls ih =>
    rw [List.foldl_cons]
    by_cases present : s.lanePresent l = true
    · have handed : (s.handAll fs).resetCounter l = s.handAll (fs ++ s.blankContent l) := by
        unfold State.resetCounter
        rw [if_pos (show (s.handAll fs).lanePresent l = true from present), ← State.handAll_handAll]
        simp [State.hand, State.handAll, State.laneCfg]
      rw [handed, ih, List.filter_cons_of_pos present, List.flatMap_cons, List.append_assoc]
    · have still : (s.handAll fs).resetCounter l = s.handAll fs := if_neg present
      rw [still, ih, List.filter_cons_of_neg present]

theorem State.warmStart_places (s : State) (f : Flag) :
    s.warmStart f = (driveFrame s.cfg.drive.station false :: s.startFrames f).foldl State.place (s.warmBase f) := by
  have handed : allLanes.foldl State.resetCounter
      (((s.warmBase f).hand (driveFrame s.cfg.drive.station false)).startNotice f) =
      (s.warmBase f).handAll (driveFrame s.cfg.drive.station false :: s.startFrames f) := by
    rw [State.startNotice_eq, foldl_resetCounter]
    rfl
  exact congrArg State.placeAll handed

theorem State.mem_startFrames_iff {s : State} {f : Flag} {g : Frame} :
    g ∈ s.startFrames f ↔
      (g = noticeFrame f.only ∧ f.isIn s.req.mask = true) ∨
      ∃ l, s.lanePresent l = true ∧
        (g = lampFrame (s.laneCfg l).station .off ∨ g = displayFrame (s.laneCfg l).station []) := by
  have notice : g ∈ (if f.isIn s.req.mask = true then [noticeFrame f.only] else []) ↔
      g = noticeFrame f.only ∧ f.isIn s.req.mask = true := by
    split_ifs with enabled <;> simp [enabled]
  rw [State.startFrames, List.mem_append, notice]
  simp [allLanes_mem]

/-- At most one NOTICE and two frames for each lane: the routine queue has room for all. -/
theorem State.length_startFrames_le (s : State) (f : Flag) : (s.startFrames f).length ≤ 25 := by
  have notice : (if f.isIn s.req.mask = true then [noticeFrame f.only] else []).length ≤ 1 := by
    split_ifs <;> simp
  have lanes : (allLanes.filter s.lanePresent).length ≤ 12 := List.length_filter_le _ _
  have two : ((allLanes.filter s.lanePresent).flatMap s.blankContent).length =
      2 * (allLanes.filter s.lanePresent).length := by
    simp [List.length_flatMap, Nat.mul_comm]
  rw [State.startFrames, List.length_append, two]
  omega

/-! ## Their places in the routine queue (R163) -/

/-- A frame joins the tail of a queue that does not hold it. -/
def joinLast (q : List Frame) (f : Frame) : List Frame := if f ∈ q then q else q ++ [f]

theorem mem_joinLast_iff {q : List Frame} {f g : Frame} : g ∈ joinLast q f ↔ g ∈ q ∨ g = f := by
  unfold joinLast
  split_ifs with held
  · exact ⟨.inl, fun h => h.elim id (· ▸ held)⟩
  · simp

theorem length_joinLast_le (q : List Frame) (f : Frame) : (joinLast q f).length ≤ q.length + 1 := by
  unfold joinLast
  split_ifs <;> simp

theorem mem_foldl_joinLast_iff {q fs : List Frame} {g : Frame} : g ∈ fs.foldl joinLast q ↔ g ∈ q ∨ g ∈ fs := by
  induction fs generalizing q with
  | nil => simp
  | cons f fs ih => rw [List.foldl_cons, ih, mem_joinLast_iff, List.mem_cons, or_assoc]

theorem head?_foldl_joinLast (f : Frame) (q fs : List Frame) : (fs.foldl joinLast (f :: q)).head? = some f := by
  induction fs generalizing q with
  | nil => rfl
  | cons g fs ih =>
    rw [List.foldl_cons]
    unfold joinLast
    split_ifs
    · exact ih q
    · exact ih (q ++ [g])

/-- A routine frame of a warm start: its kind and its station say all of it. -/
def IsStartFrame (f : Flag) (g : Frame) : Prop :=
  (g.kind = Kind.lamp ∨ g.kind = Kind.display ∨ g.kind = Kind.notice) ∧
    g = ⟨g.dest, 0x01#8, g.kind, 0x00#8, if g.kind = Kind.notice then maskBytes f.only else [0x00#8]⟩

theorem State.isStartFrame {s : State} {f : Flag} {g : Frame} (m : g ∈ s.startFrames f) : IsStartFrame f g := by
  obtain ⟨rfl, -⟩ | ⟨l, -, rfl | rfl⟩ := State.mem_startFrames_iff.1 m
  · exact ⟨.inr (.inr rfl), rfl⟩
  · exact ⟨.inl rfl, rfl⟩
  · exact ⟨.inr (.inl rfl), rfl⟩

theorem IsStartFrame.eq_of_sameContent {f : Flag} {g h : Frame} (a : IsStartFrame f g) (b : IsStartFrame f h)
    (same : SameContent g h) : h = g := by
  obtain ⟨kind, dest, -⟩ := same
  rw [a.2, b.2, kind, dest]

theorem IsStartFrame.not_urgent {f : Flag} {g : Frame} (a : IsStartFrame f g) : ¬isUrgent g.kind = true := by
  obtain ⟨kind | kind | kind, -⟩ := a <;> rw [kind] <;> decide

/-- A frame that takes the place of its like leaves the queue as it is. -/
theorem replaceIn_alike {f : Frame} {q : List Frame} (alike : ∀ g ∈ q, SameContent f g → g = f) :
    replaceIn f q = q := by
  induction q with
  | nil => rfl
  | cons g q ih =>
    unfold replaceIn
    split_ifs with same
    · rw [alike g List.mem_cons_self ((coalesces_iff f g).1 same)]
    · rw [ih fun h m => alike h (List.mem_cons_of_mem g m)]

theorem State.placeRoutine_joins {s : State} {g : Frame}
    (content : g.kind = Kind.lamp ∨ g.kind = Kind.display ∨ g.kind = Kind.notice)
    (alike : ∀ h ∈ s.ring.routine, SameContent g h → h = g) (room : s.ring.routine.length < 32) :
    s.placeRoutine g = { s with ring := { s.ring with routine := joinLast s.ring.routine g } } := by
  unfold joinLast
  split_ifs with held
  · have found : s.ring.routine.any (coalesces g) = true :=
      List.any_eq_true.2 ⟨g, held, (coalesces_iff g g).2 ⟨rfl, rfl, content⟩⟩
    rw [State.placeRoutine, if_pos found, replaceIn_alike alike]
  · rw [State.placeRoutine_new fun h m same => held (alike h m same ▸ m), if_pos room]

/-- While RING OUT is in use the routine frames of a warm start wait, each once. -/
theorem foldl_place_startFrames {f : Flag} {fs : List Frame} {s : State} (busy : s.ring.Busy)
    (start : ∀ g ∈ s.ring.routine ++ fs, IsStartFrame f g) (room : s.ring.routine.length + fs.length ≤ 32) :
    fs.foldl State.place s = { s with ring := { s.ring with routine := fs.foldl joinLast s.ring.routine } } := by
  induction fs generalizing s with
  | nil => rfl
  | cons g fs ih =>
    rw [List.length_cons] at room
    have own : IsStartFrame f g := start g (by simp)
    have src : g.src = 0x01#8 := by rw [own.2]
    have alike : ∀ h ∈ s.ring.routine, SameContent g h → h = g := fun h m =>
      own.eq_of_sameContent (start h (List.mem_append_left _ m))
    have joined := State.placeRoutine_joins own.1 alike (by omega)
    have placed := (State.place_joined (State.place_own_routine src own.not_urgent) joined ⟨rfl, rfl⟩).1 busy
    have length := length_joinLast_le s.ring.routine g
    rw [List.foldl_cons, placed, List.foldl_cons, ih]
    · exact busy
    · intro h m
      rw [List.mem_append, mem_joinLast_iff] at m
      exact start h (by simpa [or_assoc] using m)
    · show (joinLast s.ring.routine g).length + fs.length ≤ 32
      omega

/-! ## DRIVE HALT (R156, R164, log entry 44) -/

theorem RingPort.gapLeft_none {p : RingPort} {now : Time} (past : ∀ e, p.ends = some e → e ≤ now) :
    p.gapLeft now = none := by
  unfold RingPort.gapLeft
  split
  next e ends => exact if_neg (not_lt.2 (past e ends))
  next => rfl

theorem RingPort.gapLeft_some {p : RingPort} {now e : Time} (ends : p.ends = some e) (ahead : now < e) :
    p.gapLeft now = some (min e (now + 2)) := by
  unfold RingPort.gapLeft
  rw [ends]
  exact if_pos ahead

/-- R164: RING OUT is free, and DRIVE HALT begins transmission. -/
theorem State.warmBase_place_free {s : State} (free : s.ring.gapLeft s.now = none) (f : Flag) (a : Nat) :
    (s.warmBase f).place (driveFrame a false) =
      { s.warmBase f with
        ring := { (s.warmBase f).ring with transmission := some ⟨driveFrame a false, s.now + 10⟩ } } := by
  have idle : (s.warmBase f).Idle := ⟨fun busy => busy.elim (· rfl) (· free), rfl, rfl, rfl⟩
  have begins := State.place_urgent_idle (f := driveFrame a false) idle rfl rfl
  exact begins.1 (.inl (by simp [driveFrame, ownFrame, Kind.drive, Kind.scan]))

/-- R167: a gap is owed, and DRIVE HALT waits. -/
theorem State.warmBase_place_gap {s : State} {e : Time} (gap : s.ring.gapLeft s.now = some e) (f : Flag) (a : Nat) :
    (s.warmBase f).place (driveFrame a false) =
      { s.warmBase f with ring := { (s.warmBase f).ring with urgent := [driveFrame a false] } } := by
  have owed : (s.warmBase f).ring.gap = some e := gap
  have busy : (s.warmBase f).ring.Busy := .inr (owed ▸ Option.some_ne_none e)
  have room : (s.warmBase f).placeUrgent (driveFrame a false) =
      { s.warmBase f with ring := { (s.warmBase f).ring with urgent := [driveFrame a false] } } := rfl
  exact (State.place_joined (State.place_own_urgent rfl rfl) room ⟨rfl, rfl⟩).1 busy

/-! ## What a warm start leaves -/

/-- The routine queue after a warm start. -/
def State.startQueue (s : State) (f : Flag) : List Frame := (s.startFrames f).foldl joinLast []

theorem State.mem_startQueue_iff {s : State} {f : Flag} {g : Frame} : g ∈ s.startQueue f ↔ g ∈ s.startFrames f := by
  simp [State.startQueue, mem_foldl_joinLast_iff]

theorem State.head?_startQueue {s : State} {f : Flag} (enabled : f.isIn s.req.mask = true) :
    (s.startQueue f).head? = some (noticeFrame f.only) := by
  rw [State.startQueue, State.startFrames, if_pos enabled]
  exact head?_foldl_joinLast _ [] _

/-- R167: the state after a warm start, with the urgent queue and the transmission that RING OUT left room for. -/
def State.warmed (s : State) (f : Flag) (urgent : List Frame) (transmission : Option Transmission) : State :=
  { s.warmBase f with
    ring := { (s.warmBase f).ring with
      urgent := urgent, transmission := transmission, routine := s.startQueue f } }

theorem State.warmStart_of_place {s : State} {f : Flag} {urgent : List Frame} {transmission : Option Transmission}
    (placed : (s.warmBase f).place (driveFrame s.cfg.drive.station false) =
      { s.warmBase f with
        ring := { (s.warmBase f).ring with urgent := urgent, transmission := transmission } })
    (busy : transmission ≠ none ∨ s.ring.gapLeft s.now ≠ none) :
    s.warmStart f = s.warmed f urgent transmission := by
  have room := s.length_startFrames_le f
  rw [State.warmStart_places, List.foldl_cons, placed, foldl_place_startFrames (f := f) busy]
  · rfl
  · exact fun g m => State.isStartFrame m
  · show 0 + (s.startFrames f).length ≤ 32
    omega

theorem State.warmStart_free {s : State} (free : s.ring.gapLeft s.now = none) (f : Flag) :
    s.warmStart f = s.warmed f [] (some ⟨driveFrame s.cfg.drive.station false, s.now + 10⟩) :=
  State.warmStart_of_place (State.warmBase_place_free free f _) (.inl (Option.some_ne_none _))

theorem State.warmStart_gap {s : State} {e : Time} (gap : s.ring.gapLeft s.now = some e) (f : Flag) :
    s.warmStart f = s.warmed f [driveFrame s.cfg.drive.station false] none :=
  State.warmStart_of_place (State.warmBase_place_gap gap f _) (.inr (gap ▸ Option.some_ne_none e))

/-- Whatever RING OUT held, a warm start is one of its two ends. -/
theorem State.warmStart_eq (s : State) (f : Flag) :
    ∃ urgent transmission, s.warmStart f = s.warmed f urgent transmission := by
  cases gap : s.ring.gapLeft s.now with
  | none => exact ⟨_, _, State.warmStart_free gap f⟩
  | some e => exact ⟨_, _, State.warmStart_gap gap f⟩

theorem exec_warmStart {s : State} {c : Instr} {f : Flag}
    (h : (c = .resetLinePulse ∧ f = .startLine) ∨
      (c = .controlRestart ∧ f = .startRequest ∧ ∃ r rest, AskedWell s .controlRestart r rest)) :
    exec c s = .next (s.warmStart f) := by
  obtain ⟨rfl, rfl⟩ | ⟨rfl, rfl, r, rest, asked, good⟩ := h
  · rfl
  · exact (execControlRestart_taken asked).trans (if_neg (by simp [good]))

/-- Settles O6: the frames of a warm start by their places, and all else as the reset writes it. -/
theorem warmStartLeaves : Obligations.WarmStartLeaves := by
  intro s c f ends halt h
  have ends_eq : s.ring.ends = ends := s.ring.ends_eq
  refine ⟨s.warmStart f, exec_warmStart h, ?_⟩
  have free : (∀ e, ends = some e → e ≤ s.now) →
      (s.warmStart f).ring.urgent = [] ∧ (s.warmStart f).ring.gap = none ∧
        (s.warmStart f).ring.transmission = some ⟨halt, s.now + 10⟩ := fun past => by
    have gap := RingPort.gapLeft_none (ends_eq ▸ past)
    rw [State.warmStart_free gap]
    exact ⟨rfl, gap, rfl⟩
  have waits : ∀ e, ends = some e → s.now < e →
      (s.warmStart f).ring.urgent = [halt] ∧ (s.warmStart f).ring.gap = some (min e (s.now + 2)) ∧
        (s.warmStart f).ring.transmission = none := fun e at_ ahead => by
    have gap := RingPort.gapLeft_some (ends_eq.trans at_) ahead
    rw [State.warmStart_gap gap]
    exact ⟨rfl, gap, rfl⟩
  obtain ⟨urgent, transmission, warmed⟩ := s.warmStart_eq f
  rw [warmed] at free waits ⊢
  refine ⟨rfl, rfl, rfl, rfl, rfl, row_replicate _, row_replicate _, row_replicate _, rfl, rfl, rfl, rfl, rfl, rfl, rfl,
    rfl, rfl, ⟨rfl, rfl⟩, rfl, rfl, free, waits, State.head?_startQueue, fun l present => ⟨?_, ?_⟩, fun g m => ?_⟩
  · exact State.mem_startQueue_iff.2 (State.mem_startFrames_iff.2 (.inr ⟨l, present, .inl rfl⟩))
  · exact State.mem_startQueue_iff.2 (State.mem_startFrames_iff.2 (.inr ⟨l, present, .inr rfl⟩))
  · exact State.mem_startFrames_iff.1 (State.mem_startQueue_iff.1 m)

end Sys2Proof.Machine
end

section
/-! PROOFS. The check of a frame (R183): the code register, once the bytes of its own value are shifted in, is 0. -/

namespace Sys2Proof

/-- A bit of 0 at the top leaves the generator out. -/
theorem crcBit_of_msb {r : BitVec 16} (clear : r.msb = false) : crcBit r = r <<< 1 :=
  if_neg (Bool.eq_false_iff.1 clear)

/-- Bits of 0 at the top are shifted out, and nothing else is done. -/
theorem repeat_crcBit {n : Nat} {r : BitVec 16} (small : r.toNat * 2 ^ n < 2 ^ 16) :
    Nat.repeat crcBit n r = r <<< n := by
  induction n with
  | zero => exact (BitVec.shiftLeft_zero r).symm
  | succ n ih =>
    rw [pow_succ, ← mul_assoc] at small
    have fits : r.toNat * 2 ^ n < 2 ^ 16 := by omega
    have shifted : (r <<< n).toNat = r.toNat * 2 ^ n := by
      rw [BitVec.toNat_shiftLeft, Nat.shiftLeft_eq, Nat.mod_eq_of_lt fits]
    have clear : (r <<< n).msb = false := BitVec.msb_eq_false_iff_two_mul_lt.2 (by omega)
    calc Nat.repeat crcBit (n + 1) r = crcBit (r <<< n) := congrArg crcBit (ih fits)
      _ = r <<< n <<< 1 := crcBit_of_msb clear
      _ = r <<< (n + 1) := (BitVec.shiftLeft_add r n 1).symm

/-- Where a byte cancels the register's high byte, the low byte moves up in its place. -/
theorem crcByte_of_xor {r : BitVec 16} {b low : Byte} (cancel : r ^^^ (b.setWidth 16 <<< 8) = low.setWidth 16) :
    crcByte r b = low.setWidth 16 <<< 8 := by
  rw [crcByte, cancel]
  refine repeat_crcBit ?_
  rw [BitVec.toNat_setWidth_of_le (by decide)]
  omega

/-- A 16-bit value without its high byte is its low byte. -/
theorem xor_highByte (r : BitVec 16) :
    r ^^^ ((r.extractLsb' 8 8).setWidth 16 <<< 8) = (r.extractLsb' 0 8).setWidth 16 := by
  ext i hi
  by_cases low : i < 8
  · simp [low, BitVec.getLsbD_eq_getElem hi]
  · simp [low, show i - 8 < 8 by omega, show 8 + (i - 8) = i by omega, BitVec.getLsbD_eq_getElem hi]

/-- R183: the register of value `r` is 0 after the bytes of `r`. -/
theorem crcFrom_bytes16 (r : BitVec 16) : crcFrom r (bytes16 r) = 0x0000#16 := by
  have high : crcByte r (r.extractLsb' 8 8) = (r.extractLsb' 0 8).setWidth 16 <<< 8 :=
    crcByte_of_xor (xor_highByte r)
  calc crcFrom r (bytes16 r)
      = crcByte (crcByte r (r.extractLsb' 8 8)) (r.extractLsb' 0 8) := rfl
    _ = crcByte ((r.extractLsb' 0 8).setWidth 16 <<< 8) (r.extractLsb' 0 8) := by rw [high]
    _ = (0x00#8).setWidth 16 <<< 8 := crcByte_of_xor BitVec.xor_self

theorem crc_append (front back : List Byte) : crc (front ++ back) = crcFrom (crc front) back :=
  List.foldl_append

/-- Settles O7: the reference value by running the code, and the zero by the check's own two bytes. -/
theorem checkValues : Obligations.CheckValues := by
  refine ⟨rfl, by decide +kernel, fun f => ?_⟩
  calc crc f.bytes = crcFrom f.check (bytes16 f.check) := crc_append f.body (bytes16 f.check)
    _ = 0x0000#16 := crcFrom_bytes16 f.check

end Sys2Proof
end

section
/-! PROOFS. The step on a queue that is not empty: the command at its front is taken off and run. -/

namespace Sys2Proof.Machine

/-- Settles O1: the queue's front decides the branch of the step, with no condition on the rest of the state. -/
theorem frontCommandRuns : Obligations.FrontCommandRuns := by
  intro c rest s front
  rw [step, front]

end Sys2Proof.Machine
end
